-- ==== Sys2Proof/Word.lean ====
section
/-!
DEFINITION. Words and the plainest arithmetic on them: the sizes of spec/00_scope.md (R4, R6) and nothing that a test
of the model could show wrong. Everything with a rule of its own stands in Decode.lean or under Machine/.
-/
namespace Sys2Proof

/-- A byte of memory. -/
abbrev Byte := BitVec 8
/-- The contents of one vector or uniform register (R6). -/
abbrev Word := BitVec 32
/-- A 64-bit word: an instruction word, an address, a register pair. -/
abbrev DWord := BitVec 64
/-- The contents of a capability register or of a register quad (R6, R151). -/
abbrev QWord := BitVec 128

end Sys2Proof
end

