-- ==== Sys2Proof/Syntax.lean ====
section
/-!
DEFINITION. The syntax of the steps: the six forms of an instruction word (spec/02_instruction_word.md, R21 to R28,
R38) and one constructor of `Instr` for every row of spec/opcode_table.json. An instruction row carries the operands of
its form; an event row (a step of the scheduler, an engine, a home, the fabric, firmware, a host or the power logic)
carries what the step acts on, and what reaches the package from outside with it.
-/
namespace Sys2Proof

/-- A source of form F: a vector register, or the bypass latch b1 to b3 (R23). -/
inductive VSrc where
  | reg (r : BitVec 8)
  | latch (k : BitVec 2)
deriving DecidableEq, Repr

/-- Bits 30:13 of form F: the sources b and c, or with I = 1 an 18-bit immediate (R22, R24). -/
inductive FSrc where
  | regs (b c : VSrc)
  | imm (k : BitVec 18)
deriving DecidableEq, Repr

/-- The guard fields G and GN (R36, R37). -/
structure Guard where
  p   : BitVec 3
  neg : Bool
deriving DecidableEq, Repr

/-- Form F (Table 2.2). `e` is the run-end bit of the header. -/
structure FOps where
  e   : Bool
  d   : BitVec 8
  w   : Bool
  l   : BitVec 2
  a   : VSrc
  bc  : FSrc
  g   : Guard
  mod : BitVec 8
deriving DecidableEq, Repr

/-- Form FL of `vmovi` (R25). -/
structure VMovi where
  e   : Bool
  d   : BitVec 8
  imm : Word
deriving DecidableEq, Repr

/-- Form FL of `smovi` (R25). -/
structure SMovi where
  e   : Bool
  d   : BitVec 10
  imm : Word
deriving DecidableEq, Repr

/-- Bits 30:9 of form U: the sources b and c, or with I = 1 a 22-bit immediate (R26). -/
inductive USrc where
  | regs (b c : BitVec 10)
  | imm (k : BitVec 22)
deriving DecidableEq, Repr

/-- Form U (Table 2.3). -/
structure UOps where
  e   : Bool
  d   : BitVec 10
  a   : BitVec 10
  bc  : USrc
  mod : BitVec 8
deriving DecidableEq, Repr

/-- Form M (Table 2.4). -/
structure MOps where
  e    : Bool
  data : BitVec 8
  cap  : BitVec 5
  ofs  : BitVec 8
  pr   : Bool
  sh   : BitVec 3
  disp : BitVec 13
  g    : Guard
  mod  : BitVec 9
deriving DecidableEq, Repr

/-- Form X, the matrix-stream form (R28). Its run-end bit must be 0 (R21). -/
structure XOps where
  td  : BitVec 7
  ta  : BitVec 7
  tb  : BitVec 7
  mr  : BitVec 6
  imm : BitVec 15
  mod : BitVec 9
deriving DecidableEq, Repr

/-- The long immediate of `mmovi` (Table 13.4). -/
structure MMovi where
  td  : BitVec 7
  imm : Word
  mod : BitVec 9
deriving DecidableEq, Repr

/-- One slot of a paired word (Table 2.6). -/
structure PSlot where
  sop : BitVec 8
  d   : BitVec 7
  a   : BitVec 7
  la  : Bool
  imm : BitVec 7
deriving DecidableEq, Repr

/-- Form P, a paired word (R38). -/
structure Pair where
  e  : Bool
  s0 : PSlot
  s1 : PSlot
deriving DecidableEq, Repr

/-! ### What reaches the package from outside, as arguments of the event rows -/

/-- A shipped request as another member of the blend sends it (R256, R260). -/
structure ForeignRequest where
  /-- the L-core it was sent to -/
  lcore    : Nat
  lock     : DWord
  port     : Nat
  lockCap  : QWord
  entryCap : QWord
  args     : List Word
  argTags  : List Nat
  mode     : Nat
  core     : Nat
  ctx      : Nat
  lane     : Nat
  /-- the sender's own name for the request -/
  token    : Nat
deriving DecidableEq, Repr

/-- Where an accepted bundle comes from (R260): a ship port of this package, another member by the fabric, or, for
requests of this package to a home of another member, that home's answers to the lanes' `shipt` promises. -/
inductive BundleSrc where
  | own (id : Nat)
  | foreign (member : Nat) (reqs : List ForeignRequest)
  | remoteAnswer (id : Nat) (answers : List (Option DWord))
deriving DecidableEq, Repr

/-- Where a section's reply comes from (R268): an L-core of this package, or a home of another member, to the request of a
lane of the word that began operation `op`. -/
inductive ReplySrc where
  | own (id : Nat)
  | foreign (op lane status det : Nat) (results : List Word) (tags : List Nat) (flags : Word)
deriving DecidableEq, Repr

/-- A fabric packet as it arrives from another package (R380, R382). -/
structure ForeignPacket where
  member : Nat
  core   : Nat
  ctx    : Nat
  epoch  : Nat
  path   : Nat
  port   : Nat
  /-- 0 fst, 1 fld, 2 fatom, 3 fflag (the order of opcodes of Table 16.2), 4 the data and flag of an FPUT (R395) -/
  kind   : Nat
  /-- OPK of Table 8.2 for `fatom` -/
  opk    : Nat
  size   : Nat
  sys    : Bool
  /-- the four sent counts of an ordered flag -/
  counts : Option (List Nat)
  /-- (lane, virtual address, operand) in ascending lane order; of an FPUT, one entry for each byte (0), low nibble (1) or
  high nibble (2), and last the flag (3) -/
  lanes  : List (Nat × DWord × QWord)
deriving DecidableEq, Repr

/-- The packet that arrives: one this package sent to itself, or a foreign one. -/
inductive PacketSrc where
  | own (id : Nat)
  | foreign (p : ForeignPacket)
deriving DecidableEq, Repr

/-- What an acknowledgement brings back (R382, R392): of each lane its value and the flags of its step (R189), or the
failure. -/
inductive PacketResult where
  | values (vs : List (Nat × QWord × Word))
  | failed (code : Nat)
deriving DecidableEq, Repr

/-- A member's contribution to a collective as it reaches the leader (R397). -/
structure Contribution where
  blend  : Nat
  seq    : Nat
  member : Nat
  poison : Bool
  cop    : Nat
  rop    : Nat
  fmt    : Nat
  root   : Nat
  ckpt   : DWord
  elems  : List Word
deriving DecidableEq, Repr

/-- The result a member receives from a leader on another package (R397, R400). -/
structure CollResult where
  blend  : Nat
  seq    : Nat
  cop    : Nat
  fmt    : Nat
  status : Nat
  gen    : Nat
  ckpt   : DWord
  cmask  : List Nat
  pmask  : List Nat
  elems  : List Word
  flags  : Word
deriving DecidableEq, Repr

/-- A consumed uncorrectable error (R413, Table 17.5). -/
structure ErrorReport where
  core  : Nat
  /-- the wave or, with `seq`, the block whose sequencer consumed the error; an L-core section's wave as well -/
  wave  : Nat
  seq   : Bool
  src   : Nat
  lanes : Word
  addr  : DWord
deriving DecidableEq, Repr

/-- Firmware's access by physical address (R438). -/
inductive PhysAccess where
  | read (addr n : Nat)
  | write (addr : Nat) (bytes : List Byte)
  | tag (addr : Nat) (set : Bool)
  | readTag (addr : Nat)
deriving DecidableEq, Repr

/-- What phase 1 of bring-up reads (R17, R433). -/
structure Fuses where
  ok       : Bool
  cxl      : Bool
  tier2    : BitVec 12
  ceiling  : Nat
  stepping : BitVec 8
  /-- the repair maps as they are read: R433 gives them no layout -/
  repair   : List Byte
  /-- the digest of the key that firmware is signed with, and the least security version (R434) -/
  keyHash  : BitVec 384
  version  : Nat
deriving DecidableEq, Repr

/-- What the boot ROM reads from the flash of die 0 (R434): the image, its security version, the public key and the
signature. -/
structure FlashImage where
  image   : List Byte
  version : Nat
  key     : Nat × Nat
  sigR    : Nat
  sigS    : Nat
deriving DecidableEq, Repr

/-- A flit that failed its check on a link: sent once, or sent again (R382). -/
structure FlitFail where
  link  : Nat
  again : Bool
deriving DecidableEq, Repr

/-- An absent page, by an address in it, and the lanes parked on it that firmware means: all, or those of one wave and one
word (R165). -/
structure Absence where
  va  : DWord
  who : Option (Nat × DWord)
deriving DecidableEq, Repr

/-- A register, or a firmware setting, that has no event row of its own. -/
inductive RegName where
  | bar0 (port off : Nat)
  | root (port : Nat) | partBase (port : Nat) | partSize (port : Nat)
  | copyHorizon (core : Nat) | copyDrain (core : Nat) | fabHorizon (die : Nat) | fabDrain (die : Nat)
  | shipHorizon (lcore : Nat)
  | powerLimit
  | paths (blend member : Nat) | rateWindow (blend member path : Nat)
  | package | joinBlend (port blend self : Nat) | blendSize (blend : Nat) | blendGen (blend : Nat) | blendEntry (blend slot : Nat)
  /-- the own contribution to a collective marked poisoned (R399): the value is its SEQ -/
  | poison (blend : Nat)
  /-- a membership entry of the log that firmware copies to a spare (R403): bits 31:0 GEN, 43:32 member, 45:44 state -/
  | memberEntry (blend : Nat)
  | hotRing | faultRing | eventRing
  | drainHot (cluster : Nat) | drainFault (cluster : Nat) | drainEvents (die : Nat)
deriving DecidableEq, Repr

/-- Every row of spec/opcode_table.json, in the table's order within each class. -/
inductive Instr where
  | vadd (f : FOps)
  | vsub (f : FOps)
  | vmul (f : FOps)
  | vmulh (f : FOps)
  | vmad (f : FOps)
  | vmadw (f : FOps)
  | vdiv (f : FOps)
  | vrem (f : FOps)
  | vabs (f : FOps)
  | vmin (f : FOps)
  | vmax (f : FOps)
  | vand (f : FOps)
  | vor (f : FOps)
  | vxor (f : FOps)
  | vandn (f : FOps)
  | vshl (f : FOps)
  | vshr (f : FOps)
  | vsra (f : FOps)
  | vrot (f : FOps)
  | vclz (f : FOps)
  | vpopc (f : FOps)
  | vbrev (f : FOps)
  | vbfe (f : FOps)
  | vbfi (f : FOps)
  | vaddc (f : FOps)
  | vdot4 (f : FOps)
  | vcmp (f : FOps)
  | vsel (f : FOps)
  | vmov (f : FOps)
  | vmovi (f : VMovi)
  | vlea (f : FOps)
  | fadd (f : FOps)
  | fsub (f : FOps)
  | fmul (f : FOps)
  | ffma (f : FOps)
  | fmin (f : FOps)
  | fmax (f : FOps)
  | fcmp (f : FOps)
  | frcp (f : FOps)
  | frsq (f : FOps)
  | fsqrt (f : FOps)
  | fdiv (f : FOps)
  | fexp2 (f : FOps)
  | flog2 (f : FOps)
  | fsin (f : FOps)
  | fcos (f : FOps)
  | fclass (f : FOps)
  | fdot2 (f : FOps)
  | fscale (f : FOps)
  | cvt (f : FOps)
  | cvtef (f : FOps)
  | frnd (f : FOps)
  | pack (f : FOps)
  | unpack (f : FOps)
  | cbdec (f : FOps)
  | cbenc (f : FOps)
  | scget (f : FOps)
  | scapply (f : FOps)
  | leesrd (f : FOps)
  | leeswr (f : FOps)
  | shfl (f : FOps)
  | vote (f : FOps)
  | voteBallot (f : FOps)
  | lred (f : FOps)
  | lscan (f : FOps)
  | bcast (f : FOps)
  | v2s (f : FOps)
  | s2v (f : FOps)
  | amask (f : FOps)
  | pand (f : FOps)
  | por (f : FOps)
  | pxor (f : FOps)
  | pnot (f : FOps)
  | pmov (f : FOps)
  | sadd (u : UOps)
  | ssub (u : UOps)
  | smul (u : UOps)
  | smulh (u : UOps)
  | smad (u : UOps)
  | sdiv (u : UOps)
  | smin (u : UOps)
  | smax (u : UOps)
  | sand (u : UOps)
  | sor (u : UOps)
  | sxor (u : UOps)
  | sshl (u : UOps)
  | sshr (u : UOps)
  | ssra (u : UOps)
  | sclz (u : UOps)
  | spopc (u : UOps)
  | scmp (u : UOps)
  | ssel (u : UOps)
  | smov (u : UOps)
  | smovi (u : SMovi)
  | sfadd (u : UOps)
  | sfmul (u : UOps)
  | sffma (u : UOps)
  | sfcmp (u : UOps)
  | scvt (u : UOps)
  | slea (u : UOps)
  | pairedWord (p : Pair)
  | bra (f : FOps)
  | sbra (f : FOps)
  | brx (f : FOps)
  | call (f : FOps)
  | callx (f : FOps)
  | ret (f : FOps)
  | meet (f : FOps)
  | meetPop (f : FOps)
  | land (f : FOps)
  | exit (f : FOps)
  | nop (f : FOps)
  | yield (f : FOps)
  | trap (f : FOps)
  | brk (f : FOps)
  | sleep (f : FOps)
  | sleepUntil (f : FOps)
  | spawn (f : FOps)
  | binflush (u : UOps)
  | binflushLabel (u : UOps)
  | launch (u : UOps)
  | lwait (u : UOps)
  | fetchw (u : UOps)
  | prio (u : UOps)
  | ld (m : MOps)
  | st (m : MOps)
  | ldc (m : MOps)
  | stc (m : MOps)
  | pf (m : MOps)
  | cbnd (f : FOps)
  | cperm (f : FOps)
  | ctest (f : FOps)
  | cmov (f : FOps)
  | cfromh (f : FOps)
  | atom (m : MOps)
  | red (m : MOps)
  | cas (m : MOps)
  | dcas (m : MOps)
  | atom2 (m : MOps)
  | amov2 (m : MOps)
  | lres (m : MOps)
  | scond (m : MOps)
  | fence (u : UOps)
  | fenceSc (u : UOps)
  | acqr (u : UOps)
  | barSync (u : UOps)
  | barArrive (u : UOps)
  | barWait (u : UOps)
  | mon (m : MOps)
  | mwait (u : UOps)
  | ropenWave (u : UOps)
  | ropenBlk (u : UOps)
  | rcommitWave (u : UOps)
  | rcommitBlk (u : UOps)
  | rabortWave (u : UOps)
  | rabortBlk (u : UOps)
  | rstat (u : UOps)
  | ship (m : MOps)
  | shipt (m : MOps)
  | shipp (m : MOps)
  | shwait (u : UOps)
  | shtest (u : UOps)
  | shret (f : FOps)
  | homeof (m : MOps)
  | pushCopy (u : UOps)
  | pushFab (u : UOps)
  | wait (u : UOps)
  | gset (u : UOps)
  | gbind (u : UOps)
  | rfence (u : UOps)
  | ocrd (u : UOps)
  | vdopen (u : UOps)
  | vdacc (f : FOps)
  | vdend (u : UOps)
  | vdtest (f : FOps)
  | thmax (m : MOps)
  | vdstat (u : UOps)
  | pgbind (u : UOps)
  | pgnext (f : FOps)
  | pgnextt (f : FOps)
  | pgsave (u : UOps)
  | pgrest (u : UOps)
  | sopen (m : MOps)
  | sopenRd (m : MOps)
  | sisect (u : UOps)
  | sunion (u : UOps)
  | sdiff (u : UOps)
  | smerge (u : UOps)
  | spart (u : UOps)
  | sclose (u : UOps)
  | tctl (x : XOps)
  | tctlR (x : XOps)
  | tld (x : XOps)
  | tst (x : XOps)
  | tzero (x : XOps)
  | tmma (x : XOps)
  | tmmas (x : XOps)
  | tmmacb (x : XOps)
  | tmmasp (x : XOps)
  | tcvt (x : XOps)
  | tmov (x : XOps)
  | tew (x : XOps)
  | mbar (x : XOps)
  | madd (x : XOps)
  | mmovi (x : MMovi)
  | mbr (x : XOps)
  | mloop (x : XOps)
  | mend (x : XOps)
  | mfrom (x : XOps)
  | fst (m : MOps)
  | fld (m : MOps)
  | fatom (m : MOps)
  | fflag (m : MOps)
  | ffence (u : UOps)
  | blstat (u : UOps)
  | rdsr (u : UOps)
  | wrsr (u : UOps)
  | tret (u : UOps)
  | tretMig (u : UOps)
  | tlbinv (u : UOps)
  | tlbinvAll (u : UOps)
  | pgclass (m : MOps)
  | cachewb (m : MOps)
  | cachewbPg (m : MOps)
  | halt (u : UOps)
  | pageWalkDone (core port : Nat) (va : DWord)
  | accessPerformed (id : Nat)
  | storeQueueDrain (core idx : Nat)
  | mwaitWake (w lane : Nat)
  | mwaitTimeout (w lane : Nat)
  | fenceScTick (w : Nat)
  | sleepDeadline (w lane : Nat)
  | runStart (core quad : Nat)
  | parentUnwind (w : Nat)
  | launchSlotGo (port slot : Nat) (prio : BitVec 3)
  | lsresRead (port slot : Nat)
  | launchAccept (port slot : Nat)
  | launchComplete (lid : Nat)
  | lwaitRelease (w lane : Nat)
  | blockPlace
  | launchReserving (lid : Nat)
  | blockStart (b : Nat)
  | waveContextFree (w : Nat)
  | blockEnd (b : Nat)
  | blockRetire (b : Nat)
  | waveSave (w : Nat)
  | waveResume (w core : Nat)
  | binTimerSeal (core bin : Nat)
  | binStart (core bin : Nat)
  | binOffer (core bin : Nat)
  | fetchwAnswer (core : Nat)
  | heldCommandSchedule (cmd : Nat)
  | tcopy (cmd : Nat)
  | fill (cmd : Nat)
  | ccopy (cmd : Nat)
  | rgather (cmd : Nat)
  | fput (cmd : Nat)
  | collAllred (cmd : Nat)
  | collGather (cmd : Nat)
  | collBcast (cmd : Nat)
  | collMark (cmd : Nat)
  | commandComplete (cmd : Nat)
  | waitDeadlineLate (w lane : Nat)
  | tileOpComplete (b : Nat)
  | streamOpComplete (w : Nat)
  | homeAcceptBundle (src : BundleSrc)
  | bundleReoffer (id : Nat)
  | sectionStart (lcore : Nat)
  | sectionResume (lcore w : Nat)
  | sectionOverrun (w : Nat)
  | replyArrive (src : ReplySrc)
  | shwaitLate (w lane : Nat)
  | homeLoss (lcore : Nat)
  | homeTableWrite (global : Bool) (idx : Nat) (entry : Word)
  | fabricPacketArrive (src : PacketSrc)
  | fabricAck (id : Nat) (res : Option PacketResult)
  | orderedFlagApply (idx : Nat)
  | flitCrcFail (flit : FlitFail)
  | linkFail (link : Nat)
  | collContributionArrive (c : Contribution)
  | collResultArrive (r : CollResult)
  | memberDeclareDead (blend member : Nat)
  | spareJoin (blend slot pkg : Nat)
  | spareLive (blend slot : Nat)
  | uncorrectableError (e : ErrorReport)
  | firmwareDecision (cluster : Nat) (ds : List (Nat × Byte))
  | decisionDefault (cluster : Nat)
  | timingReplay (core quad : Nat)
  | firmwarePageResume (port : Nat) (page : Absence) (leaf : Option DWord)
  | firmwareDeliverFault (port : Nat) (page : Absence)
  | setSamplingExponent (core : Nat) (k : Option Nat)
  | setBlockWindow (core win : Nat)
  | physicalAccess (a : PhysAccess)
  | hostApertureRead (port off n : Nat)
  | hostApertureWrite (port off : Nat) (bytes : List Byte)
  | functionLevelReset (port : Nat)
  | brkrel (port : Nat)
  | registerWrite (r : RegName) (value : DWord)
  | powerWindow (watts : Nat)
  | thermalTrip
  | thermalShutdown
  | powerGood
  | fuseRead (f : Fuses)
  | sramRepairTest (failed : List (Nat × Word)) (dead : List Nat)
  | memoryTraining (ok : Bool)
  | firmwareAuthentication (flash : Option FlashImage)
  | fabricLinkTraining (linkUp required : List Nat)
  | wakeUpNoStatedCause (w lane : Nat)
  | reservationHeld1024Clk (w lane : Nat)
  | firmwareUnfreeze (limit : Nat)
  | packageReset
  | unitRetirement (core : Nat) (mask : Word)
  | privilegedLaunchSubmit (port : Nat) (addr : DWord) (prio : BitVec 3)
deriving DecidableEq, Repr

end Sys2Proof
end

