-- ==== Sys2Proof/Decode.lean ====
section
/-!
DEFINITION. Decoding a 64-bit word (spec/02_instruction_word.md): the fields of the six forms, what every instruction
accepts in each of them (R29, R30, R32, R36 to R44 and the tables of the class chapters), the decoder, total on any word
and refusing by name, and after it the encoder.
-/
namespace Sys2Proof

/-- Why a word is not an instruction (R47): the checks of R48 that a word can fail by itself. -/
inductive Reject where
  /-- K = 10 or 11: ILLEGAL_WORD -/
  | kind
  /-- unassigned or reserved opcode: ILLEGAL_WORD -/
  | opcode
  /-- ILLEGAL_PAIR -/
  | pair
  /-- ILLEGAL_WORD for any other reason -/
  | illegal
  /-- GUARD_NOT_ALLOWED -/
  | guard
deriving DecidableEq, Repr

/-- What a word says of itself: whether its fields are legal, whether its guard field is, and the vector and uniform
registers (first, count), latches and predicates it names (R29, R33, R85). -/
structure Shape where
  legal : Bool
  guard : Bool
  vr    : List (Nat × Nat)
  sr    : List (Nat × Nat)
  lat   : List (BitVec 2)
  pr    : List Nat
deriving DecidableEq, Repr

/-- A legal word that names nothing. -/
def Shape.ok : Shape := ⟨true, true, [], [], [], []⟩

/-- A condition on the fields. -/
def Shape.need (b : Bool) : Shape := { Shape.ok with legal := b }

/-- Two parts of a word together. -/
def Shape.and (a b : Shape) : Shape :=
  ⟨a.legal && b.legal, a.guard && b.guard, a.vr ++ b.vr, a.sr ++ b.sr, a.lat ++ b.lat, a.pr ++ b.pr⟩

/-- How an instruction uses a register field (R29, R30). -/
inductive Role where
  /-- unused: must be zero -/
  | none
  /-- vector register, pair, quad -/
  | v | vd | vq
  /-- uniform register, pair, quad -/
  | s | sd | sq
  /-- predicate, capability register -/
  | p | cap
  /-- a number below 2^n -/
  | bits (n : Nat)
  /-- `n` vector or uniform registers, the first a multiple of `al` -/
  | vspan (n al : Nat) | sspan (n al : Nat)
deriving DecidableEq, Repr

/-- A field of a given role holding `x`. -/
def Role.field (r : Role) (x : Nat) : Shape :=
  match r with
  | .none => .need (x == 0)
  | .v => { Shape.ok with vr := [(x, 1)] }
  | .vd => { Shape.need (x % 2 == 0) with vr := [(x, 2)] }
  | .vq => { Shape.need (x % 4 == 0) with vr := [(x, 4)] }
  | .s => { Shape.ok with sr := [(x, 1)] }
  | .sd => { Shape.need (x % 2 == 0) with sr := [(x, 2)] }
  | .sq => { Shape.need (x % 4 == 0) with sr := [(x, 4)] }
  | .p => { Shape.need (decide (x < 8)) with pr := [x] }
  | .cap => .need (decide (x < 32))
  | .bits n => .need (decide (x < 2 ^ n))
  | .vspan n al => { Shape.need (x % al == 0 && decide (x < 256)) with vr := [(x, n)] }
  | .sspan n al => { Shape.need (x % al == 0) with sr := [(x, n)] }

/-- The number of the register a source field names; for a field that is no latch. -/
def VSrc.num : VSrc → Nat
  | .reg r => r.toNat
  | .latch k => k.toNat

/-- The register number of source b. -/
def FSrc.numB : FSrc → Nat
  | .regs b _ => b.num
  | .imm _ => 0

/-- The register number of source c. -/
def FSrc.numC : FSrc → Nat
  | .regs _ c => c.num
  | .imm _ => 0

/-- The register number of source b of form U. -/
def USrc.numB : USrc → Nat
  | .regs b _ => b.toNat
  | .imm _ => 0

/-- The register number of source c of form U. -/
def USrc.numC : USrc → Nat
  | .regs _ c => c.toNat
  | .imm _ => 0

/-- A source field of form F: only a single vector register can be a latch (R23, R73). R73 says so of the pairs and quads of
the conversions; that the pair operand c.d of `vmadw` cannot be a latch either is the model's choice (log entry 107). -/
def Role.src (r : Role) : VSrc → Shape
  | .reg x => r.field x.toNat
  | .latch k => if r = .v then { Shape.need (k != 0) with lat := [k] } else .need false

/-- The guard field: free on the instructions of R36, else p0 and not negated. -/
def guardShape (allowed : Bool) (g : Guard) : Shape :=
  { Shape.ok with guard := allowed || (g.p == 0 && !g.neg), pr := [g.p.toNat] }

/-- W and L (R32): free on a single vector destination but for W = 1 with L = 00, else zero. -/
def wlShape (d : Role) (w : Bool) (l : BitVec 2) : Shape :=
  .need (if d = .v then !(w && l == 0) else !w && l == 0)

/-- A form F word: the roles of D, A, B, C, whether I = 1 is accepted (with the condition on the immediate), and the
condition on MOD. -/
def shapeF (f : FOps) (d a b c : Role) (imm : BitVec 18 → Bool) (ok : Bool) (guarded : Bool := false) : Shape :=
  let bc := match f.bc with
    | .regs x y => (b.src x).and (c.src y)
    | .imm k => .need (imm k)
  (((d.field f.d.toNat).and (wlShape d f.w f.l)).and ((a.src f.a).and bc)).and ((Shape.need ok).and (guardShape guarded f.g))

/-- No immediate form. -/
def noImm {w : Nat} (_ : BitVec w) : Bool := false
/-- Any immediate. -/
def anyImm {w : Nat} (_ : BitVec w) : Bool := true

/-- A form U word. -/
def shapeU (u : UOps) (d a b c : Role) (imm : BitVec 22 → Bool) (ok : Bool) : Shape :=
  let bc := match u.bc with
    | .regs x y => (b.field x.toNat).and (c.field y.toNat)
    | .imm k => .need (imm k)
  ((d.field u.d.toNat).and (a.field u.a.toNat)).and (bc.and (.need ok))

/-- Bits h to l of a modifier field. -/
def bfld {w : Nat} (x : BitVec w) (h l : Nat) : Nat := x.toNat / 2 ^ l % 2 ^ (h + 1 - l)

/-! ### Vector integer (Table 2.8, Table 4.2) -/

/-- Element width of WD. -/
def wdBits (m : BitVec 8) : Nat := 32 / 2 ^ bfld m 7 6

/-- MOD of the vector integer class: widths, UN values, SAT and SUB accepted. -/
def modI (m : BitVec 8) (ws : List Nat) (un0 un1 sat : Bool) (sub : Nat) : Bool :=
  ws.contains (wdBits m) && (if bfld m 5 5 = 1 then un1 else un0) && (sat || bfld m 4 4 == 0) && bfld m 3 0 == sub

def allW : List Nat := [32, 16, 8, 4]

/-- Two sources, the second perhaps immediate. -/
def viBin (f : FOps) (ok : Bool) : Shape := shapeF f .v .v .v .none anyImm ok
/-- One source. -/
def viUn (f : FOps) (ok : Bool) : Shape := shapeF f .v .v .none .none noImm ok
/-- Three sources. -/
def viTri (f : FOps) (ok : Bool) : Shape := shapeF f .v .v .v .v noImm ok
/-- A shift: an immediate count lies below the width. -/
def viShift (f : FOps) (ok : Bool) : Shape :=
  shapeF f .v .v .v .none (fun k => decide (k.toNat < wdBits f.mod)) ok

/-! ### Vector float (Table 4.3) -/

def ftOf (m : BitVec 8) : Nat := bfld m 4 3
def rmOf (m : BitVec 8) : Nat := bfld m 7 5

/-- MOD of the vector float class: formats, rounding accepted, and the condition on SUB. -/
def modF (m : BitVec 8) (fts : List Nat) (rm : Bool) (sub : Nat → Bool) : Bool :=
  fts.contains (ftOf m) && (if rm then decide (rmOf m < 4) else rmOf m == 0) && sub (bfld m 2 0)

def sub0 (n : Nat) : Bool := n == 0

/-- Two sources with the f32 immediate of R24 (R92). -/
def vfBin (f : FOps) (d : Role) (ok : Bool) : Shape :=
  shapeF f d .v .v .none (fun _ => ftOf f.mod == 0) ok

/-! ### Conversion (Table 3.6) -/

/-- The conversion control byte: field C (R42). -/
def ctlOf (f : FOps) : Nat :=
  match f.bc with
  | .regs _ (.reg c) => c.toNat
  | _ => 0

def cvRM (f : FOps) : Nat := ctlOf f / 32 % 8
def cvUF (f : FOps) : Bool := ctlOf f / 16 % 2 == 1
def cvUT (f : FOps) : Bool := ctlOf f / 8 % 2 == 1
def cvLow (f : FOps) : Nat := ctlOf f % 8
def cvTO (f : FOps) : Nat := bfld f.mod 7 4
def cvFR (f : FOps) : Nat := bfld f.mod 3 0

/-- A code of an element format (R56, R58): not lq8, e8m0 or the reserved one. -/
def elemCode (c : Nat) : Bool := decide (c < 7) || decide (8 ≤ c ∧ c ≤ 13)

/-- Width of a format code (R56 to R60). -/
def codeWidth (c : Nat) : Nat :=
  match c with
  | 0 => 32 | 1 => 16 | 2 => 16 | 3 => 8 | 4 => 8 | 5 => 8 | 6 => 4 | 7 => 16 | 8 => 32 | 9 => 16
  | 10 => 8 | 11 => 4 | 12 => 8 | 13 => 4 | _ => 8

/-- The unsigned bits stand only beside a code 0x8 or 0x9 (R73). -/
def unsOk (f : FOps) : Bool :=
  (!cvUF f || cvFR f == 8 || cvFR f == 9) && (!cvUT f || cvTO f == 8 || cvTO f == 9)

/-- The registers of a span of `r` x 16 bits over w: one, two or four (R77). -/
def spanRole (ratio : Nat) : Role := if ratio == 2 then .v else if ratio == 4 then .vd else .vq

/-- A conversion word: I = 0, C the control byte (R42). -/
def cvShape (f : FOps) (d a b : Role) (ok : Bool) : Shape := shapeF f d a b (.bits 8) noImm ok

def ratioOk (a b : Nat) : Bool := a == 2 * b || a == 4 * b || a == 8 * b

def shapeCvt (f : FOps) : Shape :=
  cvShape f .v .v .none
    (decide (cvRM f < 4) && unsOk f && elemCode (cvTO f) && (elemCode (cvFR f) || cvFR f == 14) &&
      decide (cvLow f < 32 / codeWidth (cvFR f)) &&
      (cvTO f != cvFR f || ((cvTO f == 8 || cvTO f == 9) && cvUF f != cvUT f)))

def shapeCvtef (f : FOps) : Shape :=
  cvShape f .v .v .none (cvRM f == 4 && !cvUF f && !cvUT f && decide (1 ≤ cvTO f ∧ cvTO f ≤ 6) && cvFR f == 0)

def shapeFrnd (f : FOps) : Shape :=
  cvShape f .v .v .none
    (decide (cvRM f < 4) && !cvUF f && !cvUT f && decide (cvLow f < 2) && cvTO f == cvFR f && decide (cvFR f < 3))

def shapePack (f : FOps) : Shape :=
  let r := spanRole (codeWidth (cvFR f) / codeWidth (cvTO f))
  cvShape f .v r r
    (decide (cvRM f < 4) && unsOk f && cvLow f == 0 && elemCode (cvTO f) && elemCode (cvFR f) &&
      ratioOk (codeWidth (cvFR f)) (codeWidth (cvTO f)))

def shapeUnpack (f : FOps) : Shape :=
  cvShape f (spanRole (codeWidth (cvTO f) / codeWidth (cvFR f))) .v .none
    (decide (cvRM f < 4) && unsOk f && decide (cvLow f < 2) && elemCode (cvTO f) && elemCode (cvFR f) &&
      ratioOk (codeWidth (cvTO f)) (codeWidth (cvFR f)))

def shapeCbdec (f : FOps) : Shape :=
  cvShape f (spanRole (codeWidth (cvTO f) / 2)) .v .none
    (cvRM f == 0 && !cvUF f && !cvUT f && decide (cvLow f < 2) && decide (1 ≤ cvTO f ∧ cvTO f ≤ 6) && cvFR f == 7)

def shapeCbenc (f : FOps) : Shape :=
  cvShape f .v .vq .v
    (cvRM f == 0 && !cvUF f && !cvUT f && cvLow f % 2 == 0 && cvTO f == 7 && (cvFR f == 1 || cvFR f == 2))

def shapeScget (f : FOps) : Shape :=
  cvShape f .v .v .none
    (cvRM f == 0 && !cvUF f && !cvUT f && decide (cvLow f < 2) && decide (1 ≤ cvTO f ∧ cvTO f ≤ 7) && cvFR f == 0)

def shapeScapply (f : FOps) : Shape :=
  cvShape f .v .v .v (decide (cvRM f < 4) && !cvUF f && !cvUT f && f.mod == 0x0E#8)

/-! ### Lanes and predicates (Table 4.7) -/

def lnSub (f : FOps) : Nat := bfld f.mod 7 4
def lnTy (f : FOps) : Nat := bfld f.mod 3 0
/-- A lane number 0 to 31 as an immediate. -/
def imm32 (k : BitVec 18) : Bool := decide (k.toNat < 32)
/-- SUB and TY as shown, both zero or the SUB given. -/
def lnMod (f : FOps) (sub : Nat) : Bool := lnSub f == sub && lnTy f == 0

/-- lred and lscan: TY f32 takes add, min and max, TY i32 every operator. -/
def lnRed (f : FOps) (x : Bool) : Shape :=
  shapeF f .v .v .none .none noImm
    ((x || decide (lnSub f < 8)) && ((lnTy f == 0 && decide (lnSub f % 8 < 3)) || lnTy f == 8))

def shapePmov (f : FOps) : Shape :=
  if lnSub f == 1 then shapeF f .p .v .none .none noImm (lnTy f == 0)
  else if lnSub f == 2 then shapeF f .v .p .none .none noImm (lnTy f == 0)
  else shapeF f .p .p .none .none noImm (lnMod f 0)

/-! ### Uniform (Table 4.6) -/

def uRM (u : UOps) : Nat := bfld u.mod 7 5
def uDB (u : UOps) : Bool := bfld u.mod 4 4 == 1
def uUN (u : UOps) : Bool := bfld u.mod 3 3 == 1
def uSUB (u : UOps) : Nat := bfld u.mod 2 0

/-- A register or, with DB, a pair. -/
def uR (u : UOps) : Role := if uDB u then .sd else .s

/-- MOD of a uniform integer instruction: UN, and the condition on SUB. -/
def modU (u : UOps) (un : Bool) (sub : Nat → Bool) : Bool := uRM u == 0 && (un || !uUN u) && sub (uSUB u)

def suBin (u : UOps) (un : Bool) (sub : Nat → Bool) : Shape :=
  shapeU u (uR u) (uR u) (uR u) .none anyImm (modU u un sub)
def suUn (u : UOps) : Shape := shapeU u (uR u) (uR u) .none .none noImm (modU u false sub0)
/-- MOD of a uniform float instruction. -/
def modUF (u : UOps) (rm : Bool) (sub : Nat → Bool) : Bool :=
  !uDB u && !uUN u && (if rm then decide (uRM u < 4) else uRM u == 0) && sub (uSUB u)

def shapeScvt (u : UOps) : Shape :=
  shapeU u (if uSUB u == 0 then uR u else .s) (if uSUB u == 0 then .s else uR u) .none .none noImm
    (decide (uRM u < 4) && decide (uSUB u < 2))

/-! ### Paired words (R38 to R40) -/

/-- A register operation of Table 2.7. -/
def sopReg (s : Nat) : Bool := decide (1 ≤ s ∧ s ≤ 0x0B) || decide (0x20 ≤ s ∧ s ≤ 0x26)
/-- An immediate operation of Table 2.7. -/
def sopImm (s : Nat) : Bool := decide (0x10 ≤ s ∧ s ≤ 0x15) || s == 0x27
/-- Shifts and the rotate, whose count is IMM7 bits 4:0. -/
def sopShift (s : Nat) : Bool := decide (0x11 ≤ s ∧ s ≤ 0x14)

/-- The fields of one slot by R38 to R40. -/
def slotOk (t : PSlot) : Bool :=
  let s := t.sop.toNat
  if s == 0 then t.d == 0 && t.a == 0 && !t.la && t.imm == 0
  else if sopReg s then t.imm == 0 && (!t.la || (decide (1 ≤ t.a.toNat ∧ t.a.toNat ≤ 3)))
  else sopImm s && !t.la && t.a == 0 && (!sopShift s || decide (t.imm.toNat < 32))

/-- The registers a slot reads (R39): D but for vmov, fabs, fneg and nop; A of register operations when LA = 0. -/
def slotReads (t : PSlot) : List Nat :=
  let s := t.sop.toNat
  (if s == 0 || s == 0x0B || s == 0x25 || s == 0x26 then [] else [t.d.toNat]) ++
    (if sopReg s && !t.la then [t.a.toNat] else [])

/-- Every pairing rule of R39; a register that two source fields name counts twice against its bank (log entry 14). -/
def pairOk (p : Pair) : Bool :=
  let a := p.s0
  let b := p.s1
  let both := a.sop != 0 && b.sop != 0
  let reads := slotReads a ++ slotReads b
  slotOk a && slotOk b && !(both && a.d.toNat % 4 == b.d.toNat % 4) &&
    (List.range 4).all fun k => decide ((reads.filter fun r => r % 4 == k).length ≤ 2)

/-- The registers and latches of a slot. -/
def slotShape (t : PSlot) : Shape :=
  { Shape.ok with
    vr := (if t.sop == 0 then [] else [(t.d.toNat, 1)]) ++ (slotReads t).map fun r => (r, 1)
    lat := if t.la then [BitVec.ofNat 2 t.a.toNat] else [] }

def shapePair (p : Pair) : Shape := (slotShape p.s0).and (slotShape p.s1)
/-! ### Control and work creation (Tables 5.3, 6.9) -/

/-- Bits 30:13 hold an immediate. -/
def FOps.hasImm (f : FOps) : Bool :=
  match f.bc with
  | .imm _ => true
  | .regs _ _ => false

/-- The immediate of a form F word, and of a form U word. -/
def FOps.imm (f : FOps) : BitVec 18 :=
  match f.bc with
  | .imm k => k
  | .regs _ _ => 0
def UOps.imm (u : UOps) : BitVec 22 :=
  match u.bc with
  | .imm k => k
  | .regs _ _ => 0

/-- Bits 30:9 hold an immediate. -/
def USrc.isImm : USrc → Bool
  | .imm _ => true
  | .regs _ _ => false

/-- A form F word with an immediate and no source but A. -/
def fImm (f : FOps) (d a : Role) (imm : BitVec 18 → Bool) (ok : Bool) (guarded : Bool := false) : Shape :=
  shapeF f d a .none .none imm (f.hasImm && ok) guarded

/-- A form F word without an immediate, of the sources A and B at most. -/
def fReg (f : FOps) (d a : Role) (ok : Bool) (guarded : Bool := false) : Shape :=
  shapeF f d a .none .none noImm ok guarded

/-- The immediate lies below a bound, read as unsigned. -/
def below {w : Nat} (n : Nat) (k : BitVec w) : Bool := decide (k.toNat < n)

def shapeSbra (f : FOps) : Shape := fImm f .none .s anyImm (decide (f.mod.toNat < 4))

/-- `land`: S in bit 7, CC in 6:4, which is zero without S. -/
def shapeLand (f : FOps) : Shape :=
  fReg f .none .none (bfld f.mod 3 0 == 0 && (bfld f.mod 7 7 == 1 || bfld f.mod 6 4 == 0))

/-- `brk` with or without its number. -/
def shapeBrk (f : FOps) : Shape := shapeF f .none .none .none .none (below 128) (f.mod == 0)

/-- A form U word with an immediate. -/
def uImm (u : UOps) (d a : Role) (imm : BitVec 22 → Bool) (ok : Bool) : Shape :=
  shapeU u d a .none .none imm (u.bc.isImm && ok)

/-- A form U word of registers. -/
def uReg (u : UOps) (d a b c : Role) (ok : Bool) : Shape := shapeU u d a b c noImm ok

/-- A form U word whose operand is an immediate or, in A, a uniform register. -/
def uEither (u : UOps) (d : Role) (imm : BitVec 22 → Bool) (ok : Bool) : Shape :=
  if u.bc.isImm then uImm u d .none imm ok else uReg u d .s .none .none ok

/-! ### Form M (Tables 2.9, 7.10, 8.3, 16.2) -/

def amM (m : MOps) : Nat := bfld m.mod 8 7
/-- SZ of Table 2.9. -/
def szM (m : MOps) : Nat := bfld m.mod 2 0

/-- The register of a size code: one, a pair, a quad. -/
def sizeRole (sz : Nat) : Role := if sz == 3 then .vd else if sz == 4 then .vq else .v

/-- The fields of an address (R27, R155): capability or quad, offset, scale. -/
def addrShape (m : MOps) : Shape :=
  let am := amM m
  let unnamed := m.ofs == 0 && !m.pr && m.sh == 0
  let ofs : Shape := if unnamed then .ok
    else if am == 1 then Role.s.field m.ofs.toNat
    else if m.pr then Role.vd.field m.ofs.toNat
    else Role.v.field m.ofs.toNat
  let cap : Shape := if am == 2 then Role.vq.field (4 * m.cap.toNat) else .ok
  ((Shape.need (decide (am < 3) && (am != 1 || !m.pr) && decide (m.sh.toNat < 5))).and cap).and ofs

/-- A form M word: the role of DATA, the condition on the other modifiers. -/
def shapeM (m : MOps) (data : Role) (ok : Bool) (guarded : Bool := false) : Shape :=
  ((addrShape m).and (data.field m.data.toNat)).and ((Shape.need ok).and (guardShape guarded m.g))

def shapePf (m : MOps) : Shape := shapeM m .none (bfld m.mod 6 5 == 0 && decide (bfld m.mod 4 3 < 3) && szM m == 0)

def shapeCbnd (f : FOps) : Shape :=
  if f.mod == 1 then shapeF f .vq .vq .vd .vd noImm true else shapeF f .cap .cap .sd .sd noImm (f.mod == 0)
def shapeCperm (f : FOps) : Shape :=
  if f.mod == 1 then shapeF f .vq .vq (.vspan 1 1) .none noImm true else shapeF f .cap .cap .s .none noImm (f.mod == 0)
/-- `ctest`: the test in bits 2:0, Q in bit 3. -/
def shapeCtest (f : FOps) : Shape :=
  let q := bfld f.mod 3 3 == 1
  let c : Role := if q then .vq else .cap
  let b : Role := match bfld f.mod 2 0 with
    | 0 => .none
    | 1 => if q then .vspan 1 1 else .s
    | _ => c
  shapeF f .p c b .none noImm (decide (bfld f.mod 2 0 < 3) && bfld f.mod 7 4 == 0)
def shapeCmov (f : FOps) : Shape :=
  fReg f (if bfld f.mod 0 0 == 1 then .vq else .cap) (if bfld f.mod 1 1 == 1 then .vq else .cap) (bfld f.mod 7 2 == 0)

/-! ### Atomics and synchronisation (Tables 8.1, 8.3 to 8.5) -/

/-- SZ of Table 8.1. -/
def szA (m : MOps) : Bool := bfld m.mod 4 4 == 1
def opkA (m : MOps) : Nat := bfld m.mod 3 0
/-- A register or a pair; a pair or a quad. -/
def aOne (m : MOps) : Role := if szA m then .vd else .v
def aTwo (m : MOps) : Role := if szA m then .vq else .vd
/-- An operation code: floats only with SZ = 0 (R191). -/
def opkOk (m : MOps) : Bool := decide (opkA m < 11) || (decide (opkA m < 14) && !szA m)

/-- A two-address word (R193): AM 00, PR 0, OFS even and nonzero. -/
def shapeM2 (m : MOps) (data : Role) (ok : Bool) : Shape :=
  (((Shape.need (amM m == 0 && !m.pr && m.ofs != 0 && decide (m.sh.toNat < 5) && ok)).and (Role.vd.field m.ofs.toNat)).and
    (data.field m.data.toNat)).and (guardShape true m.g)

/-- `fence` by its kind: scope in 6:5, kind in 2:0. -/
def shapeFence (u : UOps) (kind : Nat → Bool) (sc : Nat → Bool) : Shape :=
  uReg u .none .none .none .none (kind (bfld u.mod 2 0) && sc (bfld u.mod 6 5) && bfld u.mod 4 3 == 0 && bfld u.mod 7 7 == 0)

/-- `bar`: b in 7:4, CM in 3:2, kind in 1:0 (R206). -/
def shapeBar (u : UOps) (kind : Nat) : Shape :=
  let k := bfld u.mod 1 0 == kind
  match bfld u.mod 3 2 with
  | 0 => uReg u .none .none .none .none k
  | 1 => uReg u .none .s .none .none (k && kind != 2)
  | 2 => uImm u .none .none (fun i => decide (1 ≤ i.toNat ∧ i.toNat ≤ 1025)) (k && kind != 2)
  | _ => .need false

/-! ### Regions, shipped sections, engines (Tables 9.5, 10.7, 12.5) -/

/-- MOD of a block region instruction: 0x80 + 8b. -/
def blkMod (m : BitVec 8) : Bool := bfld m 7 7 == 1 && bfld m 2 0 == 0

/-- The arguments of a shipped request: NA - 1 in 6:4. -/
def naOf (m : MOps) : Nat := bfld m.mod 6 4 + 1
def shapeShip (m : MOps) : Shape := (shapeM m (.vspan (naOf m) 1) true).and (.need (!m.pr))

/-- `shwait`: first result register, token register, NL and NR. -/
def shapeShwait (u : UOps) : Shape :=
  let nr := bfld u.mod 3 0
  uReg u (.vspan (max 1 nr) 1) (.vspan 1 1) .none .none (decide (nr ≤ 8) && bfld u.mod 7 5 == 0)

/-- `shret`: the results from A on, their count in MOD. With a count of 0 it names no register: A is then not checked against the declared
registers outside a section, where R270 is silent (log entry 140). -/
def shapeShret (f : FOps) : Shape :=
  let k := bfld f.mod 3 0
  shapeF f .none (if k == 0 then .bits 8 else .vspan k 1) .none .none noImm
    (decide (k ≤ 8) && bfld f.mod 7 4 == 0 && decide (f.a.num + k ≤ 256))

def shapePush (u : UOps) (eng : Nat) : Shape :=
  uReg u .sd (.sspan 16 16) .none .p (bfld u.mod 0 0 == eng && bfld u.mod 4 1 == 0 && bfld u.mod 7 7 == 0)
def shapeWait (u : UOps) : Shape := uEither u .none (below 1024) (bfld u.mod 7 3 == 0)
/-- `ocrd`: P in bit 2, with the classes copy and fab alone. -/
def shapeOcrd (u : UOps) : Shape :=
  let p := bfld u.mod 2 2 == 1
  uReg u (if p then .sd else .s) .none .none .none (bfld u.mod 7 3 == 0 && (!p || bfld u.mod 0 0 == 0))

/-! ### Verdicts, patterns and streams (Tables 15.4, 14.7) -/

def shapeVdopen (u : UOps) : Shape :=
  let src := bfld u.mod 2 0
  let a : Role := .sspan 8 8
  let hi := bfld u.mod 7 4 == 0
  match src with
  | 1 => uImm u .none a anyImm hi
  | 2 => uReg u .none a .s .none hi
  | _ => uReg u .none a .none .none (hi && decide (src < 4))

/-- `vdacc`: a vector pair as A, a predicate in the low bits of field C; W and L are zero (R366). -/
def shapeVdacc (f : FOps) : Shape := shapeF f .v .vd .none .p noImm (f.mod == 0 && !f.w && f.l == 0)

/-- A generator of an X or F field. -/
def zRole : Role := .bits 2
def qRole : Role := .bits 3

def shapePgnext (f : FOps) : Shape := fReg f (.vspan 3 1) zRole (f.mod == 0 && decide (f.d.toNat + 2 ≤ 255))
def shapePg (u : UOps) : Shape := uReg u zRole .cap .s .none (u.mod == 0)

def shapeSopen (m : MOps) : Shape := shapeM m qRole (bfld m.mod 6 0 == 0)
/-- `sopen.rd`: q in CAP, no address. -/
def shapeSopenRd (m : MOps) : Shape :=
  ((Role.vd.field m.data.toNat).and (qRole.field m.cap.toNat)).and
    ((Shape.need (m.ofs == 0 && !m.pr && m.sh == 0 && m.disp == 0 && m.mod == 1)).and (guardShape false m.g))
/-- A list operation: three different stream registers. -/
def shapeList (u : UOps) : Shape :=
  uReg u .s qRole qRole qRole (u.mod == 0 && u.a.toNat != u.bc.numB && u.a.toNat != u.bc.numC && u.bc.numB != u.bc.numC)

/-! ### The matrix stream (Table 13.4) -/

/-- A form X word from a condition: it names no register of a thread. -/
def shapeX (ok : Bool) : Shape := .need ok

/-- TD, TA, TB, MR, IMM15 zero or not, and MOD. -/
structure XUse where
  td : Bool
  ta : Bool
  tb : Bool
  mr : Bool
  im : Bool

/-- The fields not used are zero. -/
def xUse (x : XOps) (u : XUse) (ok : Bool) : Shape :=
  shapeX ((u.td || x.td == 0) && (u.ta || x.ta == 0) && (u.tb || x.tb == 0) && (u.mr || x.mr == 0) &&
    (u.im || x.imm == 0) && ok)

/-- A sequencer register in a tile field. -/
def isM (r : BitVec 7) : Bool := decide (r.toNat < 64)

/-- The load path: k in 2:0, CH in 4:3, SC in 6:5; MR names a pair. -/
def shapeTld (x : XOps) : Shape := xUse x ⟨true, false, false, true, true⟩ (x.mr.toNat % 2 == 0 && bfld x.mod 8 7 == 0)

/-- `tmmas` and `tmmacb.s`: VB in IMM15 7:0, w in 8:4, map in 2:0. -/
def shapeTmmas (x : XOps) (bit3 : Nat) : Shape :=
  xUse x ⟨true, true, true, false, true⟩ (bfld x.imm 14 8 == 0 && bfld x.mod 3 3 == bit3)

def shapeTmmacb (x : XOps) : Shape :=
  if bfld x.mod 3 3 == 1 then shapeTmmas x 1 else xUse x ⟨true, true, true, false, false⟩ (x.mod == 0)

def shapeTmmasp (x : XOps) : Shape :=
  xUse x ⟨true, true, true, true, false⟩ (x.mr.toNat % 4 == 0 && bfld x.mod 8 6 == 0)

/-- `tew`: op in 2:0, RM in 7:5; .scl takes a sequencer register and no tile b. -/
def shapeTew (x : XOps) : Shape :=
  let scl := bfld x.mod 2 0 == 5
  xUse x ⟨true, true, !scl, scl, false⟩
    (decide (bfld x.mod 2 0 < 6) && decide (bfld x.mod 7 5 < 4) && bfld x.mod 4 3 == 0 && bfld x.mod 8 8 == 0)

/-- `mbar`: b in 7:4, CM in 3, kind in 1:0. -/
def shapeMbar (x : XOps) : Shape :=
  let kind := bfld x.mod 1 0
  let cm := bfld x.mod 3 3 == 1
  xUse x ⟨false, false, false, cm, !cm⟩
    (decide (kind < 3) && bfld x.mod 2 2 == 0 && bfld x.mod 8 8 == 0 &&
      (if kind == 2 then !cm && x.imm == 0 else cm || decide (1 ≤ x.imm.toNat ∧ x.imm.toNat ≤ 1025)))

/-- `madd` and its kin: op in 2:0, I in 3. -/
def shapeMadd (x : XOps) : Shape :=
  let i := bfld x.mod 3 3 == 1
  xUse x ⟨true, true, !i, false, i⟩ (isM x.td && isM x.ta && isM x.tb && bfld x.mod 8 4 == 0)

def shapeMbr (x : XOps) : Shape :=
  let cc := bfld x.mod 2 0
  xUse x ⟨false, cc != 0, false, false, true⟩ (isM x.ta && decide (cc < 5) && bfld x.mod 8 3 == 0)

/-- `mfrom`: s in IMM15 9:0, even, w in 8:4; or the clock. -/
def shapeMfrom (x : XOps) : Shape :=
  if bfld x.mod 0 0 == 1 then xUse x ⟨true, false, false, false, false⟩ (isM x.td && x.mod == 1)
  else xUse x ⟨true, false, false, false, true⟩
    (isM x.td && bfld x.mod 3 0 == 0 && bfld x.imm 14 10 == 0 && x.imm.toNat % 2 == 0)

/-! ### Fabric and system (Tables 16.2, 16.3, 17.9) -/

/-- RS of Table 16.3: 00 or 11. -/
def rsOk (m : MOps) : Bool := bfld m.mod 6 5 == 0 || bfld m.mod 6 5 == 3
def shapeFst (m : MOps) : Shape :=
  shapeM m (sizeRole (szM m)) (rsOk m && bfld m.mod 4 3 == 0 && decide (szM m < 5)) true
def shapeFld (m : MOps) : Shape :=
  shapeM m (sizeRole (szM m)) (rsOk m && bfld m.mod 4 3 == 0 && decide (szM m < 7))
def shapeFflag (m : MOps) : Shape :=
  shapeM m (if bfld m.mod 0 0 == 1 then .vd else .v) (rsOk m && bfld m.mod 3 1 == 0)
def shapeBlstat (u : UOps) : Shape :=
  uReg u .s (if bfld u.mod 2 0 == 2 then .s else .none) .none .none (decide (bfld u.mod 2 0 < 6) && bfld u.mod 7 3 == 0)

/-- Registers of Table 17.1 by number. -/
def srNumbers : List Nat :=
  [0x00, 0x01, 0x02, 0x03, 0x04, 0x05, 0x08, 0x09, 0x0A, 0x0B, 0x0C, 0x0D, 0x0E, 0x0F, 0x10, 0x18, 0x19, 0x1A, 0x1B,
    0x20, 0x21, 0x22, 0x23, 0x24, 0x25, 0x26, 0x27, 0x28, 0x29, 0x2A, 0x30, 0x31]
/-- The 64-bit ones. -/
def srWide (n : Nat) : Bool := [0x00, 0x01, 0x0B, 0x21, 0x22, 0x29, 0x30].contains n
/-- Those `wrsr` may write at all. -/
def srWritable (n : Nat) : Bool := [0x18, 0x21, 0x24, 0x25, 0x26, 0x27].contains n
/-- The register number of a word. -/
def srNum (u : UOps) : Nat :=
  match u.bc with
  | .imm k => k.toNat
  | .regs _ _ => 0

/-- The register operand of `rdsr` and `wrsr`: uniform or (V) vector, a pair for a 64-bit register. -/
def srRole (u : UOps) : Role :=
  match srWide (srNum u), u.mod == 1 with
  | false, false => .s
  | true, false => .sd
  | false, true => .vspan 1 1
  | true, true => .vspan 2 2

def srImm (k : BitVec 22) : Bool := srNumbers.contains k.toNat
def shapeRdsr (u : UOps) : Shape := uImm u (srRole u) .none srImm (decide (u.mod.toNat < 2))
def shapeWrsr (u : UOps) : Shape := uImm u .none (srRole u) srImm (decide (u.mod.toNat < 2))

def shapePgclass (m : MOps) : Shape := shapeM m .v (bfld m.mod 6 0 == 0)
def shapeCachewb (m : MOps) (pg : Nat) : Shape := shapeM m .none (bfld m.mod 6 0 == pg)
/-! ### Every instruction -/

/-- What an instruction accepts in its fields, and the registers it names (R29, R30, R36, R41 to R44). An event row is no
word. -/
def Instr.shape : Instr → Shape
  | .vadd f => viBin f (modI f.mod allW true true true 0)
  | .vsub f => viBin f (modI f.mod allW true true true 0)
  | .vmul f => viBin f (modI f.mod allW true true true 0)
  | .vmulh f => viBin f (modI f.mod [32, 16] true true false 0)
  | .vmad f => viTri f (modI f.mod [32, 16] true true true 0)
  | .vmadw f => shapeF f .vd .v .v .vd noImm (modI f.mod [32] true true false 0)
  | .vdiv f => viBin f (modI f.mod [32] true true true 0)
  | .vrem f => viBin f (modI f.mod [32] true true false 0)
  | .vabs f => viUn f (modI f.mod allW true false true 0)
  | .vmin f => viBin f (modI f.mod allW true true false 0)
  | .vmax f => viBin f (modI f.mod allW true true false 0)
  | .vand f => viBin f (modI f.mod [32] true false false 0)
  | .vor f => viBin f (modI f.mod [32] true false false 0)
  | .vxor f => viBin f (modI f.mod [32] true false false 0)
  | .vandn f => viBin f (modI f.mod [32] true false false 0)
  | .vshl f => viShift f (modI f.mod allW true false false 0)
  | .vshr f => viShift f (modI f.mod allW false true false 0)
  | .vsra f => viShift f (modI f.mod allW true false false 0)
  | .vrot f => viShift f (modI f.mod allW true false false 0)
  | .vclz f => viUn f (modI f.mod allW true false false 0)
  | .vpopc f => viUn f (modI f.mod allW true false false 0)
  | .vbrev f => viUn f (modI f.mod allW true false false 0)
  | .vbfe f => viBin f (modI f.mod [32] true true false 0)
  | .vbfi f => viTri f (modI f.mod [32] true false false 0)
  | .vaddc f => viTri f (modI f.mod [32] true false false (bfld f.mod 0 0))
  | .vdot4 f => viTri f (modI f.mod [8] true true true 0)
  | .vcmp f => shapeF f .p .v .v .none anyImm (modI f.mod [32] true true false (min 5 (bfld f.mod 3 0)))
  | .vsel f => shapeF f .v .v .v .none anyImm (modI f.mod [32] true false false 0) true
  | .vmov f => viUn f (modI f.mod [32] true false false 0)
  | .vmovi f => Role.v.field f.d.toNat
  | .vlea f => viBin f (modI f.mod [32] true false false (min 4 (bfld f.mod 3 0)))
  | .fadd f => vfBin f .v (modF f.mod [0, 1, 2] true sub0)
  | .fsub f => vfBin f .v (modF f.mod [0, 1, 2] true sub0)
  | .fmul f => vfBin f .v (modF f.mod [0, 1, 2] true sub0)
  | .ffma f => shapeF f .v .v .v .v noImm (modF f.mod [0, 1, 2] true sub0)
  | .fmin f => vfBin f .v (modF f.mod [0, 1, 2] false fun n => decide (n < 2))
  | .fmax f => vfBin f .v (modF f.mod [0, 1, 2] false fun n => decide (n < 2))
  | .fcmp f => vfBin f .p (modF f.mod [0] false fun _ => true)
  | .frcp f => shapeF f .v .v .none .none noImm (modF f.mod [0] false sub0)
  | .frsq f => shapeF f .v .v .none .none noImm (modF f.mod [0] false sub0)
  | .fsqrt f => shapeF f .v .v .none .none noImm (modF f.mod [0] true sub0)
  | .fdiv f => shapeF f .v .v .v .none noImm (modF f.mod [0] true sub0)
  | .fexp2 f => shapeF f .v .v .none .none noImm (modF f.mod [0] false sub0)
  | .flog2 f => shapeF f .v .v .none .none noImm (modF f.mod [0] false sub0)
  | .fsin f => shapeF f .v .v .none .none noImm (modF f.mod [0] false sub0)
  | .fcos f => shapeF f .v .v .none .none noImm (modF f.mod [0] false sub0)
  | .fclass f => shapeF f .v .v .none .none noImm (modF f.mod [0] false sub0)
  | .fdot2 f => shapeF f .v .v .v .v noImm (modF f.mod [1, 2] true sub0)
  | .fscale f => shapeF f .v .v .v .none noImm (modF f.mod [0] true sub0)
  | .cvt f => shapeCvt f
  | .cvtef f => shapeCvtef f
  | .frnd f => shapeFrnd f
  | .pack f => shapePack f
  | .unpack f => shapeUnpack f
  | .cbdec f => shapeCbdec f
  | .cbenc f => shapeCbenc f
  | .scget f => shapeScget f
  | .scapply f => shapeScapply f
  | .leesrd f => cvShape f .v .none .none (cvRM f == 0 && !cvUF f && !cvUT f && f.mod == 0)
  | .leeswr f => cvShape f .none .v .none (cvRM f == 0 && !cvUF f && !cvUT f && f.mod == 0)
  | .shfl f => shapeF f .v .v .v .none imm32 (decide (lnSub f < 4) && lnTy f == 0)
  | .vote f => shapeF f .p .p .none .none noImm (lnTy f == 0 && (decide (lnSub f < 2) || lnSub f == 3))
  | .voteBallot f => shapeF f .v .p .none .none noImm (lnMod f 2)
  | .lred f => lnRed f false
  | .lscan f => lnRed f true
  | .bcast f => shapeF f .v .v .v .none imm32 (lnMod f 0)
  | .v2s f => shapeF f .s .v .none .none noImm (lnMod f 0)
  | .s2v f => shapeF f .v .s .none .none noImm (lnMod f 0)
  | .amask f => shapeF f .v .none .none .none noImm (lnMod f 0)
  | .pand f => shapeF f .p .p .p .none noImm (lnMod f 0)
  | .por f => shapeF f .p .p .p .none noImm (lnMod f 0)
  | .pxor f => shapeF f .p .p .p .none noImm (lnMod f 0)
  | .pnot f => shapeF f .p .p .none .none noImm (lnMod f 0)
  | .pmov f => shapePmov f
  | .sadd u => suBin u false sub0
  | .ssub u => suBin u false sub0
  | .smul u => suBin u false sub0
  | .smulh u => suBin u true sub0
  | .smad u => shapeU u (uR u) (uR u) (uR u) (uR u) noImm (modU u false sub0)
  | .sdiv u => suBin u true fun n => decide (n < 2)
  | .smin u => suBin u true sub0
  | .smax u => suBin u true sub0
  | .sand u => suBin u false sub0
  | .sor u => suBin u false sub0
  | .sxor u => suBin u false sub0
  | .sshl u => suBin u false sub0
  | .sshr u => suBin u false sub0
  | .ssra u => suBin u false sub0
  | .sclz u => suUn u
  | .spopc u => suUn u
  | .scmp u => shapeU u (uR u) (uR u) (uR u) .none anyImm (modU u true fun n => decide (n < 6))
  | .ssel u => shapeU u (uR u) (uR u) (uR u) .s noImm (modU u false sub0)
  | .smov u => suUn u
  | .smovi u => Role.s.field u.d.toNat
  | .sfadd u => shapeU u .s .s .s .none anyImm (modUF u true sub0)
  | .sfmul u => shapeU u .s .s .s .none anyImm (modUF u true sub0)
  | .sffma u => shapeU u .s .s .s .s noImm (modUF u true sub0)
  | .sfcmp u => shapeU u (.sspan 2 1) .s .s .none anyImm (modUF u false fun _ => true)
  | .scvt u => shapeScvt u
  | .slea u => shapeU u (uR u) (uR u) .s .none anyImm (modU u true fun n => decide (n < 5))
  | .pairedWord p => shapePair p
  | .bra f => fImm f .none .none anyImm (f.mod == 0) true
  | .sbra f => shapeSbra f
  | .brx f => fReg f .none .vd (f.mod == 0) true
  | .call f => fImm f .vd .none anyImm (f.mod == 0) true
  | .callx f => fReg f .vd .vd (f.mod == 0) true
  | .ret f => fReg f .none .vd (f.mod == 0)
  | .meet f => fImm f .none .none anyImm (f.mod == 0)
  | .meetPop f => fReg f .none .none (f.mod == 1)
  | .land f => shapeLand f
  | .exit f => fReg f .none .none (f.mod == 0)
  | .nop f => fReg f .none .none (f.mod == 0)
  | .yield f => fReg f .none .none (f.mod == 0)
  | .trap f => fImm f .none .none (below 128) (f.mod == 0)
  | .brk f => shapeBrk f
  | .sleep f => fImm f .none .none (below 131072) (f.mod == 0)
  | .sleepUntil f => fReg f .none .sd (f.mod == 1)
  | .spawn f => fImm f .p (.vspan 8 8) anyImm (f.mod == 0)
  | .binflush u => uReg u .none .none .none .none (u.mod == 0)
  | .binflushLabel u => uImm u .none .none anyImm (u.mod == 1)
  | .launch u => uReg u .sd .cap .none .none (u.mod == 0)
  | .lwait u => uReg u .s .s .none .none (u.mod == 0)
  | .fetchw u => uReg u .s .s .cap .s (u.mod == 0)
  | .prio u => uEither u .none (below 8) (u.mod == 0)
  | .ld m => shapeM m (sizeRole (szM m)) (decide (szM m < 7))
  | .st m => shapeM m (sizeRole (szM m)) (decide (szM m < 5)) true
  | .ldc m => shapeM m .vq (szM m == 4)
  | .stc m => shapeM m .vq (szM m == 4) true
  | .pf m => shapePf m
  | .cbnd f => shapeCbnd f
  | .cperm f => shapeCperm f
  | .ctest f => shapeCtest f
  | .cmov f => shapeCmov f
  | .cfromh f => shapeF f .cap .s .sd .none noImm (f.mod == 0)
  | .atom m => shapeM m (aOne m) (opkOk m) true
  | .red m => shapeM m (aOne m) (opkOk m) true
  | .cas m => shapeM m (aTwo m) (opkA m == 0) true
  | .dcas m => shapeM2 m .vq (opkA m == 0 && !szA m)
  | .atom2 m => shapeM2 m (aTwo m) (opkOk m)
  | .amov2 m => shapeM2 m (aTwo m) (opkA m == 0)
  | .lres m => shapeM m (aOne m) (opkA m == 0)
  | .scond m => shapeM m (aOne m) (opkA m == 0)
  | .fence u => shapeFence u (fun k => decide (k < 3)) (fun _ => true)
  | .fenceSc u => shapeFence u (fun k => k == 3) (fun c => decide (2 ≤ c))
  | .acqr u => uEither u .none (below 256) (u.mod == 0)
  | .barSync u => shapeBar u 0
  | .barArrive u => shapeBar u 1
  | .barWait u => shapeBar u 2
  | .mon m => shapeM m (aOne m) (opkA m == 0)
  | .mwait u => uEither u .none (below 2097152) (u.mod == 0)
  | .ropenWave u => uImm u .p .none anyImm (u.mod == 0)
  | .ropenBlk u => uImm u .p .none anyImm (blkMod u.mod)
  | .rcommitWave u => uReg u .none .none .none .none (u.mod == 0)
  | .rcommitBlk u => uReg u .none .none .none .none (blkMod u.mod)
  | .rabortWave u => uImm u .none .none (below 256) (u.mod == 0)
  | .rabortBlk u => uImm u .none .none (below 256) (u.mod == 0x80#8)
  | .rstat u => uReg u .s .none .none .none (u.mod == 0)
  | .ship m => shapeShip m
  | .shipt m => shapeShip m
  | .shipp m => shapeShip m
  | .shwait u => shapeShwait u
  | .shtest u => uReg u .p (.vspan 1 1) .none .none (u.mod == 0)
  | .shret f => shapeShret f
  | .homeof m => (shapeM m .v (bfld m.mod 6 0 == 0)).and (.need (!m.pr))
  | .pushCopy u => shapePush u 0
  | .pushFab u => shapePush u 1
  | .wait u => shapeWait u
  | .gset u => uEither u (.bits 4) (below 3) (u.mod == 0)
  | .gbind u => uReg u (.bits 4) .none .none .none (u.mod == 0)
  | .rfence u => uReg u .none .none .none .none (u.mod == 0)
  | .ocrd u => shapeOcrd u
  | .vdopen u => shapeVdopen u
  | .vdacc f => shapeVdacc f
  | .vdend u => uReg u .s .none .none .none (u.mod == 0)
  | .vdtest f => fReg f .p .v (decide (f.mod.toNat < 4))
  | .thmax m => shapeM m .v (bfld m.mod 4 0 == 0)
  | .vdstat u => uReg u .s .none .none .none (u.mod == 0)
  | .pgbind u => shapePg u
  | .pgnext f => shapePgnext f
  | .pgnextt f => shapePgnext f
  | .pgsave u => shapePg u
  | .pgrest u => shapePg u
  | .sopen m => shapeSopen m
  | .sopenRd m => shapeSopenRd m
  | .sisect u => shapeList u
  | .sunion u => shapeList u
  | .sdiff u => shapeList u
  | .smerge u => shapeList u
  | .spart u => uReg u .cap .cap .sd .none (u.mod == 0)
  | .sclose u => uReg u qRole .none .none .none (u.mod == 0)
  | .tctl x => xUse x ⟨true, false, false, true, false⟩ (x.mod == 0)
  | .tctlR x => xUse x ⟨true, false, false, true, false⟩ (x.mod == 1)
  | .tld x => shapeTld x
  | .tst x => shapeTld x
  | .tzero x => xUse x ⟨true, false, false, false, false⟩ (x.mod == 0)
  | .tmma x => xUse x ⟨true, true, true, false, false⟩ (x.mod == 0)
  | .tmmas x => shapeTmmas x 0
  | .tmmacb x => shapeTmmacb x
  | .tmmasp x => shapeTmmasp x
  | .tcvt x => xUse x ⟨true, true, false, false, false⟩ (decide (x.mod.toNat < 4))
  | .tmov x => xUse x ⟨true, true, false, false, false⟩ (decide (x.mod.toNat < 2))
  | .tew x => shapeTew x
  | .mbar x => shapeMbar x
  | .madd x => shapeMadd x
  | .mmovi x => shapeX (isM x.td && decide (x.mod.toNat < 3))
  | .mbr x => shapeMbr x
  | .mloop x => xUse x ⟨false, true, false, false, true⟩ (isM x.ta && x.mod == 0)
  | .mend x => xUse x ⟨false, false, false, false, false⟩ (x.mod == 0)
  | .mfrom x => shapeMfrom x
  | .fst m => shapeFst m
  | .fld m => shapeFld m
  | .fatom m => shapeM m (aOne m) (rsOk m && opkOk m) true
  | .fflag m => shapeFflag m
  | .ffence u => uReg u .none .none .none .none (u.mod == 0)
  | .blstat u => shapeBlstat u
  | .rdsr u => shapeRdsr u
  | .wrsr u => shapeWrsr u
  | .tret u => uReg u .none .none .none .none (u.mod == 0)
  | .tretMig u => uReg u .none .none .none .none (u.mod == 1)
  | .tlbinv u => uReg u .none .sd .s .none (u.mod == 0)
  | .tlbinvAll u => uReg u .none .none .s .none (u.mod == 1)
  | .pgclass m => shapePgclass m
  | .cachewb m => shapeCachewb m 0
  | .cachewbPg m => shapeCachewb m 1
  | .halt u => uImm u .none .none (below 256) (u.mod == 0)
  | _ => .ok

/-- The fields of a word. -/
inductive Body where
  | f (f : FOps) | vmovi (f : VMovi) | u (u : UOps) | smovi (u : SMovi) | m (m : MOps) | x (x : XOps)
  | mmovi (x : MMovi) | p (p : Pair) | none
deriving DecidableEq, Repr

/-- The opcode of a word (Table 2.10), and its fields; a paired word has no opcode, an event row no word. -/
def Instr.word : Instr → Nat × Body
  | .vadd f => (0x000, .f f)
  | .vsub f => (0x001, .f f)
  | .vmul f => (0x002, .f f)
  | .vmulh f => (0x003, .f f)
  | .vmad f => (0x004, .f f)
  | .vmadw f => (0x005, .f f)
  | .vdiv f => (0x006, .f f)
  | .vrem f => (0x007, .f f)
  | .vabs f => (0x008, .f f)
  | .vmin f => (0x009, .f f)
  | .vmax f => (0x00A, .f f)
  | .vand f => (0x00B, .f f)
  | .vor f => (0x00C, .f f)
  | .vxor f => (0x00D, .f f)
  | .vandn f => (0x00E, .f f)
  | .vshl f => (0x00F, .f f)
  | .vshr f => (0x010, .f f)
  | .vsra f => (0x011, .f f)
  | .vrot f => (0x012, .f f)
  | .vclz f => (0x013, .f f)
  | .vpopc f => (0x014, .f f)
  | .vbrev f => (0x015, .f f)
  | .vbfe f => (0x016, .f f)
  | .vbfi f => (0x017, .f f)
  | .vaddc f => (0x018, .f f)
  | .vdot4 f => (0x019, .f f)
  | .vcmp f => (0x01A, .f f)
  | .vsel f => (0x01B, .f f)
  | .vmov f => (0x01C, .f f)
  | .vmovi f => (0x01D, .vmovi f)
  | .vlea f => (0x01E, .f f)
  | .fadd f => (0x080, .f f)
  | .fsub f => (0x081, .f f)
  | .fmul f => (0x082, .f f)
  | .ffma f => (0x083, .f f)
  | .fmin f => (0x084, .f f)
  | .fmax f => (0x085, .f f)
  | .fcmp f => (0x086, .f f)
  | .frcp f => (0x087, .f f)
  | .frsq f => (0x088, .f f)
  | .fsqrt f => (0x089, .f f)
  | .fdiv f => (0x08A, .f f)
  | .fexp2 f => (0x08B, .f f)
  | .flog2 f => (0x08C, .f f)
  | .fsin f => (0x08D, .f f)
  | .fcos f => (0x08E, .f f)
  | .fclass f => (0x08F, .f f)
  | .fdot2 f => (0x090, .f f)
  | .fscale f => (0x091, .f f)
  | .cvt f => (0x100, .f f)
  | .cvtef f => (0x101, .f f)
  | .frnd f => (0x102, .f f)
  | .pack f => (0x103, .f f)
  | .unpack f => (0x104, .f f)
  | .cbdec f => (0x105, .f f)
  | .cbenc f => (0x106, .f f)
  | .scget f => (0x107, .f f)
  | .scapply f => (0x108, .f f)
  | .leesrd f => (0x109, .f f)
  | .leeswr f => (0x10A, .f f)
  | .shfl f => (0x140, .f f)
  | .vote f => (0x141, .f f)
  | .voteBallot f => (0x141, .f f)
  | .lred f => (0x142, .f f)
  | .lscan f => (0x143, .f f)
  | .bcast f => (0x144, .f f)
  | .v2s f => (0x145, .f f)
  | .s2v f => (0x146, .f f)
  | .amask f => (0x147, .f f)
  | .pand f => (0x148, .f f)
  | .por f => (0x149, .f f)
  | .pxor f => (0x14A, .f f)
  | .pnot f => (0x14B, .f f)
  | .pmov f => (0x14C, .f f)
  | .sadd u => (0x180, .u u)
  | .ssub u => (0x181, .u u)
  | .smul u => (0x182, .u u)
  | .smulh u => (0x183, .u u)
  | .smad u => (0x184, .u u)
  | .sdiv u => (0x185, .u u)
  | .smin u => (0x186, .u u)
  | .smax u => (0x187, .u u)
  | .sand u => (0x188, .u u)
  | .sor u => (0x189, .u u)
  | .sxor u => (0x18A, .u u)
  | .sshl u => (0x18B, .u u)
  | .sshr u => (0x18C, .u u)
  | .ssra u => (0x18D, .u u)
  | .sclz u => (0x18E, .u u)
  | .spopc u => (0x18F, .u u)
  | .scmp u => (0x190, .u u)
  | .ssel u => (0x191, .u u)
  | .smov u => (0x192, .u u)
  | .smovi u => (0x193, .smovi u)
  | .sfadd u => (0x194, .u u)
  | .sfmul u => (0x195, .u u)
  | .sffma u => (0x196, .u u)
  | .sfcmp u => (0x197, .u u)
  | .scvt u => (0x198, .u u)
  | .slea u => (0x199, .u u)
  | .pairedWord p => (0, .p p)
  | .bra f => (0x1C0, .f f)
  | .sbra f => (0x1C1, .f f)
  | .brx f => (0x1C2, .f f)
  | .call f => (0x1C3, .f f)
  | .callx f => (0x1C4, .f f)
  | .ret f => (0x1C5, .f f)
  | .meet f => (0x1C6, .f f)
  | .meetPop f => (0x1C6, .f f)
  | .land f => (0x1C7, .f f)
  | .exit f => (0x1C8, .f f)
  | .nop f => (0x1C9, .f f)
  | .yield f => (0x1CA, .f f)
  | .trap f => (0x1CB, .f f)
  | .brk f => (0x1CC, .f f)
  | .sleep f => (0x1CD, .f f)
  | .sleepUntil f => (0x1CD, .f f)
  | .spawn f => (0x200, .f f)
  | .binflush u => (0x201, .u u)
  | .binflushLabel u => (0x201, .u u)
  | .launch u => (0x202, .u u)
  | .lwait u => (0x203, .u u)
  | .fetchw u => (0x204, .u u)
  | .prio u => (0x205, .u u)
  | .ld m => (0x240, .m m)
  | .st m => (0x241, .m m)
  | .ldc m => (0x242, .m m)
  | .stc m => (0x243, .m m)
  | .pf m => (0x244, .m m)
  | .cbnd f => (0x245, .f f)
  | .cperm f => (0x246, .f f)
  | .ctest f => (0x247, .f f)
  | .cmov f => (0x248, .f f)
  | .cfromh f => (0x249, .f f)
  | .atom m => (0x280, .m m)
  | .red m => (0x281, .m m)
  | .cas m => (0x282, .m m)
  | .dcas m => (0x283, .m m)
  | .atom2 m => (0x284, .m m)
  | .amov2 m => (0x285, .m m)
  | .lres m => (0x286, .m m)
  | .scond m => (0x287, .m m)
  | .fence u => (0x288, .u u)
  | .fenceSc u => (0x288, .u u)
  | .acqr u => (0x289, .u u)
  | .barSync u => (0x28A, .u u)
  | .barArrive u => (0x28A, .u u)
  | .barWait u => (0x28A, .u u)
  | .mon m => (0x28B, .m m)
  | .mwait u => (0x28C, .u u)
  | .ropenWave u => (0x2C0, .u u)
  | .ropenBlk u => (0x2C0, .u u)
  | .rcommitWave u => (0x2C1, .u u)
  | .rcommitBlk u => (0x2C1, .u u)
  | .rabortWave u => (0x2C2, .u u)
  | .rabortBlk u => (0x2C2, .u u)
  | .rstat u => (0x2C3, .u u)
  | .ship m => (0x2E0, .m m)
  | .shipt m => (0x2E1, .m m)
  | .shipp m => (0x2E2, .m m)
  | .shwait u => (0x2E3, .u u)
  | .shtest u => (0x2E4, .u u)
  | .shret f => (0x2E5, .f f)
  | .homeof m => (0x2E6, .m m)
  | .pushCopy u => (0x300, .u u)
  | .pushFab u => (0x300, .u u)
  | .wait u => (0x301, .u u)
  | .gset u => (0x302, .u u)
  | .gbind u => (0x303, .u u)
  | .rfence u => (0x304, .u u)
  | .ocrd u => (0x305, .u u)
  | .vdopen u => (0x320, .u u)
  | .vdacc f => (0x321, .f f)
  | .vdend u => (0x322, .u u)
  | .vdtest f => (0x323, .f f)
  | .thmax m => (0x324, .m m)
  | .vdstat u => (0x325, .u u)
  | .pgbind u => (0x340, .u u)
  | .pgnext f => (0x341, .f f)
  | .pgnextt f => (0x342, .f f)
  | .pgsave u => (0x343, .u u)
  | .pgrest u => (0x344, .u u)
  | .sopen m => (0x345, .m m)
  | .sopenRd m => (0x345, .m m)
  | .sisect u => (0x346, .u u)
  | .sunion u => (0x347, .u u)
  | .sdiff u => (0x348, .u u)
  | .smerge u => (0x349, .u u)
  | .spart u => (0x34A, .u u)
  | .sclose u => (0x34B, .u u)
  | .tctl x => (0x380, .x x)
  | .tctlR x => (0x380, .x x)
  | .tld x => (0x381, .x x)
  | .tst x => (0x382, .x x)
  | .tzero x => (0x383, .x x)
  | .tmma x => (0x384, .x x)
  | .tmmas x => (0x385, .x x)
  | .tmmacb x => (0x386, .x x)
  | .tmmasp x => (0x387, .x x)
  | .tcvt x => (0x388, .x x)
  | .tmov x => (0x389, .x x)
  | .tew x => (0x38A, .x x)
  | .mbar x => (0x38B, .x x)
  | .madd x => (0x38C, .x x)
  | .mmovi x => (0x38D, .mmovi x)
  | .mbr x => (0x38E, .x x)
  | .mloop x => (0x38F, .x x)
  | .mend x => (0x390, .x x)
  | .mfrom x => (0x391, .x x)
  | .fst m => (0x3C0, .m m)
  | .fld m => (0x3C1, .m m)
  | .fatom m => (0x3C2, .m m)
  | .fflag m => (0x3C3, .m m)
  | .ffence u => (0x3C4, .u u)
  | .blstat u => (0x3C5, .u u)
  | .rdsr u => (0x3D0, .u u)
  | .wrsr u => (0x3D1, .u u)
  | .tret u => (0x3D2, .u u)
  | .tretMig u => (0x3D2, .u u)
  | .tlbinv u => (0x3D3, .u u)
  | .tlbinvAll u => (0x3D3, .u u)
  | .pgclass m => (0x3D4, .m m)
  | .cachewb m => (0x3D5, .m m)
  | .cachewbPg m => (0x3D5, .m m)
  | .halt u => (0x3D6, .u u)
  | _ => (0x400, .none)

/-- The opcode. -/
def Instr.opcode (i : Instr) : Nat := i.word.1

/-- Pure register arithmetic (R31). -/
def Instr.arith (i : Instr) : Bool :=
  decide (i.opcode < 0x1C0) || i.opcode == 0x1C7 || i.opcode == 0x1C9

/-- The feature group of an opcode as a bit of sr.fmask (Tables 2.13, 17.8). -/
def featureOf (op : Nat) : Option Nat :=
  let within := fun (a b : Nat) => decide (a ≤ op) && decide (op ≤ b)
  if within 0x384 0x387 then some 0
  else if within 0x380 0x383 || within 0x388 0x38A then some 1
  else if within 0x340 0x344 then some 2
  else if within 0x345 0x34B then some 3
  else if within 0x320 0x325 then some 4
  else if within 0x200 0x201 then some 5
  else if within 0x2C0 0x2C3 then some 6
  else if within 0x3C0 0x3C5 then some 7
  else if within 0x2E0 0x2E2 then some 8
  else none

/-- The feature group of an instruction. -/
def Instr.feature (i : Instr) : Option Nat := featureOf i.opcode

/-- The instruction raises PRIVILEGED in a thread of a launch of the given privilege, inside or outside the trap handler
(R409, R422; tlbinv and pgclass by the launch, R420). -/
def Instr.privileged (i : Instr) (priv tm : Bool) : Bool :=
  match i with
  | .wrsr u => !srWritable (srNum u) || (srNum u != 0x18 && !tm)
  | .tret _ | .tretMig _ => !tm
  | .tlbinv _ | .tlbinvAll _ | .pgclass _ => !priv
  | _ => false
/-! ### The decoder (R21, R45, R47, R48) -/

/-- Opcodes of form F. -/
def fTable0 : List (Nat × (FOps → Instr)) :=
  [(0x000, .vadd),
    (0x001, .vsub),
    (0x002, .vmul),
    (0x003, .vmulh),
    (0x004, .vmad),
    (0x005, .vmadw),
    (0x006, .vdiv),
    (0x007, .vrem),
    (0x008, .vabs),
    (0x009, .vmin),
    (0x00A, .vmax),
    (0x00B, .vand),
    (0x00C, .vor),
    (0x00D, .vxor),
    (0x00E, .vandn),
    (0x00F, .vshl),
    (0x010, .vshr),
    (0x011, .vsra),
    (0x012, .vrot),
    (0x013, .vclz),
    (0x014, .vpopc),
    (0x015, .vbrev),
    (0x016, .vbfe),
    (0x017, .vbfi),
    (0x018, .vaddc),
    (0x019, .vdot4),
    (0x01A, .vcmp),
    (0x01B, .vsel),
    (0x01C, .vmov),
    (0x01E, .vlea),
    (0x080, .fadd),
    (0x081, .fsub),
    (0x082, .fmul),
    (0x083, .ffma),
    (0x084, .fmin),
    (0x085, .fmax),
    (0x086, .fcmp),
    (0x087, .frcp),
    (0x088, .frsq),
    (0x089, .fsqrt)]

/-- Opcodes of form F. -/
def fTable1 : List (Nat × (FOps → Instr)) :=
  [(0x08A, .fdiv),
    (0x08B, .fexp2),
    (0x08C, .flog2),
    (0x08D, .fsin),
    (0x08E, .fcos),
    (0x08F, .fclass),
    (0x090, .fdot2),
    (0x091, .fscale),
    (0x100, .cvt),
    (0x101, .cvtef),
    (0x102, .frnd),
    (0x103, .pack),
    (0x104, .unpack),
    (0x105, .cbdec),
    (0x106, .cbenc),
    (0x107, .scget),
    (0x108, .scapply),
    (0x109, .leesrd),
    (0x10A, .leeswr),
    (0x140, .shfl),
    (0x141, fun f => if lnSub f == 2 then .voteBallot f else .vote f),
    (0x142, .lred),
    (0x143, .lscan),
    (0x144, .bcast),
    (0x145, .v2s),
    (0x146, .s2v),
    (0x147, .amask),
    (0x148, .pand),
    (0x149, .por),
    (0x14A, .pxor),
    (0x14B, .pnot),
    (0x14C, .pmov),
    (0x1C0, .bra),
    (0x1C1, .sbra),
    (0x1C2, .brx),
    (0x1C3, .call),
    (0x1C4, .callx),
    (0x1C5, .ret),
    (0x1C6, fun f => if f.mod == 1 then .meetPop f else .meet f),
    (0x1C7, .land)]

/-- Opcodes of form F. -/
def fTable2 : List (Nat × (FOps → Instr)) :=
  [(0x1C8, .exit),
    (0x1C9, .nop),
    (0x1CA, .yield),
    (0x1CB, .trap),
    (0x1CC, .brk),
    (0x1CD, fun f => if f.mod == 1 then .sleepUntil f else .sleep f),
    (0x200, .spawn),
    (0x245, .cbnd),
    (0x246, .cperm),
    (0x247, .ctest),
    (0x248, .cmov),
    (0x249, .cfromh),
    (0x2E5, .shret),
    (0x321, .vdacc),
    (0x323, .vdtest),
    (0x341, .pgnext),
    (0x342, .pgnextt)]

/-- Opcodes of form F. -/
def fTable : List (Nat × (FOps → Instr)) := fTable0 ++ fTable1 ++ fTable2

/-- Opcodes of form U. -/
def uTable0 : List (Nat × (UOps → Instr)) :=
  [(0x180, .sadd),
    (0x181, .ssub),
    (0x182, .smul),
    (0x183, .smulh),
    (0x184, .smad),
    (0x185, .sdiv),
    (0x186, .smin),
    (0x187, .smax),
    (0x188, .sand),
    (0x189, .sor),
    (0x18A, .sxor),
    (0x18B, .sshl),
    (0x18C, .sshr),
    (0x18D, .ssra),
    (0x18E, .sclz),
    (0x18F, .spopc),
    (0x190, .scmp),
    (0x191, .ssel),
    (0x192, .smov),
    (0x194, .sfadd),
    (0x195, .sfmul),
    (0x196, .sffma),
    (0x197, .sfcmp),
    (0x198, .scvt),
    (0x199, .slea),
    (0x201, fun u => if u.mod == 1 then .binflushLabel u else .binflush u),
    (0x202, .launch),
    (0x203, .lwait),
    (0x204, .fetchw),
    (0x205, .prio),
    (0x288, fun u => if bfld u.mod 2 0 == 3 then .fenceSc u else .fence u),
    (0x289, .acqr),
    (0x28A, fun u => match bfld u.mod 1 0 with | 1 => .barArrive u | 2 => .barWait u | _ => .barSync u),
    (0x28C, .mwait),
    (0x2C0, fun u => if u.mod == 0 then .ropenWave u else .ropenBlk u),
    (0x2C1, fun u => if u.mod == 0 then .rcommitWave u else .rcommitBlk u),
    (0x2C2, fun u => if u.mod == 0 then .rabortWave u else .rabortBlk u),
    (0x2C3, .rstat),
    (0x2E3, .shwait),
    (0x2E4, .shtest)]

/-- Opcodes of form U. -/
def uTable1 : List (Nat × (UOps → Instr)) :=
  [(0x300, fun u => if bfld u.mod 0 0 == 1 then .pushFab u else .pushCopy u),
    (0x301, .wait),
    (0x302, .gset),
    (0x303, .gbind),
    (0x304, .rfence),
    (0x305, .ocrd),
    (0x320, .vdopen),
    (0x322, .vdend),
    (0x325, .vdstat),
    (0x340, .pgbind),
    (0x343, .pgsave),
    (0x344, .pgrest),
    (0x346, .sisect),
    (0x347, .sunion),
    (0x348, .sdiff),
    (0x349, .smerge),
    (0x34A, .spart),
    (0x34B, .sclose),
    (0x3C4, .ffence),
    (0x3C5, .blstat),
    (0x3D0, .rdsr),
    (0x3D1, .wrsr),
    (0x3D2, fun u => if u.mod == 1 then .tretMig u else .tret u),
    (0x3D3, fun u => if u.mod == 1 then .tlbinvAll u else .tlbinv u),
    (0x3D6, .halt)]

/-- Opcodes of form U. -/
def uTable : List (Nat × (UOps → Instr)) := uTable0 ++ uTable1

/-- Opcodes of form M. -/
def mTable : List (Nat × (MOps → Instr)) :=
  [(0x240, .ld),
    (0x241, .st),
    (0x242, .ldc),
    (0x243, .stc),
    (0x244, .pf),
    (0x280, .atom),
    (0x281, .red),
    (0x282, .cas),
    (0x283, .dcas),
    (0x284, .atom2),
    (0x285, .amov2),
    (0x286, .lres),
    (0x287, .scond),
    (0x28B, .mon),
    (0x2E0, .ship),
    (0x2E1, .shipt),
    (0x2E2, .shipp),
    (0x2E6, .homeof),
    (0x324, .thmax),
    (0x345, fun m => if bfld m.mod 0 0 == 1 then .sopenRd m else .sopen m),
    (0x3C0, .fst),
    (0x3C1, .fld),
    (0x3C2, .fatom),
    (0x3C3, .fflag),
    (0x3D4, .pgclass),
    (0x3D5, fun m => if bfld m.mod 0 0 == 1 then .cachewbPg m else .cachewb m)]

/-- Opcodes of form X. -/
def xTable : List (Nat × (XOps → Instr)) :=
  [(0x380, fun x => if x.mod == 1 then .tctlR x else .tctl x),
    (0x381, .tld),
    (0x382, .tst),
    (0x383, .tzero),
    (0x384, .tmma),
    (0x385, .tmmas),
    (0x386, .tmmacb),
    (0x387, .tmmasp),
    (0x388, .tcvt),
    (0x389, .tmov),
    (0x38A, .tew),
    (0x38B, .mbar),
    (0x38C, .madd),
    (0x38E, .mbr),
    (0x38F, .mloop),
    (0x390, .mend),
    (0x391, .mfrom)]

/-- The fields of each form (Tables 2.2 to 2.6), cut out of the word. -/
def fGuard (w : DWord) : Guard := ⟨w.extractLsb' 10 3, w.getLsbD 9⟩

/-- A source field with its latch bit. -/
def vsrcOf (latch : Bool) (x : BitVec 8) : VSrc := if latch then .latch (x.extractLsb' 0 2) else .reg x

def fFields (w : DWord) : FOps where
  e := w.getLsbD 61
  d := w.extractLsb' 43 8
  w := w.getLsbD 42
  l := w.extractLsb' 40 2
  a := vsrcOf (w.getLsbD 31) (w.extractLsb' 32 8)
  bc := if w.getLsbD 8 then .imm (w.extractLsb' 13 18)
    else .regs (vsrcOf (w.getLsbD 22) (w.extractLsb' 23 8)) (vsrcOf (w.getLsbD 13) (w.extractLsb' 14 8))
  g := fGuard w
  mod := w.extractLsb' 0 8

def uFields (w : DWord) : UOps where
  e := w.getLsbD 61
  d := w.extractLsb' 41 10
  a := w.extractLsb' 31 10
  bc := if w.getLsbD 8 then .imm (w.extractLsb' 9 22) else .regs (w.extractLsb' 21 10) (w.extractLsb' 11 10)
  mod := w.extractLsb' 0 8

def mFields (w : DWord) : MOps where
  e := w.getLsbD 61
  data := w.extractLsb' 43 8
  cap := w.extractLsb' 38 5
  ofs := w.extractLsb' 30 8
  pr := w.getLsbD 29
  sh := w.extractLsb' 26 3
  disp := w.extractLsb' 13 13
  g := fGuard w
  mod := w.extractLsb' 0 9

def xFields (w : DWord) : XOps where
  td := w.extractLsb' 44 7
  ta := w.extractLsb' 37 7
  tb := w.extractLsb' 30 7
  mr := w.extractLsb' 24 6
  imm := w.extractLsb' 9 15
  mod := w.extractLsb' 0 9

def slotFields (x : BitVec 30) : PSlot where
  sop := x.extractLsb' 22 8
  d := x.extractLsb' 15 7
  a := x.extractLsb' 8 7
  la := x.getLsbD 7
  imm := x.extractLsb' 0 7

/-- The instruction a word of kind 00 holds, by its opcode alone; none for an unassigned opcode. -/
def rawOpcode (w : DWord) : Option Instr :=
  let op := (w.extractLsb' 51 10).toNat
  if op = 0x01D then some (.vmovi ⟨w.getLsbD 61, w.extractLsb' 43 8, w.extractLsb' 8 32⟩)
  else if op = 0x193 then some (.smovi ⟨w.getLsbD 61, w.extractLsb' 41 10, w.extractLsb' 8 32⟩)
  else if op = 0x38D then some (.mmovi ⟨w.extractLsb' 44 7, w.extractLsb' 9 32, w.extractLsb' 0 9⟩)
  else match fTable.lookup op with
    | some k => some (k (fFields w))
    | none => match uTable.lookup op with
      | some k => some (k (uFields w))
      | none => match mTable.lookup op with
        | some k => some (k (mFields w))
        | none => (xTable.lookup op).map fun k => k (xFields w)

/-- Checks 1 and 2 of R48: the kind and the opcode. -/
def decodeRaw (w : DWord) : Except Reject Instr :=
  match (w.extractLsb' 62 2).toNat with
  | 0 => match rawOpcode w with
    | some i => .ok i
    | none => .error .opcode
  | 1 => .ok (.pairedWord ⟨w.getLsbD 61, slotFields (w.extractLsb' 31 30), slotFields (w.extractLsb' 1 30)⟩)
  | _ => .error .kind

/-! ### The encoder (Tables 2.1 to 2.6) -/

/-- A source field and its latch bit. -/
def VSrc.bits : VSrc → BitVec 8
  | .reg r => r
  | .latch k => k.setWidth 8
def VSrc.isLatch : VSrc → Bool
  | .reg _ => false
  | .latch _ => true

/-- Bits 30:13 of form F, and the I bit: the sources b and c with their latch bits, or the immediate. -/
def FSrc.bits : FSrc → BitVec 18
  | .regs b c => b.bits ++ BitVec.ofBool b.isLatch ++ c.bits ++ BitVec.ofBool c.isLatch
  | .imm k => k
def FSrc.isImm : FSrc → Bool
  | .regs _ _ => false
  | .imm _ => true

/-- Bits 30:9 of form U. -/
def USrc.bits : USrc → BitVec 22
  | .regs b c => b ++ c ++ 0#2
  | .imm k => k

def Guard.bits (g : Guard) : BitVec 4 := g.p ++ BitVec.ofBool g.neg

def fBits (f : FOps) : BitVec 51 :=
  f.d ++ BitVec.ofBool f.w ++ f.l ++ f.a.bits ++ BitVec.ofBool f.a.isLatch ++ f.bc.bits ++ f.g.bits ++
    BitVec.ofBool f.bc.isImm ++ f.mod
def uBits (u : UOps) : BitVec 51 := u.d ++ u.a ++ u.bc.bits ++ BitVec.ofBool u.bc.isImm ++ u.mod
def mBits (m : MOps) : BitVec 51 :=
  m.data ++ m.cap ++ m.ofs ++ BitVec.ofBool m.pr ++ m.sh ++ m.disp ++ m.g.bits ++ m.mod
def xBits (x : XOps) : BitVec 51 := x.td ++ x.ta ++ x.tb ++ x.mr ++ x.imm ++ x.mod
def slotBits (t : PSlot) : BitVec 30 := t.sop ++ t.d ++ t.a ++ BitVec.ofBool t.la ++ t.imm

/-- A word of kind 00: E, the opcode, the fields. -/
def word00 (e : Bool) (op : Nat) (x : BitVec 51) : DWord := 0#2 ++ BitVec.ofBool e ++ BitVec.ofNat 10 op ++ x

/-- The word of an instruction; an event row has none. -/
def encode (i : Instr) : Option DWord :=
  let op := i.opcode
  match i.word.2 with
  | .f f => some (word00 f.e op (fBits f))
  | .vmovi f => some (word00 f.e op (f.d ++ 0#3 ++ f.imm ++ 0#8))
  | .u u => some (word00 u.e op (uBits u))
  | .smovi u => some (word00 u.e op (u.d ++ 0#1 ++ u.imm ++ 0#8))
  | .m m => some (word00 m.e op (mBits m))
  | .x x => some (word00 false op (xBits x))
  | .mmovi x => some (word00 false op (x.td ++ 0#3 ++ x.imm ++ x.mod))
  | .p p => some (1#2 ++ BitVec.ofBool p.e ++ slotBits p.s0 ++ slotBits p.s1 ++ 0#1)
  | .none => none

/-! ### Decoding as a whole (R48) -/

/-- Checks 5 to 7 of R48 on a word already told apart: a bit no field of the instruction holds is a reserved bit, and
must be zero. -/
def Instr.check (i : Instr) (w : DWord) : Option Reject :=
  let bad := !i.shape.legal || encode i != some w
  match i with
  | .pairedWord p => if !pairOk p || bad then some .pair else none
  | _ => if bad then some .illegal else if !i.shape.guard then some .guard else none

/-- The instruction of a word, or why it is none. -/
def decode (w : DWord) : Except Reject Instr :=
  match decodeRaw w with
  | .error r => .error r
  | .ok i => match i.check w with
    | some r => .error r
    | none => .ok i

/-- The decoder on a word given as a number of so many bits. -/
def decodeTableWord (nbits w : Nat) : Option Instr :=
  match decode (BitVec.ofNat 64 (w % 2 ^ nbits)) with
  | .ok i => some i
  | .error _ => none

end Sys2Proof
end

