-- ==== Sys2Proof/Config.lean ====
section
/-!
DEFINITION. What the spec fixes for every part (the sizes of spec/01_machine.md and the tables the chapters name), and
the values the spec leaves open: opaque constants without a body, so that no proof can know a value of one.
-/
namespace Sys2Proof.Config

/-- T-cores of a package (Table 1.1). -/
def tCores : Nat := 256
/-- L-cores of a package (Table 1.1). -/
def lCores : Nat := 64
/-- Wave contexts of one quadrant (R14). -/
def ctxPerQuad : Nat := 128
/-- Bytes of one core SRAM region, 128 MiB (Table 1.1). -/
def coreSram : Nat := 134217728
/-- Bytes of one die's slice store, 4 GiB (R168). -/
def sliceStore : Nat := 4294967296
/-- Bytes of LPDDR-5X of a package, 768 GB (R17, R168). -/
def lpddrBytes : Nat := 768000000000
/-- First physical address of the second tier (R168). -/
def tier2Base : Nat := 0x010000000000
/-- First virtual address of the core SRAM window (R161). -/
def windowBase : Nat := 0x00FE000000000000
/-- The canonical quiet f32 NaN (Table 3.3). -/
def qnan32 : Word := 0x7FC00000#32
/-- Capacity of the vector register file of a core in bytes (Table 1.3). -/
def vrfBytes : Nat := 3072 * 1024
/-- Capacity of the uniform register file of a core in bytes (Table 1.3). -/
def urfBytes : Nat := 2 * 1024 * 1024
/-- Region-store lines of a core (Table 1.3). -/
def regionLines : Nat := 65536

/-! ### Free values: nothing constrains them but what the operations that use them check (log entries 5 and 13). -/

/-- What the six special functions of R96 return before the bound of Table 4.5 is applied: 0 frcp, 1 frsq, 2 fexp2,
3 flog2, 4 fsin, 5 fcos. -/
opaque specialRaw : Nat → Word → Word
/-- A fresh open value: applied to the free-value counter of the state. -/
opaque freeWord : Nat → Word
/-- A fresh open yes or no: applied to the free-value counter of the state. -/
opaque freeBit : Nat → Bool

/-- Capacity in bytes that firmware gives the racking logs, before the bound of 256 MiB (R402). -/
opaque rackBytes : Nat

end Sys2Proof.Config
end

