-- ==== Sys2Proof/Machine/State.lean ====
section
/-!
DEFINITION. The state of a KM-8P package as plain data: everything spec/ gives the machine (INVENTORY.md, State), the
two ways a step can stop, and the state right after a full reset. Sparse things are association lists in rising order of
their key; a register that is not listed holds zero.
-/
namespace Sys2Proof.Machine

/-- Why the machine stops. None of these is an exception of the spec: those are taken (R404) and go on. -/
inductive Fault where
  /-- Raised by an instruction row when no wave, section or sequencer is issuing (State.turn). Safe. -/
  | noAgent
  /-- Raised by PHYSICAL_ACCESS at an address where R167 and R168 put no memory. Safe. -/
  | noSuchAddress (addr : Nat)
  /-- Raised by every step but PACKAGE_RESET once core power has been removed (R437). Safe. -/
  | poweredOff
deriving DecidableEq, Repr

/-- Why an instruction is refused. -/
inductive Refusal where
  /-- Raised by an arm of `exec` whose instruction has no meaning yet. Safe. -/
  | notModelled (mnemonic : String)
deriving DecidableEq, Repr

/-- A finite map from numbers, in rising order of the key. -/
abbrev FMap (α : Type) := List (Nat × α)
/-- A register file: rising numbers, a register that holds zero is not listed. -/
abbrev Regs (w : Nat) := List (Nat × BitVec w)
/-- Memory: rising storage keys, a byte that holds what an unlisted one reads as is not listed. -/
abbrev Memory := List Host.Cell

/-- A capability register, quad or granule: 128 bits and the hidden tag (R151). -/
structure Cap where
  bits : QWord
  tag  : Bool
deriving DecidableEq, Repr

/-- A cached translation (R163, R164): the leaf entry, and where it lies so that OWNER can be updated (R170). -/
structure TlbEntry where
  port    : Nat
  base    : Nat
  size    : Nat
  pteAddr : Nat
  pte     : DWord
deriving DecidableEq, Repr

/-! ### Threads (Table 5.1, R404, R35, R66, R68) -/

/-- An entry of the meeting stack (R108); `ser` numbers pushes, for what a region abort discards (R234). -/
structure MeetEntry where
  addr  : DWord
  depth : Nat
  ser   : Nat
deriving DecidableEq, Repr

/-- What `ropen` records for a thread (R244, R234). -/
structure Unwind where
  pc  : DWord
  cd  : Nat
  ser : Nat
deriving DecidableEq, Repr

/-- A thread's armed monitor (R207, R208): `hit` once a qualifying write or a loss has happened. -/
structure Mon where
  line    : Nat
  armedAt : DWord
  hit     : Bool
deriving DecidableEq, Repr

/-- The wait state of R104. -/
inductive Wait where
  | none
  /-- held at its meeting entry (R109) -/
  | meet
  /-- held at a word whose other lanes are in the handler (R34) -/
  | group
  /-- parked on an absent page (R165): address and access kind of Table 7.8 -/
  | parked (va : DWord) (kind : Nat)
  /-- asleep until the deadline (R119) -/
  | asleep
  /-- a `ship`, a `shipt`, a `shwait` on a reply slot, numbered 4096 x core + slot (R267, R271, R272) -/
  | ship (slot : Nat)
  | shipt (slot : Nat)
  | shwait (slot : Nat) (nl : Bool)
  /-- in `mwait` until the monitor is hit or the deadline (R208) -/
  | mwait
  /-- waiting for the end of a barrier's phase (R204) -/
  | bar (b phase : Nat)
  | lwait (lid sd : Nat)
  /-- a `wait` on a counter (R300), with its issue group -/
  | counter (cls n : Nat) (nl : Bool) (grp : Word)
  /-- a fence.sc: system scope, the number that the next access of the package had at its issue, and the clk at which its
  drain of the earlier ones completed (R200) -/
  | fenceSc (sys : Bool) (since : Nat) (drained : Option DWord)
  /-- an `lres` that finds its home full (R197) -/
  | lres
  /-- an `ffence` that waits for the write packets numbered below `upto`, with its issue group (R389) -/
  | ffence (upto : Nat) (grp : Word)
deriving DecidableEq, Repr

/-- One thread. -/
structure Thread where
  pc : DWord
  cd : BitVec 16
  meet : List MeetEntry
  ser : Nat
  tm : Bool
  yd : Bool
  wait : Wait
  deadline : DWord
  exited : Bool
  v : Regs 32
  /-- aligned quads whose tag is set, by the number of their first register (R153) -/
  qtag : List Nat
  /-- p1 to p7; bit 0 is never read: p0 reads true (R6) -/
  p : BitVec 8
  e : Regs 32
  lat : Regs 32
  latv : BitVec 3
  /-- the interrupted group that it continues in its next run, which carries the latches (R34, R422); 0: none -/
  resume : Nat
  fflags : Word
  tcause : Word
  tpc : DWord
  taddr : DWord
  tdet : Word
  tlatv : Word
  tlat : Regs 32
  /-- the feature group of the word that raised FEATURE_ABSENT last (R419) -/
  tneed : Option Nat
  lastPage : Option TlbEntry
  mon : Option Mon
  tid : Nat
  /-- the phase of the latest arrival at each barrier (R204) -/
  barPhase : FMap Nat
  starved : BitVec 16
  /-- a spawned thread that has not fetched its entry word yet (R140) -/
  atEntry : Bool
  hWave : Option Unwind
  hBlk : Option Unwind
deriving DecidableEq, Repr

/-! ### What a wave holds -/

/-- A pattern generator context (R338). -/
structure GenCtx where
  cap   : Cap
  addr  : DWord
  words : List DWord
  dset  : Bool
  t     : Bool
  done  : Bool
  major : Nat
  minor : Nat
deriving DecidableEq, Repr

/-- A bound stream register (R342). -/
structure StreamReg where
  cap   : Cap
  addr  : DWord
  count : Nat
  capy  : Nat
  pos   : Nat
deriving DecidableEq, Repr

/-- State of a guard slot (R295). -/
inductive GVal where
  | pending | tru | fls
deriving DecidableEq, Repr

/-- A guard slot (R295): its state, and the region it is bound to: 0 none, 1 the wave region, 2 the block region. -/
structure GuardSlot where
  val   : GVal
  bound : Nat
deriving DecidableEq, Repr

/-- Lane states of Table 15.1. -/
inductive VState where
  | live | tru | fls | done | idle
deriving DecidableEq, Repr

/-- The per-lane part of a verdict accumulation (R355). -/
structure VLane where
  st : VState
  s  : Word
  e  : Word
  n  : Nat
  u  : Bool
deriving DecidableEq, Repr

/-- Threshold sources of R356. -/
inductive VSource where
  | sign | imm | reg (sb : Nat) | mem
deriving DecidableEq, Repr

/-- A wave's verdict accumulation (R355, R357). -/
structure Verdict where
  opn  : Bool
  src  : VSource
  keep : Bool
  qfmt : Nat
  ccap : Cap
  qcap : Cap
  tcap : Cap
  qoff : DWord
  toff : DWord
  qmax : Word
  tuse : Word
  lanes : FMap VLane
deriving DecidableEq, Repr

/-- A shipped request (R256, R267). -/
structure Req where
  lock     : DWord
  port     : Nat
  lockCap  : Cap
  entryCap : Cap
  args     : Regs 32
  argTags  : List Nat
  na       : Nat
  mode     : Nat
  cc       : Nat
  /-- the sender as the section sees it (Table 10.4) and as the reply finds it -/
  core : Nat
  ctx  : Nat
  lane : Nat
  wave : Nat
  slot : Nat
  op   : Nat
  /-- the foreign member that sent it, if one did -/
  member : Option Nat
  token  : Nat
  /-- acceptance clk at the home, and the promise given -/
  accepted : DWord
  p        : DWord
deriving DecidableEq, Repr

/-- Requests of one word that share a home (R259). -/
structure Bundle where
  id      : Nat
  core    : Nat
  wave    : Nat
  home    : Nat
  /-- the member whose L-core the home is, when it is not of this package -/
  remote  : Option Nat
  reqs    : List Req
  refused : Option DWord
deriving DecidableEq, Repr

/-- A line of a region buffer (R224, R241). -/
structure Line where
  van    : Nat
  data   : Regs 8
  mask   : BitVec 64
  tags   : BitVec 4
  swm    : Bool
  poison : Bool
deriving DecidableEq, Repr

/-- An open visibility region (R223 to R239): the lines by storage line, the read signature, the doom, the chunks held
of the quota and of the pool, the widest deferred release (0 none, 2 .dev, 3 .sys), the deferred `shipp` requests, and which
waves wrote each line, by an atomic or not (R197). -/
structure Region where
  lines   : FMap Line
  sig     : BitVec 2048
  doomed  : Bool
  qChunks : Nat
  pChunks : Nat
  rel     : Nat
  escapes : List Bundle
  wrote   : List (Nat × Nat × Bool)
deriving DecidableEq, Repr

/-- An outstanding operation that a counter counts (R269, R291, R343, R386): class 0 copy, 1 ship, 2 fab, 3 strm. -/
structure Op where
  id   : Nat
  cls  : Nat
  left : Nat
deriving DecidableEq, Repr

/-- An unreported failure (R293, R392); `younger` operations of its class have begun after its own. -/
structure Failure where
  op   : Nat
  cls  : Nat
  code : Nat
  kind : Nat
  younger : Nat
deriving DecidableEq, Repr

/-- A run of register arithmetic interrupted by a fault in some lanes (R34). -/
structure Interrupted where
  pc      : DWord
  held    : Word
  trapped : Word
  /-- its number in the wave, from 1 on -/
  id      : Nat
deriving DecidableEq, Repr

/-- An operation of the stream unit in flight (R343, R349, R350): kind 0 sisect, 1 sunion, 2 sdiff, 3 smerge, 4 spart. -/
structure StreamOp where
  op    : Nat
  /-- the word -/
  pc    : DWord
  kind  : Nat
  dst   : Nat
  qa    : Nat
  qb    : Nat
  qc    : Nat
  caps  : List Cap
  n     : Nat
  p     : Nat
  lanes : Word
deriving DecidableEq, Repr

/-- The section a wave of an L-core context runs (R263, R265). -/
structure Section where
  lcore : Nat
  ctx   : Nat
  req   : Req
  start : DWord
  overrun : Bool
  /-- gave up its context on an absent page (R265) -/
  suspended : Bool
  ready : Bool
deriving DecidableEq, Repr

/-- A wave's place in an abort that takes effect later (R235, R237; R166). -/
structure Pending where
  reason : Nat
  code   : Nat
  blk    : Bool
deriving DecidableEq, Repr

/-- A wave, of a T-core or (with `sect`) of an L-core context. -/
structure Wave where
  core : Nat
  ctx  : Nat
  lid  : Nat
  blk  : Nat
  wid  : Nat
  port : Nat
  vlim : Nat
  slim : Nat
  threads : FMap Thread
  s : Regs 32
  c : FMap Cap
  /-- the issue group of the open run (R106) -/
  run : Option Word
  intr : List Interrupted
  g : FMap GuardSlot
  z : FMap GenCtx
  q : FMap StreamReg
  vd : Verdict
  resv : Option (Nat × DWord)
  /-- an `lres` of the wave that waits for room at its home -/
  reg : Option Region
  /-- PAGE_NOT_PRESENT inside a region, waiting for firmware (R166) -/
  faultAbort : Option (DWord × Nat)
  unwind : Option Pending
  rstat : Word
  estat : Word
  hint : Nat
  yielded : Bool
  /-- address of the word that its quadrant has replayed, and how often (R411) -/
  late : DWord × Nat
  /-- later of the last issue and the moment the wave became ready (R135) -/
  since : DWord
  ops : List Op
  fails : List Failure
  sops : List StreamOp
  epoch : Nat
  sent : FMap Nat
  brk : Option Nat
  sect : Option Section
  /-- requests at homes of other members whose slots an exit or a kill has freed: operation, lane, member (R115, R278) -/
  abroad : List (Nat × Nat × Nat)
deriving DecidableEq, Repr

/-! ### Blocks and the matrix stream -/

/-- Mode and count of a barrier phase (R203), and which class of arrival fixed it (R222). -/
inductive BarMode where
  | participant | count (n : Nat) | ropen | rcommit
deriving DecidableEq, Repr

/-- A numbered barrier (R203, R204, R304). -/
structure Barrier where
  phase    : Nat
  mode     : Option BarMode
  arrivals : Nat
  arrived  : List Nat
  seqIn    : Bool
  seqFlags : Word
  /-- predicate each `ropen.blk` arrival names -/
  preds    : FMap Nat
  /-- flags of the sequencer's arrival in each ended phase -/
  flags    : FMap Word
  /-- waves that arrived in the current phase, and in each phase that completed (R309) -/
  waves    : List Nat
  noted    : FMap (List Nat)
deriving DecidableEq, Repr

/-- What a block sequencer waits for. -/
inductive SeqWait where
  | none
  | bar (b phase : Nat)
  | page (va : DWord) (kind : Nat)
deriving DecidableEq, Repr

/-- A piece of a tile's row in memory: address, storage key, tile offset, length, and whether its page is SWM. -/
structure Piece where
  va  : DWord
  key : Nat
  off : Nat
  len : Nat
  swm : Bool
deriving DecidableEq, Repr

/-- A tile operation in flight (R327): the word, the tiles it names, its path (0 matrix unit, 1 `tld`, 2 `tst`), the flags
it will have raised, and on the load path the pieces it moves. -/
structure TileOp where
  pc    : DWord
  tiles : List Nat
  path  : Nat
  flags : Nat
  rows  : List Piece
deriving DecidableEq, Repr

/-- A block's sequencer (R302, R307, R328). -/
structure Seq where
  pc : DWord
  m : Regs 64
  mc : FMap Cap
  ended : Bool
  flt : Bool
  orph : Bool
  code : Nat
  dsteps : Nat
  mflags : Word
  /-- flags set since its previous arrival (R304) -/
  fresh : Word
  noted : List Nat
  z : FMap GenCtx
  step : Nat
  wait : SeqWait
  barPhase : FMap Nat
  starved : BitVec 16
  ops : List TileOp
  lastPage : Option TlbEntry
deriving DecidableEq, Repr

/-- A placed block (R130 to R137). -/
structure Block where
  lid : Nat
  lin : Nat
  core : Nat
  /-- number among the launch's spawned waves (R139) -/
  spawned : Option Nat
  /-- argument registers of a spawned block's threads, by lane -/
  bin : List (Regs 32)
  binEntry : DWord
  needs : Word
  /-- holds its place on `core`; false while it is saved and unplaced again (R133) -/
  placed : Bool
  /-- its waves are being saved (R133, R417, R419) -/
  leaving : Bool
  started : Bool
  ended : Bool
  bars : FMap Barrier
  reg : Option Region
  seq : Option Seq
  tc : Regs 32
  tiles : Regs 8
  /-- the range of its allocation, and the core whose window holds it, until the block ends (R440) -/
  sramCore : Nat
  sramOff : Nat
  sramLen : Nat
  kids : List Nat
  placedAt : DWord
deriving DecidableEq, Repr

/-! ### Launches -/

/-- A launch record as the scheduler reads it (Table 6.1). -/
structure LaunchRec where
  entry : DWord
  mentry : DWord
  traph : DWord
  gx : Nat
  gy : Nat
  gz : Nat
  bx : Nat
  bY : Nat
  bz : Nat
  vregs : Nat
  sregs : Nat
  tiles : Nat
  rwave : Nat
  rblk : Nat
  prio : Nat
  dbg : Bool
  fetch : Bool
  sram : Nat
  bint : Nat
  needs : Word
  after : List Nat
  dies : Nat
  args : Regs 32
  caps : List Cap
deriving DecidableEq, Repr

/-- Launch status codes (Table 6.2). -/
inductive LStatus where
  | pending | running | complete | killed | cancelled
deriving DecidableEq, Repr

/-- What the distributor may place next of a launch (R130, R133, R138): an offered bin of a core, a block placed before,
or a block never placed. -/
inductive Offer where
  | bin (core n : Nat)
  | again (b : Nat)
  | block (lin : Nat)
deriving DecidableEq, Repr

/-- An accepted launch (R122 to R129). -/
structure Launch where
  rc : LaunchRec
  va : DWord
  port : Nat
  priv : Bool
  parent : Nat
  parentBlk : Option Nat
  depth : Nat
  status : LStatus
  /-- lowest linear block id never placed or withdrawn -/
  next : Nat
  /-- the numbers of its blocks that were placed and are unplaced again (R133) -/
  returned : List Nat
  spawnNo : Nat
  /-- the offer that found no eligible core, and since when (R130) -/
  waiting : Option (Offer × DWord)
  reserving : Bool
  /-- its place in the order of acceptance (R127) -/
  order : Nat
  done : DWord
  kcode : Nat
  karg : Nat
deriving DecidableEq, Repr

/-- A launch slot of a host port (Tables 6.3 to 6.5). -/
structure LSlot where
  addr : DWord
  busy : Bool
  ovr  : Bool
  res  : BitVec 3
  lid  : Word
  prio : BitVec 3
  /-- when GO was written (R127) -/
  arrived : DWord
deriving DecidableEq, Repr

/-- A queued debug stop (R432). -/
structure BrkReport where
  k    : Nat
  wave : Nat
  ctx  : Nat
  core : Nat
  /-- the clk at which the wave stopped -/
  at_  : DWord
deriving DecidableEq, Repr

/-- An entry of a racking log (R402). -/
inductive LogEntry where
  | coll (r : CollResult)
  | member (gen slot st : Nat)
  | mark (gen seq : Nat) (ckpt : DWord)
deriving DecidableEq, Repr

/-- A host port function (R125, R158, R184, R429 to R432, R377, R402). -/
structure Port where
  root : DWord
  partBase : DWord
  partSize : DWord
  htBase : DWord
  htCount : Word
  brks : List BrkReport
  slots : FMap LSlot
  /-- the blend the function belongs to, and its member index -/
  blend : Option (Nat × Nat)
  log : List LogEntry
  /-- entries of the log a joining member has still to replay (R403) -/
  replay : List LogEntry
deriving DecidableEq, Repr

/-- A blend table (R377). -/
structure Blend where
  size : Nat
  gen  : Nat
  ents : Regs 32
deriving DecidableEq, Repr

/-- An undecided collective at its leader (R397). -/
structure Coll where
  blend : Nat
  seq : Nat
  live : List Nat
  cs : List Contribution
deriving DecidableEq, Repr

/-! ### Cores, L-cores, dies, clusters -/

/-- A spawn bin that is open or sealed (R138). -/
structure Bin where
  lid : Nat
  entry : DWord
  threads : List (Regs 32)
  sealed : Bool
  start : DWord
  sealAt : DWord
  offered : Bool
deriving DecidableEq, Repr

/-- A store resting in a core's store queue (R202). -/
structure SqEntry where
  wave : Nat
  lid : Nat
  blk : Nat
  van : Nat
  key : Nat
  bytes : List Byte
  /-- the core and word that stored it, with the lane and its address -/
  core : Nat
  pc : DWord
  lane : Nat
  va : DWord
deriving DecidableEq, Repr

/-- A cached shape record (R284). -/
structure RecEntry where
  port : Nat
  addr : DWord
  raw  : BitVec 1024
deriving DecidableEq, Repr

/-- An engine's backlog clock and firmware settings (R288). -/
structure Engine where
  f : DWord
  horizon : Nat
  drain : Nat
deriving DecidableEq, Repr

/-- State of a reply slot (R258, R267, R268). -/
inductive RState where
  | free | waiting | replied
deriving DecidableEq, Repr

/-- A reply slot of a core's ship port (R258, R267). -/
structure RSlot where
  st : RState
  gen : Nat
  wave : Nat
  lane : Nat
  mode : Nat
  op : Nat
  cc : Nat
  p : DWord
  answered : Bool
  dst : Nat
  na : Nat
  status : Nat
  det : Nat
  regs : Regs 32
  k : Nat
  tags : List Nat
  flags : Word
  /-- the member that homes the lock, if it is not this package -/
  remote : Option Nat
deriving DecidableEq, Repr

/-- An outstanding `fetchw` (R141, R147). -/
structure FetchReq where
  lid : Nat
  port : Nat
  addr : DWord
deriving DecidableEq, Repr

/-- A T-core. -/
structure Core where
  fmask : Word
  win : Nat
  sq : List SqEntry
  tlb : List TlbEntry
  bins : FMap Bin
  recs : List RecEntry
  eng : Engine
  slots : FMap RSlot
  samp : Option Nat
  sampCnt : Nat
  fetchq : List FetchReq
  replays : Regs 32
deriving DecidableEq, Repr

/-- An L-core (R260, R261, R266, R275). -/
structure LCore where
  queue : List Req
  horizon : Nat
  retired : Bool
  lastStart : Option DWord
  ctxEnd : FMap DWord
  lockEnd : List ((Nat × DWord) × DWord)
  tlb : List TlbEntry
deriving DecidableEq, Repr

/-- A ring of 32-byte records that firmware drains (R165, R172, R255). -/
structure Ring where
  cap : Nat
  recs : List (BitVec 256)
  drops : Nat
deriving DecidableEq, Repr

/-- A die's fabric engine and section event ring. -/
structure Die where
  eng : Engine
  events : Ring
deriving DecidableEq, Repr

/-- A snapshot entry (Table 17.5). -/
structure Snapshot where
  wave : Nat
  clk : DWord
  core : Nat
  ctx : Nat
  lid : Nat
  flags : Byte
  src : Nat
  lanes : Word
  addr : DWord
  rstat : Word
  pcs : List DWord
deriving DecidableEq, Repr

/-- Why a cluster is frozen (R413, R436, R437). -/
inductive FreezeWhy where
  | error | thermal | power
deriving DecidableEq, Repr

/-- A consumed error as the device holds it until the decision: with the address of the consuming word (R415). -/
structure Consumed where
  rep : ErrorReport
  pc  : DWord
  /-- the number of the access that met it: an older one has the smaller -/
  age : Nat
deriving DecidableEq, Repr

/-- A frozen cluster. -/
structure Freeze where
  why : FreezeWhy
  since : DWord
  errs : List Consumed
deriving DecidableEq, Repr

/-- A cluster and its controller's rings. -/
structure Cluster where
  frozen : Option Freeze
  hot : Ring
  faults : Ring
  snaps : List Snapshot
deriving DecidableEq, Repr

/-! ### Accesses, commands and packets in flight -/

/-- An access that has issued and is not yet performed (R439); `dst` is its first destination register. A fence leaves
a marker (R199): what it orders before it and what after it. -/
inductive AccOp where
  | load (size : Nat) (sext : Bool) (dst : Nat)
  /-- the lane's `tag` says whether its capability keeps a tag -/
  | ldc (dst : Nat)
  | store (size : Nat)
  | stc
  | atom (opk size : Nat) (ret : Bool) (dst : Nat)
  | cas (size dst : Nat)
  | dcas (dst : Nat)
  | atom2 (opk size dst : Nat)
  | amov2 (size dst : Nat)
  | lres (size dst : Nat)
  | scond (size dst : Nat)
  | mon (size dst : Nat)
  | thmax (dst : Nat)
  | fence (acq rel : Bool)
deriving DecidableEq, Repr

/-- One lane of an access: its addresses, virtual and storage, and its operands. -/
structure LaneAcc where
  lane : Nat
  va : DWord
  key : Nat
  va2 : DWord
  key2 : Nat
  val : QWord
  tag : Bool
deriving DecidableEq, Repr

/-- An access of one sector request, or of one atomic request (R174, R188). -/
structure Access where
  id : Nat
  wave : Nat
  /-- the word -/
  pc : DWord
  op : AccOp
  lanes : List LaneAcc
  /-- lanes of the word, for a fence's marker -/
  mask : Word
  scope : Nat
  /-- the page is SWM (R171); the page of a second address is -/
  swm : Bool
  swm2 : Bool
  /-- a later access of its thread has been performed before it, past a fence of .wave (1) or .blk (2) scope: threads of
  that scope see them in order (R198) -/
  passed : Nat
  /-- the lanes whose accesses did so -/
  passedBy : Word
deriving DecidableEq, Repr

/-- Which engine a command went to: the copy engine of a core, the fabric engine of a die. -/
inductive Eng where
  | copy (core : Nat) | fab (die : Nat)
deriving DecidableEq, Repr

/-- Where a command stands (R288 to R291). -/
inductive CmdStage where
  | sent | held | queued | contributed | sending | moved | complete
deriving DecidableEq, Repr

/-- An accepted engine command (R281 to R293). -/
structure Cmd where
  eng : Eng
  core : Nat
  wave : Nat
  port : Nat
  op : Nat
  lanes : Word
  words : BitVec 512
  rcap : Cap
  scap : Cap
  dcap : Cap
  xcap : Cap
  srec : BitVec 1024
  drec : BitVec 1024
  xrec : BitVec 1024
  scope : Nat
  stage : CmdStage
  promise : DWord
  o : Nat
  flags : Word
  fault : Option Nat
  /-- how the command's guard slot resolved while the command was held, and the clk from which its engine knows that it may
  schedule the command (R289) -/
  guard : Option Bool
  learn : DWord
  /-- pushed in its wave's open wave region (R239) -/
  nest : Bool
  /-- packets of an FPUT that are still to be sent, the flag last (R395) -/
  unsent : List ForeignPacket
  /-- where its `push` wants the answer, the first uniform register and the predicate; the quadrant it came from (R288) -/
  dst : Nat
  pred : Nat
  quad : Nat
  /-- pushed with a slot that its region binds: its records are read once the region has committed (R239, R297) -/
  deferred : Bool
deriving DecidableEq, Repr

/-- A fabric packet this package has sent and not seen acknowledged (R380, R381). -/
structure Packet where
  wave : Nat
  die : Nat
  member : Nat
  blend : Nat
  op : Nat
  seq : Nat
  dst : Nat
  sext : Bool
  pkt : ForeignPacket
  res : Option PacketResult
  /-- the word that sent it -/
  pc : DWord
deriving DecidableEq, Repr

/-- An ordered flag held at its destination (R385). -/
structure HeldFlag where
  pkt : ForeignPacket
  own : Option Nat
deriving DecidableEq, Repr

/-- An arrival count (R382): stream, which comes to a function of this package, and path. -/
structure Arrival where
  port : Nat
  member : Nat
  core : Nat
  ctx : Nat
  epoch : Nat
  path : Nat
  count : Nat
deriving DecidableEq, Repr

/-- A reply on its way to its sender (R268). -/
structure Reply where
  req : Req
  status : Nat
  det : Nat
  k : Nat
  regs : Regs 32
  tags : List Nat
  flags : Word
deriving DecidableEq, Repr

/-- A line of an SWM page as a die caches it (R171): its 64 bytes and the mask of those written there. -/
structure SwmLine where
  data : Regs 8
  mask : BitVec 64
deriving DecidableEq, Repr

/-! ### The agenda: which agent moves next, and when -/

/-- Who can issue a word: a wave (or section) or a block's sequencer, by its number. -/
inductive Agent where
  | wave (w : Nat)
  | seq (b : Nat)
deriving DecidableEq, Repr

/-- What the next step is: an agent issues, or an event row happens. -/
inductive Choice where
  | issue (a : Agent)
  | event (i : Instr)
deriving DecidableEq, Repr

/-- One entry of the agenda: how far sr.clk advances, and what happens then. -/
structure Tick where
  dt   : Nat
  what : Choice
deriving DecidableEq, Repr

/-- How the latest read from outside completed (R429, R410, R438): with data, as an unsupported request, or poisoned. -/
inductive Completion where
  | none | data (bytes : List Byte) | unsupported | poisoned
deriving DecidableEq, Repr

/-- A KM-8P package. -/
structure State where
  clk : DWord
  phase : BitVec 3
  fail : Bool
  fcode : Byte
  config : Word
  ident : Word
  mhz : Nat
  limit : Nat
  ceiling : Nat
  overBudget : Nat
  /-- power windows of 4,096 clk that have been measured since phase 0 ended (R436) -/
  windowsDone : Nat
  /-- what phase 1 of bring-up has read from the fuses beside CONFIG, IDENT and the ceiling: the repair maps, the digest of the
  firmware key, the least security version (R433, R434) -/
  repair : List Byte
  keyHash : BitVec 384
  minVersion : Nat
  /-- the image that every cluster controller runs (R434) -/
  firmware : Option (List Byte)
  /-- T-cores that did not survive phase 2 (Table 18.4) -/
  deadCores : List Nat
  powerEvents : Nat
  thermalEvents : Nat
  shutdown : Bool
  mem : Memory
  /-- granules whose tag is set, by storage key / 16, those of a die's SWM copies 2^60 x (die + 1) above, rising -/
  tags : List Nat
  /-- storage lines whose cork does not match (R410), those of a die's SWM copies 2^60 x (die + 1) above -/
  bad : List Nat
  /-- per die and storage line: 2^60 x die + line -/
  swm : FMap SwmLine
  homeL : Regs 32
  homeG : Regs 32
  blends : FMap Blend
  colls : List Coll
  /-- the own contributions given to a leader elsewhere, each with the members LIVE when it left (R397, R401) -/
  outbox : List Coll
  /-- collectives, by blend and SEQ, whose own contribution firmware has marked poisoned (R399) -/
  poisons : List (Nat × Nat)
  /-- results this package decided as leader and has not yet written for its own command (R397) -/
  decided : List CollResult
  cores : FMap Core
  lcores : FMap LCore
  dies : FMap Die
  clusters : FMap Cluster
  ports : FMap Port
  waves : FMap Wave
  saved : FMap Wave
  blocks : FMap Block
  launches : FMap Launch
  nextLid : Word
  newestLid : Word
  nextId : Nat
  inflight : List Access
  bundles : List Bundle
  replies : FMap Reply
  cmds : FMap Cmd
  packets : FMap Packet
  arrivals : List Arrival
  heldFlags : FMap HeldFlag
  /-- packets that wait at this package, their destination, for a page (R382) -/
  stalled : List PacketSrc
  /-- this package's number in the fabric domain (Table 16.1) -/
  package : Nat
  /-- enabled path labels to each member (R381), as a number of paths, by 4096 x blend + member -/
  paths : FMap Nat
  /-- rate windows in bytes (R383), by 4 x that + path -/
  windows : FMap Nat
  linksDown : List Nat
  /-- consecutive resends that have failed on a link whose flit is being resent (R382) -/
  crcRetries : FMap Nat
  hostOut : Completion
  /-- per shared unit, the clk at which it last took a request and that request's place among those of one clk (R19,
  R127, R139, R141, R288) -/
  served : FMap (DWord × Nat)
  /-- the model's own: which free value is next, who moves next -/
  ctr : Nat
  agenda : List Tick
  turn : Agent
deriving DecidableEq, Repr

/-- The package right after a full reset, before power is good (R433): the reset values of Tables 18.1 to 18.4, and no
wave, block, launch, command or access anywhere. Values the spec does not state are named in log entries 3 and 4. -/
def State.reset : State where
  clk := 0
  phase := 0
  fail := false
  fcode := 0
  config := 0
  ident := 0x4B4D0800
  mhz := 3600
  limit := 3400
  ceiling := 3800
  overBudget := 0
  windowsDone := 0
  repair := []
  keyHash := 0
  minVersion := 0
  firmware := none
  deadCores := []
  powerEvents := 0
  thermalEvents := 0
  shutdown := false
  mem := []
  tags := []
  bad := []
  swm := []
  homeL := []
  homeG := []
  blends := []
  colls := []
  outbox := []
  poisons := []
  decided := []
  cores := []
  lcores := []
  dies := []
  clusters := []
  ports := []
  waves := []
  saved := []
  blocks := []
  launches := []
  nextLid := 1
  newestLid := 0
  nextId := 1
  inflight := []
  bundles := []
  replies := []
  cmds := []
  packets := []
  arrivals := []
  heldFlags := []
  stalled := []
  package := 0
  paths := []
  windows := []
  linksDown := []
  crcRetries := []
  hostOut := .none
  served := []
  ctr := 0
  agenda := []
  turn := .wave 1

end Sys2Proof.Machine
end

