-- ==== Sys2Proof/Machine/Store.lean ====
section
/-!
DEFINITION. Sparse stores: finite maps, register files and memory as association lists. A register file and memory list
nothing that holds what an unlisted entry reads as (zero: log entry 3), so that equal contents are equal data.
-/
namespace Sys2Proof.Machine

/-! ### Finite maps -/

/-- The value at a key. -/
def fget {α : Type} : FMap α → Nat → Option α
  | [], _ => none
  | (k', v) :: t, k => if k' = k then some v else fget t k

/-- The map with `v` at `k`. -/
def fset {α : Type} : FMap α → Nat → α → FMap α
  | [], k, v => [(k, v)]
  | (k', v') :: t, k, v =>
    if k < k' then (k, v) :: (k', v') :: t
    else if k' = k then (k, v) :: t
    else (k', v') :: fset t k v

/-- The map without `k`. -/
def fdel {α : Type} : FMap α → Nat → FMap α
  | [], _ => []
  | (k', v) :: t, k => if k' = k then fdel t k else (k', v) :: fdel t k

/-- The map with the value at `k`, if there is one, changed by `g`. -/
def fmod {α : Type} : FMap α → Nat → (α → α) → FMap α
  | [], _, _ => []
  | (k', v) :: t, k, g => if k' = k then (k', g v) :: t else (k', v) :: fmod t k g

/-- The keys of a map. -/
def fkeys {α : Type} (m : FMap α) : List Nat := m.map (·.1)

/-- Keys rise strictly. -/
def fwf {α : Type} : FMap α → Bool
  | [] => true
  | [_] => true
  | a :: b :: t => decide (a.1 < b.1) && fwf (b :: t)

/-! ### Register files and memory: an entry that is not listed holds zero -/

/-- The contents of register (or byte) `k`. -/
def rget {w : Nat} : Regs w → Nat → BitVec w
  | [], _ => 0#w
  | (k', v) :: t, k => if k' = k then v else rget t k

/-- The file with `v` in register `k`; a zero is not listed. -/
def rset {w : Nat} (m : Regs w) (k : Nat) (v : BitVec w) : Regs w :=
  if v = 0#w then fdel m k else fset m k v

/-- The canonical form: rising keys, nothing listed that holds zero. -/
def rwf {w : Nat} (m : Regs w) : Bool := fwf m && m.all (fun c => decide (c.2 ≠ 0#w))

/-- What a byte of memory that is not listed reads as (log entry 3). -/
def Memory.empty : Byte := 0

/-- One byte of memory, by storage key. -/
def Memory.byte (m : Memory) (k : Nat) : Byte := rget m k

/-- Memory with one byte written. -/
def Memory.put (m : Memory) (k : Nat) (b : Byte) : Memory := rset m k b

/-- The canonical form of memory. -/
def Memory.wf (m : Memory) : Bool := rwf (w := 8) m

/-- `n` bytes from `k` on as a number, the lowest address least significant (R4). -/
def Memory.num (m : Memory) (k : Nat) : Nat → Nat
  | 0 => 0
  | n + 1 => Memory.num m k n + (Memory.byte m (k + n)).toNat * 256 ^ n

/-- Memory with the low `n` bytes of `x` written from `k` on, the least significant at the lowest address (R4). -/
def Memory.setNum (m : Memory) (k x : Nat) : Nat → Memory
  | 0 => m
  | n + 1 => Memory.put (Memory.setNum m k x n) (k + n) (BitVec.ofNat 8 (x / 256 ^ n))

/-- `n` bytes from `k` on. -/
def Memory.bytes (m : Memory) (k n : Nat) : List Byte := (List.range n).map fun i => Memory.byte m (k + i)

/-- Memory with a list of bytes written from `k` on. -/
def Memory.setBytes : Memory → Nat → List Byte → Memory
  | m, _, [] => m
  | m, k, b :: t => Memory.setBytes (Memory.put m k b) (k + 1) t

/-! ### Lists that are sets of numbers in rising order (tags, corks) -/

/-- The set with `k`. -/
def sinsert : List Nat → Nat → List Nat
  | [], k => [k]
  | a :: t, k => if k < a then k :: a :: t else if a = k then a :: t else a :: sinsert t k

/-- The set without `k`. -/
def serase (l : List Nat) (k : Nat) : List Nat := l.filter (· ≠ k)

/-- The set with or without `k`. -/
def sput (l : List Nat) (k : Nat) (b : Bool) : List Nat := if b then sinsert l k else serase l k

/-! ### Masks of 32 lanes -/

/-- Lane `l` is in the mask. -/
def inMask (m : Word) (l : Nat) : Bool := m.getLsbD l

/-- The lanes of a mask in ascending order. -/
def lanesOf (m : Word) : List Nat := (List.range 32).filter (inMask m)

/-- The mask of a list of lanes. -/
def maskOf (ls : List Nat) : Word := ls.foldl (fun m l => m ||| BitVec.ofNat 32 (2 ^ l)) 0#32

/-- Bits h down to l of a number (R55). -/
def bitsOf (x h l : Nat) : Nat := x / 2 ^ l % 2 ^ (h + 1 - l)

end Sys2Proof.Machine
end

