-- ==== Sys2Proof/Machine/Num.lean ====
section
/-!
DEFINITION. Number formats and exact arithmetic (spec/03_formats_and_conversion.md): the encodings of Tables 3.1 and
3.2, rounding of exact dyadic values, Convert (R65), and the float operations of R92 to R97 on encodings. A result is a
pair: the encoding and the flags it sets (Table 3.5).
-/
namespace Sys2Proof.Machine

/-- The element formats of Tables 3.1 and 3.2, with the unsigned readings of R58 and the 64-bit integers of R99. -/
inductive Fmt where
  | f32 | f16 | bf16 | e5m2 | e4m3 | e3m2 | e2m1 | lq8
  | i32 | i16 | i8 | i4 | n8 | n4 | e8m0 | n32 | n16 | i64 | n64
deriving DecidableEq, Repr

/-- The format a code names (R56 to R59); `u` is the unsigned bit of its side (R58). -/
def Fmt.ofCode (c : Nat) (u : Bool) : Option Fmt :=
  match c with
  | 0 => some .f32 | 1 => some .f16 | 2 => some .bf16 | 3 => some .e5m2 | 4 => some .e4m3 | 5 => some .e3m2
  | 6 => some .e2m1 | 7 => some .lq8 | 8 => some (if u then .n32 else .i32) | 9 => some (if u then .n16 else .i16)
  | 10 => some .i8 | 11 => some .i4 | 12 => some .n8 | 13 => some .n4 | 14 => some .e8m0 | _ => none

/-- Width of an element; e3m2 counts as 8 (R57); an lq8 code is 16 bits (R70). -/
def Fmt.width : Fmt → Nat
  | .f32 | .i32 | .n32 => 32
  | .f16 | .bf16 | .i16 | .n16 | .lq8 => 16
  | .e5m2 | .e4m3 | .e3m2 | .i8 | .n8 | .e8m0 => 8
  | .e2m1 | .i4 | .n4 => 4
  | .i64 | .n64 => 64

/-- A float format of Table 3.1. -/
def Fmt.isFloat : Fmt → Bool
  | .f32 | .f16 | .bf16 | .e5m2 | .e4m3 | .e3m2 | .e2m1 => true
  | _ => false

/-- An integer format of Table 3.2 (or a 64-bit one). -/
def Fmt.isInt : Fmt → Bool
  | .i32 | .i16 | .i8 | .i4 | .n8 | .n4 | .n32 | .n16 | .i64 | .n64 => true
  | _ => false

/-- A signed integer format. -/
def Fmt.isSigned : Fmt → Bool
  | .i32 | .i16 | .i8 | .i4 | .i64 => true
  | _ => false

/-- Exponent bits, fraction bits and bias of a float format (Table 3.1). -/
def Fmt.layout : Fmt → Nat × Nat × Nat
  | .f16 => (5, 10, 15)
  | .bf16 => (8, 7, 127)
  | .e5m2 => (5, 2, 15)
  | .e4m3 => (4, 3, 7)
  | .e3m2 => (3, 2, 3)
  | .e2m1 => (2, 1, 1)
  | _ => (8, 23, 127)

/-- The format has infinities (Table 3.1). -/
def Fmt.hasInf : Fmt → Bool
  | .f32 | .f16 | .bf16 | .e5m2 => true
  | _ => false

/-- The format has a NaN. -/
def Fmt.hasNaN : Fmt → Bool
  | .f32 | .f16 | .bf16 | .e5m2 | .e4m3 | .e8m0 => true
  | _ => false

/-- The canonical quiet NaN (Table 3.3). -/
def Fmt.qnan : Fmt → Nat
  | .f32 => 0x7FC00000 | .f16 => 0x7E00 | .bf16 => 0x7FC0 | .e5m2 => 0x7E | .e4m3 => 0x7F | .e8m0 => 0xFF
  | _ => 0

/-- The magnitude bits of the largest finite value (Table 3.1). -/
def Fmt.maxBits : Fmt → Nat
  | .f16 => 0x7BFF | .bf16 => 0x7F7F | .e5m2 => 0x7B | .e4m3 => 0x7E | .e3m2 => 0x1F | .e2m1 => 0x7
  | _ => 0x7F7FFFFF

/-- Place of the sign bit of a float format. -/
def Fmt.signBit (f : Fmt) : Nat := f.layout.1 + f.layout.2.1

/-- Rounding modes of R64, but for the error-feedback one. -/
inductive RMode where
  | rne | rtz | rup | rdn
deriving DecidableEq, Repr

/-- The mode a field RM holds (R64); the reserved values never reach it. -/
def RMode.ofCode : Nat → RMode
  | 1 => .rtz | 2 => .rup | 3 => .rdn | _ => .rne

/-! ### Flags of Table 3.5 -/

def fNX : Nat := 1
def fUF : Nat := 2
def fOF : Nat := 4
def fDZ : Nat := 8
def fNV : Nat := 16
def fIS : Nat := 32

/-- A result: the encoding and the flags it sets. -/
abbrev Res := Nat × Nat

/-- One flag, or none. -/
def flagIf (b : Bool) (f : Nat) : Nat := if b then f else 0

/-! ### What an encoding stands for -/

/-- A NaN (signalling or not), an infinity, or the exact value (-1)^neg x m x 2^e. -/
inductive FV where
  | nan (sig : Bool)
  | inf (neg : Bool)
  | fin (neg : Bool) (m : Nat) (e : Int)
deriving DecidableEq, Repr

/-- A signed dyadic number n x 2^e. -/
structure Dy where
  n : Int
  e : Int
deriving DecidableEq, Repr

/-- The numerator at a lower exponent. -/
def Dy.at (d : Dy) (e : Int) : Int := d.n * (2 ^ (d.e - e).toNat : Nat)

def Dy.add (a b : Dy) : Dy := let e := min a.e b.e; ⟨a.at e + b.at e, e⟩
def Dy.neg (a : Dy) : Dy := ⟨-a.n, a.e⟩
def Dy.mul (a b : Dy) : Dy := ⟨a.n * b.n, a.e + b.e⟩
def Dy.abs (a : Dy) : Dy := ⟨a.n.natAbs, a.e⟩
def Dy.lt (a b : Dy) : Bool := let e := min a.e b.e; decide (a.at e < b.at e)
def Dy.le (a b : Dy) : Bool := let e := min a.e b.e; decide (a.at e ≤ b.at e)
def Dy.eq (a b : Dy) : Bool := let e := min a.e b.e; decide (a.at e = b.at e)

/-- Two's-complement reading of the low `w` bits. -/
def signExt (x w : Nat) : Int :=
  let y := x % 2 ^ w
  if y ≥ 2 ^ (w - 1) then (y : Int) - (2 ^ w : Nat) else y

/-- The low `w` bits of an integer. -/
def wrap (x : Int) (w : Nat) : Nat := (x % (2 ^ w : Nat)).toNat

/-- Value(x, f) of R65, with NaN and infinity. -/
def Fmt.value (f : Fmt) (x : Nat) : FV :=
  if f.isFloat then
    let (eb, mb, bias) := f.layout
    let m := x % 2 ^ mb
    let e := x / 2 ^ mb % 2 ^ eb
    let s := x / 2 ^ (eb + mb) % 2 == 1
    if f.hasInf && e == 2 ^ eb - 1 then
      if m == 0 then .inf s else .nan (m < 2 ^ (mb - 1))
    else if f == .e4m3 && e == 15 && m == 7 then .nan false
    else if e == 0 then .fin s m (1 - (bias : Int) - mb)
    else .fin s (m + 2 ^ mb) ((e : Int) - bias - mb)
  else if f == .e8m0 then
    if x % 256 == 255 then .nan false else .fin false 1 ((x % 256 : Nat) - 127)
  else if f.isSigned then
    let v := signExt x f.width
    .fin (v < 0) v.natAbs 0
  else .fin false (x % 2 ^ f.width) 0

def FV.isNaN : FV → Bool
  | .nan _ => true
  | _ => false

def FV.isSig : FV → Bool
  | .nan s => s
  | _ => false

def FV.isInf : FV → Bool
  | .inf _ => true
  | _ => false

/-- The sign of a number or infinity. -/
def FV.negative : FV → Bool
  | .nan _ => false
  | .inf s => s
  | .fin s _ _ => s

/-- A zero of either sign. -/
def FV.isZero : FV → Bool
  | .fin _ m _ => m == 0
  | _ => false

/-- The exact number (0 for what is not one). -/
def FV.dy : FV → Dy
  | .fin s m e => ⟨if s then -(m : Int) else m, e⟩
  | _ => ⟨0, 0⟩

/-- IsAbandoned of R63. -/
def isAbandoned (x : Word) : Bool := bitsOf x.toNat 30 23 == 0xFF && bitsOf x.toNat 22 16 == 0x0D

/-! ### Rounding (R55, R67) -/

def bitLen (m : Nat) : Nat := if m = 0 then 0 else Nat.log2 m + 1

/-- The encoding with its sign. -/
def Fmt.signed (f : Fmt) (neg : Bool) (mag : Nat) : Nat := mag + (if neg then 2 ^ f.signBit else 0)

def Fmt.infBits (f : Fmt) (neg : Bool) : Nat := f.signed neg ((2 ^ f.layout.1 - 1) * 2 ^ f.layout.2.1)

/-- Round up the magnitude k whose discarded part is r / 2^sh (and a little more when `sticky`)? -/
def roundUp (mode : RMode) (neg : Bool) (k r sh : Nat) (sticky : Bool) : Bool :=
  match mode with
  | .rne => decide (2 * r > 2 ^ sh) || (decide (2 * r = 2 ^ sh) && (sticky || k % 2 == 1))
  | .rtz => false
  | .rup => (r != 0 || sticky) && !neg
  | .rdn => (r != 0 || sticky) && neg

/-- Round of R55 for the magnitude m x 2^e (a little more when `sticky`, where e is then well below the last place kept)
with sign `neg`: the encoding, and NX, UF, OF. An exact zero keeps the sign given. -/
def Fmt.round (f : Fmt) (mode : RMode) (neg : Bool) (m : Nat) (e : Int) (sticky : Bool) : Res :=
  let (_, mb, bias) := f.layout
  let emin : Int := 1 - (bias : Int)
  let m := if m == 0 && sticky then 1 else m
  if m == 0 then (f.signed neg 0, 0)
  else
    let ex := max ((bitLen m : Int) - 1 + e) emin
    let ue := ex - mb
    let sh := (ue - e).toNat
    let k := if ue ≤ e then m * 2 ^ (e - ue).toNat else m / 2 ^ sh
    let r := if ue ≤ e then 0 else m % 2 ^ sh
    let inexact := r != 0 || sticky
    let k := if roundUp mode neg k r sh sticky then k + 1 else k
    let bits := (ex - emin).toNat * 2 ^ mb + k
    if bits > f.maxBits then
      let toInf := match mode with
        | .rne => true | .rtz => false | .rup => !neg | .rdn => neg
      (if f.hasInf && toInf then f.infBits neg else f.signed neg f.maxBits, fOF + fNX)
    else (f.signed neg bits, flagIf inexact fNX + flagIf (inexact && decide (bits < 2 ^ mb)) fUF)

/-- Round of an exact dyadic number; `z` is the sign of an exact zero. -/
def Fmt.roundDy (f : Fmt) (mode : RMode) (z : Bool) (d : Dy) : Res :=
  if d.n = 0 then (f.signed z 0, 0) else f.round mode (decide (d.n < 0)) d.n.natAbs d.e false

/-- RoundInt of R65: the integer, and whether it differs from the number. -/
def roundInt (mode : RMode) (d : Dy) : Int × Bool :=
  let neg := decide (d.n < 0)
  if 0 ≤ d.e then (d.at 0, false)
  else
    let sh := (-d.e).toNat
    let k := d.n.natAbs / 2 ^ sh
    let r := d.n.natAbs % 2 ^ sh
    let k := if roundUp mode neg k r sh false then k + 1 else k
    (if neg then -(k : Int) else k, r != 0)

/-- The range of an integer format (Table 3.2). -/
def Fmt.range (f : Fmt) : Int × Int :=
  if f.isSigned then (-(2 ^ (f.width - 1) : Nat), (2 ^ (f.width - 1) : Nat) - 1)
  else (0, (2 ^ f.width : Nat) - 1)

/-- x clamped to a range. -/
def clamp (x lo hi : Int) : Int := if x < lo then lo else if x > hi then hi else x

/-- Sat(x, f) of R55 for a number and a float format: finite values beyond the largest become the largest. -/
def Fmt.satBits (f : Fmt) (bits : Nat) : Nat :=
  if bits % 2 ^ f.signBit > f.maxBits then bits / 2 ^ f.signBit * 2 ^ f.signBit + f.maxBits else bits

/-! ### Convert (R65); the caller tests an f32 source for the abandoned pattern first -/

/-- Sat(Round(v)) of R65 for the finite v = ± m x 2^e: a value beyond the largest finite one becomes it, with OF and NX
(log entry 102). -/
def Fmt.roundSat (f : Fmt) (mode : RMode) (neg : Bool) (m : Nat) (e : Int) : Res :=
  if (f.value f.maxBits).dy.lt ⟨m, e⟩ then (f.signed neg f.maxBits, fOF + fNX) else f.round mode neg m e false

/-- Convert of R65 after its first line; e8m0 is no float format of Table 3.1 (log entry 101). -/
def convert (x : Nat) (fr tgt : Fmt) (mode : RMode) : Res :=
  match fr.value x with
  | .nan sig =>
    (if tgt.isInt then 0 else if tgt.hasNaN then tgt.qnan else 0, flagIf (sig || !tgt.hasNaN) fNV)
  | .inf neg =>
    if tgt.isFloat then
      if tgt.hasInf then (tgt.infBits neg, 0) else (tgt.signed neg tgt.maxBits, fNV)
    else (wrap (if neg then tgt.range.1 else tgt.range.2) tgt.width, fNV)
  | .fin neg m e =>
    if tgt.isFloat then
      tgt.roundSat mode neg m e
    else
      let d : Dy := ⟨if neg then -(m : Int) else m, e⟩
      let (y, ix) := roundInt mode d
      let (lo, hi) := tgt.range
      if y < lo || y > hi then (wrap (clamp y lo hi) tgt.width, if fr.isFloat then fNV else fIS)
      else (wrap y tgt.width, flagIf ix fNX)

/-- Placement of a narrow result in a register (R60). -/
def place (tgt : Fmt) (x : Nat) : Word :=
  match tgt with
  | .i16 | .i8 | .i4 => BitVec.ofInt 32 (signExt x tgt.width)
  | _ => BitVec.ofNat 32 x

/-- Element j of width w of a value (R60). -/
def elem (x w j : Nat) : Nat := x / 2 ^ (w * j) % 2 ^ w

/-- A value packed from elements of width w (R60). -/
def packE (w : Nat) : List Nat → Nat
  | [] => 0
  | a :: t => a % 2 ^ w + 2 ^ w * packE w t

/-! ### Arithmetic on encodings of one float format -/

/-- NaNResult of R55: the first NaN operand, quieted, or the canonical NaN; NV for a signalling one. -/
def nanResult (f : Fmt) (xs : List Nat) (nv : Bool) : Res :=
  let sig := xs.any fun x => (f.value x).isSig
  let fl := flagIf (sig || nv) fNV
  match xs.find? fun x => (f.value x).isNaN with
  | some x => (x ||| 2 ^ (f.layout.2.1 - 1), fl)
  | none => (f.qnan, fl)

def anyNaN (f : Fmt) (xs : List Nat) : Bool := xs.any fun x => (f.value x).isNaN

/-- The sign of an exact zero sum of two numbers: theirs if it is one, else + but in .rdn (R93). -/
def zeroSign (mode : RMode) (s1 s2 : Bool) : Bool := if s1 == s2 then s1 else mode == .rdn

/-- a + b (R93). -/
def fAdd (f : Fmt) (mode : RMode) (a b : Nat) : Res :=
  if anyNaN f [a, b] then nanResult f [a, b] false
  else match f.value a, f.value b with
    | .inf s, .inf t => if s == t then (f.infBits s, 0) else nanResult f [] true
    | .inf s, _ => (f.infBits s, 0)
    | _, .inf t => (f.infBits t, 0)
    | x, y => f.roundDy mode (zeroSign mode x.negative y.negative) (x.dy.add y.dy)

/-- The encoding with its sign inverted. -/
def Fmt.flip (f : Fmt) (x : Nat) : Nat := x ^^^ 2 ^ f.signBit

/-- a - b (R93). A NaN operand is NaNResult of the operands as they stand. -/
def fSub (f : Fmt) (mode : RMode) (a b : Nat) : Res :=
  if anyNaN f [a, b] then nanResult f [a, b] false else fAdd f mode a (f.flip b)

/-- a x b (R93). -/
def fMul (f : Fmt) (mode : RMode) (a b : Nat) : Res :=
  if anyNaN f [a, b] then nanResult f [a, b] false
  else
    let x := f.value a
    let y := f.value b
    let s := x.negative != y.negative
    if x.isInf || y.isInf then
      if x.isZero || y.isZero then nanResult f [] true else (f.infBits s, 0)
    else f.roundDy mode s (x.dy.mul y.dy)

/-- a x b + c with one rounding (R93). -/
def fFma (f : Fmt) (mode : RMode) (a b c : Nat) : Res :=
  let x := f.value a
  let y := f.value b
  let z := f.value c
  let bad := (x.isInf && y.isZero) || (x.isZero && y.isInf)
  if anyNaN f [a, b, c] then nanResult f [a, b, c] bad
  else if bad then nanResult f [] true
  else
    let s := x.negative != y.negative
    if x.isInf || y.isInf then
      if z.isInf && z.negative != s then nanResult f [] true else (f.infBits s, 0)
    else if z.isInf then (f.infBits z.negative, 0)
    else f.roundDy mode (zeroSign mode s z.negative) ((x.dy.mul y.dy).add z.dy)

/-- A number below another, -0 below +0 (R94). -/
def fBelow (f : Fmt) (a b : Nat) : Bool :=
  match f.value a, f.value b with
  | .inf s, .inf t => s && !t
  | .inf s, _ => s
  | _, .inf t => !t
  | x, y => x.dy.lt y.dy || (x.dy.eq y.dy && x.negative && !y.negative)

/-- fmin and fmax (R94). -/
def fMinMax (f : Fmt) (mx nanMode : Bool) (a b : Nat) : Res :=
  let na := (f.value a).isNaN
  let nb := (f.value b).isNaN
  let fl := flagIf ((f.value a).isSig || (f.value b).isSig) fNV
  if (na && nb) || (nanMode && (na || nb)) then nanResult f [a, b] false
  else if na then (b, fl)
  else if nb then (a, fl)
  else if mx then (if fBelow f a b then b else a, 0)
  else (if fBelow f b a then b else a, 0)

/-- The condition codes of R95. -/
def fCmp (f : Fmt) (cc a b : Nat) : Bool × Nat :=
  let x := f.value a
  let y := f.value b
  let un := x.isNaN || y.isNaN
  let sig := x.isSig || y.isSig
  let order := decide (2 ≤ cc ∧ cc ≤ 5)
  let fl := flagIf (if order then un else sig) fNV
  if un then (cc == 1 || cc == 6, fl)
  else
    let eq := match x, y with
      | .inf s, .inf t => s == t
      | .inf _, _ => false
      | _, .inf _ => false
      | u, v => u.dy.eq v.dy
    let lt := !eq && fBelow f a b
    let r := match cc with
      | 0 => eq | 1 => !eq | 2 => lt | 3 => lt || eq | 4 => !lt && !eq | 5 => !lt | 6 => false | _ => true
    (r, 0)

/-- Division (R96), correctly rounded. -/
def fDiv (f : Fmt) (mode : RMode) (a b : Nat) : Res :=
  if anyNaN f [a, b] then nanResult f [a, b] false
  else
    let x := f.value a
    let y := f.value b
    let s := x.negative != y.negative
    if x.isInf then (if y.isInf then nanResult f [] true else (f.infBits s, 0))
    else if y.isInf then (f.signed s 0, 0)
    else if y.isZero then (if x.isZero then nanResult f [] true else (f.infBits s, fDZ))
    else if x.isZero then (f.signed s 0, 0)
    else
      let n := x.dy.n.natAbs * 2 ^ 80
      let d := y.dy.n.natAbs
      f.round mode s (n / d) (x.dy.e - y.dy.e - 80) (n % d != 0)

/-- Integer square root by bits from `k - 1` down. -/
def isqrt (n : Nat) : Nat → Nat → Nat
  | 0, r => r
  | k + 1, r => let t := r + 2 ^ k; isqrt n k (if t * t ≤ n then t else r)

/-- A number m x 2^e as m' x 2^(2 h) with m' of at least 120 bits. -/
def evenScale (m : Nat) (e : Int) : Nat × Int :=
  let m := m * 2 ^ 120
  let e := e - 120
  if e % 2 == 0 then (m, e / 2) else (m * 2, (e - 1) / 2)

/-- Square root (R96), correctly rounded. -/
def fSqrt (f : Fmt) (mode : RMode) (a : Nat) : Res :=
  match f.value a with
  | .nan _ => nanResult f [a] false
  | .inf s => if s then nanResult f [] true else (a, 0)
  | .fin s m e =>
    if m == 0 then (a, 0)
    else if s then nanResult f [] true
    else
      let (n, h) := evenScale m e
      let r := isqrt n 120 0
      f.round mode false r h (r * r != n)

/-- fscale (R97): a x 2^n; NaN, zero and infinity pass. -/
def fScale (f : Fmt) (mode : RMode) (a : Nat) (n : Int) : Res :=
  match f.value a with
  | .nan _ => nanResult f [a] false
  | .inf _ => (a, 0)
  | .fin s m e => if m == 0 then (a, 0) else f.round mode s m (clamp (e + n) (-2000) 2000) false

/-- frnd (R79): the integral value in the same format; `x` says whether a change sets NX. -/
def fRnd (f : Fmt) (mode : RMode) (x : Bool) (a : Nat) : Res :=
  match f.value a with
  | .nan _ => nanResult f [a] false
  | .inf _ => (a, 0)
  | .fin s m e =>
    if m == 0 then (a, 0)
    else
      let (y, ix) := roundInt mode ⟨if s then -(m : Int) else m, e⟩
      ((f.round .rne s y.natAbs 0 false).1, flagIf (x && ix) fNX)

/-- The class mask of Table 4.4, without the test for the abandoned pattern. -/
def fClass (f : Fmt) (a : Nat) : Nat :=
  match f.value a with
  | .nan s => if s then 2 ^ 8 else 2 ^ 9
  | .inf s => if s then 2 ^ 0 else 2 ^ 7
  | .fin s m e =>
    if m == 0 then (if s then 2 ^ 3 else 2 ^ 4)
    else if m < 2 ^ f.layout.2.1 then (if s then 2 ^ 2 else 2 ^ 5)
    else (if s then 2 ^ 1 else 2 ^ 6)

/-- fdot2 (R97): a0 b0 + a1 b1 + c, one rounding to f32. The sign of an exact zero sum, which R97 leaves open, is the
model's choice (log entry 105): minus where every term is negative, or in `.rdn` where the signs differ; else plus. -/
def fDot2 (f : Fmt) (mode : RMode) (a0 b0 a1 b1 c : Nat) : Res :=
  let xs := [a0, b0, a1, b1]
  let bad := fun (x y : FV) => (x.isInf && y.isZero) || (x.isZero && y.isInf)
  let inv := bad (f.value a0) (f.value b0) || bad (f.value a1) (f.value b1)
  let sigs := xs.any fun x => (f.value x).isSig
  let vc := Fmt.value .f32 c
  let prod := fun (x y : Nat) =>
    let u := f.value x
    let v := f.value y
    let s := u.negative != v.negative
    if u.isNaN || v.isNaN || bad u v then FV.nan false
    else if u.isInf || v.isInf then FV.inf s
    else FV.fin s (u.dy.n.natAbs * v.dy.n.natAbs) (u.dy.e + v.dy.e)
  let ts := [prod a0 b0, prod a1 b1, vc]
  let pinf := ts.any fun t => t.isInf && !t.negative
  let ninf := ts.any fun t => t.isInf && t.negative
  let nv := flagIf (vc.isSig || sigs || inv || (pinf && ninf)) fNV
  if vc.isNaN then ((nanResult .f32 [c] false).1, nv)
  else if anyNaN f xs || inv || (pinf && ninf) then (0x7FC00000, nv)
  else
    if pinf then (Fmt.infBits .f32 false, 0)
    else if ninf then (Fmt.infBits .f32 true, 0)
    else
      let sum := ts.foldl (fun d t => d.add t.dy) ⟨0, 0⟩
      let z := if ts.all (·.negative) then true else if ts.all (! ·.negative) then false else mode == .rdn
      Fmt.roundDy .f32 mode z sum

/-! ### Special functions (R96): a raw open value is taken when it lies within the bound of Table 4.5 of the exact
result, else the rounded value of a close approximation (fixed point, 128 bits and more): log entry 5 -/

/-- floor(ln 2 x 2^128). -/
def ln2fix : Nat := 0xb17217f7d1cf79abc9e3b39803f2f6af
/-- floor(pi/2 x 2^128). -/
def halfPiFix : Nat := 0x1921fb54442d18469898cc51701b839a2
/-- floor(2/pi x 2^320). -/
def twoOverPiFix : Nat := 0xa2f9836e4e441529fc2757d1f534ddc0db6295993c439041fe5163abdebbc561b7246e3a424dd2e0

/-- Sum of y^k / k! in fixed point 2^128; `t` is the current term. -/
def expSum (y : Nat) : Nat → Nat → Nat → Nat
  | 0, _, _ => 0
  | fuel + 1, k, t => t + expSum y fuel (k + 1) (t * y / 2 ^ 128 / (k + 1))

/-- 2^f for the fixed-point fraction f (2^128 stands for 1). -/
def exp2fix (fr : Nat) : Nat := expSum (fr * ln2fix / 2 ^ 128) 40 0 (2 ^ 128)

/-- Fraction bits of log2 of y (in [1, 2), fixed point 2^192) by repeated squaring. -/
def log2bits : Nat → Nat → Nat → Nat
  | 0, _, acc => acc
  | fuel + 1, y, acc =>
    let z := y * y / 2 ^ 192
    if z ≥ 2 ^ 193 then log2bits fuel (z / 2) (2 * acc + 1) else log2bits fuel z (2 * acc)

/-- Alternating series from the term `t` with index k: t - t y²/((k+1)(k+2)) + ... in fixed point 2^128. -/
def altSum (y2 : Nat) : Nat → Nat → Int → Int
  | 0, _, _ => 0
  | fuel + 1, k, t => t - altSum y2 fuel (k + 2) (t * y2 / (2 ^ 128 : Nat) / ((k + 1) * (k + 2) : Nat))

/-- sin and cos of x = ± m x 2^e, fixed point 2^128, by exact reduction modulo pi/2. -/
def sincosFix (m : Nat) (e : Int) : Int × Int :=
  let t := m * twoOverPiFix
  let t := if 0 ≤ e then t * 2 ^ e.toNat else t / 2 ^ (-e).toNat
  let q := t / 2 ^ 320 % 4
  let ang : Nat := t % 2 ^ 320 / 2 ^ 192 * halfPiFix / 2 ^ 128
  let a2 : Nat := ang * ang / 2 ^ 128
  let sn := altSum a2 24 1 (ang : Int)
  let cs := altSum a2 24 0 ((2 ^ 128 : Nat) : Int)
  match q with
  | 0 => (sn, cs) | 1 => (cs, -sn) | 2 => (-sn, -cs) | _ => (-cs, sn)

/-- A bound of Table 4.5: so many ulp of the exact result, or an absolute one. -/
inductive Bound where
  | ulps (n : Nat)
  | abs (k : Nat)
deriving DecidableEq, Repr

/-- The least exponent of the last place of y in f32 (R96's ulp). -/
def ulpExp (y : Dy) : Int := max ((bitLen y.n.natAbs : Int) - 1 + y.e) (-126) - 23

/-- The raw value lies within the bound of y. -/
def withinBound (raw : Nat) (y : Dy) (b : Bound) : Bool :=
  match Fmt.value .f32 raw with
  | .fin s m e =>
    let d := ((FV.fin s m e).dy.add y.neg).abs
    match b with
    | .ulps n => d.le ⟨n, ulpExp y⟩
    | .abs k => d.le ⟨1, -(k : Int)⟩
  | _ => false

/-- The result of a special function: `y` the exact value or a close approximation of it (`exact` says which). It is the
exact value where `must` asks for it; else the raw value, or the rounded one where the raw value breaks the bound or the
result is out of range. NX, and UF of a tiny result (R67), unless the exact value is returned. -/
def bounded (raw : Word) (y : Dy) (exact must : Bool) (b : Bound) : Res :=
  let r := Fmt.roundDy .f32 .rne (decide (y.n < 0)) y
  if must && r.2 / fNX % 2 == 0 then r
  else if r.2 / fOF % 2 == 1 then r
  else
    let z := if withinBound raw.toNat y b then raw.toNat else r.1
    if exact && (Fmt.value .f32 z).dy.eq y then (z, 0)
    else (z, fNX + flagIf (decide (z % 2 ^ 31 < 2 ^ 23)) fUF)

/-- frcp. -/
def fRcp (raw : Word) (a : Nat) : Res :=
  match Fmt.value .f32 a with
  | .nan _ => nanResult .f32 [a] false
  | .inf s => (Fmt.signed .f32 s 0, 0)
  | .fin s m e =>
    if m == 0 then (Fmt.infBits .f32 s, fDZ)
    else
      let q : Int := ((2 ^ 240 / m : Nat) : Int)
      let ex := decide (2 ^ Nat.log2 m = m)
      let r := Fmt.round .f32 .rne s (q.natAbs) (-e - 240) false
      bounded raw ⟨if s then -q else q, -e - 240⟩ ex (ex && decide (r.1 % 2 ^ 31 ≥ 2 ^ 23)) (.ulps 1)

/-- frsq. -/
def fRsq (raw : Word) (a : Nat) : Res :=
  match Fmt.value .f32 a with
  | .nan _ => nanResult .f32 [a] false
  | .inf s => if s then nanResult .f32 [] true else (0, 0)
  | .fin s m e =>
    if m == 0 then (Fmt.infBits .f32 s, fDZ)
    else if s then nanResult .f32 [] true
    else
      let (n, h) := evenScale m e
      let n2 := n * 2 ^ 80
      let r := isqrt n2 124 0
      let ex := decide (r * r = n2 ∧ 2 ^ Nat.log2 r = r)
      bounded raw ⟨(2 ^ 240 / r : Nat), -h + 40 - 240⟩ ex ex (.ulps 1)

/-- fexp2. -/
def fExp2 (raw : Word) (a : Nat) : Res :=
  match Fmt.value .f32 a with
  | .nan _ => nanResult .f32 [a] false
  | .inf s => if s then (0, 0) else (Fmt.infBits .f32 false, 0)
  | .fin s m e =>
    let d : Dy := ⟨if s then -(m : Int) else m, e⟩
    let fixed : Int := if 0 ≤ e + 128 then d.n * ((2 ^ (e + 128).toNat : Nat) : Int) else d.n / ((2 ^ (-(e + 128)).toNat : Nat) : Int)
    let k := clamp (fixed / (2 ^ 128 : Nat)) (-2000) 2000
    let fr := (fixed % (2 ^ 128 : Nat)).toNat
    let isInt := (roundInt .rtz d).2 == false
    if isInt then
      Fmt.round .f32 .rne false 1 k false
    else bounded raw ⟨(exp2fix fr : Nat), k - 128⟩ false false (.ulps 2)

/-- flog2. -/
def fLog2 (raw : Word) (a : Nat) : Res :=
  match Fmt.value .f32 a with
  | .nan _ => nanResult .f32 [a] false
  | .inf s => if s then nanResult .f32 [] true else (a, 0)
  | .fin s m e =>
    if m == 0 then (Fmt.infBits .f32 true, fDZ)
    else if s then nanResult .f32 [] true
    else
      let l := Nat.log2 m
      let k := (l : Int) + e
      let y := m * 2 ^ 192 / 2 ^ l
      let fr := log2bits 96 y 0
      let d : Dy := ⟨k * (2 ^ 96 : Nat) + fr, -96⟩
      let near := decide (k = -1 ∨ k = 0 ∨ (k = 1 ∧ y = 2 ^ 192))
      bounded raw d (decide (y = 2 ^ 192)) (decide (y = 2 ^ 192)) (if near then .abs 22 else .ulps 2)

/-- fsin and fcos. -/
def fTrig (cosine : Bool) (raw : Word) (a : Nat) : Res :=
  match Fmt.value .f32 a with
  | .nan _ => nanResult .f32 [a] false
  | .inf _ => nanResult .f32 [] true
  | .fin s m e =>
    if m == 0 then (if cosine then 0x3F800000 else a, 0)
    else
      let (sn, cs) := sincosFix m e
      bounded raw ⟨if cosine then cs else if s then -sn else sn, -128⟩ false false (.abs 22)

/-! ### The lq8 codebook (R70, R71) -/

/-- The weights of a code, in halves, with their sign. -/
def lq8Decode (i : Nat) : List Int :=
  let h := i / 2 ^ 15 % 2
  let sg := fun j => if j < 7 then i / 2 ^ (8 + j) % 2 else ((List.range 7).map fun k => i / 2 ^ (8 + k) % 2).foldl (· + ·) 0 % 2
  (List.range 8).map fun j =>
    let b : Nat := i / 2 ^ j % 2
    let m : Int := if h == 1 then (if b == 1 then 3 else 1) else 2 * (b : Int)
    if sg j == 1 then -m else m

/-- Squared distance. -/
def sqDist (y v : Dy) : Dy := let d := y.add v.neg; d.mul d

/-- The member of a set (lesser first), with its index, that minimises a distance; the lesser on a tie. -/
def pick (y : Dy) (neg : Bool) (lo hi : Int) : Nat × Dy :=
  let val := fun (m : Int) => (⟨if neg then -m else m, -1⟩ : Dy)
  let dl := sqDist y (val lo)
  let dh := sqDist y (val hi)
  if dh.lt dl then (1, dh) else (0, dl)

/-- One half-step choice h of R71: the sign bits, the magnitude bits and the total error of the eight weights. -/
def lq8Try (h : Nat) (ys : List (Bool × Dy)) : List Bool × List Nat × Dy :=
  let (lo, hi) : Int × Int := if h == 1 then (1, 3) else (0, 2)
  let base := ys.map fun (s, y) => (s, pick y s lo hi)
  let odd := (base.filter (·.1)).length % 2 == 1
  let fixed :=
    if odd then
      let alts := ys.map fun (s, y) => pick y (!s) lo hi
      let costs := (alts.zip base).map fun (a, b) => a.2.add b.2.2.neg
      let best := (List.range 8).foldl (fun b j =>
        if (costs.getD j ⟨0, 0⟩).lt (costs.getD b ⟨0, 0⟩) then j else b) 0
      ((base.zip alts).zip (List.range 8)).map fun ((b, a), j) => if j == best then (!b.1, a) else b
    else base
  (fixed.map (·.1), fixed.map (·.2.1), fixed.foldl (fun d x => d.add x.2.2) ⟨0, 0⟩)

/-- LQ8Encode of R71, on signs and exact values. -/
def lq8Encode (ys : List (Bool × Dy)) : Nat :=
  let t0 := lq8Try 0 ys
  let t1 := lq8Try 1 ys
  let h := if t1.2.2.lt t0.2.2 then 1 else 0
  let t := if h == 1 then t1 else t0
  h * 2 ^ 15 + packE 1 ((t.1.take 7).map fun s => if s then 1 else 0) * 2 ^ 8 + packE 1 t.2.1

/-! ### Groups of products (R313, R361) -/

/-- A product of two values; a NaN for a NaN operand or infinity x 0. -/
def FV.mul (x y : FV) : FV :=
  if x.isNaN || y.isNaN || (x.isInf && y.isZero) || (x.isZero && y.isInf) then .nan false
  else
    let s := x.negative != y.negative
    if x.isInf || y.isInf then .inf s else .fin s (x.dy.n.natAbs * y.dy.n.natAbs) (x.dy.e + y.dy.e)

/-- A group of products added to an f32 accumulator with one rounding (R313): `k` is the exponent of its scales, none for
a scale of 0xFF. -/
def groupAcc (acc : Nat) (ps : List (FV × FV)) (k : Option Int) : Res :=
  let vs := ps.map fun (x, y) => x.mul y
  let sig := ps.any fun (x, y) => x.isSig || y.isSig
  let inv := ps.any fun (x, y) => (x.isInf && y.isZero) || (x.isZero && y.isInf)
  let pinf := vs.any fun v => v.isInf && !v.negative
  let ninf := vs.any fun v => v.isInf && v.negative
  let opp := pinf && ninf
  let fl := flagIf (sig || inv || opp || k.isNone) fNV
  if k.isNone || opp || vs.any FV.isNaN then
    if (Fmt.value .f32 acc).isNaN then
      let r := nanResult .f32 [acc] false
      (r.1, fl ||| r.2)
    else (Fmt.qnan .f32, fl)
  else if pinf || ninf then fAdd .f32 .rne acc (Fmt.infBits .f32 ninf)
  else match Fmt.value .f32 acc with
    | .nan _ => nanResult .f32 [acc] false
    | .inf s => (Fmt.infBits .f32 s, 0)
    | a =>
      let sum : Dy := vs.foldl (fun (d : Dy) (v : FV) => d.add v.dy) ⟨0, 0⟩
      let neg := if sum.n = 0 then !vs.isEmpty && vs.all FV.negative else decide (sum.n < 0)
      let scaled : Dy := ⟨sum.n, sum.e + k.getD 0⟩
      Fmt.roundDy .f32 .rne (zeroSign .rne a.negative neg) (a.dy.add scaled)

end Sys2Proof.Machine
end

