-- ==== Sys2Proof/Machine/Flags.lean ====
section
/-!
DEFINITION. Flag computations: the sticky flags of sr.fflags (Table 3.5), the integer comparison codes (R89), and the
class tests that put them into a thread.
-/
namespace Sys2Proof.Machine

/-- Bits 5:0 of sr.fflags hold flags, the others are reserved (Table 3.5). -/
def fflagsMask : Word := 0x3F

/-- Sticky flags set in a thread (R66): nothing clears them but `wrsr`. -/
def Thread.flag (t : Thread) (fl : Nat) : Thread :=
  { t with fflags := t.fflags ||| (BitVec.ofNat 32 fl &&& fflagsMask) }

/-- The comparison codes of vcmp and scmp on exact integers (R89). -/
def cmpInt (cc : Nat) (a b : Int) : Bool :=
  match cc with
  | 0 => decide (a = b) | 1 => decide (a ≠ b) | 2 => decide (a < b) | 3 => decide (a ≤ b)
  | 4 => decide (a > b) | _ => decide (a ≥ b)

/-- A bit as a word. -/
def boolWord (b : Bool) : Word := if b then 1 else 0

/-- The flags of a list of results, ORed (R92). -/
def orFlags (rs : List Res) : Nat := rs.foldl (fun f r => f ||| r.2) 0

end Sys2Proof.Machine
end

