-- ==== Sys2Proof/Machine/Operands.lean ====
section
/-!
DEFINITION. Operand forms: reading and writing the registers of a thread and of a wave (R6, R22 to R32, R90, R153), and
the immediates of R24 and R26.
-/
namespace Sys2Proof.Machine

/-! ### Thread registers -/

/-- Vector register `r`. -/
def Thread.getV (t : Thread) (r : Nat) : Word := rget t.v r

/-- Vector register `r` written; the tag of its quad is cleared (R153). -/
def Thread.setV (t : Thread) (r : Nat) (x : Word) : Thread :=
  { t with v := rset t.v r x, qtag := serase t.qtag (r / 4 * 4) }

/-- The pair from `r` on, lowest register least significant (R60). -/
def Thread.getV2 (t : Thread) (r : Nat) : DWord := t.getV (r + 1) ++ t.getV r

/-- A pair written. -/
def Thread.setV2 (t : Thread) (r : Nat) (x : DWord) : Thread :=
  (t.setV r (x.setWidth 32)).setV (r + 1) ((x >>> 32).setWidth 32)

/-- The quad from `r` on. -/
def Thread.getV4 (t : Thread) (r : Nat) : QWord := t.getV2 (r + 2) ++ t.getV2 r

/-- A quad written, without a tag. -/
def Thread.setV4 (t : Thread) (r : Nat) (x : QWord) : Thread :=
  (t.setV2 r (x.setWidth 64)).setV2 (r + 2) ((x >>> 64).setWidth 64)

/-- The tag of a quad (R153). -/
def Thread.quadTag (t : Thread) (r : Nat) : Bool := t.qtag.contains r

/-- The capability a quad holds (R151). -/
def Thread.quadCap (t : Thread) (r : Nat) : Cap := ⟨t.getV4 r, t.quadTag r⟩

/-- A quad written together with its tag (R153). -/
def Thread.setQuadCap (t : Thread) (r : Nat) (c : Cap) : Thread :=
  let t' := t.setV4 r c.bits
  { t' with qtag := sput t'.qtag r c.tag }

/-- `n` registers from `r` on. -/
def Thread.getVs (t : Thread) (r n : Nat) : List Word := (List.range n).map fun i => t.getV (r + i)

/-- Registers from `r` on written. -/
def Thread.setVs : Thread → Nat → List Word → Thread
  | t, _, [] => t
  | t, r, x :: xs => Thread.setVs (t.setV r x) (r + 1) xs

/-- Predicate `k`; p0 reads true (R6). -/
def Thread.getP (t : Thread) (k : Nat) : Bool := k == 0 || t.p.getLsbD k

/-- Predicate `k` written; a write to p0 is discarded (R90). -/
def Thread.setP (t : Thread) (k : Nat) (b : Bool) : Thread :=
  if k = 0 then t
  else { t with p := if b then t.p ||| BitVec.ofNat 8 (2 ^ k) else t.p &&& ~~~ (BitVec.ofNat 8 (2 ^ k)) }

/-- The guard of a word (R37). -/
def Thread.guard (t : Thread) (g : Guard) : Bool := t.getP g.p.toNat != g.neg

/-- Latch `k` is live in the thread's run (R33). -/
def Thread.latLive (t : Thread) (k : BitVec 2) : Bool := k != 0 && t.latv.getLsbD (k.toNat - 1)

/-- Latch `k` written (R32). -/
def Thread.setLat (t : Thread) (k : BitVec 2) (x : Word) : Thread :=
  if k = 0 then t
  else { t with lat := rset t.lat k.toNat x, latv := t.latv ||| BitVec.ofNat 3 (2 ^ (k.toNat - 1)) }

/-- The latches discarded at the end of a run (R33). -/
def Thread.dropLat (t : Thread) : Thread := { t with lat := [], latv := 0 }

/-- A source of form F (R23). -/
def Thread.src (t : Thread) : VSrc → Word
  | .reg r => t.getV r.toNat
  | .latch k => rget t.lat k.toNat

/-- The result of a form F word: the register unless W = 1, and the latch L names (R32). -/
def Thread.result (t : Thread) (f : FOps) (x : Word) : Thread :=
  (if f.w then t else t.setV f.d.toNat x).setLat f.l x

/-! ### Immediates -/

/-- The immediate of R24 in integer and logical instructions. -/
def immF (k : BitVec 18) : Word := k.signExtend 32
/-- The f32 immediate of R24. -/
def immFf (k : BitVec 18) : Word := k ++ 0#14
/-- The immediate of R26, as 64 bits. -/
def immU (k : BitVec 22) : DWord := k.signExtend 64
/-- The f32 immediate of R26. -/
def immUf (k : BitVec 22) : Word := k ++ 0#10

/-- Source b: a register or latch, or the integer immediate. -/
def Thread.srcB (t : Thread) : FSrc → Word
  | .regs b _ => t.src b
  | .imm k => immF k

/-- Source b of a float word. -/
def Thread.srcBf (t : Thread) : FSrc → Word
  | .regs b _ => t.src b
  | .imm k => immFf k

/-- Source c. -/
def Thread.srcC (t : Thread) : FSrc → Word
  | .regs _ c => t.src c
  | .imm _ => 0

/-! ### Uniform and capability registers of a wave -/

/-- Uniform register `r`. -/
def Wave.getS (w : Wave) (r : Nat) : Word := rget w.s r
/-- Uniform register `r` written. -/
def Wave.setS (w : Wave) (r : Nat) (x : Word) : Wave := { w with s := rset w.s r x }
/-- A pair. -/
def Wave.getS2 (w : Wave) (r : Nat) : DWord := w.getS (r + 1) ++ w.getS r
/-- A pair written. -/
def Wave.setS2 (w : Wave) (r : Nat) (x : DWord) : Wave :=
  (w.setS r (x.setWidth 32)).setS (r + 1) ((x >>> 32).setWidth 32)
/-- `n` uniform registers from `r` on as one number, the first least significant. -/
def Wave.getSn (w : Wave) (r : Nat) : Nat → Nat
  | 0 => 0
  | n + 1 => w.getSn r n + (w.getS (r + n)).toNat * 2 ^ (32 * n)
/-- Uniform registers from `r` on written. -/
def Wave.setSs : Wave → Nat → List Word → Wave
  | w, _, [] => w
  | w, r, x :: xs => Wave.setSs (w.setS r x) (r + 1) xs

/-- An untagged zero capability. -/
def Cap.nil : Cap := ⟨0, false⟩
/-- Capability register `k` (R151). -/
def Wave.getC (w : Wave) (k : Nat) : Cap := (fget w.c k).getD Cap.nil
/-- Capability register `k` written. -/
def Wave.setC (w : Wave) (k : Nat) (c : Cap) : Wave := { w with c := fset w.c k c }

/-- A thread of the wave. -/
def Wave.th (w : Wave) (l : Nat) : Option Thread := fget w.threads l
/-- A thread changed. -/
def Wave.modTh (w : Wave) (l : Nat) (g : Thread → Thread) : Wave := { w with threads := fmod w.threads l g }
/-- Every thread of a mask changed, by lane. -/
def Wave.mapMask (w : Wave) (mask : Word) (g : Nat → Thread → Thread) : Wave :=
  { w with threads := w.threads.map fun (l, t) => (l, if inMask mask l then g l t else t) }

/-- The threads of a mask, in ascending lane order. -/
def Wave.active (w : Wave) (mask : Word) : List (Nat × Thread) :=
  (lanesOf mask).filterMap fun l => (w.th l).map fun t => (l, t)

/-! ### Effects of pure register arithmetic: on the wave, given its issue group; or the lanes that raise
ABANDONED_OPERAND, in which case nothing is written (R34) -/

/-- Per-lane effect. -/
def laneEff (g : Nat → Thread → Option Thread) (w : Wave) (mask : Word) : Except Word Wave :=
  let bad := maskOf ((w.active mask).filterMap fun (l, t) => if (g l t).isNone then some l else none)
  if bad = 0 then .ok (w.mapMask mask fun l t => (g l t).getD t) else .error bad

/-- Per-lane effect that cannot fault. -/
def laneEff' (g : Nat → Thread → Thread) (w : Wave) (mask : Word) : Except Word Wave := .ok (w.mapMask mask g)

/-- A float result of one lane: written with its flags unless an f32 operand is abandoned (R63, R92). -/
def floatLane (f : FOps) (t : Thread) (f32ops : List Word) (r : Word × Nat) : Option Thread :=
  if f32ops.any isAbandoned then none else some ((t.result f r.1).flag r.2)

end Sys2Proof.Machine
end

