-- ==== Sys2Proof/Machine/Caps.lean ====
section
/-!
DEFINITION. Capabilities (spec/07_memory_access.md, R151 to R156, R181): their fields, CapCheck of R55, and the address
of an M-form word.
-/
namespace Sys2Proof.Machine

/-! ### Fault codes (Table 17.3) -/

def cILLEGAL : Nat := 0x01
def cPAIR : Nat := 0x02
def cSTALE : Nat := 0x03
def cGUARD : Nat := 0x04
def cFEATURE : Nat := 0x05
def cPRIV : Nat := 0x06
def cSTREAM : Nat := 0x07
def cRANGE : Nat := 0x08
def cTAG : Nat := 0x10
def cBOUNDS : Nat := 0x11
def cPERM : Nat := 0x12
def cNONCANON : Nat := 0x13
def cWRAP : Nat := 0x14
def cMISALIGNED : Nat := 0x15
def cNOTPRESENT : Nat := 0x16
def cPROTECTION : Nat := 0x17
def cHOMED : Nat := 0x18
def cLANDING : Nat := 0x19
def cSPAN : Nat := 0x1A
def cABANDONED : Nat := 0x20
def cNONINV : Nat := 0x22
def cPATTERN : Nat := 0x23
def cTILE : Nat := 0x24
def cDIVERGENT : Nat := 0x28
def cIRREVOCABLE : Nat := 0x29
def cNESTING : Nat := 0x2A
def cSTARVED : Nat := 0x30
def cLATE : Nat := 0x31
def cSHIPENTRY : Nat := 0x38
def cSECTFEATURE : Nat := 0x39
def cHOMELOST : Nat := 0x3A
def cSECTFAULT : Nat := 0x3B
def cDEPTH : Nat := 0x40
def cERROR : Nat := 0x48
def cCORK : Nat := 0x50
def cMEMBERDEAD : Nat := 0x58

/-! ### Fields (Table 7.1) -/

def Cap.base (c : Cap) : Nat := bitsOf c.bits.toNat 55 0
def Cap.lm (c : Cap) : Nat := bitsOf c.bits.toNat 89 56
def Cap.le (c : Cap) : Nat := bitsOf c.bits.toNat 95 90
def Cap.perms (c : Cap) : Nat := bitsOf c.bits.toNat 107 96
def Cap.space (c : Cap) : Nat := bitsOf c.bits.toNat 111 108
def Cap.member (c : Cap) : Nat := bitsOf c.bits.toNat 123 112
def Cap.top (c : Cap) : Nat := bitsOf c.bits.toNat 127 124
/-- LM x 2^LE, exact (R151). -/
def Cap.length (c : Cap) : Nat := c.lm * 2 ^ c.le

/-- A capability from its fields. -/
def Cap.make (base lm le perms space member : Nat) (tag : Bool) : Cap :=
  ⟨BitVec.ofNat 128 (base % 2 ^ 56 + lm % 2 ^ 34 * 2 ^ 56 + le % 64 * 2 ^ 90 + perms % 2 ^ 12 * 2 ^ 96 +
    space % 16 * 2 ^ 108 + member % 2 ^ 12 * 2 ^ 112), tag⟩

/-! ### Permissions (Table 7.2), as masks of PERMS -/

def pLOAD : Nat := 1
def pSTORE : Nat := 2
def pLDCAP : Nat := 8
def pSTCAP : Nat := 16
def pATOMIC : Nat := 32
def pSECENTRY : Nat := 64
def pLOCK : Nat := 128
def pGLOBAL : Nat := 256

/-- Every permission of a mask is held. -/
def Cap.has (c : Cap) (mask : Nat) : Bool := c.perms &&& mask == mask

/-- CapCheck (R55): the first check that fails, in its order. -/
def capCheck (c : Cap) (addr size perms space : Nat) : Option Nat :=
  if !c.tag then some cTAG
  else if addr < c.base || addr + size > c.base + c.length then some cBOUNDS
  else if !c.has perms || c.space != space then some cPERM
  else if addr / 2 ^ 56 != 0 then some cNONCANON
  else if addr + size - 1 > 2 ^ 56 - 1 then some cWRAP
  else none

/-- A length and a base representable as R154 asks: LE and LM. -/
def representable (base len : Nat) : Option (Nat × Nat) :=
  let e := bitLen len - 34
  if base % 2 ^ e = 0 ∧ len % 2 ^ e = 0 then some (e, len / 2 ^ e) else none

/-- cbnd of R181: the narrowed capability, or the fault. -/
def Cap.narrow (c : Cap) (off len : Nat) : Except Nat Cap :=
  if !c.tag then .error cTAG
  else
    let nb := c.base + off
    if nb + len > c.base + c.length then .error cBOUNDS
    else if nb ≥ 2 ^ 56 then .error cNONCANON
    else match representable nb len with
      | none => .error cBOUNDS
      | some (e, lm) => .ok (Cap.make nb lm e c.perms c.space c.member true)

/-- A granule that is loaded keeps its tag only if its SPACE and bits 127:124 are those of R151 (R179). -/
def Cap.wellFormed (c : Cap) : Bool := decide (c.space < 3) && c.top == 0

/-! ### Addresses (R155, R193) -/

/-- AM of MOD (Table 2.9). -/
def amOf (m : MOps) : Nat := bfld m.mod 8 7
/-- SC of MOD. -/
def scOf (m : MOps) : Nat := bfld m.mod 6 5

/-- The capability an M-form word names in a lane. -/
def capOf (m : MOps) (w : Wave) (t : Thread) : Cap :=
  if amOf m = 2 then t.quadCap (4 * m.cap.toNat) else w.getC m.cap.toNat

/-- The offset of R155. -/
def offOf (m : MOps) (w : Wave) (t : Thread) : DWord :=
  if m.ofs = 0 ∧ !m.pr ∧ m.sh = 0 then 0
  else if amOf m = 1 then (w.getS m.ofs.toNat).signExtend 64
  else if m.pr then t.getV2 m.ofs.toNat
  else (t.getV m.ofs.toNat).signExtend 64

/-- The address of R155, modulo 2^64. -/
def addrOf (m : MOps) (w : Wave) (t : Thread) : DWord :=
  BitVec.ofNat 64 (capOf m w t).base + (offOf m w t <<< m.sh.toNat) + m.disp.signExtend 64

/-- The address of R193 with the index register `r`. -/
def addrAt (m : MOps) (w : Wave) (t : Thread) (r : Nat) : DWord :=
  BitVec.ofNat 64 (capOf m w t).base + ((t.getV r).signExtend 64 <<< m.sh.toNat) + m.disp.signExtend 64

end Sys2Proof.Machine
end

