-- ==== Sys2Proof/Machine/Space.lean ====
section
/-!
DEFINITION. Address spaces (spec/07_memory_access.md, R158 to R173, R440): units and their numbers, page table entries,
the walk, TLBs and last-page registers, fault and hotness records, writes at a home.
-/
namespace Sys2Proof.Machine

/-! ### Units (R11), each with its state at phase 6 until something writes it -/

def Engine.init : Engine := ⟨0, 2 ^ 20, 2048⟩
def Core.init : Core := ⟨0x1FF, Config.coreSram, [], [], [], [], Engine.init, [], none, 0, [], []⟩
def LCore.init : LCore := ⟨[], 2 ^ 20, false, none, [], [], []⟩
def Ring.init : Ring := ⟨4096, [], 0⟩
def Die.init : Die := ⟨Engine.init, Ring.init⟩
def Cluster.init : Cluster := ⟨none, Ring.init, Ring.init, []⟩
def Port.init : Port := ⟨0, 0, 0, 0, 0, [], [], none, [], []⟩

def State.core (s : State) (n : Nat) : Core := (fget s.cores n).getD Core.init
def State.lcore (s : State) (n : Nat) : LCore := (fget s.lcores n).getD LCore.init
def State.die (s : State) (n : Nat) : Die := (fget s.dies n).getD Die.init
def State.cluster (s : State) (n : Nat) : Cluster := (fget s.clusters n).getD Cluster.init
def State.port (s : State) (n : Nat) : Port := (fget s.ports n).getD Port.init
def State.modCore (s : State) (n : Nat) (g : Core → Core) : State := { s with cores := fset s.cores n (g (s.core n)) }
def State.modLCore (s : State) (n : Nat) (g : LCore → LCore) : State := { s with lcores := fset s.lcores n (g (s.lcore n)) }
def State.modDie (s : State) (n : Nat) (g : Die → Die) : State := { s with dies := fset s.dies n (g (s.die n)) }
def State.modCluster (s : State) (n : Nat) (g : Cluster → Cluster) : State :=
  { s with clusters := fset s.clusters n (g (s.cluster n)) }
def State.modPort (s : State) (n : Nat) (g : Port → Port) : State := { s with ports := fset s.ports n (g (s.port n)) }

def State.wave (s : State) (u : Nat) : Option Wave := fget s.waves u
def State.setWave (s : State) (u : Nat) (w : Wave) : State := { s with waves := fset s.waves u w }
def State.modWave (s : State) (u : Nat) (g : Wave → Wave) : State := { s with waves := fmod s.waves u g }
def State.modBlock (s : State) (b : Nat) (g : Block → Block) : State := { s with blocks := fmod s.blocks b g }
def State.modLaunch (s : State) (l : Nat) (g : Launch → Launch) : State := { s with launches := fmod s.launches l g }

/-! ### Requests of one clk (R19, R127, R139, R141, R288): a unit takes them in ascending place -/

/-- The units whose order within a clk the spec fixes: the units shared by the quadrants of a T-core, the launch scheduler,
the start of spawned waves, the distributor's fetch requests and its placements, a die's fabric engine, an L-core's queue. -/
def unitQuads (core : Nat) : Nat := core
def unitLaunch : Nat := 0x1000
def unitSpawn : Nat := 0x1001
def unitFetch : Nat := 0x1002
def unitPlace : Nat := 0x1003
def unitFabric (die : Nat) : Nat := 0x1100 + die
def unitHome (lcore : Nat) : Nat := 0x1200 + lcore

/-- The unit has taken no request of a later place in this clk. -/
def State.inPlace (s : State) (unit place : Nat) : Bool :=
  match fget s.served unit with
  | some (c, n) => c != s.clk || decide (n ≤ place)
  | none => true

/-- A request taken. -/
def State.took (s : State) (unit place : Nat) : State := { s with served := fset s.served unit (s.clk, place) }

/-- A fresh number for a wave, a block, an operation, an access. -/
def State.fresh (s : State) : Nat × State := (s.nextId, { s with nextId := s.nextId + 1 })

/-- A fresh open value. -/
def State.open_ (s : State) : Word × State := (Config.freeWord s.ctr, { s with ctr := s.ctr + 1 })

/-- The core number an agent has in records and in the order of R200: a T-core's, or 0x100 + the L-core's. -/
def Wave.coreNo (w : Wave) : Nat :=
  match w.sect with
  | some c => 0x100 + c.lcore
  | none => w.core

/-- The die of a core number. -/
def dieOf (coreNo : Nat) : Nat := if coreNo < 0x100 then coreNo / 64 else (coreNo - 0x100) / 16

/-- The cluster whose controller receives an agent's records: a T-core's own; for an L-core the first of its die (log
entry 17). -/
def clusterOf (coreNo : Nat) : Nat := if coreNo < 0x100 then coreNo / 8 else (coreNo - 0x100) / 16 * 8

/-- A record put into a ring, or dropped when it is full (R172, R255). -/
def Ring.put (r : Ring) (x : BitVec 256) : Ring :=
  if r.recs.length < r.cap then { r with recs := r.recs ++ [x] } else { r with drops := r.drops + 1 }

/-! ### Page table entries (Table 7.4) -/

def pV (e : DWord) : Bool := bfld e 0 0 == 1
def pLEAF (e : DWord) : Bool := bfld e 1 1 == 1
def pRD (e : DWord) : Bool := bfld e 2 2 == 1
def pWR (e : DWord) : Bool := bfld e 3 3 == 1
def pEX (e : DWord) : Bool := bfld e 4 4 == 1
def pOV (e : DWord) : Bool := bfld e 5 5 == 1
def pHOMED (e : DWord) : Bool := bfld e 6 6 == 1
def pS64 (e : DWord) : Bool := bfld e 7 7 == 1
def pHOME (e : DWord) : Nat := bfld e 9 8
def pCLASS (e : DWord) : Nat := bfld e 11 10
def pFRAME (e : DWord) : Nat := bfld e 47 12 * 4096
def pOWNER (e : DWord) : Nat := bfld e 55 48
def pHCORE (e : DWord) : Nat := bfld e 63 56

/-- Bits h to l of an entry replaced. -/
def putFld (e : DWord) (h l x : Nat) : DWord :=
  BitVec.ofNat 64 (e.toNat - bfld e h l * 2 ^ l + x % 2 ^ (h + 1 - l) * 2 ^ l)

/-! ### Storage (R161, R167, R168): physical addresses stand for themselves, core SRAM regions and slice stores have
keys of their own -/

def keyCore (n off : Nat) : Nat := 2 ^ 52 + 2 ^ 27 * n + off
def keySlice (d off : Nat) : Nat := 2 ^ 53 + 2 ^ 32 * d + off

/-- Bytes of the installed second tier (Table 18.1: units of 8 GB). -/
def State.tier2Bytes (s : State) : Nat := bfld s.config 15 4 * 8000000000

/-- A range of installed external memory (R168). -/
def State.external (s : State) (pa n : Nat) : Bool :=
  decide (pa + n ≤ Config.lpddrBytes) ||
    (decide (Config.tier2Base ≤ pa) && decide (pa + n ≤ Config.tier2Base + s.tier2Bytes))

/-- A leaf's frame lies where R168 and R159 allow it for its HOME. -/
def State.frameOk (s : State) (e : DWord) (size : Nat) : Bool :=
  match pHOME e with
  | 0 => decide (pFRAME e + size ≤ 2 ^ 27)
  | 1 => decide (pFRAME e + size ≤ 2 ^ 32) && decide (pHCORE e < 4)
  | _ => s.external (pFRAME e) size && pHCORE e == 0

/-- The storage key of an offset in a page (Table 7.6). -/
def leafKey (e : DWord) (off : Nat) : Nat :=
  match pHOME e with
  | 0 => keyCore (pHCORE e) (pFRAME e + off)
  | 1 => keySlice (pHCORE e % 4) (pFRAME e + off)
  | _ => pFRAME e + off

/-! ### The walk (R158, R160) -/

/-- One level: the shift of its index, the bits of it, and the page size of a leaf there (0: none allowed). -/
structure Level where
  shift : Nat
  bits  : Nat
  leaf  : Nat
deriving DecidableEq, Repr

def walkLevels : List Level := [⟨48, 8, 0⟩, ⟨39, 9, 0⟩, ⟨30, 9, 2 ^ 30⟩, ⟨21, 9, 2 ^ 21⟩, ⟨12, 9, 2 ^ 12⟩]

/-- A leaf found at `pteAddr`, or PAGE_PROTECTION for a malformed one. -/
def State.leafAt (s : State) (port va pteAddr size : Nat) (e : DWord) : Except Nat TlbEntry :=
  if pFRAME e % size = 0 ∧ s.frameOk e size then .ok ⟨port, va / size * size, size, pteAddr, e⟩
  else .error cPROTECTION

/-- The walk from a table on: PAGE_NOT_PRESENT for V = 0, PAGE_PROTECTION for a malformed entry (R160, R162). R158 does not
say what a table outside external memory raises: PAGE_PROTECTION, the model's choice (log entry 114). -/
def State.walk (s : State) (port va : Nat) : Nat → List Level → Except Nat TlbEntry
  | _, [] => .error cPROTECTION
  | table, l :: rest =>
    let idx := va / 2 ^ l.shift % 2 ^ l.bits
    if !s.external table (8 * 2 ^ l.bits) then .error cPROTECTION
    else
      let first : DWord := BitVec.ofNat 64 (s.mem.num (table + 8 * (idx / 16 * 16)) 8)
      let own : DWord := BitVec.ofNat 64 (s.mem.num (table + 8 * idx) 8)
      let last := rest.isEmpty
      let big := last && pS64 first
      let e := if big then first else own
      if !pV e then .error cNOTPRESENT
      else if big then
        (if pLEAF e then s.leafAt port va (table + 8 * (idx / 16 * 16)) (2 ^ 16) e else .error cPROTECTION)
      else if pS64 e then .error cPROTECTION
      else if pLEAF e then
        (if l.leaf = 0 then .error cPROTECTION else s.leafAt port va (table + 8 * idx) l.leaf e)
      else if last || bfld e 63 48 != 0 || bfld e 11 2 != 0 then .error cPROTECTION
      else s.walk port va (pFRAME e) rest

/-- The leaf of the core SRAM window of R161. -/
def windowLeaf (n : Nat) : DWord := BitVec.ofNat 64 (n * 2 ^ 56 + 2 * 2 ^ 10 + 0x0F)

/-- The window's entry for an address, or the walk of the function's tables. -/
def State.walkVa (s : State) (port va : Nat) : Except Nat TlbEntry :=
  if Config.windowBase ≤ va ∧ va < Config.windowBase + 2 ^ 35 then
    let n := (va - Config.windowBase) / 2 ^ 27
    .ok ⟨port, Config.windowBase + 2 ^ 27 * n, 2 ^ 27, 0, windowLeaf n⟩
  else s.walk port va (s.port port).root.toNat walkLevels

/-! ### TLBs and last-page registers (R163) -/

def TlbEntry.covers (e : TlbEntry) (port va : Nat) : Bool :=
  e.port == port && decide (e.base ≤ va) && decide (va < e.base + e.size)

/-- Access kinds, coded as KIND of Table 7.8: 0 load, 1 store, 2 atomic, 3 ldc, 4 stc, 5 prefetch, 6 fetch, 8 the lock
address of a shipped request. The check of R162, or of R257 for a lock. -/
def permitted (tcore : Bool) (kind : Nat) (e : DWord) : Option Nat :=
  let ok := match kind with
    | 1 | 4 => pWR e
    | 2 => pRD e && pWR e
    | 6 => pEX e
    | 8 => true
    | _ => pRD e
  if !ok then some cPROTECTION
  else if kind = 8 then (if pHOMED e then none else some cSHIPENTRY)
  else if tcore && pHOMED e && kind != 6 then some cHOMED
  else none

/-- The TLB of a core number. -/
def State.tlbOf (s : State) (coreNo : Nat) : List TlbEntry :=
  if coreNo < 0x100 then (s.core coreNo).tlb else (s.lcore (coreNo - 0x100)).tlb

/-- A TLB changed. -/
def State.modTlb (s : State) (coreNo : Nat) (g : List TlbEntry → List TlbEntry) : State :=
  if coreNo < 0x100 then s.modCore coreNo fun c => { c with tlb := g c.tlb }
  else s.modLCore (coreNo - 0x100) fun c => { c with tlb := g c.tlb }

/-- The entry an access of a core uses: one the TLB holds, else the walk's (R163, R164). -/
def State.lookup (s : State) (coreNo port va : Nat) : Except Nat TlbEntry :=
  match (s.tlbOf coreNo).find? fun e => e.covers port va with
  | some e => .ok e
  | none => s.walkVa port va

/-- The entry of a data access of a thread: its last-page register first, if that permits the access. -/
def State.lookupT (s : State) (w : Wave) (t : Thread) (va kind : Nat) : Except Nat TlbEntry :=
  match t.lastPage with
  | some e =>
    if e.covers w.port va && (permitted w.sect.isNone kind e.pte).isNone then .ok e else s.lookup w.coreNo w.port va
  | none => s.lookup w.coreNo w.port va

/-- Translation with the checks of R162: the entry, or the fault. -/
def State.translate (s : State) (w : Wave) (t : Thread) (va kind : Nat) : Except Nat TlbEntry :=
  match s.lookupT w t va kind with
  | .error c => .error c
  | .ok e =>
    match permitted w.sect.isNone kind e.pte with
    | some c => .error c
    | none => .ok e

/-- Translation of a fetch: never through the last-page register (R110, R163). -/
def State.translateX (s : State) (coreNo port va : Nat) : Except Nat TlbEntry :=
  match s.lookup coreNo port va with
  | .error c => .error c
  | .ok e =>
    match permitted (decide (coreNo < 0x100)) 6 e.pte with
    | some c => .error c
    | none => .ok e

/-- The storage key of an address in an entry's page. -/
def TlbEntry.key (e : TlbEntry) (va : Nat) : Nat := leafKey e.pte (va - e.base)

/-- The page is SWM (R171). -/
def TlbEntry.swm (e : TlbEntry) : Bool := pCLASS e.pte == 3

/-- An entry brought into a core's TLB, the latest first, at most 4,096 (R163; the entry dropped is the oldest). -/
def State.fillTlb (s : State) (coreNo : Nat) (e : TlbEntry) : State :=
  s.modTlb coreNo fun l => (e :: l.filter (· ≠ e)).take 4096

/-- Every translation of a page dropped: in the TLBs and last-page registers of the cores that `on` holds (R164). -/
def State.dropPage (s : State) (on : Nat → Bool) (p : TlbEntry → Bool) : State :=
  let th := fun (t : Thread) => match t.lastPage with
    | some e => if p e then { t with lastPage := none } else t
    | none => t
  let wv := fun (w : Wave) => if on w.coreNo then { w with threads := w.threads.map fun (l, t) => (l, th t) } else w
  let sq := fun (b : Block) => if on b.core then
      { b with seq := b.seq.map fun q => match q.lastPage with
          | some e => if p e then { q with lastPage := none } else q
          | none => q }
    else b
  { s with
    cores := s.cores.map fun (n, c) => (n, if on n then { c with tlb := c.tlb.filter fun e => !p e } else c)
    lcores := s.lcores.map fun (n, c) => (n, if on (0x100 + n) then { c with tlb := c.tlb.filter fun e => !p e } else c)
    waves := s.waves.map fun (u, w) => (u, wv w)
    blocks := s.blocks.map fun (u, b) => (u, sq b) }

/-! ### Records -/

/-- A fault record (Table 7.5) in the cluster controller's ring. -/
def State.faultRecord (s : State) (coreNo ctx va : Nat) (lanes : Word) (kind : Nat) : State :=
  let r : BitVec 256 := BitVec.ofNat 256 (va + s.clk.toNat * 2 ^ 64 + lanes.toNat * 2 ^ 128 + coreNo * 2 ^ 160 +
    ctx * 2 ^ 176 + kind * 2 ^ 192 + cNOTPRESENT * 2 ^ 200)
  s.modCluster (clusterOf coreNo) fun c => { c with faults := c.faults.put r }

/-- Page size code of Table 7.8. The table names no code for the 128 MiB page of the window of R161: 3, the model's choice
(log entry 115). -/
def sizeCode (size : Nat) : Nat := if size = 2 ^ 12 then 0 else if size = 2 ^ 16 then 1 else if size = 2 ^ 21 then 2 else 3

/-- A hotness record (Table 7.8). -/
def State.hotRecord (s : State) (coreNo va kind : Nat) (e : TlbEntry) : State :=
  let pg := sizeCode e.size + pHOME e.pte * 4 + pCLASS e.pte * 16
  let r : BitVec 256 := BitVec.ofNat 256 (va + s.clk.toNat * 2 ^ 64 + coreNo * 2 ^ 128 + kind * 2 ^ 144 + pg * 2 ^ 152)
  s.modCluster (clusterOf coreNo) fun c => { c with hot := c.hot.put r }

/-- A sector request counted for hotness sampling (R172). -/
def State.sample (s : State) (coreNo va kind : Nat) (e : TlbEntry) : State :=
  if coreNo ≥ 0x100 then s
  else match (s.core coreNo).samp with
    | none => s
    | some k =>
      let n := (s.core coreNo).sampCnt + 1
      let s := s.modCore coreNo fun c => { c with sampCnt := n }
      if n % 2 ^ k = 0 then s.hotRecord coreNo va kind e else s

/-! ### Memory writes at their home: corks, tags, reservations, monitors (R410, R153, R197, R208) -/

/-- The line of a storage key, of one die's copy for an SWM page (R171). -/
def lineId (swm : Option Nat) (key : Nat) : Nat :=
  match swm with
  | some d => 2 ^ 60 * (d + 1) + key / 64
  | none => key / 64

/-- Reservations cleared and monitors hit by a write to a line: by the wave `by` itself only through an atomic. -/
def State.noteWrite (s : State) (by_ : Option Nat) (atomic : Bool) (line : Nat) : State :=
  let one := fun (u : Nat) (w : Wave) =>
    let clears := match w.resv with
      | some (l, _) => l == line && (atomic || by_ != some u)
      | none => false
    let th := fun (t : Thread) => match t.mon with
      | some m => if m.line = line then { t with mon := some { m with hit := true } } else t
      | none => t
    { w with resv := if clears then none else w.resv, threads := w.threads.map fun (l, t) => (l, th t) }
  { s with waves := s.waves.map fun (u, w) => (u, one u w) }

/-- Lines from key to key + n - 1. -/
def linesIn (key n : Nat) : List Nat := (List.range ((key + n - 1) / 64 + 1 - key / 64)).map fun i => key / 64 + i

/-- The line that an access reads: of an SWM page the die's copy, where the die caches the line (R171). -/
def State.lineRead (s : State) (swm : Option Nat) (line : Nat) : Nat :=
  match swm with
  | some d => if (fget s.swm (2 ^ 60 * d + line)).isSome then lineId swm (64 * line) else line
  | none => line

/-- A line of n bytes from a storage key, as a die reads it, does not match its cork (R410). -/
def State.badAt (s : State) (swm : Option Nat) (key n : Nat) : Bool :=
  (linesIn key n).any fun l => s.bad.contains (s.lineRead swm l)

/-- The corks that n bytes written from a key on make anew: those of the lines written whole (R410). -/
def recorked (swm : Option Nat) (key n : Nat) : List Nat :=
  ((linesIn key n).filter fun l => decide (key ≤ 64 * l) && decide (64 * l + 64 ≤ key + n)).map fun l => lineId swm (64 * l)

/-- A granule's number in `State.tags`, of one die's copy for an SWM page. -/
def granule (swm : Option Nat) (key : Nat) : Nat :=
  match swm with
  | some d => 2 ^ 60 * (d + 1) + key / 16
  | none => key / 16

/-- Granule tags cleared by a write of n bytes (R153). -/
def clearTags (tags : List Nat) (swm : Option Nat) (key n : Nat) : List Nat :=
  tags.filter fun g => !(decide (granule swm key ≤ g) && decide (g ≤ granule swm (key + n - 1)))

/-- A byte read on a page: on an SWM page from the line as the die caches it, if it does (R171). -/
def State.byteAt (s : State) (swm : Option Nat) (key : Nat) : Byte :=
  match swm with
  | none => s.mem.byte key
  | some d =>
    match fget s.swm (2 ^ 60 * d + key / 64) with
    | some l => rget l.data (key % 64)
    | none => s.mem.byte key

/-- A granule's tag written beside its bytes (R153). -/
def State.setTag (s : State) (swm : Option Nat) (key : Nat) (b : Bool) : State :=
  { s with tags := sput s.tags (granule swm key) b }

/-- The line of a key of an SWM page cached on a die that accesses it, its bytes and tags as memory holds them (R171); a line whose
cork does not match gives a copy whose cork does not. -/
def State.hold (s : State) (swm : Option Nat) (key : Nat) : State :=
  match swm with
  | none => s
  | some d =>
    match fget s.swm (2 ^ 60 * d + key / 64) with
    | some _ => s
    | none =>
      let base := key / 64 * 64
      let data := (List.range 64).foldl (fun m i => rset m i (s.mem.byte (base + i))) []
      (List.range 4).foldl (fun s g => s.setTag swm (base + 16 * g) (s.tags.contains (granule none (base + 16 * g))))
        { s with
          swm := fset s.swm (2 ^ 60 * d + key / 64) ⟨data, 0⟩
          bad := if s.bad.contains (key / 64) then sinsert s.bad (lineId swm key) else s.bad }

/-- A byte written on a page. -/
def State.putByte (s : State) (swm : Option Nat) (key : Nat) (b : Byte) : State :=
  match swm with
  | none => { s with mem := s.mem.put key b }
  | some d =>
    let s1 := s.hold swm key
    { s1 with swm := fmod s1.swm (2 ^ 60 * d + key / 64) fun l =>
        ⟨rset l.data (key % 64) b, l.mask ||| BitVec.ofNat 64 (2 ^ (key % 64))⟩ }

/-- Bytes written from a key on. -/
def State.putBytes : State → Option Nat → Nat → List Byte → State
  | s, _, _, [] => s
  | s, swm, k, b :: t => State.putBytes (s.putByte swm k b) swm (k + 1) t

/-- n bytes from a key on as a number. -/
def State.numAt (s : State) (swm : Option Nat) (key : Nat) : Nat → Nat
  | 0 => 0
  | n + 1 => s.numAt swm key n + (s.byteAt swm (key + n)).toNat * 256 ^ n

/-- The word at an address of an entry's page, as a core reads it. -/
def State.wordAt (s : State) (coreNo : Nat) (e : TlbEntry) (va : DWord) : DWord :=
  BitVec.ofNat 64 (s.numAt (if e.swm then some (dieOf coreNo) else none) (e.key va.toNat) 8)

/-- The low n bytes of a number. -/
def bytesOf (x n : Nat) : List Byte := (List.range n).map fun i => BitVec.ofNat 8 (x / 256 ^ i)

/-- A write performed at its home: the bytes, the tags cleared, reservations and monitors told. -/
def State.write (s : State) (by_ : Option Nat) (atomic : Bool) (swm : Option Nat) (key : Nat) (bs : List Byte) : State :=
  if bs.isEmpty then s
  else
    let s1 := s.putBytes swm key bs
    -- a line written whole carries a new cork (R410)
    let s2 := { s1 with
      tags := clearTags s1.tags swm key bs.length
      bad := s1.bad.filter fun l => !(recorked swm key bs.length).contains l }
    (linesIn key bs.length).foldl (fun s l => s.noteWrite by_ atomic (lineId swm (64 * l))) s2

/-- A granule's tag as a die reads it (R153, R171). -/
def State.tagAt (s : State) (swm : Option Nat) (key : Nat) : Bool :=
  match swm with
  | none => s.tags.contains (granule none key)
  | some d => s.tags.contains (granule (if (fget s.swm (2 ^ 60 * d + key / 64)).isSome then swm else none) key)

end Sys2Proof.Machine
end

