-- ==== Sys2Proof/Machine/Freeze.lean ====
section
/-!
DEFINITION. Consumed uncorrectable errors (spec/17_traps_errors_context.md, R410, R413, R414, R416): the freeze of a
cluster and its snapshot.
-/
namespace Sys2Proof.Machine

/-- The CRC-32C of bytes in ascending address: the Castagnoli polynomial in reflected form, all ones at first, exclusive or with
all ones at the end (R410). -/
def crc32c (bs : List Byte) : Word :=
  let bit := fun (c : Word) (_ : Nat) => if c.getLsbD 0 then (c >>> 1) ^^^ 0x82F63B78 else c >>> 1
  (bs.foldl (fun (c : Word) b => (List.range 8).foldl bit (c ^^^ b.setWidth 32)) 0xFFFFFFFF) ^^^ 0xFFFFFFFF

/-- The cork that a line of memory, or of a die's copy, must carry: its tags take no part (R410). `State.bad` lists the lines
whose stored cork is another. -/
def State.cork (s : State) (swm : Option Nat) (line : Nat) : Word :=
  crc32c ((List.range 64).map fun i => s.byteAt swm (64 * line + i))

/-- A region just opened (R244). -/
def Region.init (q p : Nat) : Region := ⟨[], 0, false, q, p, 0, [], []⟩

/-- The block's region was aborted while a run of the wave was open: until that run ends the wave stands in the aborted region,
whose buffer is gone and takes nothing (R234, R237). -/
def Wave.aborting (w : Wave) : Bool := w.unwind.any fun p => p.blk

/-- The block region of a wave. -/
def State.blockRegion (s : State) (w : Wave) : Option Region :=
  if w.sect.isSome then none
  else if w.aborting then some (Region.init 0 0)
  else (fget s.blocks w.blk).bind (·.reg)

/-- The value of `rstat` (Table 9.6). -/
def State.rstatValue (s : State) (w : Wave) : Word :=
  let b (x : Bool) (n : Nat) : Nat := if x then 2 ^ n else 0
  let lines (r : Option Region) : Nat := match r with
    | some r => r.lines.length
    | none => 0
  let doom (r : Option Region) : Bool := match r with
    | some r => r.doomed
    | none => false
  let blk := s.blockRegion w
  BitVec.ofNat 32 (b w.reg.isSome 31 + b blk.isSome 30 + b (doom w.reg) 29 + b (doom blk) 28 +
    min 4096 (lines blk) * 2 ^ 13 + min 256 (lines w.reg))

/-- The error concerns the wave: it consumed it, or the sequencer of its block did. -/
def concerns (e : ErrorReport) (u : Nat) (w : Wave) : Bool := if e.seq then e.wave == w.blk else e.wave == u

/-- The lowest lane of a mask; 32 for none. -/
def lowestLane (m : Word) : Nat := (lanesOf m).headD 32

/-- The error of the lowest concerned lane: of a wave's errors the one whose lanes begin lowest, the first of several; with a
sequencer's error alone, that (Table 17.5). -/
def lowestError (es : List Consumed) : Option Consumed :=
  es.foldl (fun b e => match b with
    | some x => if lowestLane e.rep.lanes < lowestLane x.rep.lanes then some e else some x
    | none => some e) none

/-- The snapshot entry of a wave (Table 17.5), of the errors that concern it. -/
def State.snapshot (s : State) (u : Nat) (w : Wave) (errs : List Consumed) : Snapshot :=
  let mine := errs.filter fun e => concerns e.rep u w
  let own := mine.filter fun e => !e.rep.seq
  let low := lowestError mine
  let f := (if own.isEmpty then 0 else 1) + (if w.reg.isSome then 2 else 0) + (if (s.blockRegion w).isSome then 4 else 0) +
    (if mine.any fun e => e.rep.seq then 8 else 0)
  { wave := u
    clk := s.clk
    core := w.core
    ctx := w.ctx
    lid := w.lid
    flags := BitVec.ofNat 8 f
    src := match low with | some e => e.rep.src | none => 0
    lanes := own.foldl (fun m e => m ||| e.rep.lanes) 0
    addr := match low with | some e => e.rep.addr | none => 0
    rstat := s.rstatValue w
    pcs := (List.range 32).map fun l => match w.th l with
      | some t => if t.exited then 0 else t.pc
      | none => 0 }

/-- The resident waves of a cluster, in ascending core and wave context order (R414). -/
def State.clusterWaves (s : State) (c : Nat) : List (Nat × Wave) :=
  let ws := s.waves.filter fun (_, (w : Wave)) => w.sect.isNone && w.core / 8 == c
  let at_ := fun (core ctx : Nat) => ws.filter fun (_, (w : Wave)) => w.core == core && w.ctx == ctx
  ((ws.map fun (_, (w : Wave)) => w.core * 512 + w.ctx).foldl sinsert []).flatMap fun k => at_ (k / 512) (k % 512)

/-- An error consumed by a T-core wave or a sequencer; `age` is the number of the access that met it, or the next one's where none
did. -/
def State.freezeOn (s : State) (e : ErrorReport) (pc : DWord) (age : Nat) : State :=
  let c := e.core / 8
  let old := (s.cluster c).frozen
  let errs := (match old with | some f => f.errs | none => []) ++ [⟨e, pc, age⟩]
  let f : Freeze := match old with
    | some f => { f with errs := errs, since := if f.errs.isEmpty then s.clk else f.since }
    | none => ⟨.error, s.clk, errs⟩
  let snaps := (s.clusterWaves c).map fun (u, w) => s.snapshot u w errs
  let keep := fun (n : Snapshot) => match (s.cluster c).snaps.find? fun o => o.wave == n.wave with
    | some o => if old.isSome then { n with clk := o.clk } else n
    | none => n
  s.modCluster c fun k => { k with frozen := some f, snaps := snaps.map keep }

end Sys2Proof.Machine
end

