-- ==== Sys2Proof/Machine/Buffers.lean ====
section
/-!
DEFINITION. Region buffers and read signatures (spec/09_regions.md, R223 to R228), the store queues of the cores
(spec/08_atomics_sync_consistency.md, R202) and the ownership of pages (spec/07_memory_access.md, R170).
-/
namespace Sys2Proof.Machine

/-! ### Read signatures (R225) -/

/-- Rot11 of R225. -/
def rot11 (x k : Nat) : Nat := x * 2 ^ k % 2 ^ 11 + x / 2 ^ (11 - k)

/-- g_i of R225. -/
def sigGroup (n i : Nat) : Nat := if i = 4 then bitsOf n 49 44 else bitsOf n (11 * i + 10) (11 * i)

def sigH1 (n : Nat) : Nat :=
  sigGroup n 0 ^^^ sigGroup n 1 ^^^ sigGroup n 2 ^^^ sigGroup n 3 ^^^ sigGroup n 4
def sigH2 (n : Nat) : Nat :=
  rot11 (sigGroup n 0) 0 ^^^ rot11 (sigGroup n 1) 1 ^^^ rot11 (sigGroup n 2) 2 ^^^ rot11 (sigGroup n 3) 3 ^^^
    rot11 (sigGroup n 4) 4

/-- Insert of R225. -/
def sigInsert (sig : BitVec 2048) (n : Nat) : BitVec 2048 :=
  sig ||| BitVec.ofNat 2048 (2 ^ sigH1 n) ||| BitVec.ofNat 2048 (2 ^ sigH2 n)
/-- Hit of R225. -/
def sigHit (sig : BitVec 2048) (n : Nat) : Bool := sig.getLsbD (sigH1 n) && sig.getLsbD (sigH2 n)

/-- The line number of an address (R225): bits 55:6. -/
def vanOf (va : Nat) : Nat := bitsOf va 55 6

/-- A region doomed if any of the lines hits its signature (R228). -/
def Region.test (vans : List Nat) (r : Region) : Region :=
  if vans.any (sigHit r.sig) then { r with doomed := true } else r

/-- Table 9.1: lines written by wave `u` (of block `b`, launch `lid`) tested against the wave signatures of the other
waves of its block (`sib`), and against every signature of the other blocks of the grid (`oth`). -/
def State.doomTest (s : State) (u b lid : Nat) (sib oth : Bool) (vans : List Nat) : State :=
  { s with
    waves := s.waves.map fun (k, w) =>
      (k, if w.lid = lid ∧ w.sect.isNone ∧ ((w.blk = b ∧ k ≠ u ∧ sib) ∨ (w.blk ≠ b ∧ oth))
        then { w with reg := w.reg.map (Region.test vans) } else w)
    blocks := s.blocks.map fun (k, c) =>
      (k, if c.lid = lid ∧ k ≠ b ∧ oth then { c with reg := c.reg.map (Region.test vans) } else c) }

/-! ### Buffer lines (R223, R224) -/

/-- The byte a region's buffer holds for a storage key, if its mask bit is set. -/
def Region.byte (r : Region) (line off : Nat) : Option Byte :=
  match fget r.lines line with
  | some l => if l.mask.getLsbD off then some (rget l.data off) else none
  | none => none

/-- The region store lines of a core that belong to no block and to no region (R223): the free pool. -/
def State.poolFree (s : State) (core : Nat) : Nat :=
  let need := fun (b : Block) =>
    match fget s.launches b.lid with
    | some l => match b.spawned with
      | some _ => 64 * l.rc.rwave
      | none => l.rc.bx * l.rc.bY * l.rc.bz / 32 * 64 * l.rc.rwave + 64 * l.rc.rblk
    | none => 0
  let held := fun (r : Option Region) => match r with
    | some r => 64 * r.pChunks
    | none => 0
  let used := (s.blocks.map fun (_, b) =>
    if b.core = core ∧ b.placed ∧ !b.ended then need b + held b.reg else 0).foldl (· + ·) 0
  let wv := (s.waves.map fun (_, w) => if w.core = core ∧ w.sect.isNone then held w.reg else 0).foldl (· + ·) 0
  Config.regionLines - (used + wv)

/-- The chunk a region takes next (R223): from its quota (so many chunks), else from the pool; none: CAPACITY. -/
def takeChunk (r : Region) (quota maxChunks pool : Nat) : Option Region :=
  if r.qChunks + r.pChunks ≥ maxChunks then none
  else if r.qChunks < quota then some { r with qChunks := r.qChunks + 1 }
  else if pool ≥ 64 then some { r with pChunks := r.pChunks + 1 }
  else none

/-- A line for a key in a buffer, with a chunk if it needs one. -/
def Region.withLine (r : Region) (line van : Nat) (swm : Bool) (quota maxChunks pool : Nat) : Option Region :=
  match fget r.lines line with
  | some _ => some r
  | none =>
    let r' := if r.lines.length < 64 * (r.qChunks + r.pChunks) then some r else takeChunk r quota maxChunks pool
    r'.map fun r => { r with lines := fset r.lines line ⟨van, [], 0, 0, swm, false⟩ }

/-- Bytes written into an existing buffer line; the tag of the granule is set only by `stc` (R185). -/
def Line.put (l : Line) (off : Nat) (bs : List Byte) (tag : Bool) : Line :=
  let n := bs.length
  let data := ((List.range n).zip bs).foldl (fun d (i, b) => rset d (off + i) b) l.data
  let mask := l.mask ||| BitVec.ofNat 64 ((2 ^ n - 1) * 2 ^ off)
  let g0 := off / 16
  let g1 := (off + n - 1) / 16
  let clr := BitVec.ofNat 4 ((2 ^ (g1 + 1 - g0) - 1) * 2 ^ g0)
  let tags := if tag then l.tags ||| BitVec.ofNat 4 (2 ^ g0) else l.tags &&& ~~~clr
  { l with data := data, mask := mask, tags := tags }

/-- Bytes written into a region's buffer at a storage key within one line. -/
def Region.put (r : Region) (key : Nat) (bs : List Byte) (tag : Bool) : Region :=
  { r with lines := fmod r.lines (key / 64) fun l => l.put (key % 64) bs tag }

/-- A wave noted as a writer of a line. -/
def Region.by_ (r : Region) (u line : Nat) (atomic : Bool) : Region :=
  if r.wrote.contains (line, u, atomic) then r else { r with wrote := r.wrote ++ [(line, u, atomic)] }

/-- The one wave that wrote a line, if no other did. -/
def Region.writer (r : Region) (line : Nat) : Option Nat :=
  match r.wrote.filter fun x => x.1 == line with
  | [] => none
  | (_, u, _) :: t => if t.all fun x => x.2.1 == u then some u else none

/-- Another buffer's line merged into this one, byte by byte (R227). -/
def Line.merge (into l : Line) : Line :=
  let data := (List.range 64).foldl (fun d i => if l.mask.getLsbD i then rset d i (rget l.data i) else d) into.data
  let tag := fun (g : Nat) =>
    if bitsOf l.mask.toNat (16 * g + 15) (16 * g) = 0 then into.tags.getLsbD g else l.tags.getLsbD g
  let tags := ((List.range 4).map fun g => if tag g then 2 ^ g else 0).foldl (· + ·) 0
  { into with data := data, mask := into.mask ||| l.mask, tags := BitVec.ofNat 4 tags, poison := into.poison || l.poison }

/-! ### Store queues (R202) -/

/-- The error that a queued store meets on a line whose cork does not match: the merge checks the old cork (R410). -/
def SqEntry.error (e : SqEntry) : ErrorReport := ⟨e.core, e.wave, false, 6, BitVec.ofNat 32 (2 ^ e.lane), e.va⟩

/-- An entry of a store queue written at its home, as a commit of one line (R228). -/
def State.drainEntry (s : State) (e : SqEntry) : State :=
  if s.badAt none e.key (max 1 e.bytes.length) then s.freezeOn e.error e.pc s.nextId
  else (s.doomTest e.wave e.blk e.lid true true [e.van]).write (some e.wave) false none e.key e.bytes

/-- Two queued stores share a byte. -/
def SqEntry.meets (a b : SqEntry) : Bool :=
  decide (a.key < b.key + b.bytes.length) && decide (b.key < a.key + a.bytes.length)

/-- What leaves a queue with the entries that `p` holds, and what stays: an older store to a byte of one that leaves goes with it
(R209). -/
def sqLeave (p : SqEntry → Bool) : List SqEntry → List SqEntry × List SqEntry
  | [] => ([], [])
  | e :: t =>
    let r := sqLeave p t
    if p e || r.1.any e.meets then (e :: r.1, r.2) else (r.1, e :: r.2)

/-- Every entry of a core's queue that `p` holds is written, with what must go before it, oldest first. -/
def State.drainSq (s : State) (core : Nat) (p : SqEntry → Bool) : State :=
  let q := sqLeave p (s.core core).sq
  (q.1.foldl State.drainEntry s).modCore core fun c => { c with sq := q.2 }

/-! ### Ownership and reclassification (R169, R170) -/

/-- The page's own entry in memory changed by the device: an atomic update, which like any write clears the granule's tag
(R153). -/
def State.setPte (s : State) (e : TlbEntry) (pte : DWord) : State := s.write none true none e.pteAddr (bytesOf pte.toNat 8)

/-- The entry in memory of a page with a table entry. -/
def State.pteOf (s : State) (e : TlbEntry) : DWord :=
  if e.pteAddr = 0 then e.pte else BitVec.ofNat 64 (s.mem.num e.pteAddr 8)

/-- The steps of R170: SHARED in the entry, the owner's queue drained, the page dropped everywhere, a record of kind 7. R170 gives
neither the class that the record names nor the ring it goes to: the class of the old entry, into the ring of the accessing core's
cluster (log entry 133). -/
def State.reclassify (s : State) (coreNo va : Nat) (e : TlbEntry) : State :=
  let pte := putFld (s.pteOf e) 11 10 2
  let s1 := s.setPte e pte
  let s2 := s1.drainSq (pOWNER pte) fun q => decide (e.key e.base ≤ q.key) && decide (q.key < e.key e.base + e.size)
  let s3 := s2.dropPage (fun _ => true) fun x => x.pteAddr == e.pteAddr
  s3.hotRecord coreNo (va / 64 * 64) 7 e

/-- What an access does to the class of its page before it is performed: the first T-core owns a PRIVATE page; an access
that conflicts reclassifies it. -/
def State.claim (s : State) (coreNo va : Nat) (writes : Bool) (e : TlbEntry) : State :=
  if e.pteAddr = 0 then s
  else
    let pte := s.pteOf e
    if !pV pte then s
    else match pCLASS pte with
      | 0 =>
        if !pOV pte then
          (if coreNo < 0x100 then s.setPte e (putFld (putFld pte 55 48 coreNo) 5 5 1) else s)
        else if coreNo ≥ 0x100 || pOWNER pte != coreNo then s.reclassify coreNo va e else s
      | 1 => if writes && pWR pte then s.reclassify coreNo va e else s
      | _ => s


end Sys2Proof.Machine
end

