-- ==== Sys2Proof/Machine/Perform.lean ====
section
/-!
DEFINITION. Performing accesses (spec/07_memory_access.md, R178, R179, R439; spec/08_atomics_sync_consistency.md, R187 to
R197, R207, R209, R210): the atomic operations, what a sector or atomic request does where it is served, and which
access may be performed next.
-/
namespace Sys2Proof.Machine

/-! ### Atomic operations (Table 8.2) -/

/-- Op(m, b) with its flags (R191); `size` in bytes. -/
def atomOp (opk size : Nat) (m b : Nat) : Nat × Nat :=
  let w := 8 * size
  match opk with
  | 0 => ((m + b) % 2 ^ w, 0)
  | 1 => (if signExt b w < signExt m w then b else m, 0)
  | 2 => (if signExt m w < signExt b w then b else m, 0)
  | 3 => (min m b, 0)
  | 4 => (max m b, 0)
  | 5 => (m &&& b, 0)
  | 6 => (m ||| b, 0)
  | 7 => (m ^^^ b, 0)
  | 8 => (b, 0)
  | 9 => (if m ≥ b then 0 else m + 1, 0)
  | 10 => (if m = 0 ∨ m > b then b else m - 1, 0)
  | 11 => fAdd .f32 .rne m b
  | 12 => fMinMax .f32 false false m b
  | _ => fMinMax .f32 true false m b

/-- thmax of R371: the greater, NaN operands ignored. -/
def thmaxOp (m x : Nat) : Nat := if (Fmt.value .f32 x).isNaN then m else (fMinMax .f32 true false m x).1

/-! ### Reading with the store queue (R202, R209) -/

/-- The byte the store queue of the wave's core holds for a key: of the same block, the youngest. -/
def sqByte (q : List SqEntry) (blk key : Nat) : Option Byte :=
  (q.filter fun e => e.blk == blk && decide (e.key ≤ key) && decide (key < e.key + e.bytes.length)).getLast?.map fun e =>
    e.bytes.getD (key - e.key) 0

/-- A byte as a load outside any region reads it. -/
def State.loadByte (s : State) (w : Wave) (swm : Option Nat) (key : Nat) : Byte :=
  if w.sect.isSome || swm.isSome then s.byteAt swm key
  else (sqByte (s.core w.core).sq w.blk key).getD (s.byteAt swm key)

/-- n bytes so read, as a number. -/
def State.loadNum (s : State) (w : Wave) (swm : Option Nat) (key : Nat) : Nat → Nat
  | 0 => 0
  | n + 1 => s.loadNum w swm key n + (s.loadByte w swm (key + n)).toNat * 256 ^ n

/-- Queued stores of the wave's block to the same bytes leave the queue first (R209). -/
def State.settle (s : State) (w : Wave) (key n : Nat) : State :=
  if w.sect.isSome then s
  else s.drainSq w.core fun e => e.blk == w.blk && decide (e.key < key + n) && decide (key < e.key + e.bytes.length)

/-! ### Writing results into registers -/

/-- A loaded or returned value: 1 or 2 bytes extended, 4 a register, 8 a pair, 16 a quad without a tag. -/
def Thread.setSized (t : Thread) (dst size : Nat) (sext : Bool) (x : Nat) : Thread :=
  if size = 8 then t.setV2 dst (BitVec.ofNat 64 x)
  else if size = 16 then t.setV4 dst (BitVec.ofNat 128 x)
  else t.setV dst (if sext then BitVec.ofInt 32 (signExt x (8 * size)) else BitVec.ofNat 32 x)

/-- A value written into a lane of a wave. -/
def State.setLane (s : State) (u l : Nat) (g : Thread → Thread) : State := s.modWave u fun w => w.modTh l g

/-! ### Homes and reservations (R167, R197) -/

/-- Fold6 of R167. -/
def fold6 (n : Nat) : Nat := ((List.range 7).map fun i => bitsOf n (6 * i + 5) (6 * i)).foldl (· ^^^ ·) 0

/-- The home of a line id: a region controller (0x1000 + core) or a slice; of an SWM copy, the slice of its die. -/
def homeId (line : Nat) : Nat :=
  if line ≥ 2 ^ 60 then 64 * (line / 2 ^ 60 - 1) + fold6 (line % 2 ^ 60)
  else
    let key := 64 * line
    if key ≥ 2 ^ 53 then 64 * ((key - 2 ^ 53) / 2 ^ 32) + fold6 ((key - 2 ^ 53) % 2 ^ 32 / 64)
    else if key ≥ 2 ^ 52 then 0x1000 + (key - 2 ^ 52) / 2 ^ 27
    else 64 * bitsOf key 13 12 + fold6 line

/-- The waves with a reservation at a home. -/
def State.reservedAt (s : State) (home : Nat) : List (Nat × DWord) :=
  s.waves.filterMap fun (u, w) => match w.resv with
    | some (l, c) => if homeId l = home then some (u, c) else none
    | none => none

/-- The oldest reservation of a home. -/
def oldestResv : List (Nat × DWord) → Option (Nat × DWord)
  | [] => none
  | a :: t => match oldestResv t with
    | some b => if b.2.toNat < a.2.toNat then some b else some a
    | none => some a

/-- Room for another reservation at a home (R197): fewer than 256, or one to displace; none: the lres waits. -/
def State.resvRoom (s : State) (u line : Nat) : Option State :=
  let rs := (s.reservedAt (homeId line)).filter fun r => r.1 != u
  if rs.length < 256 then some s
  else match oldestResv rs with
    | some (v, c) =>
      if (s.clk - c).toNat ≥ 1024 then some (s.modWave v fun w => { w with resv := none }) else none
    | none => some s

/-! ### Monitors (R207) -/

/-- The threads of a core with an armed monitor, which stays armed until its `mwait` returns (R208): wave, lane, line, arming
clk. -/
def State.armed (s : State) (core : Nat) : List (Nat × Nat × Nat × DWord) :=
  (s.waves.filter fun (_, w) => w.coreNo == core).flatMap fun (u, w) =>
    w.threads.filterMap fun (l, t) => match t.mon with
      | some m => some (u, l, m.line, m.armedAt)
      | none => none

/-- The distinct lines of a list. -/
def distinct : List Nat → List Nat
  | [] => []
  | a :: t => if t.contains a then distinct t else a :: distinct t

/-- A thread's monitor armed; with 2,048 other lines armed on the core, the line armed longest ago is evicted, and its threads
lose their monitors (R207). Of lines armed in one clk the first in the order of waves and lanes counts as armed longest ago: the
model's choice (log entry 134). -/
def State.arm (s : State) (u l line : Nat) : State :=
  match s.wave u with
  | none => s
  | some w =>
    let others := (s.armed w.coreNo).filter fun (v, k, _, _) => !(v == u && k == l)
    let lines := distinct (others.map fun x => x.2.2.1)
    let s1 :=
      if lines.contains line || decide (lines.length < 2048) then s
      else
        -- a line's arming is that of its latest watcher
        let age : Nat → Nat := fun ln => ((others.filter fun x => x.2.2.1 == ln).map fun x => x.2.2.2.toNat).foldl max 0
        let victim := lines.foldl (fun b ln => if age ln < age b then ln else b) (lines.headD 0)
        (others.filter fun x => x.2.2.1 == victim).foldl (fun s x =>
          s.setLane x.1 x.2.1 fun t => { t with mon := none }) s
    s1.setLane u l fun t => { t with mon := some ⟨line, s.clk, false⟩ }

/-! ### One access performed -/

/-- The die whose copy an SWM page is read and written through (R171). -/
def Access.die (a : Access) (w : Wave) : Option Nat := if a.swm then some (dieOf w.coreNo) else none
/-- The same at the second address. -/
def Access.die2 (a : Access) (w : Wave) : Option Nat := if a.swm2 then some (dieOf w.coreNo) else none

/-- A write by a wave outside any region, at its home (R228 row 4, R439). -/
def State.waveWrite (s : State) (u : Nat) (w : Wave) (atomic : Bool) (swm : Option Nat) (key : Nat) (bs : List Byte)
    (va : DWord) : State :=
  let s1 := s.settle w key bs.length
  let s2 := if w.sect.isSome then s1 else s1.doomTest u w.blk w.lid true true [vanOf va.toNat]
  s2.write (some u) atomic swm key bs

/-- The access has a second address. -/
def AccOp.two : AccOp → Bool
  | .dcas _ | .atom2 _ _ _ | .amov2 _ _ => true
  | _ => false

/-- One lane's read-modify-write operation (R194, R195, R371): `rd` reads so many bytes at a storage key, `wr` writes bytes at
an address; none where a write finds no room (R223). -/
def AccOp.run (rd : State → Nat → Nat → State × Nat) (wr : State → DWord → Nat → List Byte → Option State) (u : Nat)
    (op : AccOp) (l : LaneAcc) (s : State) : Option State :=
  let v := l.val.toNat
  let part := fun (size i : Nat) => v / 2 ^ (8 * size * i) % 2 ^ (8 * size)
  match op with
  | .atom opk size ret dst =>
    let (s1, m) := rd s l.key size
    let r := atomOp opk size m (part size 0)
    (wr s1 l.va l.key (bytesOf r.1 size)).map fun s2 =>
      s2.setLane u l.lane fun t => (if ret then t.setSized dst size false m else t).flag r.2
  | .cas size dst =>
    let (s1, m) := rd s l.key size
    (if m = part size 0 then wr s1 l.va l.key (bytesOf (part size 1) size) else some s1).map fun s2 =>
      s2.setLane u l.lane fun t => t.setSized dst size false m
  | .dcas dst =>
    let (s1, m1) := rd s l.key 4
    let (s2, m2) := rd s1 l.key2 4
    (if m1 = part 4 0 ∧ m2 = part 4 1 then
        (wr s2 l.va l.key (bytesOf (part 4 2) 4)).bind fun s3 => wr s3 l.va2 l.key2 (bytesOf (part 4 3) 4)
      else some s2).map fun s4 =>
      s4.setLane u l.lane fun t => (t.setV dst (BitVec.ofNat 32 m1)).setV (dst + 1) (BitVec.ofNat 32 m2)
  | .atom2 opk size dst =>
    let (s1, m1) := rd s l.key size
    let r1 := atomOp opk size m1 (part size 0)
    (wr s1 l.va l.key (bytesOf r1.1 size)).bind fun s2 =>
      let (s3, m2) := rd s2 l.key2 size
      let r2 := atomOp opk size m2 (part size 1)
      (wr s3 l.va2 l.key2 (bytesOf r2.1 size)).map fun s4 => s4.setLane u l.lane fun t =>
        ((t.setSized dst size false m1).setSized (dst + size / 4) size false m2).flag (r1.2 ||| r2.2)
  | .amov2 size dst =>
    let (s1, m1) := rd s l.key size
    let (s2, m2) := rd s1 l.key2 size
    (wr s2 l.va2 l.key2 (bytesOf m1 size)).bind fun s3 =>
      (wr s3 l.va l.key (bytesOf (part size 0) size)).map fun s4 => s4.setLane u l.lane fun t =>
        (t.setSized dst size false m1).setSized (dst + size / 4) size false m2
  | .thmax dst =>
    let (s1, m) := rd s l.key 4
    (wr s1 l.va l.key (bytesOf (thmaxOp m (part 4 0)) 4)).map fun s2 =>
      s2.setLane u l.lane fun t => t.setV dst (BitVec.ofNat 32 m)
  | _ => some s

/-- Bytes an access touches at each of its addresses. -/
def AccOp.size : AccOp → Nat
  | .load n _ _ | .store n | .atom _ n _ _ | .cas n _ | .atom2 _ n _ | .amov2 n _ | .lres n _ | .scond n _ | .mon n _ => n
  | .ldc _ | .stc => 16
  | .dcas _ | .thmax _ => 4
  | .fence _ _ => 0

/-- One lane's part of an access, at the level that serves it. -/
def State.serveLane (s : State) (a : Access) (w : Wave) (l : LaneAcc) : State :=
  let u := a.wave
  let swm := a.die w
  let v := l.val.toNat
  let s := if a.op.size = 0 then s else s.hold swm l.key
  match a.op with
  | .load size sext dst => s.setLane u l.lane fun t => t.setSized dst size sext (s.loadNum w swm l.key size)
  | .ldc dst =>
    let x : QWord := BitVec.ofNat 128 (s.loadNum w swm l.key 16)
    let c : Cap := ⟨x, false⟩
    let queued := !w.sect.isSome && (List.range 16).any fun i => (sqByte (s.core w.core).sq w.blk (l.key + i)).isSome
    let tag := s.tagAt swm l.key && l.tag && !queued && c.wellFormed
    s.setLane u l.lane fun t => t.setQuadCap dst ⟨x, tag⟩
  | .store size => s.waveWrite u w false swm l.key (bytesOf v size) l.va
  | .stc => (s.waveWrite u w false swm l.key (bytesOf v 16) l.va).setTag swm l.key l.tag
  | .lres size dst => s.setLane u l.lane fun t => t.setSized dst size false (s.loadNum w swm l.key size)
  | .scond size _ => s.waveWrite u w true swm l.key (bytesOf v size) l.va
  | .mon size dst =>
    let s1 := s.settle w l.key size
    let m := s1.numAt swm l.key size
    (s1.arm u l.lane (lineId swm l.key)).setLane u l.lane fun t => t.setSized dst size false m
  | .fence _ _ => s
  | op =>
    let die := fun (key : Nat) => if op.two && key == l.key2 && key != l.key then
      a.die2 w else swm
    let rd := fun (s : State) (key n : Nat) =>
      let s1 := (s.settle w key n).hold (die key) key
      (s1, s1.numAt (die key) key n)
    let wr := fun (s : State) (va : DWord) (key : Nat) (bs : List Byte) => some (s.waveWrite u w true (die key) key bs va)
    (op.run rd wr u l s).getD s

/-- The lanes one after another, ascending (R188). -/
def State.performLanes (s : State) (a : Access) : List LaneAcc → State
  | [] => s
  | l :: t =>
    let s1 := match s.wave a.wave with
      | some w => s.serveLane a w l
      | none => s
    s1.performLanes a t

/-- The status a scond leaves in its lanes. -/
def State.scondStatus (s : State) (a : Access) (size dst x : Nat) : State :=
  a.lanes.foldl (fun s l => s.setLane a.wave l.lane fun t => t.setSized dst size false x) s

/-- The access performed and gone from those in flight; none where it has to wait (R197). The release of `thmax` is cumulative:
the store queue of its core empties before it (R371, R211). -/
def State.performNow (s : State) (a : Access) : Option State :=
  let gone := fun (s : State) => { s with inflight := s.inflight.filter fun b => b.id != a.id }
  match s.wave a.wave with
  | none => some (gone s)
  | some w =>
    let line := lineId (a.die w) (a.lanes.headD ⟨0, 0, 0, 0, 0, 0, false⟩).key
    match a.op with
    | .lres _ _ =>
      (s.resvRoom a.wave line).map fun s =>
        gone ((s.performLanes a a.lanes).modWave a.wave fun w => { w with resv := some (line, s.clk) })
    | .scond size dst =>
      let held := match w.resv with
        | some (l, _) => l == line
        | none => false
      let s1 := if held then s.performLanes a a.lanes else s
      let s2 := s1.modWave a.wave fun w => { w with resv := none }
      some (gone (s2.scondStatus a size dst (if held then 0 else 1)))
    | .thmax _ => some (gone ((if w.sect.isSome then s else s.drainSq w.core fun _ => true).performLanes a a.lanes))
    | _ => some (gone (s.performLanes a a.lanes))

/-! ### Lines whose cork does not match (R410, R413) -/

/-- The first address of a lane's access lies on a line whose cork does not match. -/
def State.badFirst (s : State) (a : Access) (l : LaneAcc) : Bool :=
  (s.wave a.wave).any fun w => s.badAt (a.die w) l.key (max 1 a.op.size)

/-- The second address does. -/
def State.badSecond (s : State) (a : Access) (l : LaneAcc) : Bool :=
  a.op.two && (s.wave a.wave).any fun w => s.badAt (a.die2 w) l.key2 (max 1 a.op.size)

/-- The lanes of an access that touch such a line. -/
def State.badLanes (s : State) (a : Access) : List LaneAcc := a.lanes.filter fun l => s.badFirst a l || s.badSecond a l

/-- The address that a bad lane reports. -/
def State.badVa (s : State) (a : Access) (l : LaneAcc) : DWord := if s.badFirst a l then l.va else l.va2

/-! ### Accesses that a later one has passed (R198) -/

/-- Lane masks of one lane. -/
def alone (m : Word) : Bool := decide ((lanesOf m).length ≤ 1)

/-- The accesses in flight that an observer may no longer find undone: `blk` names the observer's block, `u` its wave and lanes.
The one thread that passed an access of its own need not see it. A lane on a bad line will consume an error and show nothing. -/
def State.owed (s : State) (u : Option (Nat × Word)) (blk : Nat) : List Access :=
  s.inflight.filter fun a => decide (a.passed ≠ 0) &&
    (s.waves.any fun (k, (w : Wave)) => k == a.wave && w.sect.isNone &&
      (match u with
        | some (v, m) => if v = k then !alone (a.passedBy ||| m) else a.passed == 2 && w.blk == blk
        | none => a.passed == 2 && w.blk == blk)) &&
    (s.badLanes a).isEmpty

/-- They are performed before the observer reads or writes, in their order; those before `upto`, where the observer is itself an
access that has been passed. -/
def State.settleOwed (s : State) (u : Option (Nat × Word)) (blk : Nat) (upto : Option Nat := none) : State :=
  ((s.owed u blk).filter fun a => upto.all fun n => decide (a.id < n)).foldl (fun s a => (s.performNow a).getD s) s

/-- The same before lanes of a wave observe. -/
def State.settleFor (s : State) (u : Nat) (w : Wave) (lanes : Word) (upto : Option Nat := none) : State :=
  if w.sect.isSome then s else s.settleOwed (some (u, lanes)) w.blk upto

/-- The access performed, after what its lanes must find done; none where it has to wait. -/
def State.perform (s : State) (a : Access) : Option State :=
  match s.wave a.wave with
  | none => s.performNow a
  | some w => (s.settleFor a.wave w (maskOf (a.lanes.map (·.lane))) (if a.passed = 0 then none else some a.id)).performNow a

/-! ### Which access may be performed (R199, R209, R210) -/

/-- The access counts as a load (`red` and `scond` count as stores alone). -/
def AccOp.reads : AccOp → Bool
  | .store _ | .stc | .scond _ _ | .fence _ _ => false
  | .atom _ _ ret _ => ret
  | _ => true

/-- An acquire orders it: a load or an atomic (R199). -/
def AccOp.acquired : AccOp → Bool
  | .atom _ _ _ _ => true
  | o => o.reads

/-- The marker of a fence. -/
def AccOp.marker : AccOp → Bool
  | .fence _ _ => true
  | _ => false

/-- `lres` and `scond` act on their wave's one reservation. -/
def AccOp.reserves : AccOp → Bool
  | .lres _ _ | .scond _ _ => true
  | _ => false

/-- The access writes memory (an atomic always counts). -/
def AccOp.writes : AccOp → Bool
  | .load _ _ _ | .ldc _ | .lres _ _ | .mon _ _ | .fence _ _ => false
  | _ => true

/-- The keys an access touches. -/
def Access.keys (a : Access) : List Nat := a.lanes.flatMap fun l => if a.op.two then [l.key, l.key2] else [l.key]

/-- The lanes of an access. -/
def Access.lanesMask (a : Access) : Word := a.mask ||| maskOf (a.lanes.map (·.lane))

/-- Two accesses of one thread share a byte. -/
def overlap (a b : Access) : Bool :=
  a.keys.any fun x => b.keys.any fun y => decide (x < y + b.op.size) && decide (y < x + a.op.size)

/-- The earlier access `a` has to be performed before the later one `b`, both of one wave: the `lres` and `scond` of all its
groups in turn (R196), and the accesses of one thread as R199, R209 and R210 order them. -/
def mustPrecede (a b : Access) : Bool :=
  a.wave == b.wave && ((a.op.reserves && b.op.reserves) || ((a.lanesMask &&& b.lanesMask) != 0 &&
    match a.op, b.op with
    | .fence _ _, .fence _ _ => true
    | .fence acq rel, o => acq || (rel && o.writes)
    | o, .fence acq rel => rel || (acq && o.acquired)
    | o, p => overlap a b || (o.reads && p.writes) ||
        (match o, p with
          | .mon _ _, _ => true
          | .thmax _, _ => false
          | _, .thmax _ => true
          | _, _ => false)))

/-- Every earlier access that must precede access `a` has been performed: the accesses stand in issue order. -/
def ready (a : Access) : List Access → Bool
  | [] => true
  | b :: t => if b.id = a.id then true else !mustPrecede b a && ready a t

/-- The fence marker binds observers of .wave or .blk scope alone (R198). -/
def Access.narrow (a : Access) : Bool := decide (a.scope < 2) && a.op.marker

/-- An access that may pass another of its thread across a narrow fence, and be passed: a load, a store, or a read-modify-write
or `scond` of one lane. `lres` may have to wait for room, `mon` and `thmax` bring an order of their own (log entry 46). -/
def Access.passable (a : Access) : Bool :=
  match a.op with
  | .load _ _ _ | .store _ | .ldc _ | .stc => true
  | .lres _ _ | .mon _ _ | .thmax _ | .fence _ _ => false
  | _ => decide (a.lanes.length ≤ 1)

/-- A narrow fence before access `a` lets it go first where all that the fence orders ahead of it may be passed, shares no byte
with it and is no load before its store (R198, R209, R210), and waits for nothing else. -/
def fencePasses (q : List Access) (f a : Access) : Bool :=
  f.narrow && (q.takeWhile fun b => b.id != f.id).all fun e =>
    !mustPrecede e f || ((e.narrow || e.passable) && !overlap e a && !(e.op.reads && a.op.writes) &&
      (q.takeWhile fun b => b.id != e.id).all fun b => !mustPrecede b e || mustPrecede b f)

/-- An access that is held by narrow fences alone, each of which lets it pass. -/
def passes (a : Access) (q : List Access) : Bool :=
  a.passable && (q.takeWhile fun b => b.id != a.id).all fun b => !mustPrecede b a || fencePasses q b a

/-- The accesses that access `a` passes, each with the widest scope of a fence between, plus 1. -/
def passedOver (a : Access) (q : List Access) : List (Nat × Nat) :=
  let before := q.takeWhile fun b => b.id != a.id
  let fs := before.filter fun f => f.narrow && mustPrecede f a
  before.filterMap fun e =>
    let m := (fs.filter fun f => decide (e.id < f.id) && mustPrecede e f).foldl (fun m f => max m (f.scope + 1)) 0
    if e.op.marker || m = 0 then none else some (e.id, m)

/-- They are so marked: the threads of that scope see them in order. -/
def State.markPassed (s : State) (lanes : Word) (ms : List (Nat × Nat)) : State :=
  { s with inflight := s.inflight.map fun e => match ms.find? fun m => m.1 == e.id with
      | some (_, m) => { e with passed := max e.passed m, passedBy := e.passedBy ||| lanes }
      | none => e }

/-- An earlier `fld.sys` of these lanes is unacknowledged, and the fence's marker waits for it (R385). -/
def State.loadsAbroad (s : State) (a : Access) : Bool :=
  match a.op with
  | .fence true _ => s.packets.any fun (id, (p : Packet)) =>
      decide (id < a.id) && p.wave == a.wave && p.pkt.kind == 1 && p.pkt.sys && p.pkt.lanes.any fun (l, _, _) => inMask a.mask l
  | _ => false

/-- An access that stands among those in flight may go before the narrow fences that hold it: none of them waits for an
`fld.sys` (R385). -/
def State.mayPass (s : State) (a : Access) (q : List Access) : Bool :=
  passes a q && (q.takeWhile fun b => b.id != a.id).all fun f => !(mustPrecede f a && s.loadsAbroad f)

/-- What an access of `q` passes where it goes now. -/
def overtaken (a : Access) (q : List Access) : List (Nat × Nat) := if ready a q then [] else passedOver a q

/-- The access without some of its lanes. -/
def Access.without (a : Access) (ls : List LaneAcc) : Access :=
  { a with lanes := a.lanes.filter fun l => !ls.any fun b => b.lane == l.lane }

/-- The wave has an access in flight that will meet a line whose cork does not match. -/
def State.meetsBad (s : State) (u : Nat) : Bool := s.inflight.any fun a => a.wave == u && !(s.badLanes a).isEmpty

/-- All accesses of a wave performed, oldest first, but for their lanes on a bad line (R413); loads of it are dropped when
`discard`. -/
def State.flushList (u : Nat) (discard : Bool) : List Access → State → State
  | [], s => s
  | a :: t, s =>
    if a.wave = u then
      (if discard && !a.op.writes then
        State.flushList u discard t { s with inflight := s.inflight.filter fun b => b.id != a.id }
      else State.flushList u discard t ((s.perform (a.without (s.badLanes a))).getD s))
    else State.flushList u discard t s

/-- A wave's accesses in flight and queued stores all performed, or its loads dropped. -/
def State.flushWave (s : State) (u : Nat) (discard : Bool) : State :=
  let s1 := State.flushList u discard s.inflight s
  match s1.wave u with
  | some w => if w.sect.isSome then s1 else s1.drainSq w.core fun e => e.wave == u
  | none => s1

end Sys2Proof.Machine
end

