-- ==== Sys2Proof/Machine/Ops.lean ====
section
/-!
DEFINITION. The shared operations: issue groups and runs (spec/05_control_flow.md, R104 to R111), the checks of a word
before its effect (R48, R85), taking an exception and returning from one (spec/17_traps_errors_context.md, R404 to R406,
R422; R34), parking (R165), region aborts (spec/09_regions.md, R233 to R235), kills (R137) and the end of a shipped
section (R264).
-/
namespace Sys2Proof.Machine

/-- What a meaning answers. -/
abbrev Out := Host.Outcome State Fault Refusal

/-! ### Threads and places -/

/-- A thread of table 5.1 as it starts (R104). -/
def Thread.init (pc : DWord) (tid : Nat) : Thread where
  pc := pc
  cd := 0
  meet := []
  ser := 0
  tm := false
  yd := false
  wait := .none
  deadline := 0
  exited := false
  v := []
  qtag := []
  p := 0
  e := []
  lat := []
  latv := 0
  resume := 0
  fflags := 0
  tcause := 0
  tpc := 0
  taddr := 0
  tdet := 0
  tlatv := 0
  tlat := []
  tneed := none
  lastPage := none
  mon := none
  tid := tid
  barPhase := []
  starved := 0
  atEntry := false
  hWave := none
  hBlk := none

/-- The lanes of a wave whose threads have not exited. -/
def Wave.live (w : Wave) : Word := maskOf ((w.threads.filter fun (_, t) => !t.exited).map (·.1))

/-- The waves of a block. -/
def State.wavesOf (s : State) (b : Nat) : List (Nat × Wave) :=
  s.waves.filter fun (_, w) => w.sect.isNone && w.blk == b

/-- Threads of a block. -/
def LaunchRec.blockThreads (r : LaunchRec) : Nat := r.bx * r.bY * r.bz
/-- Blocks of a grid. -/
def LaunchRec.gridBlocks (r : LaunchRec) : Nat := r.gx * r.gy * r.gz

/-- A thread's linear id (R134, R139). -/
def State.linearId (s : State) (w : Wave) (lane : Nat) (t : Thread) : Nat :=
  match fget s.launches w.lid, fget s.blocks w.blk with
  | some l, some b =>
    match b.spawned with
    | some n => l.rc.gridBlocks * l.rc.blockThreads + 32 * n + lane
    | none => b.lin * l.rc.blockThreads + t.tid
  | _, _ => 0

/-- The innermost region a wave's accesses fall in (R220): its own, else its block's. -/
def State.regionOf (s : State) (w : Wave) : Option Region :=
  if w.sect.isSome then none
  else match w.reg with
    | some r => some r
    | none => s.blockRegion w

/-- A region of the wave is open. -/
def State.inRegion (s : State) (w : Wave) : Bool := (s.regionOf w).isSome

/-! ### Outstanding operations (R269, R291): an operation completes when nothing is left of it, and counts until every
earlier one of its class has completed -/

/-- Operations completed in order dropped. -/
def trimOps : List Nat → List Op → List Op
  | _, [] => []
  | open_, o :: t =>
    if o.left = 0 ∧ !open_.contains o.cls then trimOps open_ t
    else o :: trimOps (if o.left = 0 then open_ else o.cls :: open_) t

/-- One part of an operation done. -/
def Wave.opDone (w : Wave) (id : Nat) : Wave :=
  { w with ops := trimOps [] (w.ops.map fun o => if o.id = id then { o with left := o.left - 1 } else o) }

/-- The value of a counter (R269, R291, R343, R386). -/
def Wave.oc (w : Wave) (cls : Nat) : Nat := (w.ops.filter fun o => o.cls == cls).length

/-- An operation of a class begun with so many parts, in its place by issue; a failure of an earlier one has one more younger
than it (R293). -/
def Wave.opBegin (w : Wave) (id cls left : Nat) : Wave :=
  { w with
    ops := trimOps [] ((w.ops.takeWhile fun o => decide (o.id < id)) ++ ⟨id, cls, left⟩ :: w.ops.dropWhile fun o => decide (o.id < id))
    fails := w.fails.map fun f => if f.cls = cls ∧ f.op < id then { f with younger := f.younger + 1 } else f }

/-- A failure of an operation that still counts: the operations begun after it are all known. -/
def Wave.failed (w : Wave) (op cls code kind : Nat) : Failure :=
  ⟨op, cls, code, kind, (w.ops.filter fun o => o.cls == cls && decide (op < o.id)).length⟩

/-! ### Reply slots (R258, R267) -/

def RSlot.init : RSlot := ⟨.free, 0, 0, 0, 0, 0, 0, 0, false, 0, 0, 0, 0, [], 0, [], 0, none⟩

/-- A slot freed; its generation advances at the reuse (R267). -/
def RSlot.freed (r : RSlot) : RSlot := { RSlot.init with gen := r.gen }

/-- A slot of a core. -/
def State.slot (s : State) (core n : Nat) : RSlot := (fget (s.core core).slots n).getD RSlot.init
def State.setSlot (s : State) (core n : Nat) (r : RSlot) : State :=
  s.modCore core fun c => { c with slots := fset c.slots n r }
def State.freeSlot (s : State) (core n : Nat) : State := s.setSlot core n (s.slot core n).freed

/-- Every slot of a wave that `p` holds freed. -/
def State.freeSlots (s : State) (u : Nat) (p : RSlot → Bool) : State :=
  { s with cores := s.cores.map fun (n, c) =>
      (n, { c with slots := c.slots.map fun (k, r) =>
              (k, if r.st ≠ .free ∧ r.wave = u ∧ p r then r.freed else r) }) }

/-- The slot of a request of this package, if it still holds the request. -/
def State.slotOf (s : State) (q : Req) : Option RSlot :=
  let r := s.slot q.core q.slot
  if q.member.isNone && r.st != .free && r.wave == q.wave && r.op == q.op && r.lane == q.lane then some r else none

/-- Deferred `shipp` requests discarded: their slots, if they still hold them, and operations (R239, R258). -/
def State.dropEscapes (s : State) (bs : List Bundle) : State :=
  bs.foldl (fun s b => b.reqs.foldl (fun s q =>
    (if (s.slotOf q).isSome then s.freeSlot q.core q.slot else s).modWave b.wave fun w => w.opDone q.op) s) s

/-- Slots of a wave freed while its operations still count: of requests at homes of other members their names stay, so that the
reply that is discarded ends its part (R115, R268, R278). -/
def State.forsake (s : State) (u : Nat) (p : RSlot → Bool) : State :=
  let away : List (Nat × Nat × Nat) := s.cores.flatMap fun (_, (c : Core)) => c.slots.filterMap fun (_, (r : RSlot)) =>
    if r.st = .waiting ∧ r.wave = u ∧ p r then r.remote.map fun m => (r.op, r.lane, m) else none
  (s.freeSlots u p).modWave u fun w => { w with abroad := w.abroad ++ away }

/-! ### Held engine commands (R239, R289, R295) -/

/-- Bits h to l of the field that starts at a byte of a command. -/
def cmdFld (x : BitVec 512) (off h l : Nat) : Nat := bitsOf x.toNat (8 * off + h) (8 * off + l)

def cGV (x : BitVec 512) : Bool := cmdFld x 0 13 13 == 1
def cGS (x : BitVec 512) : Nat := cmdFld x 0 11 8

/-- The value of a guard slot: true and unbound from the start (R295). -/
def Wave.slotOf (w : Wave) (k : Nat) : GuardSlot := (fget w.g k).getD ⟨.tru, 0⟩

/-- The held commands of a wave whose slots have resolved: what they resolved to stays, and their engine knows it 8 clk later
(R289). -/
def State.latchGuards (s : State) (u : Nat) : State :=
  match s.wave u with
  | none => s
  | some w => { s with cmds := s.cmds.map fun (id, (c : Cmd)) =>
      let v := (w.slotOf (cGS c.words)).val
      (id, if c.wave = u ∧ c.stage = .held ∧ cGV c.words ∧ c.guard = none ∧ v ≠ .pending then
        { c with guard := some (v == .tru), learn := s.clk + 8 } else c) }

/-- The commands that a wave pushed in its wave region are discarded with it (R239). -/
def State.dropPushes (s : State) (u : Nat) : State :=
  { s with cmds := s.cmds.map fun (id, (c : Cmd)) =>
      (id, if c.wave = u ∧ c.nest ∧ c.stage = .held then { c with guard := some false, learn := s.clk + 8, nest := false } else c) }

/-- The wave region committed: what was pushed in it belongs to the block's region, or to none. -/
def State.keepPushes (s : State) (u : Nat) : State :=
  { s with cmds := s.cmds.map fun (id, (c : Cmd)) => (id, if c.wave = u then { c with nest := false } else c) }

/-! ### Shipped sections end (R264, R268) -/

/-- A section event record (Table 10.3) in the ring of a die. -/
def State.sectionEvent (s : State) (lcore : Nat) (q : Req) (kind code : Nat) : State :=
  let score := match q.member with
    | some m => 0x8000 + m
    | none => q.core
  let r : BitVec 256 := BitVec.ofNat 256 (q.lock.toNat + s.clk.toNat * 2 ^ 64 + lcore * 2 ^ 128 + kind * 2 ^ 144 +
    code * 2 ^ 152 + score * 2 ^ 160)
  s.modDie (lcore / 16) fun d => { d with events := d.events.put r }

/-- A reply sent (R268). -/
def State.reply (s : State) (q : Req) (status det k : Nat) (regs : Regs 32) (tags : List Nat) (flags : Word) : State :=
  let (id, s) := s.fresh
  { s with replies := fset s.replies id ⟨q, status, det, k, regs, tags, flags⟩ }

/-- A section's end by any cause (R262 to R264): its accesses performed, its context and lock freed, the event of a
failure, the reply. An access of it that meets an uncorrectable error makes it end with SECTION_FAULT (R416). -/
def State.endSection (s : State) (u status0 det0 k0 : Nat) (regs : Regs 32) (tags : List Nat) : State :=
  let (status, det, k) := if s.meetsBad u then (cSECTFAULT, cERROR, 0) else (status0, det0, k0)
  match s.wave u with
  | none => s
  | some w => match w.sect with
    | none => s
    | some c =>
      let flags := match w.th 0 with
        | some t => t.fflags
        | none => 0
      let s1 := s.flushWave u false
      let s2 := { s1 with waves := fdel s1.waves u }
      let s3 := s2.modLCore c.lcore fun l =>
        { l with
          ctxEnd := if c.suspended then l.ctxEnd else fset l.ctxEnd c.ctx s.clk
          lockEnd := (l.lockEnd.filter fun e => e.1 != (c.req.port, c.req.lock)) ++ [((c.req.port, c.req.lock), s.clk)] }
      let s4 := if status = 0 then s3 else s3.sectionEvent c.lcore c.req 2 status
      s4.reply c.req status det k regs tags flags

/-- An error consumed by a T-core wave, a sequencer or an L-core section (R413, R416). -/
def State.consume (s : State) (e : ErrorReport) (pc : DWord) (age : Nat := s.nextId) : State :=
  if e.core ≥ 0x100 then s.endSection e.wave cSECTFAULT cERROR 0 [] [] else s.freezeOn e pc age

/-! ### Launch records and kills (R123, R137, R405) -/

/-- Bytes written into a launch's record, as a system-scope write of the device; a record whose page is gone keeps what
it holds (log entry 18). -/
def State.recordWrite (s : State) (l : Launch) (off : Nat) (bs : List Byte) : State :=
  match s.walkVa l.port (l.va.toNat + off) with
  | .error _ => s
  | .ok e => s.write none false (if e.swm then some 0 else none) (e.key (l.va.toNat + off)) bs

/-- Status codes of Table 6.2. -/
def LStatus.code : LStatus → Nat
  | .pending => 1 | .running => 2 | .complete => 3 | .killed => 4 | .cancelled => 5

/-- The status is final. -/
def LStatus.final : LStatus → Bool
  | .pending | .running => false
  | _ => true

/-- A status written into the launch and its record. -/
def State.setStatus (s : State) (lid : Nat) (st : LStatus) : State :=
  match fget s.launches lid with
  | none => s
  | some l =>
    let s1 := s.modLaunch lid fun l => { l with status := st, done := if st.final then s.clk else l.done }
    let s2 := if st.final then s1.recordWrite l 0x58 (bytesOf s.clk.toNat 8) else s1
    s2.recordWrite l 0x55 (bytesOf st.code 1)

/-- A launch no longer counts among the children of its parent's blocks. -/
def State.orphan (s : State) (lid : Nat) : State :=
  { s with blocks := s.blocks.map fun (n, b) => (n, { b with kids := b.kids.filter (· ≠ lid) }) }

/-- How far an id lies behind the newest, in serial arithmetic (R128). -/
def State.age (s : State) (id : Nat) : Nat := (s.newestLid - BitVec.ofNat 32 id).toNat

/-- An AFTER launch has ended KILLED or CANCELLED, within the window of R128. -/
def State.afterFailed (s : State) (l : Launch) : Bool :=
  l.rc.after.any fun id => decide (s.age id ≤ 65536) && (fget s.launches id).any fun a =>
    a.status == .killed || a.status == .cancelled

/-- Pending launches whose AFTER launch failed end CANCELLED, and so on to those that name them (R128). -/
def State.cancelAll : Nat → State → State
  | 0, s => s
  | n + 1, s =>
    match s.launches.find? fun (_, (l : Launch)) => l.status == .pending && s.afterFailed l with
    | some (lid, _) => State.cancelAll n ((s.setStatus lid .cancelled).orphan lid)
    | none => s

/-- A launch's final status (R129, R128). -/
def State.finish (s : State) (lid : Nat) (st : LStatus) : State :=
  let s1 := (s.setStatus lid st).orphan lid
  if st = .complete then s1 else s1.cancelAll s1.launches.length

/-- Pending slots are false once the last thread has gone (R295). -/
def Wave.endSlots (w : Wave) : Wave := { w with g := w.g.map fun (n, g) => (n, if g.val = .pending then ⟨.fls, 0⟩ else g) }

/-- A wave taken away: its stores performed, its loads and replies dropped (R115, R278). -/
def State.removeWave (s : State) (u : Nat) : State :=
  let s0 := (s.modWave u Wave.endSlots).latchGuards u
  let s1 := s0.flushWave u true
  let s2 := s1.freeSlots u fun _ => true
  { s2 with waves := fdel s2.waves u, saved := fdel s2.saved u }

/-- The wave stands in a frozen cluster (R413). -/
def State.frozen (s : State) (w : Wave) : Bool :=
  w.sect.isNone && (s.cluster (clusterOf w.core)).frozen.isSome

/-- The wave is in the middle of a run: a kill stops it at its next run boundary (R426). A frozen wave stands still already. -/
def State.midRun (s : State) (w : Wave) : Bool := w.run.isSome && !s.frozen w

/-- A wave that a kill has stopped and that waits for the list operations it has issued (R115, R426): its threads have exited. -/
def Wave.stopped (w : Wave) : Wave :=
  { w with run := none, threads := w.threads.map fun (l, t) => (l, { t with exited := true, wait := .none }) }

/-- A wave of a killed launch: it goes on to its next run boundary, waits for the list operations it has issued, or is
gone. -/
def State.stopWave (s : State) (u : Nat) : State :=
  match (s.wave u).orElse fun _ => fget s.saved u with
  | none => s
  | some w =>
    if s.midRun w then s
    else if w.sops.isEmpty then s.removeWave u
    else
      let s1 := (((s.modWave u Wave.endSlots).latchGuards u).flushWave u true).freeSlots u fun _ => true
      { s1 with waves := fmod s1.waves u Wave.stopped, saved := fmod s1.saved u Wave.stopped }

/-- The block of a killed launch keeps its place until its last wave has stopped and its sequencer's tile operations are
complete (R115, R426). -/
def State.outlives (s : State) (n : Nat) (b : Block) : Bool :=
  (s.waves.any fun (_, w) => w.sect.isNone && w.blk == n) || (s.saved.any fun (_, w) => w.blk == n) ||
    b.seq.any fun q => !q.ops.isEmpty

/-- The waves of a killed launch stopped, and what is left of its blocks and bins gone. -/
def State.clearLaunch (s : State) (lid : Nat) : State :=
  let us : List Nat := (s.waves.filter fun (_, w) => w.sect.isNone && w.lid == lid).map (·.1)
  let vs : List Nat := (s.saved.filter fun (_, w) => w.lid == lid).map (·.1)
  let s1 : State := (us ++ vs).foldl State.stopWave s
  { s1 with
    blocks := (s1.blocks.filter fun (n, b) => b.lid != lid || s1.outlives n b).map fun (n, b) =>
      (n, if b.lid = lid then { b with seq := b.seq.map fun q => { q with ended := true, wait := .none } } else b)
    cores := s1.cores.map fun (n, (c : Core)) =>
      (n, { c with bins := c.bins.filter fun (_, (b : Bin)) => b.lid != lid }) }

/-- A launch killed with its child grids: waves, blocks and bins removed, no handler runs (R137); a wave in the middle of a run
goes on to its end (R426). `record` says whether STATUS and the kill fields are written (R430). The depth of nesting is at most
10 (R136). -/
def State.kill (record : Bool) (code arg : Nat) : Nat → Nat → State → State
  | 0, _, s => s
  | fuel + 1, lid, s =>
    match fget s.launches lid with
    | none => s
    | some l =>
      if l.status.final then s
      else
        let s3 := (s.clearLaunch lid).modLaunch lid fun l =>
          { l with next := l.rc.gridBlocks, returned := [], reserving := false, kcode := code, karg := arg }
        let s4 :=
          if record then
            ((s3.recordWrite l 0x57 (bytesOf code 1)).recordWrite l 0x60 (bytesOf arg 4)).finish lid .killed
          else (s3.modLaunch lid fun l => { l with status := .killed, done := s.clk }).orphan lid
        let kids : List Nat := (s4.launches.filter fun (_, c) => c.parent == lid && !c.status.final).map (·.1)
        kids.foldl (fun s k => State.kill record code arg fuel k s) s4

/-- A launch killed with its record written. -/
def State.killLaunch (s : State) (lid code arg : Nat) : State := State.kill true code arg 11 lid s

/-- A killed launch of which something can be taken away now: a wave at a run boundary, or a block that nothing keeps. -/
def State.leftover (s : State) : Option (Nat × Launch) :=
  s.launches.find? fun (lid, (l : Launch)) => l.status == .killed &&
    ((s.waves.any fun (_, w) => w.sect.isNone && w.lid == lid && !s.midRun w && (w.sops.isEmpty || w.live != 0)) ||
      (s.saved.any fun (_, w) => w.lid == lid && (w.sops.isEmpty || w.live != 0)) ||
      s.blocks.any fun (n, b) => b.lid == lid && !s.outlives n b)

/-- It is taken away, with the bins that its last words opened and the child grids that they launched (R426, R137). -/
def State.reap (s : State) : Option State :=
  s.leftover.map fun (lid, l) =>
    let s1 := s.clearLaunch lid
    let kids : List Nat := (s1.launches.filter fun (_, c) => c.parent == lid && !c.status.final).map (·.1)
    kids.foldl (fun s k => State.kill (l.kcode != 0) l.kcode l.karg 11 k s) s1

/-! ### Blocks that leave their core (R133, R417) -/

/-- A block unplaced again: its launch offers it before every never-placed block (R133). -/
def State.unplace (s : State) (b lid : Nat) : State :=
  (s.modBlock b fun k => { k with
    placed := false, leaving := false, seq := k.seq.map fun q => { q with lastPage := none } }).modLaunch lid fun l =>
    { l with returned := sinsert l.returned b }

/-- A block that is being saved has lost its last resident wave, or completed its sequencer's last tile operation: with a wave
saved and no such operation left it is unplaced (R133, R328). With no wave left it ends. -/
def State.lastGone (s : State) (b : Nat) : State :=
  match fget s.blocks b with
  | some k =>
    if k.leaving && (s.wavesOf b).isEmpty && (s.saved.any fun (_, (w : Wave)) => w.blk == b) && k.seq.all fun q => q.ops.isEmpty then
      s.unplace b k.lid
    else s
  | none => s

/-! ### Region aborts (R233 to R237) -/

/-- sr.rstat after one more abort (Table 9.3). -/
def rstatNext (old : Word) (code : Nat) (blk : Bool) (reason : Nat) : Word :=
  let count := min 255 (bfld old 23 16 + 1)
  BitVec.ofNat 32 (code % 256 * 2 ^ 24 + count * 2 ^ 16 + (if blk then 256 else 0) + reason)

/-- A thread unwound to a handler (R234). -/
def Thread.unwind (t : Thread) (h : Option Unwind) : Thread :=
  if t.exited then t
  else match h with
    | none => t
    | some h =>
      { t with
        pc := h.pc, cd := BitVec.ofNat 16 h.cd, meet := t.meet.filter fun m => decide (m.ser ≤ h.ser)
        wait := .none, tm := false, yd := false, lat := [], latv := 0, resume := 0 }

/-- A wave unwound at a level: buffer, signature and doom gone, threads at their handlers, sr.rstat written, guard slots
bound to the region false (R234, R235, R239). An unwinding that the abort of the block's region left pending stays so after an
abort of the wave region (R237). -/
def Wave.unwindAt (w : Wave) (blk : Bool) (reason code : Nat) : Wave :=
  { w with
    threads := w.threads.map fun (l, t) =>
      let t' := t.unwind (if blk then t.hBlk else t.hWave)
      (l, { t' with hWave := none, hBlk := if blk then none else t'.hBlk })
    reg := none, run := none, intr := [], faultAbort := none, unwind := if blk then none else w.unwind
    rstat := rstatNext w.rstat code blk reason
    g := w.g.map fun (n, g) => (n, if g.bound = 1 ∨ (g.bound = 2 ∧ blk) then ⟨.fls, 0⟩ else g) }

/-- The deferred escapes of a wave's region. -/
def Wave.escapes (w : Wave) : List Bundle :=
  match w.reg with
  | some r => r.escapes
  | none => []

/-- A wave changed, resident or saved. -/
def State.modAny (s : State) (u : Nat) (g : Wave → Wave) : State :=
  { s with waves := fmod s.waves u g, saved := fmod s.saved u g }

/-- A wave unwound at a level, with what it deferred there (R234, R239). -/
def State.unwindWave (s : State) (u : Nat) (w : Wave) (blk : Bool) (reason code : Nat) : State :=
  (((s.dropEscapes w.escapes).dropPushes u).modAny u fun w => w.unwindAt blk reason code).latchGuards u

/-- The wave region aborted. -/
def State.abortWave (s : State) (u reason code : Nat) : State :=
  match s.wave u with
  | none => s
  | some w => s.unwindWave u w false reason code

/-- One wave of a block whose region aborts: at once between runs or for the causing wave, else at its run's end
(R237). -/
def State.abortOne (s : State) (u : Nat) (now : Bool) (reason code : Nat) : State :=
  match (s.wave u).orElse fun _ => fget s.saved u with
  | none => s
  | some w =>
    if now || w.run.isNone then s.unwindWave u w true reason code
    else s.modWave u fun w => { w with unwind := some ⟨reason, code, true⟩ }

/-- The block region aborted: the causing wave records the cause, the others PARENT with the same CODE; with no causing
wave all record the cause (R235). A wave whose block region was aborted and that has yet to unwind aborts it no second time. -/
def State.abortBlock (s : State) (b : Nat) (cause : Option Nat) (reason code : Nat) : State :=
  match fget s.blocks b with
  | none => s
  | some blk => if cause.any fun u => (s.wave u).any Wave.aborting then s else
    let esc := match blk.reg with
      | some r => r.escapes
      | none => []
    let s1 := (s.dropEscapes esc).modBlock b fun k => { k with reg := none }
    -- a wave that waits in the region while it is saved unwinds as one that waits (R237)
    (s1.wavesOf b ++ s1.saved.filter fun (_, w) => w.blk == b).foldl (fun s (u, _) =>
      match cause with
      | none => s.abortOne u false reason code
      | some c => if c = u then s.abortOne u true reason code else s.abortOne u false 4 code) s1

/-- A pending unwinding carried out at the end of a run (R237). -/
def State.boundary (s : State) (u : Nat) : State :=
  match s.wave u with
  | none => s
  | some w => match w.unwind with
    | none => s
    | some p => s.unwindWave u w p.blk p.reason p.code

/-! ### Taking an exception (R404, R405, R34) -/

/-- A fault of one lane: its code, the address and the detail the trap registers receive, the return address. -/
structure LaneFault where
  lane : Nat
  code : Nat
  addr : DWord
  det  : Nat
  ret  : DWord
deriving DecidableEq, Repr

/-- Trap entry of R404: the trap registers, the latches of a register arithmetic word, TM, and PC := TRAPH. -/
def Thread.trap (t : Thread) (traph : DWord) (f : LaneFault) (del pure : Bool) : Thread :=
  { t with
    tcause := BitVec.ofNat 32 (f.code % 256 + if del then 0x10000 else 0)
    tpc := f.ret
    taddr := f.addr
    tdet := BitVec.ofNat 32 (f.det % 256)
    tlatv := if pure then t.latv.setWidth 32 else 0
    tlat := if pure then t.lat else t.tlat
    tneed := none
    tm := true
    pc := traph
    wait := .none
    lat := []
    latv := 0
    resume := 0 }

/-- The return from a trap (R422): the latches whose sr.tlatv bit is set, TM, and PC := sr.tpc. -/
def Thread.tret (t : Thread) : Thread :=
  { t with
    tm := false
    pc := t.tpc
    latv := t.tlatv.setWidth 3
    lat := [1, 2, 3].foldl (fun m k => if t.tlatv.getLsbD (k - 1) then rset m k (rget t.tlat k) else m) [] }

/-- The run closed: no latch survives it (R33), and a pending unwinding takes place. -/
def Wave.closeRun (w : Wave) : Wave :=
  match w.run with
  | none => w
  | some m => { (w.mapMask m fun _ t => t.dropLat) with run := none }

/-- The launch's trap handler. -/
def State.trapHandler (s : State) (w : Wave) : DWord :=
  match fget s.launches w.lid with
  | some l => l.rc.traph
  | none => 0

/-- The port a block's launch translates through. -/
def State.portOf (s : State) (b : Block) : Nat :=
  match fget s.launches b.lid with
  | some l => l.port
  | none => 0

/-- The number of a group that is interrupted now: no group held, and none that has still to continue, has it (R34). -/
def Wave.nextIntr (w : Wave) : Nat :=
  (w.intr.map fun i => i.id).foldl max ((w.threads.map fun (_, t) => t.resume).foldl max 0) + 1

/-- Faults taken by lanes of a wave (R404, R405): in a section its end (R264); in a doomed region, for a fault after the
checks of R48, the abort of the doomed level (R229); a double fault or a launch without a handler kills it; else trap
entry in each lane. `pureRun` is the issue group of a register arithmetic word, whose other threads are held (R34). Where a
fault in one wave aborts a doomed block region, every wave records CONFLICT: R235 does not name that case (log entry 138). -/
def State.takeFaults (s : State) (u : Nat) (fs : List LaneFault) (pureRun : Option Word) (r48 : Bool)
    (del : Bool := false) : State :=
  match s.wave u, fs with
  | none, _ => s
  | _, [] => s
  | some w, f0 :: _ =>
    if w.sect.isSome then s.endSection u cSECTFAULT f0.code 0 [] []
    else
      let wd := match w.reg with
        | some r => r.doomed
        | none => false
      let bd := match s.blockRegion w with
        | some r => r.doomed
        | none => false
      if !r48 && bd then (s.modWave u Wave.closeRun).abortBlock w.blk none 2 0
      else if !r48 && wd then (s.abortWave u 2 0).boundary u
      else
        let traph := s.trapHandler w
        let twice := fs.find? fun f => match w.th f.lane with
          | some t => t.tm
          | none => false
        match (if traph = 0 then some f0 else twice) with
        | some f =>
          let lin := match w.th f.lane with
            | some t => s.linearId w f.lane t
            | none => 0
          (s.modWave u Wave.closeRun).killLaunch w.lid f.code (lin % 2 ^ 32)
        | none =>
          let trapped := maskOf (fs.map (·.lane))
          let s1 := s.modWave u fun w => fs.foldl (fun w f =>
            w.modTh f.lane fun t => t.trap traph f del pureRun.isSome) w
          match pureRun with
          | none => s1
          | some m =>
            let held := m &&& ~~~trapped
            let s2 := s1.modWave u fun w =>
              { (w.mapMask held fun _ t => { t with wait := .group }) with
                run := none
                intr := w.intr ++ [⟨f0.ret, held, trapped, w.nextIntr⟩] }
            s2.boundary u

/-! ### Interrupted groups (R34) -/

/-- Groups whose faulting threads are all out of the handler are released; a thread that came back to the word waits for
the others. -/
def Wave.settleIntr (w : Wave) : Wave :=
  let out := fun (i : Interrupted) => (w.active i.trapped).all fun (_, t) => t.exited || !t.tm
  let back := fun (i : Interrupted) =>
    i.held ||| maskOf ((w.active i.trapped).filterMap fun (l, t) =>
      if !t.exited && !t.tm && t.pc == i.pc && t.wait == .group then some l else none)
  let w1 := w.intr.foldl (fun w i =>
    if out i then w.mapMask (back i) fun _ t =>
      if t.exited then t else { t with wait := if t.wait = .group then .none else t.wait, resume := i.id }
    else w) w
  { w1 with intr := w.intr.filter fun i => !out i }

/-- A thread that leaves the handler by `tret`: at the faulting word of its group it is held with the others; elsewhere it
has left the group. -/
def Wave.afterTret (w : Wave) (mask : Word) : Wave :=
  let back := fun (i : Interrupted) => maskOf (((w.active mask).filter fun (_, t) => i.pc == t.pc).map (·.1)) &&& i.trapped
  let w1 := w.mapMask mask fun l t => if w.intr.any fun i => inMask (back i) l then { t with wait := .group } else t
  ({ w1 with intr := w.intr.map fun i => { i with trapped := i.trapped &&& ~~~(mask &&& ~~~back i) } } : Wave).settleIntr

/-! ### Meeting points (R108, R109) -/

/-- Arrival at an entry of the stack: the entries above it discarded, the thread held. -/
def Thread.arrive (t : Thread) : Thread :=
  if t.exited || t.tm || t.wait != .none then t
  else match t.meet.dropWhile fun m => !(m.addr == t.pc && m.depth == t.cd.toNat) with
    | [] => t
    | m :: rest => { t with meet := m :: rest, wait := .meet }

/-- The thread holds the entry anywhere in its stack. -/
def Thread.holds (t : Thread) (a : DWord) (d : Nat) : Bool := t.meet.any fun m => m.addr == a && m.depth == d

/-- The thread is held at the entry. -/
def Thread.heldAt (t : Thread) (a : DWord) (d : Nat) : Bool :=
  t.wait == .meet && match t.meet with
    | m :: _ => m.addr == a && m.depth == d
    | [] => false

/-- One evaluation of arrivals and releases. -/
def Wave.meetOnce (w : Wave) : Wave :=
  let w1 : Wave := { w with threads := w.threads.map fun (l, t) => (l, t.arrive) }
  let free : Thread → Bool := fun t => match t.meet with
    | m :: _ => t.wait == .meet &&
        w1.threads.all fun (_, u) => u.exited || !u.holds m.addr m.depth || u.heldAt m.addr m.depth
    | [] => false
  { w1 with threads := w1.threads.map fun (l, t) =>
      (l, if free t then { t with wait := .none, meet := t.meet.drop 1 } else t) }

/-- Arrivals and releases at a run boundary; a stack holds at most eight entries. -/
def Wave.meetStep (w : Wave) : Nat → Wave
  | 0 => w
  | k + 1 => w.meetOnce.meetStep k

/-! ### Groups and runs (R106, R107, R135) -/

/-- The heartbeat of an sc fence: 128 clk, or the global beat of 3,600. -/
def scPeriod (sys : Bool) : Nat := if sys then 3600 else 128

/-- The clk at which the thread's sc fence completes (R200): the first multiple of its period after the end of its drain. -/
def Thread.scTick (t : Thread) : Option DWord :=
  match t.wait with
  | .fenceSc sys _ (some d) => some (BitVec.ofNat 64 ((d.toNat / scPeriod sys + 1) * scPeriod sys))
  | _ => none

/-- Its tick has come. -/
def Thread.scDue (t : Thread) (clk : DWord) : Bool := t.scTick.any fun k => decide (k ≤ clk)

/-- A thread in `mwait` returns (R208): its monitor is disarmed. -/
def Thread.endMwait (t : Thread) : Thread := { t with wait := .none, mon := none }

/-- What a thread waits for has come by a clk: its sleep's deadline (R119), the tick of its sc fence (R200), or, in `mwait`, a
write to its line, the loss of its monitor or its timeout (R208). -/
def Thread.woken (t : Thread) (clk : DWord) : Bool :=
  match t.wait with
  | .asleep => decide (t.deadline ≤ clk)
  | .mwait => decide (t.deadline ≤ clk) || t.mon.all fun m => m.hit
  | _ => t.scDue clk

/-- The clk that woke it. -/
def Thread.wakesAt (t : Thread) (clk : DWord) : DWord :=
  match t.wait with
  | .asleep => t.deadline
  | .mwait => if t.deadline ≤ clk then t.deadline else clk
  | _ => t.scTick.getD clk

/-- A thread so woken. -/
def Thread.awake (t : Thread) : Thread :=
  match t.wait with
  | .mwait => t.endMwait
  | _ => { t with wait := .none }

/-- Threads whose wait has ended are eligible at a run boundary. -/
def Wave.wakeSleepers (w : Wave) (clk : DWord) : Wave :=
  { w with threads := w.threads.map fun (l, t) => (l, if t.woken clk then t.awake else t) }

/-- An eligible thread (R106). -/
def Thread.eligible (t : Thread) : Bool := !t.exited && t.wait == .none

/-- Group(wave) of R106: the wave with YD cleared where all are deferred, and the group; none where no thread is
eligible. A released group of R34 goes on alone. -/
def Wave.group (w : Wave) : Option (Wave × Word) :=
  let el := w.threads.filter fun (_, t) => t.eligible
  if el.isEmpty then none
  else
    let nd0 := el.filter fun (_, t) => !t.yd
    let w1 := if nd0.isEmpty then w.mapMask (maskOf (el.map (·.1))) fun _ t => { t with yd := false } else w
    let nd := if nd0.isEmpty then el else nd0
    match nd with
    | [] => none
    | (_, t) :: _ =>
      some (w1, maskOf ((nd.filter fun (_, u) =>
        u.pc == t.pc && u.cd == t.cd && u.tm == t.tm && u.resume == t.resume).map (·.1)))

/-- A run ends before a word whose address is a meeting entry of a thread at its depth (R107). -/
def Wave.atMeeting (w : Wave) (mask : Word) : Bool :=
  (w.active mask).any fun (_, t) => t.meet.any fun m => m.addr == t.pc && m.depth == t.cd.toNat

/-- The wave as a run boundary finds it (R106, R109, R119). -/
def State.atBoundary (s : State) (w : Wave) : Wave := ((w.wakeSleepers s.clk).settleIntr).meetStep 9

/-- The wave can open a run: it is not frozen, stopped by `brk`, waiting for firmware or suspended, and has a group. -/
def State.readyWave (s : State) (w : Wave) : Bool :=
  w.run.isNone && !s.frozen w && w.brk.isNone && w.faultAbort.isNone &&
    (w.sect.isSome || !(fget s.blocks w.blk).any fun b => b.leaving) &&
    (match w.sect with | some c => !c.suspended | none => true) && ((s.atBoundary w).group).isSome

/-! ### Parking (R165, R166, R265) -/

/-- A lane whose page is absent: its address and the kind of its access (Table 7.8). -/
structure Absent where
  lane : Nat
  va   : Nat
  kind : Nat
deriving DecidableEq, Repr

/-- The sections of an L-core that hold no context (R265). -/
def State.suspendedOn (s : State) (lcore : Nat) : Nat :=
  (s.waves.filter fun (_, w) => match w.sect with
    | some c => c.lcore == lcore && c.suspended
    | none => false).length

/-- One fault record for each absent page, of the lowest-numbered lane on it (R165). -/
def State.faultRecords (s : State) (w : Wave) : List Absent → List Absent → State
  | [], _ => s
  | a :: t, all =>
    if all.any fun b => decide (b.lane < a.lane) && b.va / 4096 == a.va / 4096 then s.faultRecords w t all
    else
      let lanes := maskOf ((all.filter fun b => b.va / 4096 == a.va / 4096).map (·.lane))
      (s.faultRecord w.coreNo w.ctx a.va lanes a.kind).faultRecords w t all

/-- PAGE_NOT_PRESENT in some lanes of a word at `pc`: parked outside a region, the innermost region to be aborted inside
one, a section suspended. A suspended section leaves its context as one that ends does, and the 8 clk of R261 run from then: the
model's choice (log entry 135). -/
def State.park (s : State) (u : Nat) (pc : DWord) (as : List Absent) : State :=
  match s.wave u, as with
  | none, _ => s
  | _, [] => s
  | some w, a :: _ =>
    let s1 := s.faultRecords w as as
    match w.sect with
    | some c =>
      let room := decide (s1.suspendedOn c.lcore < 32)
      let s2 := s1.sectionEvent c.lcore c.req 1 cNOTPRESENT
      let s3 := if room then s2.modLCore c.lcore fun l => { l with ctxEnd := fset l.ctxEnd c.ctx s.clk } else s2
      s3.modWave u fun w =>
        { (w.modTh 0 fun t => { t with pc := pc, wait := .parked (BitVec.ofNat 64 a.va) a.kind }) with
          sect := some { c with suspended := room } }
    | none =>
      if s.inRegion w then
        (s1.modWave u fun w => { w with faultAbort := some (BitVec.ofNat 64 a.va, a.kind) }).modWave u fun w =>
          as.foldl (fun w a => w.modTh a.lane fun t => { t with pc := pc }) w
      else s1.modWave u fun w => as.foldl (fun w a =>
        w.modTh a.lane fun t => { t with pc := pc, wait := .parked (BitVec.ofNat 64 a.va) a.kind }) w

/-- The clk since which a wave has been ready (R135): for one whose threads only waited for a clk, the first that came; for one
that is not ready, now. -/
def Wave.readySince (w : Wave) (clk : DWord) : DWord :=
  if w.threads.any fun (_, t) => t.eligible then w.since
  else
    let due : List DWord := w.threads.filterMap fun (_, (t : Thread)) =>
      if t.woken clk then some (t.wakesAt clk) else none
    due.foldl (fun a b => if b < a then b else a) clk |> fun d => if w.since < d then d else w.since

/-- Some of its threads' waits ended: the wave is newly ready unless it was ready before (R135; log entry 141). -/
def Wave.wakeBy (w : Wave) (clk : DWord) (g : Wave → Wave) : Wave := { (g w) with since := w.readySince clk }

/-- A thread's wait ended. -/
def State.wakeLane (s : State) (u l : Nat) (g : Thread → Thread) : State :=
  s.modWave u fun w => w.wakeBy s.clk fun w => w.modTh l fun t => { (g t) with wait := .none }

end Sys2Proof.Machine
end

