-- ==== Sys2Proof/Machine/Commit.lean ====
section
/-!
DEFINITION. Commits of visibility regions (spec/09_regions.md, R227 to R232, R239, R241): the merge of a wave buffer into
the block buffer, the commit to the device, and opening a region (R221 to R223, R244).
-/
namespace Sys2Proof.Machine

/-! ### Buffers to memory -/

/-- The offsets of a byte mask, ascending. -/
def maskOffsets (m : BitVec 64) : List Nat := (List.range 64).filter m.getLsbD

/-- One buffer line written at its home: the bytes whose mask bits are set, with the tags of R185. -/
def State.writeLine (s : State) (by_ : Option Nat) (atomic : Bool) (die : Nat) (line : Nat) (l : Line) : State :=
  let swm := if l.swm then some die else none
  let s1 := (maskOffsets l.mask).foldl (fun s i => s.putByte swm (64 * line + i) (rget l.data i)) s
  let touched := fun (g : Nat) => bitsOf l.mask.toNat (16 * g + 15) (16 * g) != 0
  let s2 := (List.range 4).foldl (fun (s : State) g =>
    if touched g then s.setTag swm (64 * line + 16 * g) (l.tags.getLsbD g) else s) s1
  -- a line written whole carries a new cork (R410)
  let s3 := if l.mask = BitVec.allOnes 64 then { s2 with bad := s2.bad.filter (· ≠ lineId swm (64 * line)) } else s2
  s3.noteWrite by_ atomic (lineId swm (64 * line))

/-- Every line of a buffer, in ascending address order (R230, step 6): a line that one wave wrote is that wave's write, by an
atomic if one of its atomics wrote it (R197). -/
def State.writeLines (s : State) (r : Region) (die : Nat) : FMap Line → State
  | [] => s
  | (n, l) :: t => (s.writeLine (r.writer n) (r.wrote.any fun x => x.1 == n && x.2.2) die n l).writeLines r die t

/-- The line numbers of a buffer. -/
def Region.vans (r : Region) : List Nat := r.lines.map fun (_, (l : Line)) => l.van

/-- The first line of a buffer that holds part of a line, of memory or of a die's copy, whose old cork does not match: the commit
checks that cork before it merges (R410). -/
def State.badMerge (s : State) (die : Nat) (r : Region) : Option (Nat × Line) :=
  r.lines.find? fun (n, (l : Line)) =>
    s.bad.contains (s.lineRead (if l.swm then some die else none) n) && l.mask != BitVec.allOnes 64

/-- The error a commit consumes there: source CORK, at the line's address (R410, R413). -/
def Line.error (l : Line) (core u : Nat) (lanes : Word) : ErrorReport := ⟨core, u, false, 6, lanes, BitVec.ofNat 64 (64 * l.van)⟩

/-- A line of the buffer is poisoned (R241). -/
def Region.poisoned (r : Region) : Bool := r.lines.any fun (_, (l : Line)) => l.poison

/-- A .dev or .sys release of a wave of the core empties its store queue (R202). -/
def State.releaseDev (s : State) (core : Nat) : State := s.drainSq core fun _ => true

/-- Deferred `shipp` requests leave for their homes (R239). -/
def State.sendEscapes (s : State) (bs : List Bundle) : State := { s with bundles := s.bundles ++ bs }

/-- The guard slots bound to the committed region resolve true (R296). -/
def Wave.resolveBound (w : Wave) (level : Nat) : Wave :=
  { w with g := w.g.map fun (n, g) => (n, if g.bound = level then ⟨.tru, 0⟩ else g) }

/-- The threads' records of a region that closes. -/
def Wave.dropHandlers (w : Wave) (blk : Bool) : Wave :=
  { w with threads := w.threads.map fun (l, t) => (l, if blk then { t with hBlk := none } else { t with hWave := none }) }

/-! ### Growth (R223) -/

/-- Chunks of the quota of a wave region and of a block region. -/
def State.quotaWave (s : State) (lid : Nat) : Nat :=
  match fget s.launches lid with
  | some l => l.rc.rwave
  | none => 0
def State.quotaBlk (s : State) (b : Block) : Nat :=
  match b.spawned, fget s.launches b.lid with
  | none, some l => l.rc.rblk
  | _, _ => 0

/-- A line in a wave's buffer. -/
def State.waveLine (s : State) (w : Wave) (r : Region) (line van : Nat) (swm : Bool) : Option Region :=
  r.withLine line van swm (s.quotaWave w.lid) 4 (s.poolFree w.core)
/-- A line in a block's buffer. -/
def State.blkLine (s : State) (b : Block) (r : Region) (line van : Nat) (swm : Bool) : Option Region :=
  r.withLine line van swm (s.quotaBlk b) 64 (s.poolFree b.core)

/-- Lines merged into the block buffer; none where a chunk cannot be had. The pool shrinks as chunks are taken from it. -/
def mergeLines (quota pool : Nat) : Region → FMap Line → Option Region
  | r, [] => some r
  | r, (n, l) :: t =>
    match r.withLine n l.van l.swm quota 64 (pool - 64 * r.pChunks) with
    | none => none
    | some r1 => mergeLines quota pool { r1 with lines := fmod r1.lines n fun k => k.merge l } t

/-! ### Commits -/

/-- `rcommit.wave` on an open wave region (R227, R230): success, or the abort; nothing where the block's region has been aborted
above it. Where the merge meets a line whose old cork does not match, the wave consumes the error at its word `pc`, and the region
stays open for the decision (R410, R415). The release of R230's step 5 is of .dev scope, or the .sys scope of a release deferred under R214: each empties the
store queue, and the wave's accesses from before are performed already. -/
def State.commitWave (s : State) (u : Nat) (pc : DWord) : State :=
  match s.wave u with
  | none => s
  | some w => match w.reg with
    | none => s
    | some r => if w.aborting then s else
      match fget s.blocks w.blk, s.blockRegion w with
      | some b, some br =>
        if r.poisoned then s.abortWave u 6 cERROR
        else if r.doomed then s.abortWave u 2 0
        else match mergeLines (s.quotaBlk b) (s.poolFree b.core + 64 * br.pChunks) br r.lines with
          | none => s.abortBlock w.blk (some u) 3 0
          | some br1 =>
            let br2 := { br1 with escapes := br1.escapes ++ r.escapes, rel := max br1.rel r.rel, wrote := br1.wrote ++ r.wrote }
            let s1 := s.modBlock w.blk fun b => { b with reg := some br2 }
            let s2 := s1.doomTest u w.blk w.lid true false r.vans
            (s2.keepPushes u).modWave u fun w => { (w.dropHandlers false) with reg := none }
      | _, _ =>
        let s1 := s.doomTest u w.blk w.lid true true r.vans
        if r.poisoned then s1.abortWave u 6 cERROR
        else if r.doomed then s1.abortWave u 2 0
        else match s1.badMerge (dieOf w.core) r with
        | some (_, l) => s1.freezeOn (l.error w.core u w.live) pc s1.nextId
        | none =>
          let s2 := (s1.releaseDev w.core).writeLines r (dieOf w.core) r.lines
          let s3 := s2.modWave u fun w => { ((w.dropHandlers false).resolveBound 1) with reg := none }
          ((s3.keepPushes u).latchGuards u).sendEscapes r.escapes

/-- The block commit of R232: success closes the region; failure aborts it for the whole block. -/
def State.commitBlock (s : State) (b : Nat) : State :=
  match fget s.blocks b with
  | none => s
  | some k => match k.reg with
    | none => s
    | some r =>
      let s1 := s.doomTest 0 b k.lid false true r.vans
      if r.poisoned then s1.abortBlock b none 6 cERROR
      else if r.doomed then s1.abortBlock b none 2 0
      else
        let s2 := (s1.releaseDev k.core).writeLines r (dieOf k.core) r.lines
        let s3 := s2.modBlock b fun k => { k with reg := none }
        let s4 := { s3 with waves := s3.waves.map fun (u, (w : Wave)) =>
          (u, if w.blk = b ∧ w.sect.isNone then (w.dropHandlers true).resolveBound 2 else w) }
        ((s4.wavesOf b).foldl (fun s x => s.latchGuards x.1) s4).sendEscapes r.escapes

/-! ### Opening -/

/-- The first chunk of a region: quota, else pool; none: it cannot be opened. -/
def firstChunk (quota maxChunks pool : Nat) : Option Region := takeChunk (Region.init 0 0) quota maxChunks pool

end Sys2Proof.Machine
end

