-- ==== Sys2Proof/Machine/Barriers.lean ====
section
/-!
DEFINITION. Numbered barriers (spec/08_atomics_sync_consistency.md, R203 to R206), the collective opening and commit of a
block region through them (spec/09_regions.md, R222, R232), the end of a matrix stream (spec/13_matrix.md, R304 to R309)
and the exit of a thread (spec/05_control_flow.md, R115).
-/
namespace Sys2Proof.Machine

/-- A barrier at block start (R203). -/
def Barrier.init : Barrier := ⟨0, none, 0, [], false, 0, [], [], [], []⟩

/-- Barrier `k` of a block. -/
def Block.bar (b : Block) (k : Nat) : Barrier := (fget b.bars k).getD Barrier.init
/-- Barrier `k` of a block replaced. -/
def Block.setBar (b : Block) (k : Nat) (x : Barrier) : Block := { b with bars := fset b.bars k x }

/-- A thread of a block as a barrier names it. -/
def threadKey (u l : Nat) : Nat := 32 * u + l

/-- The waves of a block, resident or saved. -/
def State.blockWaves (s : State) (b : Nat) : List (Nat × Wave) :=
  (s.waves ++ s.saved).filter fun (_, (w : Wave)) => w.sect.isNone && w.blk == b

/-- Every wave of a block changed, resident or saved. -/
def State.modBlockWaves (s : State) (b : Nat) (g : Nat → Wave → Wave) : State :=
  let f := fun (m : FMap Wave) => m.map fun (u, (w : Wave)) => (u, if w.sect.isNone && w.blk == b then g u w else w)
  { s with waves := f s.waves, saved := f s.saved }

/-- The live threads of a block, with what they wait for. -/
def State.blockLive (s : State) (b : Nat) : List (Nat × Thread) :=
  (s.blockWaves b).flatMap fun (u, (w : Wave)) =>
    w.threads.filterMap fun (l, t) => if t.exited then none else some (threadKey u l, t)

/-- The thread waits on barrier `k`. -/
def Thread.waitsAt (t : Thread) (k : Nat) : Bool :=
  match t.wait with
  | .bar j _ => j == k
  | _ => false

/-- The phase of the thread's latest arrival at barrier `k` has ended, or it never arrived. -/
def Thread.phaseOver (t : Thread) (k phase : Nat) : Bool :=
  match fget t.barPhase k with
  | some p => decide (p < phase)
  | none => true

/-- The block's matrix stream has not ended. -/
def Block.streamLive (b : Block) : Bool :=
  match b.seq with
  | some q => !q.ended
  | none => false

/-- The sequencer waits on barrier `k`. -/
def Block.seqWaits (b : Block) (k : Nat) : Bool :=
  match b.seq with
  | some q => (match q.wait with
    | .bar j _ => j == k
    | _ => false)
  | none => false

/-- Flags of an ended phase that a return from `.wait` delivers (R304). -/
def Barrier.flagsOf (x : Barrier) (phase : Nat) : Word := rget x.flags phase

/-! ### The end of a phase -/

/-- The barrier after a phase: the phase recorded as ended, everything else clear; a phase that completed keeps the
sequencer's flags and the waves that arrived. -/
def Barrier.advance (x : Barrier) (completed : Bool) : Barrier :=
  { Barrier.init with
    phase := x.phase + 1
    flags := if completed then rset x.flags x.phase x.seqFlags else x.flags
    noted := if completed then fset x.noted x.phase x.waves else x.noted }

/-- Waiters of an ended phase released: threads with the flags of R304, the sequencer with the noted set of R309. -/
def State.releaseBar (s : State) (b k phase : Nat) (flags : Word) (noted : List Nat) : State :=
  let th := fun (t : Thread) => match t.wait with
    | .bar j p => if j = k ∧ p ≤ phase then { t with wait := .none, fflags := t.fflags ||| flags } else t
    | _ => t
  let s1 := s.modBlockWaves b fun _ w =>
    { w with
      threads := w.threads.map fun (l, t) => (l, th t)
      since := if w.threads.any (fun (_, t) => t.waitsAt k) then w.readySince s.clk else w.since }
  let sq := fun (q : Seq) => match q.wait with
    | .bar j p => if j = k ∧ p ≤ phase then { q with wait := .none, noted := noted } else q
    | _ => q
  s1.modBlock b fun x => { x with seq := x.seq.map sq }

/-- The outcome of `ropen.blk` for the block (R222): the region, and the predicates of every thread that arrived. -/
def State.openBlock (s : State) (b : Nat) (preds : FMap Nat) : State :=
  match fget s.blocks b with
  | none => s
  | some x =>
    let r := firstChunk (s.quotaBlk x) 64 (s.poolFree x.core)
    let s1 := s.modBlock b fun x => { x with reg := r }
    let th := fun (u l : Nat) (t : Thread) => match fget preds (threadKey u l) with
      | some p => { (t.setP p r.isSome) with hBlk := if r.isSome then t.hBlk else none }
      | none => t
    s1.modBlockWaves b fun u w => { w with threads := w.threads.map fun (l, t) => (l, th u l t) }

/-- A phase completes (R204): what its mode stands for, then the waiters. -/
def State.completePhase (s : State) (b k : Nat) : State :=
  match fget s.blocks b with
  | none => s
  | some x =>
    let bar := x.bar k
    let s1 := s.modBlock b fun x => x.setBar k (bar.advance true)
    let s2 := match bar.mode with
      | some .ropen => s1.openBlock b bar.preds
      | some .rcommit => s1.commitBlock b
      | _ => s1
    s2.releaseBar b k bar.phase bar.seqFlags bar.waves

/-- The stream had not ended before and has ended now. -/
def State.streamEnded (old new : State) (b : Nat) : Bool :=
  (fget old.blocks b).any Block.streamLive && !(fget new.blocks b).any Block.streamLive

/-- The sequencer stops at a fault (R305). -/
def State.seqFaulted (s : State) (b code : Nat) : State :=
  s.modBlock b fun x => { x with seq := x.seq.map fun q =>
    { q with ended := true, flt := true, code := code, wait := .none } }

/-- An operation on a wave's threads, also where the wave is saved. -/
def State.onWave (s : State) (u : Nat) (g : State → State) : State :=
  match fget s.saved u with
  | none => g s
  | some w =>
    let s1 := g { s with waves := fset s.waves u w, saved := fdel s.saved u }
    match s1.wave u with
    | some w1 => { s1 with waves := fdel s1.waves u, saved := fset s1.saved u w1 }
    | none => s1

/-- A phase abandoned (R205): its waiting threads trap, the others that arrived starve later. Where the block's region is doomed it
aborts, once, in place of the traps (R229). -/
def State.abandonPhase (s : State) (b k : Nat) : State :=
  match fget s.blocks b with
  | none => s
  | some x =>
    let bar := x.bar k
    let waiting : List (Nat × List LaneFault) := (s.blockWaves b).map fun (u, (w : Wave)) =>
      (u, w.threads.filterMap fun (l, t) =>
        if !t.exited && t.waitsAt k then some ⟨l, cSTARVED, 0, 0, t.pc - 8⟩ else none)
    let s1 := s.modBlock b fun x => x.setBar k (bar.advance false)
    let th := fun (u l : Nat) (t : Thread) =>
      if t.waitsAt k then { t with wait := .none }
      else if bar.arrived.contains (threadKey u l) then { t with starved := t.starved ||| BitVec.ofNat 16 (2 ^ k) }
      else t
    let s2 := s1.modBlockWaves b fun u w => { w with threads := w.threads.map fun (l, t) => (l, th u l t) }
    let s3 :=
      if x.seqWaits k then
        -- it waits past its `mbar`, and faults at it
        (s2.modBlock b fun x => { x with seq := x.seq.map fun q => { q with pc := q.pc - 8 } }).seqFaulted b cSTARVED
      else if bar.seqIn then
        s2.modBlock b fun x => { x with seq := x.seq.map fun q =>
          { q with starved := q.starved ||| BitVec.ofNat 16 (2 ^ k) } }
      else s2
    if (waiting.any fun p => !p.2.isEmpty) && x.reg.any fun r => r.doomed then s3.abortBlock b none 2 0
    else waiting.foldl (fun s p => s.onWave p.1 fun s => s.takeFaults p.1 p.2 none false) s3

/-- The commit of a block's region would merge into a line whose old cork does not match: the line (R410). -/
def State.stuckCommit (s : State) (b : Nat) : Option Line :=
  match fget s.blocks b with
  | none => none
  | some x => match x.reg with
    | none => none
    | some r => if r.poisoned || r.doomed then none else (s.badMerge (dieOf x.core) r).map fun p => p.2

/-- The error of such a commit is consumed by the lowest-numbered resident wave of the block, at its `rcommit.blk`, which its
threads wait past; the phase stays complete and uncommitted for the decision (R410, R413, log entry 76). -/
def State.commitError (s : State) (b : Nat) (l : Line) : State :=
  match s.wavesOf b with
  | [] => s
  | (u, w) :: _ =>
    let ls := w.threads.filter fun (_, t) => !t.exited
    let pc := match ls.head? with
      | some (_, t) => t.pc - 8
      | none => 0
    s.freezeOn (l.error w.core u w.live) pc s.nextId

/-- The test of R204 and R205 on barrier `k`: complete, abandon, or neither. -/
def State.evalBarOnce (s : State) (b k : Nat) : State :=
  match fget s.blocks b with
  | none => s
  | some x =>
    let bar := x.bar k
    let live := s.blockLive b
    match bar.mode with
    | none => s
    | some (.count n) =>
      if bar.arrivals ≥ n then s.completePhase b k
      else
        let idle := (live.filter fun (_, t) => !t.waitsAt k).length
        let sq := if x.streamLive && !x.seqWaits k then 1 else 0
        if bar.arrivals + idle + sq < n then s.abandonPhase b k else s
    | some m =>
      if !live.isEmpty && live.all fun (i, _) => bar.arrived.contains i then
        match (if m = .rcommit then s.stuckCommit b else none) with
        | none => s.completePhase b k
        | some l => if (s.cluster (clusterOf x.core)).frozen.isSome then s else s.commitError b l
      else s

/-- Commits that an error held back, tried again once the cluster goes on: those of phases at which every live thread waits. -/
def State.retryCommits (s : State) (b : Nat) : State :=
  (List.range 16).foldl (fun s k =>
    let held := (fget s.blocks b).any fun x => (x.bar k).mode == some .rcommit && (s.blockLive b).all fun (_, t) => t.waitsAt k
    if held then s.evalBarOnce b k else s) s

/-- Every barrier of the block tested, as an exit or the end of the stream does; again where that ends the stream. -/
def State.evalBars (s : State) (b : Nat) : State :=
  let once := fun (s : State) => (List.range 16).foldl (fun s k => s.evalBarOnce b k) s
  if State.streamEnded s (once s) b then once (once s) else once s

/-- The test of one barrier; where it ends the stream, the others are tested without it. -/
def State.evalBar (s : State) (b k : Nat) : State :=
  let s1 := s.evalBarOnce b k
  if State.streamEnded s s1 b then s1.evalBars b else s1

/-! ### Arrivals and waits -/

/-- An arrival of a thread; false where it does not count and raises BARRIER_STARVED (R205). `pred` is the predicate an
`ropen.blk` names. -/
def State.arrive (s : State) (u l b k : Nat) (mode : BarMode) (pred : Option Nat) : State × Bool :=
  match fget s.blocks b with
  | none => (s, true)
  | some x =>
    let bar := x.bar k
    let badCount := match mode with
      | .count n => n == 0 || decide (n > 1025)
      | _ => false
    let mismatch := match bar.mode with
      | some m => m != mode
      | none => false
    if badCount || mismatch then (s, false)
    else
      let i := threadKey u l
      let bar1 := { bar with
        mode := some mode
        arrivals := bar.arrivals + 1
        arrived := sinsert bar.arrived i
        preds := match pred with | some p => fset bar.preds i p | none => bar.preds
        waves := sinsert bar.waves u }
      let s1 := s.modBlock b fun x => x.setBar k bar1
      let s2 := s1.setLane u l fun t => { t with barPhase := fset t.barPhase k bar.phase }
      (s2.evalBar b k, true)

/-- `.wait` of a thread; false where it raises BARRIER_STARVED. -/
def State.barWait (s : State) (u l b k : Nat) : State × Bool :=
  match fget s.blocks b, (s.wave u).bind fun w => w.th l with
  | some x, some t =>
    let bar := x.bar k
    if t.starved.getLsbD k then
      (s.setLane u l fun t => { t with starved := t.starved &&& ~~~(BitVec.ofNat 16 (2 ^ k)) }, false)
    else if t.phaseOver k bar.phase then
      let fl := match fget t.barPhase k with
        | some p => bar.flagsOf p
        | none => 0
      (s.setLane u l fun t => { t with fflags := t.fflags ||| fl }, true)
    else ((s.setLane u l fun t => { t with wait := .bar k bar.phase }).evalBar b k, true)
  | _, _ => (s, true)

/-! ### The sequencer's side -/

/-- The matrix stream ends by a fault (R305); barriers count it no more (R205). -/
def State.seqFault (s : State) (b code : Nat) : State := (s.seqFaulted b code).evalBars b

/-! ### Exit (R115, R306) -/

/-- Threads of a mask exit: their loads in flight are discarded, meetings and barriers count them out. -/
def State.exitLanes (s : State) (u : Nat) (mask : Word) : State :=
  let s1 : State := { s with
    inflight := s.inflight.filterMap fun a =>
      if a.wave = u ∧ !a.op.writes then
        (match a.op with
          | .fence _ _ => some { a with mask := a.mask &&& ~~~mask }
          | _ =>
            let ls := a.lanes.filter fun x => !inMask mask x.lane
            if ls.isEmpty then none else some { a with lanes := ls })
      else some a }
  s1.modWave u fun w =>
    { (w.mapMask mask fun _ t => { t with exited := true, wait := .none, mon := none, tm := false }) with
      intr := w.intr.map fun i => { i with held := i.held &&& ~~~mask, trapped := i.trapped &&& ~~~mask }
      vd := { w.vd with lanes := w.vd.lanes.map fun (l, v) => (l, if inMask mask l then { v with st := .idle } else v) } }

/-- What the last exit of a wave leaves (R115, R202, R262, R295): its queued stores leave, pending slots are false, the slots of
tokens freed, its wave region aborted. -/
def State.waveEmpty (s : State) (u : Nat) : State :=
  match s.wave u with
  | none => s
  | some w =>
    let s1 := if w.reg.isSome then s.abortWave u 1 0 else s
    let s2 := (s1.forsake u fun r => r.mode == 1).drainSq w.core fun e => e.wave == u
    (s2.modWave u Wave.endSlots).latchGuards u

/-- After exits in a block: its region aborted with the last thread, its stream orphaned, its barriers tested. -/
def State.blockAfterExit (s : State) (b : Nat) : State :=
  match fget s.blocks b with
  | none => s
  | some x =>
    if (s.blockLive b).isEmpty then
      let s1 := if x.reg.isSome then s.abortBlock b none 1 0 else s
      s1.modBlock b fun x => { x with seq := x.seq.map fun q =>
        if q.ended then q else { q with ended := true, orph := true, wait := .none } }
    else s.evalBars b

/-- `exit` of the threads of a mask. -/
def State.exitThreads (s : State) (u : Nat) (mask : Word) : State :=
  match s.wave u with
  | none => s
  | some w =>
    let s1 := s.exitLanes u mask
    let s2 := match s1.wave u with
      | some w1 => if w1.live = 0 then s1.waveEmpty u else s1
      | none => s1
    s2.blockAfterExit w.blk

end Sys2Proof.Machine
end

