-- ==== Sys2Proof/Machine/Issue.lean ====
section
/-!
DEFINITION. The issue of a word: the group it issues for, the checks before its effect (spec/02_instruction_word.md,
R48; R85), and the two shapes of a meaning: register arithmetic, which goes on with its run (R31, R34), and every other
word, which ends it.
-/
namespace Sys2Proof.Machine

/-! ### A word issues (R31, R48, R85) -/

/-- The issuing wave, its number and its issue group. -/
structure Ctx where
  u : Nat
  w : Wave
  mask : Word
deriving DecidableEq, Repr

/-- The wave whose turn it is, with its open run. -/
def State.issuing (s : State) : Option Ctx :=
  match s.turn with
  | .seq _ => none
  | .wave u => match s.wave u with
    | some w => w.run.map fun m => ⟨u, w, m⟩
    | none => none

/-- The lowest-numbered thread of the group. -/
def Ctx.lead (c : Ctx) : Option (Nat × Thread) := (c.w.active c.mask).head?

/-- The address of the word. -/
def Ctx.pc (c : Ctx) : DWord :=
  match c.lead with
  | some (_, t) => t.pc
  | none => 0

/-- The same fault in every thread of the group. -/
def Ctx.all (c : Ctx) (code : Nat) : List LaneFault :=
  (lanesOf c.mask).map fun l => ⟨l, code, 0, 0, c.pc⟩

/-- The feature group of the word is absent from the core (R48 check 4, R54, R15). -/
def State.lacks (s : State) (w : Wave) (i : Instr) : Bool :=
  match i.feature with
  | none => false
  | some b => w.sect.isSome || !(s.core w.core).fmask.getLsbD b

/-- A register span beyond the declared count (R29). -/
def outOfRange (limit : Nat) (spans : List (Nat × Nat)) : Bool := spans.any fun (r, n) => decide (r + n > limit)

/-- Lanes that read a latch no earlier word of the run wrote (R33). -/
def Ctx.stale (c : Ctx) (ls : List (BitVec 2)) : Word :=
  maskOf ((c.w.active c.mask).filterMap fun (l, t) => if ls.all fun k => t.latLive k then none else some l)

/-- First destination register and how many of an access in flight. -/
def AccOp.dests : AccOp → List (Nat × Nat)
  | .load n _ d | .lres n d | .mon n d => [(d, if n ≤ 4 then 1 else n / 4)]
  | .ldc d => [(d, 4)]
  | .atom _ n ret d => if ret then [(d, if n ≤ 4 then 1 else 2)] else []
  | .cas n d => [(d, if n ≤ 4 then 1 else 2)]
  | .dcas d => [(d, 2)]
  | .atom2 _ n d | .amov2 n d => [(d, if n ≤ 4 then 2 else 4)]
  | .scond n d => [(d, if n ≤ 4 then 1 else 2)]
  | .thmax d => [(d, 1)]
  | _ => []

/-- Two register spans meet. -/
def spansMeet (a b : Nat × Nat) : Bool := decide (a.1 < b.1 + b.2) && decide (b.1 < a.1 + a.2)

/-- A register of the word is the destination of an operation in flight (R85): of an access, or of a fabric load or
atomic. -/
def State.pendingReg (s : State) (c : Ctx) (spans : List (Nat × Nat)) : Bool :=
  let hit := fun (d : Nat × Nat) => spans.any (spansMeet d)
  (s.inflight.any fun a => a.wave == c.u && (a.lanesMask &&& c.mask) != 0 && a.op.dests.any hit) ||
    s.packets.any fun (_, p) => p.wave == c.u && decide (p.pkt.kind = 1 ∨ p.pkt.kind = 2) &&
      (p.pkt.lanes.any fun (l, _, _) => inMask c.mask l) && hit (p.dst, if p.pkt.size ≤ 4 then 1 else p.pkt.size / 4)

/-- The uniform register an `lwait` of the thread will write. -/
def Thread.lwaits (t : Thread) : Option Nat :=
  match t.wait with
  | .lwait _ d => some d
  | _ => none

/-- A uniform register of the word is the destination of a list operation that has not completed, or of an `lwait` that
has not returned (R85, R146, R343). -/
def Wave.pendingS (w : Wave) (spans : List (Nat × Nat)) : Bool :=
  (w.sops.any fun o => decide (o.kind < 4) && spans.any (spansMeet (o.dst, 1))) ||
    w.threads.any fun (_, t) => t.lwaits.any fun d => spans.any (spansMeet (d, 1))

/-- The word must wait for the answer to a `push` whose records missed the cache (R85, R288): another lane of the group or one of its
uniform registers is still to be written. The words of the class that name no predicate of the answer go on. -/
def State.awaits (s : State) (c : Ctx) (i : Instr) : Bool :=
  s.cmds.any fun (_, (k : Cmd)) => k.wave == c.u && k.stage == .sent &&
    ((match i with
      | .gset _ | .gbind _ | .rfence _ => false
      | .pushCopy u | .pushFab u => (k.lanes &&& c.mask) != 0 && u.bc.numC % 8 == k.pred
      | _ => (k.lanes &&& c.mask) != 0) || i.shape.sr.any (spansMeet (k.dst, 2)))

/-- The group as it issues: no longer deferred, no longer a released group (R117). -/
def Ctx.issued (c : Ctx) (clk : DWord) : Wave :=
  { (c.w.mapMask c.mask fun _ t => { t with yd := false, resume := 0 }) with
    since := clk, yielded := false, late := (0, 0) }

/-- A fault that every lane of a list takes at one word: register arithmetic keeps its run's latches (R34), any other word
has ended its run (R31). -/
def State.wordFault (s : State) (c : Ctx) (arith : Bool) (code : Nat) (lanes : Word) (r48 : Bool) : State :=
  let fs : List LaneFault := (lanesOf lanes).map fun l => ⟨l, code, 0, 0, c.pc⟩
  if arith then s.takeFaults c.u fs (some c.mask) r48
  else ((s.modWave c.u Wave.closeRun).takeFaults c.u fs none r48).boundary c.u

/-- FEATURE_ABSENT in every lane of a group: the lanes keep the group that their word asked for (R419). -/
def State.featureFault (s : State) (c : Ctx) (i : Instr) : State :=
  (s.wordFault c i.arith cFEATURE c.mask true).modWave c.u fun w => w.mapMask c.mask fun _ t => { t with tneed := i.feature }

/-- The checks of a decoded word that precede its effect (R48, checks 3, 4 and 8 to 10; R85), and then its effect. A word
held by R85 has no effect: the state stays as it is. A thread word in the matrix stream raises WRONG_STREAM there (R46). -/
def issue (i : Instr) (s : State) (k : State → Ctx → Option State) : Out :=
  match s.turn, s.issuing with
  | .seq b, _ => if (fget s.blocks b).any Block.streamLive then .next (s.seqFault b cSTREAM) else .fault .noAgent
  | .wave _, none => .fault .noAgent
  | .wave _, some c =>
    let sh := i.shape
    if s.lacks c.w i then
      .next (if c.w.sect.isSome then s.endSection c.u cSECTFEATURE 0 0 [] []
        else s.featureFault c i)
    else if i.privileged ((fget s.launches c.w.lid).any fun l => l.priv && c.w.sect.isNone)
        (c.lead.any fun (_, t) => t.tm) then
      .next (s.wordFault c i.arith cPRIV c.mask true)
    else if c.w.sect.isNone && (outOfRange c.w.vlim sh.vr || outOfRange c.w.slim sh.sr) then
      .next (s.wordFault c i.arith cRANGE c.mask true)
    else if c.stale sh.lat ≠ 0 then
      .next (s.wordFault c i.arith cSTALE (c.stale sh.lat) true)
    else if s.pendingReg c sh.vr || c.w.pendingS sh.sr || s.awaits c i then .next s
    else match k s c with
      | some s' => .next s'
      | none => .next s

/-- The program counter holds 56 bits (Table 5.1). -/
def pc56 (x : DWord) : DWord := x &&& 0x00FFFFFFFFFFFFFF

/-- A thread past its word. -/
def Thread.next (t : Thread) : Thread := { t with pc := pc56 (t.pc + 8) }

/-- A register arithmetic word (R31, R34): its effect on the wave, or ABANDONED_OPERAND in some lanes; then the run goes
on with the next word, unless E ends it or the next word is a meeting address of the group (R107). -/
def arith (i : Instr) (e : Bool) (s : State) (eff : Wave → Word → Except Word Wave) : Out :=
  issue i s fun s c =>
    match eff (c.issued s.clk) c.mask with
    | .error bad =>
      some (s.wordFault c true cABANDONED bad false)
    | .ok w =>
      let w1 := w.mapMask c.mask fun _ t => t.next
      let s1 := s.modWave c.u fun _ => if e || w1.atMeeting c.mask then w1.closeRun else w1
      some (if e || w1.atMeeting c.mask then s1.boundary c.u else s1)

/-- The state in which the issuing wave may read and write memory: what an access of its block has passed is performed
(R198). -/
def State.settled (s : State) : State :=
  match s.issuing with
  | some c => s.settleFor c.u c.w c.mask
  | none => s

/-- A word that ends its run (R31): `k` gets the state in which the group stands past the word with its run closed, and
the group as it issued; no answer means that the word is held at issue. -/
def word (i : Instr) (s : State) (k : State → Ctx → Option State) : Out :=
  issue i s.settled fun s c =>
    let w1 := ((c.issued s.clk).mapMask c.mask fun _ t => t.next).closeRun
    (k (s.modWave c.u fun _ => w1) c).map fun s' => s'.boundary c.u

/-- The same without holding. -/
def word' (i : Instr) (s : State) (k : State → Ctx → State) : Out := word i s fun s c => some (k s c)

/-- Faults of some lanes of a word: those whose page is absent park, the others enter the handler (R157). -/
def State.laneFaults (s : State) (c : Ctx) (kind : Nat) (fs : List (Nat × Nat × DWord)) : State :=
  let absent := fs.filterMap fun (l, code, va) => if code = cNOTPRESENT then some (⟨l, va.toNat, kind⟩ : Absent) else none
  let other := fs.filterMap fun (l, code, va) =>
    if code = cNOTPRESENT then none else some (⟨l, code, va, 0, c.pc⟩ : LaneFault)
  (s.park c.u c.pc absent).takeFaults c.u other none false

/-- Every thread of the group faults with one code, at a word that is not register arithmetic. -/
def State.groupFault (s : State) (c : Ctx) (code : Nat) (addr : DWord := 0) : State :=
  s.takeFaults c.u ((lanesOf c.mask).map fun l => ⟨l, code, addr, 0, c.pc⟩) none false

/-- Some lanes fault with one code. -/
def State.someFault (s : State) (c : Ctx) (code : Nat) (lanes : List Nat) : State :=
  s.takeFaults c.u (lanes.map fun l => ⟨l, code, 0, 0, c.pc⟩) none false

end Sys2Proof.Machine
end

