-- ==== Sys2Proof/Machine/VectorFloat.lean ====
section
/-!
DEFINITION. The vector float instructions (spec/04_arithmetic_and_lanes.md, R92 to R97, Table 4.3).
-/
namespace Sys2Proof.Machine

/-- The format FT selects (Table 2.8). -/
def ftFmt (m : BitVec 8) : Fmt :=
  match ftOf m with
  | 0 => .f32 | 1 => .f16 | _ => .bf16

/-- The rounding mode of MOD. -/
def vfMode (m : BitVec 8) : RMode := RMode.ofCode (rmOf m)

/-- An operation on the one f32 element or the two packed ones, flags ORed (R92). -/
def mapFloat (f : Fmt) (g : Nat → Nat → Nat → Res) (a b c : Word) : Word × Nat :=
  let n := 32 / f.width
  let rs := (List.range n).map fun j =>
    g (elem a.toNat f.width j) (elem b.toNat f.width j) (elem c.toNat f.width j)
  (BitVec.ofNat 32 (packE f.width (rs.map (·.1))), orFlags rs)

/-- The operands that are tested for the abandoned pattern: f32 ones alone (R63). -/
def f32Ops (f : Fmt) (xs : List Word) : List Word := if f = .f32 then xs else []

/-- A word of two float sources. -/
def vecFloat2 (i : Instr) (f : FOps) (s : State) (g : Fmt → RMode → Nat → Nat → Res) : Out :=
  arith i f.e s (laneEff fun _ t =>
    let ft := ftFmt f.mod
    let a := t.src f.a
    let b := t.srcBf f.bc
    floatLane f t (f32Ops ft [a, b]) (mapFloat ft (fun x y _ => g ft (vfMode f.mod) x y) a b 0))

/-- A word of three float sources. -/
def vecFloat3 (i : Instr) (f : FOps) (s : State) (g : Fmt → RMode → Nat → Nat → Nat → Res) : Out :=
  arith i f.e s (laneEff fun _ t =>
    let ft := ftFmt f.mod
    let a := t.src f.a
    let b := t.srcBf f.bc
    let c := t.srcC f.bc
    floatLane f t (f32Ops ft [a, b, c]) (mapFloat ft (g ft (vfMode f.mod)) a b c))

/-- A word of one f32 source. -/
def vecFloat1 (i : Instr) (f : FOps) (s : State) (g : Word → Word × Nat) : Out :=
  arith i f.e s (laneEff fun _ t => let a := t.src f.a; floatLane f t [a] (g a))

/-- A result as a word. -/
def resWord (r : Res) : Word × Nat := (BitVec.ofNat 32 r.1, r.2)

def execFadd (f : FOps) (s : State) : Out := vecFloat2 (.fadd f) f s fAdd
def execFsub (f : FOps) (s : State) : Out := vecFloat2 (.fsub f) f s fSub
def execFmul (f : FOps) (s : State) : Out := vecFloat2 (.fmul f) f s fMul
def execFfma (f : FOps) (s : State) : Out := vecFloat3 (.ffma f) f s fFma
def execFmin (f : FOps) (s : State) : Out :=
  vecFloat2 (.fmin f) f s fun ft _ => fMinMax ft false (bfld f.mod 2 0 == 1)
def execFmax (f : FOps) (s : State) : Out :=
  vecFloat2 (.fmax f) f s fun ft _ => fMinMax ft true (bfld f.mod 2 0 == 1)
def execFdiv (f : FOps) (s : State) : Out := vecFloat2 (.fdiv f) f s fDiv

/-- fcmp writes a predicate (R95). -/
def execFcmp (f : FOps) (s : State) : Out :=
  arith (.fcmp f) f.e s (laneEff fun _ t =>
    let a := t.src f.a
    let b := t.srcBf f.bc
    if isAbandoned a || isAbandoned b then none
    else
      let r := fCmp .f32 (bfld f.mod 2 0) a.toNat b.toNat
      some ((t.setP f.d.toNat r.1).flag r.2))

def execFsqrt (f : FOps) (s : State) : Out :=
  vecFloat1 (.fsqrt f) f s fun a => resWord (fSqrt .f32 (vfMode f.mod) a.toNat)
def execFrcp (f : FOps) (s : State) : Out :=
  vecFloat1 (.frcp f) f s fun a => resWord (fRcp (Config.specialRaw 0 a) a.toNat)
def execFrsq (f : FOps) (s : State) : Out :=
  vecFloat1 (.frsq f) f s fun a => resWord (fRsq (Config.specialRaw 1 a) a.toNat)
def execFexp2 (f : FOps) (s : State) : Out :=
  vecFloat1 (.fexp2 f) f s fun a => resWord (fExp2 (Config.specialRaw 2 a) a.toNat)
def execFlog2 (f : FOps) (s : State) : Out :=
  vecFloat1 (.flog2 f) f s fun a => resWord (fLog2 (Config.specialRaw 3 a) a.toNat)
def execFsin (f : FOps) (s : State) : Out :=
  vecFloat1 (.fsin f) f s fun a => resWord (fTrig false (Config.specialRaw 4 a) a.toNat)
def execFcos (f : FOps) (s : State) : Out :=
  vecFloat1 (.fcos f) f s fun a => resWord (fTrig true (Config.specialRaw 5 a) a.toNat)
def execFclass (f : FOps) (s : State) : Out :=
  vecFloat1 (.fclass f) f s fun a => (BitVec.ofNat 32 (fClass .f32 a.toNat), 0)

/-- fdot2 (R97): two products of packed elements and an f32; only c is tested for the abandoned pattern. -/
def execFdot2 (f : FOps) (s : State) : Out :=
  arith (.fdot2 f) f.e s (laneEff fun _ t =>
    let ft := ftFmt f.mod
    let a := (t.src f.a).toNat
    let b := (t.srcB f.bc).toNat
    let c := t.srcC f.bc
    floatLane f t [c]
      (resWord (fDot2 ft (vfMode f.mod) (elem a 16 0) (elem b 16 0) (elem a 16 1) (elem b 16 1) c.toNat)))

/-- fscale (R97): b is an i32. -/
def execFscale (f : FOps) (s : State) : Out :=
  arith (.fscale f) f.e s (laneEff fun _ t =>
    let a := t.src f.a
    floatLane f t [a] (resWord (fScale .f32 (vfMode f.mod) a.toNat (t.srcB f.bc).toInt)))

end Sys2Proof.Machine
end

