-- ==== Sys2Proof/Machine/Conversion.lean ====
section
/-!
DEFINITION. The conversion instructions (spec/03_formats_and_conversion.md, R65, R69 to R84, Table 3.6).
-/
namespace Sys2Proof.Machine

/-- The target format. -/
def cvTo (f : FOps) : Fmt := (Fmt.ofCode (cvTO f) (cvUT f)).getD .f32
/-- The source format. -/
def cvFr (f : FOps) : Fmt := (Fmt.ofCode (cvFR f) (cvUF f)).getD .f32
/-- The rounding mode of the control byte. -/
def cvMode (f : FOps) : RMode := RMode.ofCode (cvRM f)

/-- The f32 elements of a source, for the abandoned test (R65): of a source whose format is f32. -/
def cvAbandoned (fr : Fmt) (xs : List Nat) : Bool := fr == .f32 && xs.any fun x => isAbandoned (BitVec.ofNat 32 x)

/-- A conversion of one register (R76): element ix. -/
def execCvt (f : FOps) (s : State) : Out :=
  arith (.cvt f) f.e s (laneEff fun _ t =>
    let x := elem (t.src f.a).toNat (cvFr f).width (cvLow f)
    if cvAbandoned (cvFr f) [x] then none
    else
      let r := convert x (cvFr f) (cvTo f) (cvMode f)
      some ((t.result f (place (cvTo f) r.1)).flag r.2))

/-- R69: the narrowed value, the residue and the flags; a NaN sum sets the flag of R69 alone (log entry 62). -/
def efNarrow (tgt : Fmt) (x ev : Nat) : Nat × Nat × Nat :=
  let sum := fAdd .f32 .rne x ev
  match Fmt.value .f32 sum.1 with
  | .nan _ =>
    let sig := (Fmt.value .f32 x).isSig || (Fmt.value .f32 ev).isSig
    (if tgt.hasNaN then tgt.qnan else 0, 0, flagIf (sig || !tgt.hasNaN) fNV)
  | .inf neg =>
    let mx := tgt.signed neg tgt.maxBits
    let res := (convert mx tgt .f32 .rne).1
    if tgt.hasInf then (tgt.infBits neg, res, sum.2) else (mx, res, sum.2 ||| fNV)
  | .fin sn m e =>
    let y := convert sum.1 .f32 tgt .rne
    let d := (FV.fin sn m e).dy.add (tgt.value y.1).dy.neg
    let mx := (tgt.value tgt.maxBits).dy
    let d := if mx.lt d then mx else if d.lt mx.neg then mx.neg else d
    (y.1, (Fmt.roundDy .f32 .rne false d).1, sum.2 ||| y.2)

def execCvtef (f : FOps) (s : State) : Out :=
  arith (.cvtef f) f.e s (laneEff fun _ t =>
    let x := t.src f.a
    let ev := rget t.e (cvLow f)
    if isAbandoned x || isAbandoned ev then none
    else
      let (y, res, fl) := efNarrow (cvTo f) x.toNat ev.toNat
      let t' := (t.result f (place (cvTo f) y)).flag fl
      some { t' with e := rset t'.e (cvLow f) (BitVec.ofNat 32 res) })

def execFrnd (f : FOps) (s : State) : Out :=
  arith (.frnd f) f.e s (laneEff fun _ t =>
    let ft := cvFr f
    let a := t.src f.a
    floatLane f t (f32Ops ft [a]) (mapFloat ft (fun x _ _ => fRnd ft (cvMode f) (cvLow f == 1) x) a 0 0))

/-- The registers of a source span as one value (R60). -/
def spanVal (t : Thread) (src : VSrc) (n : Nat) : Nat :=
  match src with
  | .latch _ => (t.src src).toNat
  | .reg r => packE 32 ((t.getVs r.toNat n).map (·.toNat))

/-- A list of source elements converted: the results and the flags. -/
def convAll (fr tgt : Fmt) (mode : RMode) (xs : List Nat) : List Res := xs.map fun x => convert x fr tgt mode

def execPack (f : FOps) (s : State) : Out :=
  arith (.pack f) f.e s (laneEff fun _ t =>
    let fr := cvFr f
    let tgt := cvTo f
    let regs := fr.width / tgt.width / 2
    let n := 16 / tgt.width
    let b := match f.bc with
      | .regs b _ => b
      | .imm _ => .reg 0
    let es := fun (src : VSrc) => (List.range n).map fun j => elem (spanVal t src regs) fr.width j
    let xs := es f.a ++ es b
    if cvAbandoned fr xs then none
    else
      let rs := convAll fr tgt (cvMode f) xs
      some ((t.result f (BitVec.ofNat 32 (packE tgt.width (rs.map (·.1))))).flag (orFlags rs)))

/-- A value written to a span of 1, 2 or 4 registers. -/
def Thread.setSpan (t : Thread) (f : FOps) (n x : Nat) : Thread :=
  if n ≤ 1 then t.result f (BitVec.ofNat 32 x)
  else t.setVs f.d.toNat ((List.range n).map fun i => BitVec.ofNat 32 (x / 2 ^ (32 * i)))

def execUnpack (f : FOps) (s : State) : Out :=
  arith (.unpack f) f.e s (laneEff fun _ t =>
    let fr := cvFr f
    let tgt := cvTo f
    let n := 16 / fr.width
    let a := (t.src f.a).toNat
    let xs := (List.range n).map fun j => elem a fr.width (cvLow f * n + j)
    let rs := convAll fr tgt (cvMode f) xs
    some ((t.setSpan f (tgt.width / fr.width / 2) (packE tgt.width (rs.map (·.1)))).flag (orFlags rs)))

/-- One weight of a code, exact in the target. -/
def weightBits (tgt : Fmt) (w : Int) : Nat := (tgt.roundDy .rne false ⟨w, -1⟩).1

def execCbdec (f : FOps) (s : State) : Out :=
  arith (.cbdec f) f.e s (laneEff' fun _ t =>
    let tgt := cvTo f
    let code := elem (t.src f.a).toNat 16 (cvLow f)
    t.setSpan f (tgt.width / 4) (packE tgt.width ((lq8Decode code).map (weightBits tgt))))

/-- cbenc of R81: the code and the flags. The Value of a NaN element, which R81's comparison leaves undefined, counts as
differing from every weight, so NX is set besides NV: the model's choice (log entry 106). -/
def cbEncode (fr : Fmt) (xs : List Nat) (k : Nat) : Nat × Nat :=
  if k = 255 then (0, fNV)
  else
    let vs := xs.map fr.value
    let up : Int := 127 - (k : Int)
    let ys : List (Bool × Dy) := vs.map fun v => match v with
      | .nan _ => (false, ⟨0, 0⟩)
      | .inf neg => (neg, (fr.value (fr.signed neg fr.maxBits)).dy)
      | .fin neg m e => (neg, (FV.fin neg m (e + up)).dy)
    let c := lq8Encode ys
    let nv := vs.any fun v => v.isNaN || v.isInf
    let differs := ((lq8Decode c).zip vs).any fun (w, v) =>
      v.isNaN || v.isInf || !(Dy.eq ⟨w, -1 - up⟩ v.dy)
    (c, flagIf nv fNV + flagIf differs fNX)

def execCbenc (f : FOps) (s : State) : Out :=
  arith (.cbenc f) f.e s (laneEff' fun _ t =>
    let xs := (List.range 8).map fun j => elem (spanVal t f.a 4) 16 j
    let k := elem (t.srcB f.bc).toNat 8 (cvLow f / 2)
    let r := cbEncode (cvFr f) xs k
    (t.result f (BitVec.ofNat 32 r.1)).flag r.2)

/-- Emax and Max of the targets of scget (R82). -/
def scgetMax (tgt : Fmt) : Int × Dy :=
  match tgt with
  | .f16 => (15, ⟨65504, 0⟩)
  | .bf16 => (127, ⟨255, 120⟩)
  | .e5m2 => (15, ⟨57344, 0⟩)
  | .e4m3 => (8, ⟨448, 0⟩)
  | .e3m2 => (4, ⟨28, 0⟩)
  | .e2m1 => (2, ⟨6, 0⟩)
  | _ => (0, ⟨3, -1⟩)

/-- The scale of R82 for a value, and the flags. -/
def scaleOfV (tgt : Fmt) (up : Bool) (v : FV) : Nat × Nat :=
  match v with
  | .nan sig => (255, flagIf sig fNV)
  | .inf _ => (255, fNV)
  | .fin _ m e =>
    if m = 0 then (127, 0)
    else
      let (emax, mx) := scgetMax tgt
      let e0 := (Nat.log2 m : Int) + e - emax
      let ex := if up && !((⟨m, e⟩ : Dy).le ⟨mx.n, mx.e + e0⟩) then e0 + 1 else e0
      ((clamp (ex + 127) 0 254).toNat, 0)

/-- The scale of an f32 operand. -/
def scaleOf (tgt : Fmt) (up : Bool) (a : Nat) : Nat × Nat := scaleOfV tgt up (Fmt.value .f32 a)

def execScget (f : FOps) (s : State) : Out :=
  arith (.scget f) f.e s (laneEff fun _ t =>
    let a := t.src f.a
    floatLane f t [a] (resWord (scaleOf (cvTo f) (cvLow f == 1) a.toNat)))

/-- The scaling of R83; a NaN operand is looked at before the scale, the scale before an infinity (log entry 15). -/
def scaleBy (mode : RMode) (inv : Bool) (a k : Nat) : Res :=
  match Fmt.value .f32 a with
  | .nan _ => nanResult .f32 [a] false
  | .inf _ => if k = 255 then (0x7FC00000, fNV) else (a, 0)
  | .fin neg m e =>
    if k = 255 then (0x7FC00000, fNV)
    else
      let x : Int := (k : Int) - 127
      Fmt.round .f32 mode neg m (e + if inv then -x else x) false

def execScapply (f : FOps) (s : State) : Out :=
  arith (.scapply f) f.e s (laneEff fun _ t =>
    let a := t.src f.a
    let k := elem (t.srcB f.bc).toNat 8 (cvLow f / 2)
    floatLane f t [a] (resWord (scaleBy (cvMode f) (cvLow f % 2 == 1) a.toNat k)))

def execLeesrd (f : FOps) (s : State) : Out :=
  arith (.leesrd f) f.e s (laneEff' fun _ t => t.result f (rget t.e (cvLow f)))

def execLeeswr (f : FOps) (s : State) : Out :=
  arith (.leeswr f) f.e s (laneEff' fun _ t => { t with e := rset t.e (cvLow f) (t.src f.a) })

end Sys2Proof.Machine
end

