-- ==== Sys2Proof/Machine/Runs.lean ====
section
/-!
DEFINITION. What moves a wave between its words: the choice of a run (spec/06_work_creation_and_scheduling.md, R135;
spec/05_control_flow.md, R106), wake-ups (R119, R208), the completion of accesses and fences (spec/07_memory_access.md,
R163, R439; spec/08_atomics_sync_consistency.md, R197, R200, R202), unwinding (R237) and replays (R411).
-/
namespace Sys2Proof.Machine

/-- An event row: its effect `t` where its condition holds; elsewhere the event does not take place, and the state stays (log
entry 1). -/
def event (s : State) (ok : Bool) (t : State) : Out := .next (if ok then t else s)

/-- An event that may take place: what it leaves, if it can. -/
def happens (s : State) (t : Option State) : Out := .next (t.getD s)

/-! ### The choice of a run -/

/-- The waves of a quadrant of a T-core, or the one wave of an L-core context (numbered from 0x100 on). -/
def State.quadWaves (s : State) (core quad : Nat) : List (Nat × Wave) :=
  s.waves.filter fun (_, (w : Wave)) => match w.sect with
    | none => w.core == core && w.ctx / Config.ctxPerQuad == quad
    | some c => core == 0x100 + c.lcore && c.ctx == quad

/-- A wave's place in R135: waiting time, hint, age. -/
structure Rank where
  u : Nat
  wait : Nat
  yielded : Bool
  hint : Nat
  age : List Nat
deriving DecidableEq, Repr

/-- Lexicographic order of ages. -/
def ageLt : List Nat → List Nat → Bool
  | a :: s, b :: t => decide (a < b) || (a == b && ageLt s t)
  | _, _ => false

/-- The first wave is taken before the second. Of two whose equal waiting time is 1,024 clk or more R135 names none first:
the older goes first whatever its `yield` and hint, the model's choice (log entry 108). -/
def Rank.before (a b : Rank) : Bool :=
  let la := decide (1024 ≤ a.wait)
  let lb := decide (1024 ≤ b.wait)
  if la != lb then la
  else if la && a.wait != b.wait then decide (b.wait < a.wait)
  else if !la && a.yielded != b.yielded then b.yielded
  else if !la && a.hint != b.hint then decide (b.hint < a.hint)
  else ageLt a.age b.age

/-- Linear id of a wave's block, spawned blocks above every static one (R134). -/
def State.blockOrder (s : State) (w : Wave) : Nat :=
  match fget s.blocks w.blk, fget s.launches w.lid with
  | some b, some l => match b.spawned with
    | some n => l.rc.gridBlocks + n
    | none => b.lin
  | _, _ => 0

/-- A launch's place in the order of arrival (R127, R135). -/
def State.arrivalOf (s : State) (lid : Nat) : Nat :=
  match fget s.launches lid with
  | some l => l.order
  | none => 0

def State.rank (s : State) (u : Nat) (w : Wave) : Rank :=
  ⟨u, (s.clk - w.readySince s.clk).toNat, w.yielded, w.hint, [s.arrivalOf w.lid, s.blockOrder w, w.wid]⟩

/-- The wave a quadrant picks: the first of its ready waves in the order of R135. -/
def firstRank : List Rank → Option Rank
  | [] => none
  | a :: t => match firstRank t with
    | none => some a
    | some b => if b.before a then some b else some a

/-- The ready waves of a quadrant. -/
def State.readyRanks (s : State) (core quad : Nat) : List Rank :=
  (s.quadWaves core quad).filterMap fun (u, (w : Wave)) => if s.readyWave w then some (s.rank u w) else none

/-- A run of the quadrant is open. -/
def State.running (s : State) (core quad : Nat) : Bool := (s.quadWaves core quad).any fun (_, (w : Wave)) => w.run.isSome

/-- The run of a wave opened, after the releases of R109; the wave issues next, and no `yield` of it holds any longer
(R117). -/
def State.openRun (s : State) (u : Nat) : State :=
  match s.wave u with
  | none => s
  | some w => match (s.atBoundary w).group with
    | none => s
    | some (w1, m) => { s.modWave u (fun _ => { w1 with run := some m, yielded := false }) with turn := .wave u }

/-- RUN_START. -/
def execRunStart (core quad : Nat) (s : State) : Out :=
  match firstRank (s.readyRanks core quad) with
  | none => .next s
  | some r => event s (!s.running core quad) (s.openRun r.u)

/-- PARENT_UNWIND (R237): a wave between its runs, whose block region another wave's cause aborted. -/
def execParentUnwind (u : Nat) (s : State) : Out :=
  event s ((s.wave u).any fun w => w.unwind.isSome) ((s.modWave u Wave.closeRun).boundary u)

/-- SLEEP_DEADLINE (R119): at a run boundary, from the deadline on. -/
def execSleepDeadline (u lane : Nat) (s : State) : Out :=
  event s
    ((s.wave u).any fun w => w.run.isNone && (w.th lane).any fun t => t.wait == .asleep && decide (t.deadline ≤ s.clk))
    (s.modWave u fun w =>
      w.wakeBy s.clk fun w => w.modTh lane fun t => { t with wait := .none })

/-- The wave whose run is open in a quadrant, its lanes, and the word that it executes. -/
def State.atWord (s : State) (core quad : Nat) : Option (Nat × Wave × Word × DWord) :=
  (s.quadWaves core quad).findSome? fun (u, (w : Wave)) => w.run.bind fun m => (w.active m).head?.map fun x => (u, w, m, x.2.pc)

/-- TIMING_REPLAY (R411, R412): a word is replayed at most three times; a fourth late transition is an uncorrectable error of source
TIMING. A replay has no other effect that a program can observe. -/
def execTimingReplay (core quad : Nat) (s : State) : Out :=
  match s.atWord core quad with
  | none => .next s
  | some (u, w, m, pc) =>
    let n := if w.late.1 = pc then w.late.2 else 0
    event s (decide (core < Config.tCores) && decide (quad < 4))
      (if 3 ≤ n then s.consume ⟨w.coreNo, u, false, 8, m, 0⟩ pc
        else (s.modWave u fun w => { w with late := (pc, n + 1) }).modCore core fun c =>
          { c with replays := rset c.replays quad (rget c.replays quad + 1) })

/-! ### Translations and accesses -/

/-- PAGE_WALK_DONE (R163): the walk's entry enters the core's TLB; a walk that fails caches nothing. -/
def execPageWalkDone (core port : Nat) (va : DWord) (s : State) : Out :=
  let s1 := match s.walkVa port va.toNat with
    | .ok e => s.fillTlb core e
    | .error _ => s
  event s
    (decide (core < 0x140) && decide (port < 2) && !(s.tlbOf core).any fun e => e.covers port va.toNat) s1

/-- An access served: lanes on a bad line consume an error (R413), the others are performed; none where it has to wait. -/
def State.serve (s : State) (a : Access) : Option State :=
  let bad := s.badLanes a
  if s.loadsAbroad a then none
  else match bad with
  | [] => s.perform a
  | b :: _ =>
    let s1 := match s.wave a.wave with
      | some w => s.consume ⟨w.coreNo, a.wave, false, 6, maskOf (bad.map LaneAcc.lane), s.badVa a b⟩ a.pc a.id
      | none => s
    match s1.wave a.wave with
    | none => some { s1 with inflight := s1.inflight.filter fun x => x.id != a.id }
    | some _ =>
      let rest := a.without bad
      if rest.lanes.isEmpty then some { s1 with inflight := s1.inflight.filter fun x => x.id != a.id }
      else s1.perform rest

/-- The accesses of a list that belong to a wave performed, oldest first, but for those that have to wait. -/
def State.serveList (u : Nat) : List Access → State → State
  | [], s => s
  | a :: t, s => if a.wave = u then State.serveList u t ((s.serve a).getD s) else State.serveList u t s

/-- A wave's accesses in flight performed. -/
def State.serveWave (s : State) (u : Nat) : State := State.serveList u s.inflight s

/-- The access in flight with a number, if it may be performed now. -/
def State.readyAccess (s : State) (id : Nat) : Option Access :=
  s.inflight.find? fun a => a.id == id && (ready a s.inflight || s.mayPass a s.inflight)

/-- No access that the wave issued before an sc fence is in flight. -/
def State.drained (s : State) (u since : Nat) : Bool := !s.inflight.any fun a => a.wave == u && decide (a.id < since)

/-- The thread's sc fence drains now: what its wave issued before it has been performed. -/
def State.drains (s : State) (u : Nat) (t : Thread) : Bool :=
  match t.wait with
  | .fenceSc _ since none => s.drained u since
  | _ => false

/-- The clk at which the drain of each sc fence of a wave completed (R200), once it has. Its release is cumulative: the store queue
of the core empties after the loads before the fence (R211, R213). -/
def State.noteDrain (s : State) (u : Nat) : State :=
  match s.wave u with
  | none => s
  | some w =>
    if w.threads.any fun (_, t) => s.drains u t then
      let s1 := if w.sect.isSome then s else s.releaseDev w.core
      s1.modWave u fun w => { w with threads := w.threads.map fun (l, t) => (l,
        if s.drains u t then (match t.wait with
          | .fenceSc sys since _ => { t with wait := .fenceSc sys since (some s.clk) }
          | _ => t) else t) }
    else s

/-- ACCESS_PERFORMED (R439). -/
def execAccessPerformed (id : Nat) (s : State) : Out :=
  match s.readyAccess id with
  | none => .next s
  | some a => happens s ((s.serve a).map fun s' =>
      (s'.markPassed a.lanesMask (overtaken a s.inflight)).noteDrain a.wave)

/-- STORE_QUEUE_DRAIN (R202): the entry leaves, with every older one to a byte of what leaves (R209). -/
def execStoreQueueDrain (core idx : Nat) (s : State) : Out :=
  match (s.core core).sq[idx]? with
  | none => .next s
  | some e =>
    let q := sqLeave (fun x => x == e) ((s.core core).sq.take (idx + 1))
    .next ((q.1.foldl State.drainEntry s).modCore core fun c => { c with sq := q.2 ++ c.sq.drop (idx + 1) })

/-! ### Monitored waits, reservations, fences -/

/-- A thread's wait. -/
def State.waitOf (s : State) (u lane : Nat) : Wait :=
  match (s.wave u).bind fun w => w.th lane with
  | some t => t.wait
  | none => .none

/-- A thread changed, its wave ready from now on. -/
def State.wake (s : State) (u lane : Nat) (g : Thread → Thread) : State :=
  s.modWave u fun w => w.wakeBy s.clk fun w => w.modTh lane g

/-- MWAIT_WAKE. -/
def execMwaitWake (u lane : Nat) (s : State) : Out :=
  event s
    (s.waitOf u lane == .mwait && ((s.wave u).bind fun w => w.th lane).any fun t => t.mon.all fun m => m.hit)
    (s.wake u lane Thread.endMwait)

/-- MWAIT_TIMEOUT. -/
def execMwaitTimeout (u lane : Nat) (s : State) : Out :=
  event s
    (s.waitOf u lane == .mwait && ((s.wave u).bind fun w => w.th lane).any fun t => decide (t.deadline ≤ s.clk))
    (s.wake u lane Thread.endMwait)

/-- WAKE_UP_NO_STATED_CAUSE (R208): `mwait` may return without a cause. -/
def execWakeUpNoStatedCause (u lane : Nat) (s : State) : Out :=
  event s (s.waitOf u lane == .mwait) (s.wake u lane Thread.endMwait)

/-- RESERVATION_HELD_1024_CLK (R197): an `lres` that waited for room is performed and displaces the oldest reservation. -/
def execReservationHeld1024Clk (u lane : Nat) (s : State) : Out :=
  let hit := s.inflight.find? fun a =>
    a.wave == u && (match a.op with | .lres _ _ => true | _ => false) && a.lanes.any (fun l => l.lane == lane) &&
      ready a s.inflight
  match hit with
  | none => .next s
  | some a => happens s ((s.serve a).map fun s' => s'.noteDrain a.wave)

/-- FENCE_SC_TICK (R200): the fences of a wave whose tick has come complete. -/
def execFenceScTick (u : Nat) (s : State) : Out :=
  event s ((s.wave u).any fun w => w.threads.any fun (_, t) => t.scDue s.clk)
    (s.modWave u fun w => w.wakeBy s.clk fun w =>
      { w with threads := w.threads.map fun (l, t) => (l, if t.scDue s.clk then { t with wait := .none } else t) })

end Sys2Proof.Machine
end

