-- ==== Sys2Proof/Machine/Start.lean ====
section
/-!
DEFINITION. What blocks, waves and sequencers hold as they start (spec/06_work_creation_and_scheduling.md, R131, R140;
spec/13_matrix.md, R302; spec/05_control_flow.md, R104; spec/15_verdicts.md, R355; spec/07_memory_access.md, R161).
-/
namespace Sys2Proof.Machine

/-- A verdict accumulation that is closed (R355). -/
def Verdict.init : Verdict where
  opn := false
  src := .sign
  keep := false
  qfmt := 0
  ccap := Cap.nil
  qcap := Cap.nil
  tcap := Cap.nil
  qoff := 0
  toff := 0
  qmax := 0
  tuse := Config.qnan32
  lanes := (List.range 32).map fun l => (l, ⟨.idle, 0, 0, 0, false⟩)

/-- A wave with no thread and every register at zero. -/
def Wave.init : Wave where
  core := 0
  ctx := 0
  lid := 0
  blk := 0
  wid := 0
  port := 0
  vlim := 0
  slim := 0
  threads := []
  s := []
  c := []
  run := none
  intr := []
  g := []
  z := []
  q := []
  vd := Verdict.init
  resv := none
  reg := none
  faultAbort := none
  unwind := none
  rstat := 0
  estat := 0
  hint := 0
  yielded := false
  late := (0, 0)
  since := 0
  ops := []
  fails := []
  sops := []
  epoch := 0
  sent := []
  brk := none
  sect := none
  abroad := []

/-- A sequencer at zero (R302). -/
def Seq.init : Seq where
  pc := 0
  m := []
  mc := []
  ended := false
  flt := false
  orph := false
  code := 0
  dsteps := 0
  mflags := 0
  fresh := 0
  noted := []
  z := []
  step := 0
  wait := .none
  barPhase := []
  starved := 0
  ops := []
  lastPage := none

/-- A block with nothing in it. -/
def Block.init : Block where
  lid := 0
  lin := 0
  core := 0
  spawned := none
  bin := []
  binEntry := 0
  needs := 0
  placed := true
  leaving := false
  started := false
  ended := false
  bars := []
  reg := none
  seq := none
  tc := []
  tiles := []
  sramCore := 0
  sramOff := 0
  sramLen := 0
  kids := []
  placedAt := 0

/-- A launch of an empty record. -/
def Launch.init : Launch where
  rc := ⟨0, 0, 0, 0, 0, 0, 0, 0, 0, 0, 0, 0, 0, 0, 0, false, false, 0, 0, 0, [], 0, [], []⟩
  va := 0
  port := 0
  priv := false
  parent := 0
  parentBlk := none
  depth := 0
  status := .running
  next := 1
  returned := []
  spawnNo := 0
  waiting := none
  reserving := false
  order := 0
  done := 0
  kcode := 0
  karg := 0

end Sys2Proof.Machine
end

