-- ==== Sys2Proof/Machine/Fetch.lean ====
section
/-!
DEFINITION. Which agent moves next (log entry 1), and the fetch of its word (spec/02_instruction_word.md, R46 to R48;
spec/05_control_flow.md, R110; spec/07_memory_access.md, R162, R165; spec/13_matrix.md, R303, R305).
-/
namespace Sys2Proof.Machine

/-- What a step comes to before any meaning runs: an instruction or event row with the state it acts on, or the outcome. -/
inductive Fetched where
  | run (i : Instr) (s : State)
  | done (o : Out)

/-- Opcodes of the matrix stream (R46). -/
def isX (i : Instr) : Bool := decide (0x380 ≤ i.opcode) && decide (i.opcode ≤ 0x391)

/-- The fault code of a word that is no instruction (R47). -/
def rejectCode : Reject → Nat
  | .pair => cPAIR
  | .guard => cGUARD
  | _ => cILLEGAL

/-- A `land` word with S = 0 (R140). -/
def isLanding (w : DWord) : Bool :=
  match decode w with
  | .ok (.land f) => bfld f.mod 7 7 == 0
  | _ => false

/-- The lanes of the group that are spawned threads at their first fetch. -/
def Ctx.entering (c : Ctx) : Word := maskOf ((c.w.active c.mask).filterMap fun (l, t) => if t.atEntry then some l else none)

/-- Checks 1 to 7 of R48 on a fetched word, for a wave's issue group. -/
def State.checkWord (s : State) (c : Ctx) (x : DWord) : Fetched :=
  match decodeRaw x with
  | .error r => .done (.next (s.wordFault c false (rejectCode r) c.mask true))
  | .ok i =>
    if isX i then .done (.next (s.wordFault c false cSTREAM c.mask true))
    else match (if s.lacks c.w i then none else i.check x) with
      | some r => .done (.next (s.wordFault c i.arith (rejectCode r) c.mask true))
      | none => .run i s

/-- What a fetch leaves behind: the translation in the TLB, the class of the page and its line on the die, a sample of kind 6
(R163, R170 to R172; that each word fetched is a request of its own is log entry 117). -/
def State.fetched (s : State) (coreNo : Nat) (e : TlbEntry) (pc : DWord) : State :=
  ((((s.fillTlb coreNo e).claim coreNo pc.toNat false e).hold (if e.swm then some (dieOf coreNo) else none)
    (e.key pc.toNat))).sample coreNo (pc.toNat / 64 * 64) 6 e

/-- The fetch of a wave's next word (R110, R162): a fault ends the run; an absent page parks the group. -/
def State.fetchRun (s : State) (c : Ctx) : Fetched :=
  match s.translateX c.w.coreNo c.w.port c.pc.toNat with
  | .error code =>
    let s1 := s.modWave c.u Wave.closeRun
    .done (.next ((if code = cNOTPRESENT
      then s1.park c.u c.pc ((lanesOf c.mask).map fun l => ⟨l, c.pc.toNat, 6⟩)
      else s1.takeFaults c.u ((c.all code).map fun f => { f with addr := c.pc }) none true).boundary c.u))
  | .ok e =>
    let s1 := s.fetched c.w.coreNo e c.pc
    let x := s1.wordAt c.w.coreNo e c.pc
    if s1.badAt (if e.swm then some (dieOf c.w.coreNo) else none) (e.key c.pc.toNat) 8 then
      .done (.next (s1.consume ⟨c.w.coreNo, c.u, false, 6, c.mask, c.pc⟩ c.pc))
    else if c.entering = 0 then s1.checkWord c x
    else
      let s2 := s1.modWave c.u fun w => w.mapMask c.entering fun _ t => { t with atEntry := false }
      if isLanding x then s2.checkWord c x
      else .done (.next (s2.wordFault c false cLANDING c.entering true))

/-- A wave's move: its run goes on, or a run starts in its quadrant; else nothing happens. -/
def State.waveMoves (s : State) (u : Nat) : Fetched :=
  match s.wave u with
  | none => .done (.next s)
  | some w =>
    if s.frozen w then .done (.next s)
    else match s.issuing with
      | some c => s.fetchRun c
      | none =>
        if s.readyWave w then
          (match w.sect with
            | some c => .run (.runStart (0x100 + c.lcore) c.ctx) s
            | none => .run (.runStart w.core (w.ctx / Config.ctxPerQuad)) s)
        else .done (.next s)

/-- The sequencer waits for an absent page (R305), which a fault record names; the spec gives a sequencer no wave
context, so that field is open. -/
def State.seqPark (s : State) (b core : Nat) (va : DWord) (kind : Nat) : State :=
  let (x, s1) := s.open_
  let s2 := s1.faultRecord core (x.toNat % 2 ^ 16) va.toNat 0 kind
  s2.modBlock b fun k => { k with seq := k.seq.map fun q => { q with wait := .page va kind } }

/-- The element format code of a tile control word (Table 13.2). -/
def tcFmt (tc : Word) : Nat := bfld tc 31 28

/-- The tile control register of a tile. -/
def Block.tcOf (k : Block) (t : Nat) : Word := rget k.tc t

/-- A byte on its way into a tile or out of it: bits 7:6 of an e3m2 element are zero (R57). -/
def Block.tileByte (k : Block) (off : Nat) (x : Byte) : Byte := if tcFmt (k.tcOf (off / 16384)) = 5 then x &&& 0x3F else x

/-- The byte of a tile that a store of it writes. -/
def Block.tileOut (k : Block) (off : Nat) : Byte := k.tileByte off (rget k.tiles off)

/-- The byte that an accepted store of a tile will write: the sequencer's own later reads find it (R320, R209). -/
def Seq.storing (q : Seq) (k : Block) (swm : Bool) (key : Nat) : Option Byte :=
  ((q.ops.filter fun o => o.path == 2).flatMap fun o => o.rows).reverse.findSome? fun p =>
    if p.swm == swm ∧ p.key ≤ key ∧ key < p.key + p.len then some (k.tileOut (p.off + (key - p.key))) else none

/-- A byte as the sequencer reads it: as a thread of its block (R320). -/
def State.seqByte (s : State) (k : Block) (b : Nat) (swm : Bool) (key : Nat) : Byte :=
  if swm then s.byteAt (some (dieOf k.core)) key
  else (sqByte (s.core k.core).sq b key).getD (s.byteAt none key)

/-- The word a sequencer fetches: a load of it as any other (R320). -/
def State.seqFetch (s : State) (k : Block) (q : Seq) (b : Nat) (e : TlbEntry) (va : DWord) : DWord :=
  let byte := fun (i : Nat) =>
    (q.storing k e.swm (e.key va.toNat + i)).getD (s.seqByte k b e.swm (e.key va.toNat + i))
  BitVec.ofNat 64 ((List.range 8).foldl (fun n i => n + (byte i).toNat * 256 ^ i) 0)

/-- A sequencer's move (R303). That of a block that is being saved, or is not placed, stands still (R328). -/
def State.seqMoves (s0 : State) (b : Nat) : Fetched :=
  -- what an access of its block has passed is performed before it fetches (R198)
  let s := s0.settleOwed none b
  match fget s.blocks b with
  | none => .done (.next s)
  | some k => match k.seq with
    | none => .done (.next s)
    | some q =>
      if q.ended || q.wait != .none || k.leaving || !k.placed || (s.cluster (clusterOf k.core)).frozen.isSome then .done (.next s)
      else match s.translateX k.core (s.portOf k) q.pc.toNat with
        | .error code =>
          .done (.next (if code = cNOTPRESENT then s.seqPark b k.core q.pc 6 else s.seqFault b code))
        | .ok e =>
          let s1 := s.fetched k.core e q.pc
          let x := s1.seqFetch k q b e q.pc
          if s1.badAt (if e.swm then some (dieOf k.core) else none) (e.key q.pc.toNat) 8 then .done (.next (s1.consume ⟨k.core, b, true, 6, 0, q.pc⟩ q.pc))
          else match decodeRaw x with
          | .error r => .done (.next (s1.seqFault b (rejectCode r)))
          | .ok i =>
            if !isX i then .done (.next (s1.seqFault b cSTREAM))
            else if i.feature.any fun f => !(s.core k.core).fmask.getLsbD f then .done (.next (s1.seqFault b cFEATURE))
            else match i.check x with
              | some r => .done (.next (s1.seqFault b (rejectCode r)))
              | none => .run i s1

/-- sr.clk counts from the end of phase 0 (R12). -/
def State.tick (s : State) (dt : Nat) : State := if s.phase = 0 then s else { s with clk := s.clk + BitVec.ofNat 64 dt }

/-- The oldest access in flight that can be performed now. -/
def State.nextAccess (s : State) : Option Nat :=
  (s.inflight.find? fun a => ready a s.inflight && (s.serve a).isSome).map fun a => a.id

/-- The units shared by a core's quadrants take the requests of one clk in ascending quadrant (R19): a wave that comes after
one of a higher quadrant moves in the next clk. -/
def State.ordered (s : State) : State :=
  match s.turn with
  | .seq _ => s
  | .wave u => match s.wave u with
    | none => s
    | some w =>
      if w.sect.isSome then s
      else
        let q := w.ctx / Config.ctxPerQuad
        (if s.inPlace (unitQuads w.core) q then s else s.tick 1).took (unitQuads w.core) q

/-- The agent whose turn it is. -/
def State.agentMoves (s : State) : Fetched :=
  match s.turn with
  | .wave u => s.waveMoves u
  | .seq b => s.seqMoves b

/-! ### A loaded program (log entry 2) -/

/-- The address at which `State.loaded` puts the word. -/
def loadBase : Nat := 0x100000

/-- A page table that maps the first gibibyte to itself, as a SHARED page of external memory that may be read, written
and fetched. -/
def State.loadTables (s : State) : State :=
  { s with mem := ((s.mem.setNum 0x10000 0x11001 8).setNum 0x11000 0x12001 8).setNum 0x12000 0xA1F 8 }

/-- The record of the loaded launch: one block of 32 threads with every register. -/
def loadRec : LaunchRec where
  entry := BitVec.ofNat 64 loadBase
  mentry := 0
  traph := 0x200000
  gx := 1
  gy := 1
  gz := 1
  bx := 32
  bY := 1
  bz := 1
  vregs := 256
  sregs := 1024
  tiles := 8
  rwave := 1
  rblk := 1
  prio := 0
  dbg := false
  fetch := false
  sram := 0
  bint := 4096
  needs := 0
  after := []
  dies := 1
  args := []
  caps := []

/-- The loaded block: it has started; a word of the matrix stream finds its sequencer there. -/
def loadBlock (x : Bool) : Block :=
  { Block.init with
    lid := 1
    started := true
    seq := if x then some { Seq.init with pc := BitVec.ofNat 64 loadBase } else none }

/-- The loaded wave: 32 threads at the word, with their run open. -/
def loadWave : Wave :=
  { Wave.init with
    lid := 1
    blk := 1
    vlim := 256
    slim := 1024
    threads := (List.range 32).map fun l => (l, Thread.init (BitVec.ofNat 64 loadBase) l)
    run := some (BitVec.allOnes 32) }

/-- A word loaded where the next step fetches: bring-up complete, page table, launch, block and wave in place, and nothing
else under way. -/
def State.loaded (s : State) (x : DWord) : State :=
  let seq := match decodeRaw x with
    | .ok i => isX i
    | .error _ => false
  let s1 : State := { s with
    phase := 6
    shutdown := false
    agenda := []
    inflight := []
    cmds := []
    clusters := []
    cores := []
    tags := []
    ports := fset s.ports 0 { Port.init with root := 0x10000 }
    launches := [(1, { Launch.init with rc := loadRec })]
    blocks := [(1, loadBlock seq)]
    waves := [(1, loadWave)]
    nextLid := 2
    newestLid := 1
    nextId := 2
    turn := if seq then .seq 1 else .wave 1 }
  let s2 := s1.loadTables
  { s2 with mem := s2.mem.setNum loadBase x.toNat 8 }

end Sys2Proof.Machine
end

