-- ==== Sys2Proof/Machine/Control.lean ====
section
/-!
DEFINITION. The control instructions (spec/05_control_flow.md, R108 to R120).
-/
namespace Sys2Proof.Machine

/-- The target of a word's 18-bit immediate (R24, R110). -/
def target (pc : DWord) (k : BitVec 18) : DWord := pc56 (pc + (k.signExtend 64 <<< 3))

/-- Threads of a mask moved to an address each. -/
def State.jump (s : State) (c : Ctx) (g : Thread → DWord) : State :=
  s.modWave c.u fun w => w.mapMask c.mask fun l t =>
    match c.w.th l with
    | some t0 => { t with pc := g t0 }
    | none => t

/-- The check of an indirect target (R110): the fault of a thread, or none. `landing` asks for a `land` word. A malformed word
with the opcode of `land` is taken to be no `land` word, so it raises LANDING here: the model's choice (log entry 110). -/
def State.targetFault (s : State) (w : Wave) (x : DWord) (landing : Bool) : Option Nat :=
  if x.toNat / 2 ^ 56 ≠ 0 then some cNONCANON
  else if x.toNat % 8 ≠ 0 then some cMISALIGNED
  else match s.translateX w.coreNo w.port x.toNat with
    | .error e => some e
    | .ok e =>
      if landing then
        let word : DWord := BitVec.ofNat 64 (s.numAt (if e.swm then some (dieOf w.coreNo) else none) (e.key x.toNat) 8)
        match decode word with
        | .ok (.land _) => none
        | _ => some cLANDING
      else none

/-- The lanes of a mask whose guard holds and whose target fails, with their faults; and those that pass. -/
def State.checkTargets (s : State) (c : Ctx) (f : FOps) (landing : Bool) : List (Nat × Nat × DWord) × Word :=
  let ls := (c.w.active c.mask).filter fun (_, t) => t.guard f.g
  let r := ls.map fun (l, t) => (l, s.targetFault c.w (t.getV2 f.a.num) landing, t.getV2 f.a.num)
  (r.filterMap fun (l, e, x) => e.map fun e => (l, e, x), maskOf (r.filterMap fun (l, e, _) => if e.isNone then some l else none))

/-- Lanes put back to their word; then their faults (R111). -/
def State.transferFaults (s : State) (c : Ctx) (fs : List (Nat × Nat × DWord)) : State := s.laneFaults c 6 fs

/-- `bra` (R113). -/
def execBra (f : FOps) (s : State) : Out :=
  word' (.bra f) s fun s c => s.jump c fun t => if t.guard f.g then target t.pc f.imm else pc56 (t.pc + 8)

/-- The condition of `sbra`. -/
def sbraTaken (cc : Nat) (x : Word) : Bool :=
  match cc with
  | 0 => x == 0
  | 1 => x != 0
  | 2 => x.msb
  | _ => !x.msb

/-- `sbra`: one uniform value for the whole group. -/
def execSbra (f : FOps) (s : State) : Out :=
  word' (.sbra f) s fun s c =>
    let taken := sbraTaken f.mod.toNat (c.w.getS f.a.num)
    s.jump c fun t => if taken then target t.pc f.imm else pc56 (t.pc + 8)

/-- `brx`: threads that pass go to their targets, the others stay with their faults. -/
def execBrx (f : FOps) (s : State) : Out :=
  word' (.brx f) s fun s c =>
    let (fs, pass) := s.checkTargets c f true
    let s1 := s.modWave c.u fun w => w.mapMask pass fun l t =>
      match c.w.th l with
      | some t0 => { t with pc := t0.getV2 f.a.num }
      | none => t
    s1.transferFaults c fs

/-- The link pair and the call depth of a taken call (R114). -/
def Thread.enter (t t0 : Thread) (d : Nat) (tgt : DWord) : Thread :=
  { (t.setV2 d (pc56 (t0.pc + 8))) with cd := t0.cd + 1, pc := tgt }

/-- `call`: DEPTH_EXCEEDED where the depth is 65,535. -/
def execCall (f : FOps) (s : State) : Out :=
  word' (.call f) s fun s c =>
    let on := (c.w.active c.mask).filter fun (_, t) => t.guard f.g
    let deep := (on.filter fun (_, t) => t.cd == 0xFFFF).map (·.1)
    let go := maskOf ((on.filter fun (_, t) => t.cd != 0xFFFF).map (·.1))
    let s1 := s.modWave c.u fun w => w.mapMask go fun l t =>
      match c.w.th l with
      | some t0 => t.enter t0 f.d.toNat (target t0.pc f.imm)
      | none => t
    s1.someFault c cDEPTH deep

/-- `callx`: the target is read before the link pair is written. -/
def execCallx (f : FOps) (s : State) : Out :=
  word' (.callx f) s fun s c =>
    let on := (c.w.active c.mask).filter fun (_, t) => t.guard f.g
    let deep := (on.filter fun (_, t) => t.cd == 0xFFFF).map (·.1)
    let (fs, pass) := s.checkTargets c f true
    let fs' := on.filterMap fun (l, _) => if deep.contains l then some (l, cDEPTH, (0 : DWord)) else fs.find? fun x => x.1 == l
    let go := pass &&& ~~~maskOf deep
    let s1 := s.modWave c.u fun w => w.mapMask go fun l t =>
      match c.w.th l with
      | some t0 => t.enter t0 f.d.toNat (t0.getV2 f.a.num)
      | none => t
    s1.transferFaults c fs'

/-- The exit of some threads: a section ends as `shret` with no results would end it (R115, R120). -/
def State.leave (s : State) (c : Ctx) (mask : Word) : State :=
  if mask = 0 then s
  else if c.w.sect.isSome then s.endSection c.u 0 0 0 [] []
  else s.exitThreads c.u mask

/-- A return (R114): depth down, deeper meeting entries discarded. -/
def Thread.leaveCall (t t0 : Thread) (tgt : DWord) : Thread :=
  let cd := t0.cd - 1
  { t with cd := cd, meet := t.meet.filter fun m => decide (m.depth ≤ cd.toNat), pc := tgt }

/-- `ret`: exit at depth 0. -/
def execRet (f : FOps) (s : State) : Out :=
  word' (.ret f) s fun s c =>
    let (fs, pass) := s.checkTargets c f false
    let outs := maskOf ((c.w.active pass).filterMap fun (l, t) => if t.cd = 0 then some l else none)
    let s1 := s.modWave c.u fun w => w.mapMask (pass &&& ~~~outs) fun l t =>
      match c.w.th l with
      | some t0 => t.leaveCall t0 (t0.getV2 f.a.num)
      | none => t
    (s1.leave c outs).transferFaults c fs

/-- A push on the meeting stack (R108): at most eight entries. -/
def Thread.pushMeet (t : Thread) (a : DWord) : Thread :=
  { t with meet := (⟨a, t.cd.toNat, t.ser + 1⟩ :: t.meet).take 8, ser := t.ser + 1 }

/-- `meet`. -/
def execMeet (f : FOps) (s : State) : Out :=
  word' (.meet f) s fun s c => s.modWave c.u fun w => w.mapMask c.mask fun _ t => t.pushMeet (target c.pc f.imm)

/-- `meet.pop`. -/
def execMeetPop (f : FOps) (s : State) : Out :=
  word' (.meetPop f) s fun s c => s.modWave c.u fun w => w.mapMask c.mask fun _ t => { t with meet := t.meet.drop 1 }

/-- `land` in sequence does nothing (R116). -/
def execLand (f : FOps) (s : State) : Out := arith (.land f) f.e s fun w _ => .ok w

/-- `nop` does nothing. -/
def execNop (f : FOps) (s : State) : Out := arith (.nop f) f.e s fun w _ => .ok w

/-- `exit` (R115). -/
def execExit (f : FOps) (s : State) : Out := word' (.exit f) s fun s c => s.leave c c.mask

/-- `yield` (R117); on an L-core it ends only the run. -/
def execYield (f : FOps) (s : State) : Out :=
  word' (.yield f) s fun s c =>
    if c.w.sect.isSome then s
    else s.modWave c.u fun w => { (w.mapMask c.mask fun _ t => { t with yd := true }) with yielded := true }

/-- `trap #k` (R118): the return address is the next word. -/
def execTrap (f : FOps) (s : State) : Out :=
  word' (.trap f) s fun s c =>
    s.takeFaults c.u ((lanesOf c.mask).map fun l => ⟨l, 0x80 + f.imm.toNat, 0, 0, pc56 (c.pc + 8)⟩) none false

/-- A report is presented before another: it stopped earlier, or in the same clk on a lower core, or there in a lower wave context
(R432). -/
def BrkReport.before (a b : BrkReport) : Bool :=
  if a.at_ ≠ b.at_ then decide (a.at_ < b.at_)
  else if a.core ≠ b.core then decide (a.core < b.core)
  else decide (a.ctx ≤ b.ctx)

/-- A report in its place among those queued; the order of R432 is kept. -/
def reported (r : BrkReport) (q : List BrkReport) : List BrkReport :=
  q.takeWhile (fun x => x.before r) ++ r :: q.dropWhile (fun x => x.before r)

/-- `brk` (R118, R432): the wave stops and its report joins the queue of its port function, when the launch is debugged. That
its threads stand past the word while they are stopped, and that a `brk` in a shipped section has no effect, are the
model's choices (log entry 109). -/
def execBrk (f : FOps) (s : State) : Out :=
  word' (.brk f) s fun s c =>
    if c.w.sect.isNone && (fget s.launches c.w.lid).any fun l => l.rc.dbg then
      let k := f.imm.toNat
      (s.modWave c.u fun w => { w with brk := some k }).modPort c.w.port fun p =>
        { p with brks := reported ⟨k, c.u, c.w.ctx, c.w.core, s.clk⟩ p.brks }
    else s

/-- Threads put to sleep until a deadline (R119). -/
def State.sleep (s : State) (c : Ctx) (deadline : DWord) : State :=
  s.modWave c.u fun w => w.mapMask c.mask fun _ t => { t with wait := .asleep, deadline := deadline }

/-- `sleep #n`. -/
def execSleep (f : FOps) (s : State) : Out :=
  word' (.sleep f) s fun s c => s.sleep c (s.clk + f.imm.setWidth 64)

/-- `sleep.until sa.d`. -/
def execSleepUntil (f : FOps) (s : State) : Out :=
  word' (.sleepUntil f) s fun s c => s.sleep c (c.w.getS2 f.a.num)

end Sys2Proof.Machine
end

