-- ==== Sys2Proof/Machine/Reach.lean ====
section
/-!
DEFINITION. How the lanes of a memory word reach memory (spec/07_memory_access.md, R156, R157, R163, R169, R172, R174,
R185; spec/09_regions.md, R223 to R228): the checks of a lane, what a checked lane leaves in the translation hardware,
the buffers of open regions, and the issue of accesses.
-/
namespace Sys2Proof.Machine

/-! ### Checks (R156) -/

/-- The checks of one access of a lane, in the order of R156. -/
def State.checkAt (s : State) (w : Wave) (t : Thread) (cap : Cap) (va : DWord) (size perms kind : Nat) : Except Nat TlbEntry :=
  match capCheck cap va.toNat size perms 0 with
  | some c => .error c
  | none => if va.toNat % size ≠ 0 then .error cMISALIGNED else s.translate w t va.toNat kind

/-- A lane that passed its checks. -/
structure Hit where
  lane : Nat
  t    : Thread
  va   : DWord
  e    : TlbEntry

/-- The lanes that pass and the faults of the others. -/
def splitLanes (rs : List (Nat × Thread × DWord × Except Nat TlbEntry)) : List Hit × List (Nat × Nat × DWord) :=
  (rs.filterMap fun (l, t, va, r) => match r with
    | .ok e => some (⟨l, t, va, e⟩ : Hit)
    | .error _ => none,
   rs.filterMap fun (l, _, va, r) => match r with
    | .ok _ => none
    | .error c => some (l, c, va))

/-- The lanes of an M-form word that act: those whose guard holds (R37). -/
def Ctx.acting (c : Ctx) (g : Guard) : List (Nat × Thread) := (c.w.active c.mask).filter fun (_, t) => t.guard g

/-- The acting lanes of a word fault with one code; a thread that is guarded off raises none (R37). -/
def State.actingFault (s : State) (c : Ctx) (g : Guard) (code : Nat) : State := s.someFault c code ((c.acting g).map (·.1))

/-- The checks of every acting lane of an M-form word. -/
def State.checkLanes (s : State) (c : Ctx) (m : MOps) (size perms kind : Nat) : List Hit × List (Nat × Nat × DWord) :=
  splitLanes ((c.acting m.g).map fun (l, t) =>
    let va := addrOf m c.w t
    (l, t, va, s.checkAt c.w t (capOf m c.w t) va size perms kind))

/-! ### What a checked lane leaves behind (R163, R169, R172) -/

/-- The entry a lane used: in the TLB and in its last-page register (R163). -/
def State.cacheEntry (s : State) (c : Ctx) (h : Hit) : State :=
  if h.t.lastPage = some h.e then s
  else (s.fillTlb c.w.coreNo h.e).setLane c.u h.lane fun t => { t with lastPage := some h.e }

/-- The distinct sectors of a list of lanes, ascending (R174). -/
def sectorsOf (hs : List Hit) : List Nat := hs.foldl (fun l h => sinsert l (h.va.toNat / 64)) []

/-- The sector requests of a word counted for hotness sampling. -/
def State.sampleAll (s : State) (c : Ctx) (kind : Nat) (hs : List Hit) : State :=
  (sectorsOf hs).foldl (fun s n => match hs.find? fun h => h.va.toNat / 64 == n with
    | some h => s.sample c.w.coreNo (64 * n) kind h.e
    | none => s) s

/-- Every checked lane's traces: the entries that the lanes used, then what their accesses make of the pages' classes, which may
drop those entries again (R170). -/
def State.touchAll (s : State) (c : Ctx) (kind : Nat) (writes : Bool) (hs : List Hit) : State :=
  let s1 := hs.foldl (fun s h => s.cacheEntry c h) s
  (hs.foldl (fun s h => s.claim c.w.coreNo h.va.toNat writes h.e) s1).sampleAll c kind hs

/-! ### Waiting for earlier accesses -/

/-- No access of these lanes of the wave is in flight. -/
def State.quiet (s : State) (u : Nat) (mask : Word) : Bool :=
  !s.inflight.any fun a => a.wave == u && (a.lanesMask &&& mask) != 0

/-- No access of the wave is in flight. -/
def State.quietWave (s : State) (u : Nat) : Bool := !s.inflight.any fun a => a.wave == u

/-- A .dev or .sys release by a wave: the store queue of its core empties (R202). -/
def State.releaseBy (s : State) (w : Wave) : State := if w.sect.isSome then s else s.releaseDev w.core

/-! ### Issuing accesses (R174, R439) -/

/-- An access put in flight. -/
def State.launchAccess (s : State) (c : Ctx) (op : AccOp) (mask : Word) (scope : Nat) (swm : Bool) (ls : List LaneAcc)
    (swm2 : Bool := false) : State :=
  if ls.isEmpty && mask = 0 then s
  else
    let (id, s1) := s.fresh
    { s1 with inflight := s1.inflight ++ [⟨id, c.u, c.pc, op, ls, mask, scope, swm, swm2, 0, 0⟩] }

/-- A lane's part of a one-address access. -/
def Hit.acc (h : Hit) (val : QWord) (tag : Bool) : LaneAcc := ⟨h.lane, h.va, h.e.key h.va.toNat, 0, 0, val, tag⟩

/-- One request for each sector, in ascending address. -/
def State.launchSectors (s : State) (c : Ctx) (op : AccOp) (scope : Nat) (val : Hit → QWord × Bool) (hs : List Hit) : State :=
  (sectorsOf hs).foldl (fun s n =>
    let here := hs.filter fun h => h.va.toNat / 64 == n
    let swm := here.any fun h => h.e.swm
    s.launchAccess c op 0 scope swm (here.map fun h => h.acc (val h).1 (val h).2)) s

/-- The die whose copy of an SWM page the wave reaches (R171). -/
def TlbEntry.die (e : TlbEntry) (w : Wave) : Option Nat := if e.swm then some (dieOf w.coreNo) else none

/-! ### Region buffers (R223 to R228) -/

/-- A buffered byte of an address, wave buffer first (R224). -/
def State.buffered (s : State) (w : Wave) (key : Nat) : Option Byte :=
  match w.reg.bind fun r => r.byte (key / 64) (key % 64) with
  | some b => some b
  | none => (s.blockRegion w).bind fun r => r.byte (key / 64) (key % 64)

/-- n bytes as a load inside a region reads them. -/
def State.regionNum (s : State) (w : Wave) (swm : Option Nat) (key : Nat) : Nat → Nat
  | 0 => 0
  | n + 1 => s.regionNum w swm key n +
      ((s.buffered w (key + n)).getD (s.loadByte w swm (key + n))).toNat * 256 ^ n

/-- The tag of a granule of memory as a read past the region buffers finds it (R153, R185): none where a byte of the granule is
queued. -/
def State.memoryTag (s : State) (w : Wave) (swm : Option Nat) (key : Nat) : Bool :=
  s.tagAt swm key && (List.range 16).all fun i => (sqByte (s.core w.core).sq w.blk (key + i)).isNone

/-- The tag a thread finds (R153, R185): of one whole buffered granule, or of memory where no byte of the granule is
buffered. -/
def State.regionTag (s : State) (w : Wave) (swm : Option Nat) (key : Nat) : Bool :=
  let g := key % 64 / 16
  let part : Option Region → Nat × Bool := fun r => match r.bind fun r => fget r.lines (key / 64) with
    | some l => (bitsOf l.mask.toNat (16 * g + 15) (16 * g), l.tags.getLsbD g)
    | none => (0, false)
  let a := part w.reg
  let b := part (s.blockRegion w)
  if a.1 = 0xFFFF then a.2
  else if a.1 ≠ 0 then false
  else if b.1 = 0xFFFF then b.2
  else if b.1 ≠ 0 then false
  else s.memoryTag w swm key

/-- A line read inside a region enters the open signatures (R226). -/
def State.noteRead (s : State) (u : Nat) (va : DWord) : State :=
  match s.wave u with
  | none => s
  | some w =>
    let put := fun (r : Region) => { r with sig := sigInsert r.sig (vanOf va.toNat) }
    let s1 := s.modWave u fun w => { w with reg := w.reg.map put }
    if w.aborting then s1 else s1.modBlock w.blk fun b => { b with reg := b.reg.map put }

/-- Bytes written into the innermost buffer (R224, R228); none where it cannot take the line (R223). The buffer of a block
region that has been aborted takes nothing more (R234). -/
def State.bufWrite (s : State) (u : Nat) (swm : Bool) (va : DWord) (key : Nat) (bs : List Byte) (tag : Bool)
    (atomic : Bool := false) : Option State :=
  match s.wave u with
  | none => some s
  | some w => match w.reg with
    | some r => (s.waveLine w r (key / 64) (vanOf va.toNat) swm).map fun r1 =>
        s.modWave u fun w => { w with reg := some ((r1.put key bs tag).by_ u (key / 64) atomic) }
    | none => if w.aborting then some s else match fget s.blocks w.blk, s.blockRegion w with
      | some b, some r => (s.blkLine b r (key / 64) (vanOf va.toNat) swm).map fun r1 =>
          (s.modBlock w.blk fun b => { b with reg := some ((r1.put key bs tag).by_ u (key / 64) atomic) }).doomTest u w.blk w.lid true false
            [vanOf va.toNat]
      | _, _ => some s

/-- The region that owns the full buffer aborts with CAPACITY (R223). -/
def State.capacity (s : State) (u : Nat) : State :=
  match s.wave u with
  | none => s
  | some w => if w.reg.isSome then s.abortWave u 3 0 else s.abortBlock w.blk (some u) 3 0

/-- Lanes one after another, while there is room. -/
def eachLane {α : Type} (g : State → α → Option State) : List α → State → Option State
  | [], s => some s
  | a :: t, s => (g s a).bind (eachLane g t)

/-- Some memory bytes of the access lie on a line whose cork does not match, and no buffer holds them. -/
def State.regionBad (s : State) (w : Wave) (die : Option Nat) (key n : Nat) : Bool :=
  s.badAt die key n && (List.range n).any fun i => (s.buffered w (key + i)).isNone && s.badAt die (key + i) 1

/-- Lanes that read a bad line consume an error (R413) and are dropped. -/
def State.regionErrors (s : State) (c : Ctx) (n : Nat) (hs : List Hit) : State × List Hit :=
  let bad := hs.filter fun h => s.regionBad c.w (h.e.die c.w) (h.e.key h.va.toNat) n
  match bad with
  | [] => (s, hs)
  | b :: _ =>
    (s.consume ⟨c.w.coreNo, c.u, false, 6, maskOf (bad.map fun h => h.lane), b.va⟩ c.pc,
      hs.filter fun h => !bad.any fun x => x.lane == h.lane)

/-- Inside a region a word waits until the wave's accesses from before it are performed; then its effect, and after it
the faults of the lanes that failed, unless the buffer overflowed. -/
def State.inBuffers (s : State) (c : Ctx) (kind : Nat) (fs : List (Nat × Nat × DWord)) (k : State → Option State) : Option State :=
  if !s.quietWave c.u then none
  else match k s with
    | some s1 => some (s1.laneFaults c kind fs)
    | none => some (s.capacity c.u)

/-! ### Reading a record through a thread's translation (R184, R145) -/

/-- The storage of n bytes from an address on, each translated as an access of a kind; the first byte that fails. -/
def State.keysAt (s : State) (w : Wave) (t : Thread) (va kind : Nat) : Nat → Except (Nat × Nat) (List (Nat × TlbEntry))
  | 0 => .ok []
  | n + 1 => match s.keysAt w t va kind n with
    | .error e => .error e
    | .ok ks => match s.translate w t (va + n) kind with
      | .error c => .error (c, va + n)
      | .ok e => .ok (ks ++ [(e.key (va + n), e)])

/-- The bytes at such places as a read of the wave at device scope finds them, past the buffers of its regions (R185, R238): its own
earlier stores among them (R209). -/
def State.bytesAt (s : State) (w : Wave) (ks : List (Nat × TlbEntry)) : List Byte :=
  ks.map fun (k, e) => s.loadByte w (e.die w) k

/-- Reads done at once: their traces, and the die's copies of the lines of SWM pages (R171). -/
def State.touchReads (s : State) (c : Ctx) (hs : List Hit) : State :=
  hs.foldl (fun s h => s.hold (h.e.die c.w) (h.e.key h.va.toNat)) (s.touchAll c 0 false hs)

/-- The lines of such places as a lane read them. -/
def State.touchKeys (s : State) (c : Ctx) (l : Nat) (t : Thread) (va : Nat) (ks : List (Nat × TlbEntry)) : State :=
  let lines := (((List.range ks.length).zip ks).filter fun (i, _, e) => i == 0 || decide ((va + i) % 64 = 0) || e.base == va + i)
  s.touchReads c (lines.map fun (i, _, e) => ⟨l, t, BitVec.ofNat 64 (va + i), e⟩)

/-- Bytes as a number, the first least significant (R4). -/
def numOf : List Byte → Nat
  | [] => 0
  | b :: t => b.toNat + 256 * numOf t

/-- A field of a record. -/
def fieldOf (bs : List Byte) (off n : Nat) : Nat := numOf ((bs.drop off).take n)

end Sys2Proof.Machine
end

