-- ==== Sys2Proof/Machine/Memory.lean ====
section
/-!
DEFINITION. The memory and capability instructions (spec/07_memory_access.md, R177 to R186).
-/
namespace Sys2Proof.Machine

/-- Bytes of a size code, and whether a load of it extends the sign (Table 2.9). -/
def szBytes (sz : Nat) : Nat :=
  match sz with
  | 0 | 5 => 1 | 1 | 6 => 2 | 2 => 4 | 3 => 8 | _ => 16
def szSigned (sz : Nat) : Bool := decide (5 ≤ sz)

/-- The operand a lane stores: a register, a pair, or a quad. -/
def Thread.dataOf (t : Thread) (r size : Nat) : QWord :=
  if size = 16 then t.getV4 r else if size = 8 then (t.getV2 r).setWidth 128 else (t.getV r).setWidth 128

/-- `ld` (R178): outside a region one request for each sector; inside, the merged bytes at once (R185). -/
def execLd (m : MOps) (s : State) : Out :=
  word (.ld m) s fun s c =>
    let size := szBytes (szM m)
    let sext := szSigned (szM m)
    let d := m.data.toNat
    let (hs, fs) := s.checkLanes c m size pLOAD 0
    let s1 := s.touchAll c 0 false hs
    if s.inRegion c.w then
      s1.inBuffers c 0 fs fun s =>
        let (s2, good) := s.regionErrors c size hs
        some (good.foldl (fun s h =>
          ((s.hold (h.e.die c.w) (h.e.key h.va.toNat)).noteRead c.u h.va).setLane c.u h.lane fun t =>
            t.setSized d size sext (s1.regionNum c.w (h.e.die c.w) (h.e.key h.va.toNat) size)) s2)
    else some ((s1.launchSectors c (.load size sext d) (scOf m) (fun _ => (0, false)) hs).laneFaults c 0 fs)

/-- A store that rests in the store queue (R175, R202); of lanes that name the same bytes the highest-numbered one's value
(R174). -/
def State.queueStore (s : State) (c : Ctx) (bytes : Nat) (val : Hit → QWord) (hs : List Hit) : State :=
  (hs.filter fun h => !hs.any fun k => decide (h.lane < k.lane) && k.e.key k.va.toNat == h.e.key h.va.toNat).foldl (fun s h => s.modCore c.w.core fun k =>
    { k with sq := k.sq ++ [⟨c.u, c.w.lid, c.w.blk, vanOf h.va.toNat, h.e.key h.va.toNat,
        bytesOf (val h).toNat bytes, c.w.core, c.pc, h.lane, h.va⟩] }) s

/-- `st` (R178). -/
def execSt (m : MOps) (s : State) : Out :=
  word (.st m) s fun s c =>
    let size := szBytes (szM m)
    let val := fun (h : Hit) => h.t.dataOf m.data.toNat size
    let (hs, fs) := s.checkLanes c m size pSTORE 1
    let s1 := s.touchAll c 1 true hs
    if s.inRegion c.w then
      s1.inBuffers c 1 fs (eachLane (fun s h =>
        s.bufWrite c.u h.e.swm h.va (h.e.key h.va.toNat) (bytesOf (val h).toNat size) false) hs)
    else
      let narrow := scOf m < 2 && c.w.sect.isNone
      let queue := hs.filter fun h => narrow && !h.e.swm
      let home := hs.filter fun h => !(narrow && !h.e.swm)
      -- a store enters the queue where it could be performed now (R209, R210)
      let b : Access := ⟨s1.nextId, c.u, c.pc, .store size, queue.map fun h => h.acc (val h) false, 0, scOf m, false, false, 0, 0⟩
      let q := s1.inflight ++ [b]
      if !queue.isEmpty && !(ready b q || s1.mayPass b q) then none
      else
        let s2 := (s1.queueStore c size val queue).markPassed b.lanesMask (overtaken b q)
        some ((s2.launchSectors c (.store size) (scOf m) (fun h => (val h, false)) home).laneFaults c 1 fs)

/-- `ldc` (R179): the tag is kept only with LDCAP. -/
def execLdc (m : MOps) (s : State) : Out :=
  word (.ldc m) s fun s c =>
    let d := m.data.toNat
    let keep := fun (h : Hit) => (capOf m c.w h.t).has pLDCAP
    let (hs, fs) := s.checkLanes c m 16 pLOAD 3
    let s1 := s.touchAll c 3 false hs
    if s.inRegion c.w then
      s1.inBuffers c 3 fs fun s =>
        let (s2, good) := s.regionErrors c 16 hs
        some (good.foldl (fun s h =>
          let k := h.e.key h.va.toNat
          let s := s.hold (h.e.die c.w) k
          let x : Cap := ⟨BitVec.ofNat 128 (s1.regionNum c.w (h.e.die c.w) k 16), false⟩
          (s.noteRead c.u h.va).setLane c.u h.lane fun t =>
            t.setQuadCap d ⟨x.bits, s1.regionTag c.w (h.e.die c.w) k && keep h && x.wellFormed⟩) s2)
    else some ((s1.launchSectors c (.ldc d) (scOf m) (fun h => (0, keep h)) hs).laneFaults c 3 fs)

/-- `stc` (R179): a tagged quad needs STCAP. -/
def execStc (m : MOps) (s : State) : Out :=
  word (.stc m) s fun s c =>
    let r := m.data.toNat
    let (hs, fs) := splitLanes ((c.acting m.g).map fun (l, t) =>
      let va := addrOf m c.w t
      let perms := pSTORE ||| (if t.quadTag r then pSTCAP else 0)
      (l, t, va, s.checkAt c.w t (capOf m c.w t) va 16 perms 4))
    let s1 := s.touchAll c 4 true hs
    if s.inRegion c.w then
      s1.inBuffers c 4 fs (eachLane (fun s h =>
        s.bufWrite c.u h.e.swm h.va (h.e.key h.va.toNat) (bytesOf (h.t.getV4 r).toNat 16) (h.t.quadTag r)) hs)
    else
      some ((s1.launchSectors c .stc (scOf m) (fun h => (h.t.getV4 r, h.t.quadTag r)) hs).laneFaults c 4 fs)

/-- `pf` (R180): a lane that fails a check does nothing; the others leave their translations and a sample. -/
def execPf (m : MOps) (s : State) : Out :=
  word' (.pf m) s fun s c =>
    let hs := (splitLanes ((c.w.active c.mask).map fun (l, t) =>
      let va := addrOf m c.w t
      (l, t, va, s.checkAt c.w t (capOf m c.w t) va 1 pLOAD 5))).1
    (hs.foldl (fun s h => s.cacheEntry c h) s).sampleAll c 5 hs

/-! ### Capabilities in registers -/

/-- A capability word that writes a c register once, or faults in every thread (R98, R177). -/
def State.capOnce (s : State) (c : Ctx) (d : Nat) (r : Except Nat Cap) : State :=
  match r with
  | .ok x => s.modWave c.u fun w => w.setC d x
  | .error e => s.groupFault c e

/-- A capability word that writes a quad in each lane, or faults there. -/
def State.capLanes (s : State) (c : Ctx) (d : Nat) (g : Thread → Except Nat Cap) : State :=
  let ls := c.w.active c.mask
  let s1 := ls.foldl (fun s (l, t) => match g t with
    | .ok x => s.setLane c.u l fun t => t.setQuadCap d x
    | .error _ => s) s
  s1.laneFaults c 0 (ls.filterMap fun (l, t) => match g t with
    | .ok _ => none
    | .error e => some (l, e, 0))

/-- `cbnd` (R181). -/
def execCbnd (f : FOps) (s : State) : Out :=
  word' (.cbnd f) s fun s c =>
    let d := f.d.toNat
    if f.mod = 1 then
      s.capLanes c d fun t => (t.quadCap f.a.num).narrow (t.getV2 f.bc.numB).toNat (t.getV2 f.bc.numC).toNat
    else s.capOnce c d ((c.w.getC f.a.num).narrow (c.w.getS2 f.bc.numB).toNat (c.w.getS2 f.bc.numC).toNat)

/-- PERMS of a capability restricted (R182). -/
def Cap.restrict (c : Cap) (x : Word) : Except Nat Cap :=
  if !c.tag then .error cTAG
  else .ok ⟨BitVec.ofNat 128 (c.bits.toNat - c.perms * 2 ^ 96 + (c.perms &&& bfld x 11 0) * 2 ^ 96), true⟩

/-- `cperm` (R182). -/
def execCperm (f : FOps) (s : State) : Out :=
  word' (.cperm f) s fun s c =>
    let d := f.d.toNat
    if f.mod = 1 then s.capLanes c d fun t => (t.quadCap f.a.num).restrict (t.getV f.bc.numB)
    else s.capOnce c d ((c.w.getC f.a.num).restrict (c.w.getS f.bc.numB))

/-- The second capability lies within the first (R182). -/
def Cap.within (c x : Cap) : Bool :=
  c.tag && x.tag && decide (c.base ≤ x.base) && decide (x.base + x.length ≤ c.base + c.length) &&
    (x.perms &&& c.perms) == x.perms && x.space == c.space && x.member == c.member

/-- `ctest` (R182). -/
def execCtest (f : FOps) (s : State) : Out :=
  word' (.ctest f) s fun s c =>
    let q := bfld f.mod 3 3 == 1
    let val := fun (t : Thread) =>
      let x := if q then t.quadCap f.a.num else c.w.getC f.a.num
      match bfld f.mod 2 0 with
      | 0 => x.tag
      | 1 => x.tag && x.has (bfld (if q then t.getV f.bc.numB else c.w.getS f.bc.numB) 11 0)
      | _ => x.within (if q then t.quadCap f.bc.numB else c.w.getC f.bc.numB)
    s.modWave c.u fun w => w.mapMask c.mask fun _ t => t.setP f.d.toNat (val t)

/-- `cmov` (R183). -/
def execCmov (f : FOps) (s : State) : Out :=
  word' (.cmov f) s fun s c =>
    let d := f.d.toNat
    let a := f.a.num
    match f.mod.toNat with
    | 0 => s.modWave c.u fun w => w.setC d (c.w.getC a)
    | 1 => s.modWave c.u fun w => w.mapMask c.mask fun _ t => t.setQuadCap d (c.w.getC a)
    | 2 => s.modWave c.u fun w => w.setC d (match c.lead with | some (_, t) => t.quadCap a | none => Cap.nil)
    | _ => s.modWave c.u fun w => w.mapMask c.mask fun _ t => t.setQuadCap d (t.quadCap a)

/-- The capability an entry of the handle table gives (R184, Table 7.11). R184 names no check of BASE + off itself: where it
reaches 2^56 the model raises CAP_BOUNDS, its choice (log entry 116). -/
def handleCap (ent : List Byte) (off : Nat) : Except Nat Cap :=
  let base := fieldOf ent 0 8
  let len := fieldOf ent 8 8
  let perms := fieldOf ent 0x10 2
  let flags := fieldOf ent 0x12 2
  let reserved := base / 2 ^ 56 ≠ 0 || perms / 2 ^ 12 ≠ 0 || flags / 2 ≠ 0 || fieldOf ent 0x14 12 ≠ 0
  if flags % 2 = 0 ∨ reserved then .error cTAG
  else if off > len ∨ base + off ≥ 2 ^ 56 then .error cBOUNDS
  else match representable (base + off) (len - off) with
    | none => .error cBOUNDS
    | some (e, lm) => .ok (Cap.make (base + off) lm e (perms % 2 ^ 6) 0 0 true)

/-- `cfromh` (R184): the table is read at device scope, after the wave's earlier accesses. -/
def execCfromh (f : FOps) (s : State) : Out :=
  word (.cfromh f) s fun s c =>
    let i := (c.w.getS f.a.num).toNat
    let p := s.port c.w.port
    let va := (p.htBase.toNat + 32 * i) % 2 ^ 56
    match c.lead with
    | none => some s
    | some (l, t) =>
      if i ≥ p.htCount.toNat then some (s.groupFault c cBOUNDS)
      else if !s.quiet c.u c.mask then none
      else match s.keysAt c.w t va 0 32 with
        | .error (e, a) => some (s.laneFaults c 0 ((lanesOf c.mask).map fun l => (l, e, BitVec.ofNat 64 a)))
        | .ok ks =>
          if ks.any fun (k, e) => s.badAt (e.die c.w) k 1 then
            some (s.consume ⟨c.w.coreNo, c.u, false, 6, c.mask, BitVec.ofNat 64 va⟩ c.pc)
          else
          let s1 := s.touchKeys c l t va ks
          some (s1.capOnce c f.d.toNat (handleCap (s1.bytesAt c.w ks) (c.w.getS2 f.bc.numB).toNat))

end Sys2Proof.Machine
end

