-- ==== Sys2Proof/Machine/Sync.lean ====
section
/-!
DEFINITION. Atomics and synchronisation (spec/08_atomics_sync_consistency.md, R187 to R217).
-/
namespace Sys2Proof.Machine

/-! ### Scope inside a region (R214) -/

/-- The innermost open level: 0 wave, 1 block; none outside any region. -/
def State.innermost (s : State) (w : Wave) : Option Nat :=
  if w.sect.isSome then none
  else if w.reg.isSome then some 0
  else if (s.blockRegion w).isSome then some 1
  else none

/-- The outermost open level. -/
def State.outermost (s : State) (w : Wave) : Option Nat :=
  if w.sect.isSome then none
  else if (s.blockRegion w).isSome then some 1
  else if w.reg.isSome then some 0
  else none

/-- A scope wider than the innermost open level. -/
def State.tooWide (s : State) (w : Wave) (sc : Nat) : Bool :=
  match s.innermost w with
  | some l => decide (l < sc)
  | none => false

/-! ### Read-modify-write words (R188, R193 to R195) -/

/-- SZ of Table 8.1 in bytes. -/
def aBytes (m : MOps) : Nat := if szA m then 8 else 4

/-- The operation is a float one (R189). -/
def opkFloat (opk : Nat) : Bool := decide (11 ≤ opk)

/-- A lane of a two-address word that passed: second address and entry beside the first. -/
structure Hit2 where
  h  : Hit
  va : DWord
  e  : TlbEntry

/-- Lanes that name one address together, ascending lanes (R188); the groups in ascending address. -/
def byAddress (hs : List Hit) : List (List Hit) :=
  ((hs.foldl (fun l h => sinsert l (h.e.key h.va.toNat)) []).map fun k => hs.filter fun h => h.e.key h.va.toNat == k)

/-- Inside a region: the operation of each lane on the merged bytes, into the innermost buffer (R214, R224). -/
def State.bufRun (s : State) (c : Ctx) (op : AccOp) (swm swm2 : Bool) (ls : List LaneAcc) : Option State :=
  let two := fun (key : Nat) => op.two && ls.any fun l => key == l.key2 && key != l.key
  let own := fun (key : Nat) => if two key then swm2 else swm
  let die := fun (key : Nat) => if own key then some (dieOf c.w.coreNo) else none
  let rd := fun (s : State) (key n : Nat) => (s.hold (die key) key, match s.wave c.u with
    | some w => s.regionNum w (die key) key n
    | none => 0)
  let wr := fun (s : State) (va : DWord) (key : Nat) (bs : List Byte) => s.bufWrite c.u (own key) va key bs false true
  eachLane (fun s l =>
    let s1 := s.noteRead c.u l.va
    let s2 := if op.two then s1.noteRead c.u l.va2 else s1
    op.run rd wr c.u l s2) ls s

/-- A one-address atomic word: region scope, abandoned operands, checks, then its requests. -/
def State.atomic (s : State) (c : Ctx) (m : MOps) (op : AccOp) (size perms : Nat) (val : Thread → QWord)
    (abandoned : Thread → Bool) : Option State :=
  if s.tooWide c.w (scOf m) then some (s.actingFault c m.g cIRREVOCABLE)
  else
    let ls := c.acting m.g
    let (hs, fs) := splitLanes (ls.map fun (l, t) =>
      let va := addrOf m c.w t
      (l, t, va, if abandoned t then .error cABANDONED else s.checkAt c.w t (capOf m c.w t) va size perms 2))
    let fs' := fs.map fun (l, e, va) => (l, e, if e = cABANDONED then 0 else va)
    let s1 := s.touchAll c 2 true hs
    if s.inRegion c.w then
      s1.inBuffers c 2 fs' fun s =>
        let (s2, good) := s.regionErrors c size hs
        eachLane (fun s g => s.bufRun c op (g.any fun h => h.e.swm) false (g.map fun h => h.acc (val h.t) false)) (byAddress good) s2
    else
      some (((byAddress hs).foldl (fun s g =>
        s.launchAccess c op 0 (scOf m) (g.any fun h => h.e.swm) (g.map fun h => h.acc (val h.t) false)) s1).laneFaults c 2 fs')

/-- `atom` (R194). -/
def execAtom (m : MOps) (s : State) : Out :=
  word (.atom m) s fun s c =>
    let d := m.data.toNat
    s.atomic c m (.atom (opkA m) (aBytes m) true d) (aBytes m) (pLOAD ||| pSTORE ||| pATOMIC) (fun t => t.dataOf d (aBytes m))
      fun t => opkFloat (opkA m) && isAbandoned (t.getV d)

/-- `red` (R194): returns nothing. -/
def execRed (m : MOps) (s : State) : Out :=
  word (.red m) s fun s c =>
    let d := m.data.toNat
    s.atomic c m (.atom (opkA m) (aBytes m) false d) (aBytes m) (pSTORE ||| pATOMIC) (fun t => t.dataOf d (aBytes m))
      fun t => opkFloat (opkA m) && isAbandoned (t.getV d)

/-- `cas` (R195): compare in the low half of the operand, the new value in the high half. -/
def execCas (m : MOps) (s : State) : Out :=
  word (.cas m) s fun s c =>
    let d := m.data.toNat
    s.atomic c m (.cas (aBytes m) d) (aBytes m) (pLOAD ||| pSTORE ||| pATOMIC) (fun t => t.dataOf d (2 * aBytes m)) fun _ => false

/-- A two-address word: each lane checks A1 in full, then A2; then one lane after another (R188, R193). -/
def State.atomic2 (s : State) (c : Ctx) (m : MOps) (op : AccOp) (size : Nat) (val : Thread → QWord)
    (abandoned : Thread → Bool) : Option State :=
  if s.tooWide c.w (scOf m) then some (s.actingFault c m.g cIRREVOCABLE)
  else
    let perms := pLOAD ||| pSTORE ||| pATOMIC
    let r := m.ofs.toNat
    let one := fun (l : Nat) (t : Thread) =>
      let v1 := addrAt m c.w t r
      let v2 := addrAt m c.w t (r + 1)
      if abandoned t then (l, t, v1, v2, Except.error (cABANDONED, (0 : DWord)))
      else match s.checkAt c.w t (c.w.getC m.cap.toNat) v1 size perms 2 with
        | .error e => (l, t, v1, v2, .error (e, v1))
        | .ok e1 => match s.checkAt c.w t (c.w.getC m.cap.toNat) v2 size perms 2 with
          | .error e => (l, t, v1, v2, .error (e, v2))
          | .ok e2 => (l, t, v1, v2, .ok (e1, e2))
    let rs := (c.acting m.g).map fun (l, t) => one l t
    let hs : List Hit2 := rs.filterMap fun (l, t, v1, v2, r) => match r with
      | .ok (e1, e2) => some ⟨⟨l, t, v1, e1⟩, v2, e2⟩
      | .error _ => none
    let fs : List (Nat × Nat × DWord) := rs.filterMap fun (l, _, _, _, r) => match r with
      | .ok _ => none
      | .error (e, a) => some (l, e, a)
    let acc := fun (h : Hit2) => (⟨h.h.lane, h.h.va, h.h.e.key h.h.va.toNat, h.va, h.e.key h.va.toNat, val h.h.t, false⟩ : LaneAcc)
    let both : List Hit := hs.flatMap fun h => [h.h, { h.h with va := h.va, e := h.e }]
    let s1 := s.touchAll c 2 true both
    if s.inRegion c.w then
      let (s2, sound) := s1.regionErrors c size both
      s2.inBuffers c 2 fs (eachLane (fun s h => s.bufRun c op h.h.e.swm h.e.swm [acc h])
        (hs.filter fun h => sound.any fun x => x.lane == h.h.lane))
    else
      some ((hs.foldl (fun s h => s.launchAccess c op c.mask (scOf m) h.h.e.swm [acc h] h.e.swm) s1).laneFaults c 2 fs)

/-- `dcas` (R195). -/
def execDcas (m : MOps) (s : State) : Out :=
  word (.dcas m) s fun s c =>
    let d := m.data.toNat
    s.atomic2 c m (.dcas d) 4 (fun t => t.getV4 d) fun _ => false

/-- `atom2` (R195). -/
def execAtom2 (m : MOps) (s : State) : Out :=
  word (.atom2 m) s fun s c =>
    let d := m.data.toNat
    s.atomic2 c m (.atom2 (opkA m) (aBytes m) d) (aBytes m) (fun t => t.dataOf d (2 * aBytes m))
      fun t => opkFloat (opkA m) && (isAbandoned (t.getV d) || isAbandoned (t.getV (d + 1)))

/-- `amov2` (R195). -/
def execAmov2 (m : MOps) (s : State) : Out :=
  word (.amov2 m) s fun s c =>
    let d := m.data.toNat
    s.atomic2 c m (.amov2 (aBytes m) d) (aBytes m) (fun t => t.dataOf d (aBytes m)) fun _ => false

/-! ### Reservations and monitors (R196, R207) -/

/-- A word of the class that no region admits and whose lanes form one access: RESERVATION_SPAN where `span` asks for one
line, then the checks of each lane. -/
def State.grouped (s : State) (c : Ctx) (m : MOps) (op : AccOp) (span : Bool) (perms kind : Nat) (writes : Bool) : State :=
  if s.inRegion c.w then s.groupFault c cIRREVOCABLE
  else
    let ls := c.acting m.g
    let lines := distinct (ls.map fun (_, t) => (addrOf m c.w t).toNat / 64)
    if span && decide (1 < lines.length) then s.groupFault c cSPAN
    else
      let (hs, fs) := s.checkLanes c m (aBytes m) perms kind
      let s1 := s.touchAll c kind writes hs
      let acc := fun (h : Hit) => h.acc (h.t.dataOf m.data.toNat (aBytes m)) false
      let s2 := if span then s1.launchAccess c op 0 (scOf m) (hs.any fun h => h.e.swm) (hs.map acc)
        else (byAddress hs).foldl (fun s g => s.launchAccess c op 0 (scOf m) (g.any fun h => h.e.swm) (g.map acc)) s1
      s2.laneFaults c kind fs

/-- `lres`. -/
def execLres (m : MOps) (s : State) : Out :=
  word' (.lres m) s fun s c => s.grouped c m (.lres (aBytes m) m.data.toNat) true (pLOAD ||| pATOMIC) 0 false

/-- `scond`. -/
def execScond (m : MOps) (s : State) : Out :=
  word' (.scond m) s fun s c => s.grouped c m (.scond (aBytes m) m.data.toNat) true (pSTORE ||| pATOMIC) 1 true

/-- `mon` (R207): its access, then an acquire at its scope, which orders it and every earlier load of its threads before what
follows. -/
def execMon (m : MOps) (s : State) : Out :=
  word' (.mon m) s fun s c =>
    let n := s.inflight.length
    let s1 := s.grouped c m (.mon (aBytes m) m.data.toNat) false pLOAD 0 false
    s1.launchAccess c (.fence true false) ((s1.inflight.drop n).foldl (fun x a => x ||| a.lanesMask) 0) (scOf m) false []

/-- A `mon` of these lanes is in flight. -/
def State.arming (s : State) (u : Nat) (mask : Word) : Bool :=
  s.inflight.any fun a => a.wave == u && (a.lanesMask &&& mask) != 0 && match a.op with
    | .mon _ _ => true
    | _ => false

/-- `mwait` (R208): an unarmed thread, or one whose line was written since, returns at once. -/
def execMwait (u : UOps) (s : State) : Out :=
  word (.mwait u) s fun s c =>
    if s.inRegion c.w then some (s.groupFault c cIRREVOCABLE)
    else if s.arming c.u c.mask then none
    else
      let n : DWord := if u.bc.isImm then u.imm.setWidth 64 else (c.w.getS u.a.toNat).setWidth 64
      some (s.modWave c.u fun w => w.mapMask c.mask fun _ t => match t.mon with
        | some k => if k.hit || n == 0 then { t with mon := none } else { t with wait := .mwait, deadline := s.clk + n }
        | none => t)

/-! ### Fences (R199 to R201) -/

/-- Scope of a fence. -/
def fenceSc (u : UOps) : Nat := bfld u.mod 6 5

/-- A fence stays marked in flight among the accesses that it orders. -/
def State.fenceBy (s : State) (c : Ctx) (acq rel : Bool) (sc : Nat) : State :=
  s.launchAccess c (.fence acq rel) c.mask sc false []

/-- An access of these lanes that the fence orders ahead of later ones is in flight (R199). -/
def State.ordering (s : State) (u : Nat) (mask : Word) (acq rel : Bool) : Bool :=
  s.inflight.any fun a => a.wave == u && (a.lanesMask &&& mask) != 0 && ((acq && a.op.acquired) || (rel && !a.op.marker))

/-- The effect of a fence (R199): one of .wave or .blk scope stays marked in flight; one of .dev or .sys scope waits until
what it orders is performed, and a release then empties the store queue. -/
def State.fenceWord (s : State) (c : Ctx) (acq rel : Bool) (sc : Nat) : Option State :=
  if sc < 2 then some (s.fenceBy c acq rel sc)
  else if s.ordering c.u c.mask acq rel then none
  else some (if rel then s.releaseBy c.w else s)

/-- A release deferred to the outermost commit (R214). -/
def State.deferRelease (s : State) (c : Ctx) (sc : Nat) : State :=
  let put := fun (r : Region) => { r with rel := max r.rel sc }
  if (s.blockRegion c.w).isSome then s.modBlock c.w.blk fun b => { b with reg := b.reg.map put }
  else s.modWave c.u fun w => { w with reg := w.reg.map put }

/-- `fence` .acq, .rel, .acqrel. -/
def execFence (u : UOps) (s : State) : Out :=
  word (.fence u) s fun s c =>
    let kind := bfld u.mod 2 0
    let sc := fenceSc u
    match s.outermost c.w with
    | some l =>
      if sc ≤ l then s.fenceWord c (kind != 1) (kind != 0) sc
      else if kind = 1 then some (s.deferRelease c sc)
      else some (s.groupFault c cIRREVOCABLE)
    | none => s.fenceWord c (kind != 1) (kind != 0) sc

/-- `fence.sc`: the threads wait for the drain and then for the tick. -/
def execFenceSc (u : UOps) (s : State) : Out :=
  word' (.fenceSc u) s fun s c =>
    if s.inRegion c.w then s.groupFault c cIRREVOCABLE
    else
      (s.modWave c.u fun w => w.mapMask c.mask fun _ t => { t with wait := .fenceSc (fenceSc u == 3) s.nextId none }).noteDrain
        c.u

/-- A store of a wave of the core is in flight. -/
def State.storing (s : State) (core : Nat) : Bool :=
  s.inflight.any fun a => a.op.writes && s.waves.any fun (u, (w : Wave)) => u == a.wave && w.sect.isNone && w.core == core

/-- `acqr`: the victim's stores are performed and its queue drains, then the thread does a `fence.dev.acq`. -/
def execAcqr (u : UOps) (s : State) : Out :=
  word (.acqr u) s fun s c =>
    if s.inRegion c.w then some (s.groupFault c cIRREVOCABLE)
    else
      let v := if u.bc.isImm then u.imm.toNat else bfld (c.w.getS u.a.toNat) 7 0
      if s.storing v then none else (s.releaseDev v).fenceWord c true false 2

/-! ### Barriers (R203 to R206) -/

/-- Mode and count an arrival names. -/
def barMode (u : UOps) (w : Wave) : BarMode :=
  match bfld u.mod 3 2 with
  | 0 => .participant
  | 1 => .count (w.getS u.a.toNat).toNat
  | _ => .count u.imm.toNat

/-- Each lane of the group in turn; the lanes that starved. -/
def State.barLanes (s : State) (c : Ctx) (g : State → Nat → State × Bool) : State :=
  let r := (lanesOf c.mask).foldl (fun (p : State × List Nat) l =>
    let (s1, ok) := g p.1 l
    (s1, if ok then p.2 else p.2 ++ [l])) (s, [])
  r.1.someFault c cSTARVED r.2

/-- The accesses in flight that a release of lanes orders, with what must be performed before them. -/
def releasedBy (u : Nat) (mask : Word) : List Access → List Access
  | [] => []
  | a :: t =>
    let r := releasedBy u mask t
    if (a.wave = u ∧ a.lanesMask &&& mask ≠ 0) ∨ r.any (mustPrecede a) then a :: r else r

/-- A release at .blk scope (R206, R213): the threads of the block find what it orders performed, other observers need not
(R198). It is held while something is in flight that must be performed in its own turn. -/
def State.releaseBlk (s : State) (u : Nat) (mask : Word) : Option State :=
  let es := releasedBy u mask s.inflight
  if es.any fun e => !(e.passable || e.op.marker) || s.loadsAbroad e then none
  else some (s.markPassed mask (es.filterMap fun e => if e.op.marker then none else some (e.id, 2)))

/-- A `bar` word: in a section it ends the section (R216); an arrival releases the thread's earlier accesses. -/
def State.barWord (s : State) (c : Ctx) (arrival : Bool) (g : State → Nat → State × Bool) : Option State :=
  if c.w.sect.isSome then some (s.endSection c.u cSECTFAULT cSTARVED 0 [] [])
  else (if arrival then s.releaseBlk c.u c.mask else some s).map fun s => s.barLanes c g

/-- Barrier number of a `bar` word. -/
def barNo (u : UOps) : Nat := bfld u.mod 7 4

/-- `bar.sync`: an arrival, then the wait. -/
def execBarSync (u : UOps) (s : State) : Out :=
  word (.barSync u) s fun s c =>
    s.barWord c true fun s l =>
      match s.arrive c.u l c.w.blk (barNo u) (barMode u c.w) none with
      | (s1, true) => s1.barWait c.u l c.w.blk (barNo u)
      | r => r

/-- `bar.arrive`. -/
def execBarArrive (u : UOps) (s : State) : Out :=
  word (.barArrive u) s fun s c =>
    s.barWord c true fun s l => s.arrive c.u l c.w.blk (barNo u) (barMode u c.w) none

/-- `bar.wait`: its return acquires at .blk scope (R206). -/
def execBarWait (u : UOps) (s : State) : Out :=
  word (.barWait u) s fun s c =>
    (if c.w.sect.isSome then s else s.fenceBy c true false 1).barWord c false fun s l => s.barWait c.u l c.w.blk (barNo u)

end Sys2Proof.Machine
end

