-- ==== Sys2Proof/Machine/Regions.lean ====
section
/-!
DEFINITION. The region instructions (spec/09_regions.md, R221 to R248).
-/
namespace Sys2Proof.Machine

/-- The handler address of an `ropen` (R244, R26). -/
def targetU (pc : DWord) (k : BitVec 22) : DWord := pc56 (pc + (k.signExtend 64 <<< 3))

/-- The group holds every thread of the wave that has not exited (R221). -/
def Ctx.whole (c : Ctx) : Bool := c.mask == c.w.live

/-- Barrier number of a block region word (R243). -/
def blkBar (u : UOps) : Nat := bfld u.mod 6 3

/-- The thread's starved bit of the barrier is set: its word raises BARRIER_STARVED, and has no effect but to clear the bit
(R205, R248). -/
def State.starves (s : State) (u l k : Nat) : Bool := ((s.wave u).bind fun w => w.th l).any fun t => t.starved.getLsbD k

/-- What `ropen` records for a thread (R244, R234). -/
def Thread.handler (t : Thread) (pc : DWord) : Unwind := ⟨pc, t.cd.toNat, t.ser⟩

/-- `ropen.wave`. -/
def execRopenWave (u : UOps) (s : State) : Out :=
  word' (.ropenWave u) s fun s c =>
    let p := u.d.toNat
    if !c.whole then s.groupFault c cDIVERGENT
    else if c.w.reg.isSome then s.groupFault c cNESTING
    else match firstChunk (s.quotaWave c.w.lid) 4 (s.poolFree c.w.core) with
      | none => s.modWave c.u fun w => w.mapMask c.mask fun _ t => t.setP p false
      | some r => s.modWave c.u fun w =>
          { (w.mapMask c.mask fun _ t => { (t.setP p true) with hWave := some (t.handler (targetU c.pc u.imm)) }) with
            reg := some r }

/-- `ropen.blk`: an arrival and a wait (R222). -/
def execRopenBlk (u : UOps) (s : State) : Out :=
  word (.ropenBlk u) s fun s c =>
    if c.w.reg.isSome || (s.blockRegion c.w).isSome then some (s.groupFault c cNESTING)
    else if !s.quiet c.u c.mask then none
    else
      some (s.barLanes c fun s l =>
        let s1 := s.setLane c.u l fun t => { t with hBlk := some (t.handler (targetU c.pc u.imm)) }
        if s.starves c.u l (blkBar u) then s.barWait c.u l c.w.blk (blkBar u)
        else match s1.arrive c.u l c.w.blk (blkBar u) .ropen (some u.d.toNat) with
          | (s2, true) => s2.barWait c.u l c.w.blk (blkBar u)
          | _ => (s, false))

/-- `rcommit.wave`: the accesses made in the region are in its buffer already; those from before it are performed first, which
is the release of R230. -/
def execRcommitWave (u : UOps) (s : State) : Out :=
  word (.rcommitWave u) s fun s c =>
    if !c.whole then some (s.groupFault c cDIVERGENT)
    else if c.w.reg.isNone then some (s.groupFault c cNESTING)
    else if !s.quietWave c.u then none
    else some (s.commitWave c.u c.pc)

/-- `rcommit.blk`: an arrival and a wait; the commit takes place as the phase completes (R232). -/
def execRcommitBlk (u : UOps) (s : State) : Out :=
  word (.rcommitBlk u) s fun s c =>
    if c.w.reg.isSome || (s.blockRegion c.w).isNone then some (s.groupFault c cNESTING)
    else if !s.quiet c.u c.mask then none
    else
      some (s.barLanes c fun s l =>
        if s.starves c.u l (blkBar u) then s.barWait c.u l c.w.blk (blkBar u)
        else match s.arrive c.u l c.w.blk (blkBar u) .rcommit none with
          | (s1, true) => s1.barWait c.u l c.w.blk (blkBar u)
          | r => r)

/-- `rabort.wave` (R246). -/
def execRabortWave (u : UOps) (s : State) : Out :=
  word' (.rabortWave u) s fun s c =>
    if c.w.reg.isNone then s.groupFault c cNESTING else s.abortWave c.u 1 u.imm.toNat

/-- `rabort.blk`: the other waves record PARENT. -/
def execRabortBlk (u : UOps) (s : State) : Out :=
  word' (.rabortBlk u) s fun s c =>
    if (s.blockRegion c.w).isNone then s.groupFault c cNESTING else s.abortBlock c.w.blk (some c.u) 1 u.imm.toNat

/-- `rstat` (R247). -/
def execRstat (u : UOps) (s : State) : Out :=
  word' (.rstat u) s fun s c => s.modWave c.u fun w => w.setS u.d.toNat (s.rstatValue c.w)

end Sys2Proof.Machine
end

