-- ==== Sys2Proof/Machine/Ship.lean ====
section
/-!
DEFINITION. Shipped sections (spec/10_shipped_sections.md, R250 to R278): homes, requests and their checks, reply slots and
tokens, promises, and the instructions of the class.
-/
namespace Sys2Proof.Machine

/-! ### Homes (R251, Table 10.1) -/

/-- HFold6 and HFold12 of R251. -/
def hfold6 (n : Nat) : Nat := ((List.range 9).map fun i => bitsOf n (6 * i + 5) (6 * i)).foldl (· ^^^ ·) 0
def hfold12 (n : Nat) : Nat := ((List.range 5).map fun i => bitsOf n (12 * i + 11) (12 * i)).foldl (· ^^^ ·) 0

def hV (e : Word) : Bool := bfld e 31 31 == 1
def hMEMBER (e : Word) : Nat := bfld e 23 12
def hLCORE (e : Word) : Nat := bfld e 5 0

/-- The lock capability names a global lock. -/
def Cap.global (c : Cap) : Bool := c.has pGLOBAL

/-- The home table entry a lock selects. -/
def State.homeEntry (s : State) (cap : Cap) (va : DWord) : Word :=
  if cap.global then rget s.homeG (hfold12 (vanOf va.toNat)) else rget s.homeL (hfold6 (vanOf va.toNat))

/-- The member of the blend that the home of an entry belongs to, if it is not this package. -/
def State.homeMember (s : State) (port : Nat) (cap : Cap) (e : Word) : Option Nat :=
  if !cap.global then none
  else match (s.port port).blend with
    | some (_, self) => if hMEMBER e = self then none else some (hMEMBER e)
    | none => none

/-- This package has left the blend of the function: its own member is dead (R275). -/
def State.departed (s : State) (port : Nat) : Bool :=
  match (s.port port).blend with
  | some (n, m) => (fget s.blends n).any fun b => bfld (rget b.ents m) 31 30 == 2
  | none => false

/-! ### Cost classes (Table 10.2) -/

/-- The budget of a cost class in clk. -/
def budget (cc : Nat) : Nat := 256 * 2 ^ cc

/-- The cost class of a section-entry word: a `land` with S = 1 (R254, R140). -/
def sectionClass (x : DWord) : Option Nat :=
  match decode x with
  | .ok (.land f) => if bfld f.mod 7 7 = 1 then some (bfld f.mod 6 4) else none
  | _ => none

/-! ### The request's checks (R257) -/

/-- A lane whose request passed, or the failure: code, address, and the access kind of an absent page. -/
structure ShipHit where
  lane  : Nat
  t     : Thread
  va    : DWord
  cap   : Cap
  cc    : Nat
  entry : Word
  pages : List TlbEntry

/-- The entry capability's own checks (R257, step 4). -/
def entryCheck (c : Cap) : Option Nat :=
  if !c.tag then some cTAG
  else if !c.has pSECENTRY || c.space != 0 then some cPERM
  else if c.length < 8 then some cBOUNDS
  else if c.base % 8 ≠ 0 then some cMISALIGNED
  else none

/-- Translation of a lock address: no RD or WR is required (R257, step 3). -/
def State.translateLock (s : State) (w : Wave) (va : Nat) : Except Nat TlbEntry :=
  match s.lookup w.coreNo w.port va with
  | .error c => .error c
  | .ok e => match permitted w.sect.isNone 8 e.pte with
    | some c => .error c
    | none => .ok e

/-- The checks of one lane's request, in the order of R257. -/
def State.shipCheck (s : State) (c : Ctx) (m : MOps) (l : Nat) (t : Thread) : Except (Nat × DWord × Nat) ShipHit :=
  let va := addrOf m c.w t
  let cap := capOf m c.w t
  let ent := c.w.getC (bfld m.mod 3 0)
  let at_ : DWord := BitVec.ofNat 64 ent.base
  match capCheck cap va.toNat 8 pLOCK 1 with
  | some e => .error (e, va, 8)
  | none =>
    if va.toNat % 8 ≠ 0 then .error (cMISALIGNED, va, 8)
    else match s.translateLock c.w va.toNat with
      | .error e => .error (e, va, 8)
      | .ok p => match entryCheck ent with
        | some e => .error (e, at_, 6)
        | none => match s.translateX c.w.coreNo c.w.port ent.base with
          | .error e => .error (e, at_, 6)
          | .ok q => match sectionClass (s.wordAt c.w.coreNo q at_) with
            | none => .error (cSHIPENTRY, 0, 6)
            | some cc =>
              let e := s.homeEntry cap va
              if hV e then .ok ⟨l, t, va, cap, cc, e, [p, q]⟩ else .error (cHOMELOST, 0, 6)

/-! ### Waves wherever they are (R268, R278) -/

/-- A thread of it changed, ready from now on. -/
def State.wakeAny (s : State) (u l : Nat) (g : Thread → Thread) : State :=
  s.modAny u fun w => w.wakeBy s.clk fun w => w.modTh l g

/-! ### Reply slots and tokens (R258, R267) -/

/-- A slot and its core as one number. -/
def slotKey (core n : Nat) : Nat := 4096 * core + n

/-- The free slots of a core's ship port. -/
def State.freeSlotsOf (s : State) (core : Nat) : List Nat :=
  (List.range 4096).filter fun n => (s.slot core n).st == .free

/-- The slots that n requests take: which free ones is open. -/
def State.takeSlots (s : State) (core n : Nat) : List Nat :=
  let free := s.freeSlotsOf core
  let r := (Config.freeWord s.ctr).toNat % max 1 free.length
  (free.drop r ++ free.take r).take n

/-- The generation of a slot's next request: it advances at each reuse. -/
def State.nextGen (s : State) (core n : Nat) : Nat :=
  match fget (s.core core).slots n with
  | some r => (r.gen + 1) % 2 ^ 18
  | none => 0

/-- Table 10.6. -/
def token (gen slot : Nat) : Word := BitVec.ofNat 32 (2 ^ 30 + gen % 2 ^ 18 * 2 ^ 12 + slot % 2 ^ 12)

/-- The slot a token of a thread names, with its number; none where it is stale. The issuing core is the wave's own, or
the one it was on before it was saved. -/
def State.redeem (s : State) (w : Wave) (u l : Nat) (x : Word) : Option (Nat × RSlot) :=
  let n := bfld x 11 0
  let ok := fun (core : Nat) =>
    let r := s.slot core n
    if bfld x 31 30 = 1 ∧ r.st ≠ .free ∧ r.mode = 1 ∧ r.answered ∧ r.gen = bfld x 29 12 ∧ r.wave = u ∧ r.lane = l then
      some (slotKey core n, r)
    else none
  (w.core :: fkeys s.cores).findSome? ok

/-! ### ship, shipt, shipp (R271, R277) -/

/-- The numbers of the quads that travel with their tags (R256, R271): of n registers from `r` on. -/
def tagsOf (t : Thread) (r n : Nat) : List Nat :=
  if r % 4 ≠ 0 then []
  else ((List.range (n / 4)).filter fun j => t.quadTag (r + 4 * j)).map fun j => 4 * j

/-- n registers from `r` on, numbered from 0. -/
def argsOf (t : Thread) (r n : Nat) : Regs 32 := (List.range n).foldl (fun m i => rset m i (t.getV (r + i))) []

/-- The request of a lane that passed. -/
def ShipHit.req (h : ShipHit) (c : Ctx) (m : MOps) (mode op slot : Nat) : Req where
  lock := h.va
  port := c.w.port
  lockCap := h.cap
  entryCap := c.w.getC (bfld m.mod 3 0)
  args := argsOf h.t m.data.toNat (naOf m)
  argTags := tagsOf h.t m.data.toNat (naOf m)
  na := naOf m
  mode := mode
  cc := h.cc
  core := c.w.core
  ctx := c.w.ctx
  lane := h.lane
  wave := c.u
  slot := slot
  op := op
  member := none
  token := 0
  accepted := 0
  p := 0

/-- A slot taken by a request. -/
def State.fillSlot (s : State) (q : Req) (dst : Nat) (remote : Option Nat) : State :=
  s.setSlot q.core q.slot { RSlot.init with
    st := .waiting, gen := s.nextGen q.core q.slot, wave := q.wave, lane := q.lane, mode := q.mode, op := q.op, cc := q.cc
    dst := dst, na := q.na, remote := remote }

/-- The order of homes: member, then L-core. -/
def State.homeKey (s : State) (port : Nat) (cap : Cap) (e : Word) : Nat :=
  let self := match (s.port port).blend with
    | some (_, m) => m
    | none => 0
  64 * (s.homeMember port cap e).getD self + hLCORE e

/-- The bundles of a word, in ascending home order (R259). -/
def State.bundlesOf (s : State) (c : Ctx) (qs : List (ShipHit × Req)) : State × List Bundle :=
  let key := fun (p : ShipHit × Req) => s.homeKey c.w.port p.1.cap p.1.entry
  let homes := qs.foldl (fun l p => sinsert l (key p)) []
  homes.foldl (fun (p : State × List Bundle) k =>
    let here := qs.filter fun q => key q == k
    match here with
    | [] => p
    | (h, _) :: _ =>
      let (id, s1) := p.1.fresh
      (s1, p.2 ++ [⟨id, c.w.core, c.u, hLCORE h.entry, s.homeMember c.w.port h.cap h.entry, here.map (·.2), none⟩])) (s, [])

/-- Bundles given to the port, or deferred to the outermost commit (R239), held by the region they were issued in. -/
def State.sendBundles (s : State) (c : Ctx) (defer : Bool) (bs : List Bundle) : State :=
  let put := fun (r : Region) => { r with escapes := r.escapes ++ bs }
  if !defer then { s with bundles := s.bundles ++ bs }
  else if c.w.reg.isSome then s.modWave c.u fun w => { w with reg := w.reg.map put }
  else if c.w.aborting then s.dropEscapes bs
  else s.modBlock c.w.blk fun b => { b with reg := b.reg.map put }

/-- The faults of lanes, each with the kind of its access. -/
def State.shipFaults (s : State) (c : Ctx) (fs : List (Nat × Nat × DWord × Nat)) : State :=
  let absent := fs.filterMap fun (l, code, va, k) => if code = cNOTPRESENT then some (⟨l, va.toNat, k⟩ : Absent) else none
  let other := fs.filterMap fun (l, code, va, _) =>
    if code = cNOTPRESENT then none else some (⟨l, code, va, 0, c.pc⟩ : LaneFault)
  (s.park c.u c.pc absent).takeFaults c.u other none false

/-- What a request's translations leave behind: the lock's page in the TLB, and of the entry word a read as of a fetch (R163, R170,
R171). -/
def State.shipTouch (s : State) (c : Ctx) (entry : DWord) (pages : List TlbEntry) : State :=
  match pages with
  | p :: q :: _ => (s.fillTlb c.w.coreNo p).fetched c.w.coreNo q entry
  | _ => s

/-- A `ship`, `shipt` or `shipp` word: held without free slots or with 1,023 words outstanding (R258, R269), and until the
thread's earlier accesses are performed, which is its release (R259). -/
def State.shipWord (s : State) (c : Ctx) (m : MOps) (mode : Nat) : Option State :=
  let n := (c.w.active c.mask).length
  if mode ≠ 2 && s.inRegion c.w then some (s.groupFault c cIRREVOCABLE)
  else if (s.freeSlotsOf c.w.core).length < n || decide (c.w.oc 1 ≥ 1023) || !s.quiet c.u c.mask then none
  else
    let rs := (c.w.active c.mask).map fun (l, t) => (l, s.shipCheck c m l t)
    let hs := rs.filterMap fun (_, r) => r.toOption
    let fs := rs.filterMap fun (l, r) => match r with
      | .ok _ => none
      | .error (e, va, k) => some (l, e, va, k)
    match hs.head?.bind fun h => (h.pages.drop 1).find? fun q => s.badAt (q.die c.w) (q.key (c.w.getC (bfld m.mod 3 0)).base) 8 with
    -- the section-entry word lies on a line whose cork does not match (R413)
    | some _ => some (s.consume ⟨c.w.coreNo, c.u, false, 6, maskOf (hs.map (·.lane)), BitVec.ofNat 64 (c.w.getC (bfld m.mod 3 0)).base⟩ c.pc)
    | none =>
    let s0 := hs.foldl (fun s h => s.shipTouch c (BitVec.ofNat 64 (c.w.getC (bfld m.mod 3 0)).base) h.pages) s
    let s1 := if s.inRegion c.w then s0 else s0.releaseBy c.w
    let (op, s2) := s1.fresh
    let slots := s2.takeSlots c.w.core hs.length
    let s3 := { s2 with ctr := s2.ctr + 1 }
    let qs := (hs.zip slots).map fun (h, n) => (h, h.req c m mode op n)
    let s4 := qs.foldl (fun s (h, q) =>
      let s1 := s.fillSlot q m.data.toNat (s.homeMember c.w.port h.cap h.entry)
      let key := slotKey q.core q.slot
      s1.setLane c.u h.lane fun t =>
        { t with wait := if mode = 0 then .ship key else if mode = 1 then .shipt key else t.wait }) s3
    let s5 := if hs.isEmpty then s4 else s4.modWave c.u fun w => w.opBegin op 1 hs.length
    let (s6, bs) := s5.bundlesOf c qs
    some ((s6.sendBundles c (s.inRegion c.w) bs).shipFaults c fs)

/-- `ship`. -/
def execShip (m : MOps) (s : State) : Out := word (.ship m) s fun s c => s.shipWord c m 0
/-- `shipt`. -/
def execShipt (m : MOps) (s : State) : Out := word (.shipt m) s fun s c => s.shipWord c m 1
/-- `shipp`: inside a region it leaves with the outermost commit (R239). -/
def execShipp (m : MOps) (s : State) : Out := word (.shipp m) s fun s c => s.shipWord c m 2

/-! ### shwait, shtest, shret, homeof (R272 to R274) -/

/-- Results delivered: at most so many, with the tags of R271. -/
def Thread.deliver (t : Thread) (dst n : Nat) (regs : Regs 32) (tags : List Nat) : Thread :=
  let t1 := (List.range n).foldl (fun t j => t.setV (dst + j) (rget regs j)) t
  if dst % 4 ≠ 0 then t1
  else (tags.filter fun g => decide (g + 4 ≤ n)).foldl (fun t g => { t with qtag := sinsert t.qtag (dst + g) }) t1

/-- One lane of a `shwait`: a reply that is there is delivered, or its status raised; a passed promise is renewed and raises
LATE; else the thread waits at its word, which it issues again when the reply arrives. -/
def State.shwaitLane (s : State) (c : Ctx) (d nr : Nat) (nl : Bool) (l : Nat) (t : Thread) (a : Nat) : State × Option Nat :=
  match s.redeem c.w c.u l (t.getV a) with
  | none => (s, none)
  | some (key, r) =>
    if r.st = .replied then
      let s1 := s.freeSlot (key / 4096) (key % 4096)
      let s2 := s1.setLane c.u l fun t => { t with fflags := t.fflags ||| (r.flags &&& fflagsMask) }
      if r.status ≠ 0 then (s2, some (r.status + 256 * r.det))
      else (s2.setLane c.u l fun t => t.deliver d (min r.k nr) r.regs r.tags, none)
    else if !nl && decide (r.p ≤ s.clk) then
      (s.setSlot (key / 4096) (key % 4096) { r with p := s.clk + BitVec.ofNat 64 (budget r.cc) }, some cLATE)
    else
      (s.setLane c.u l fun t => { t with pc := c.pc, wait := .shwait key nl, deadline := r.p }, none)

/-- `shwait`. -/
def execShwait (u : UOps) (s : State) : Out :=
  word' (.shwait u) s fun s c =>
    let r := (c.w.active c.mask).foldl (fun (p : State × List LaneFault) (l, t) =>
      let (s1, f) := p.1.shwaitLane c u.d.toNat (bfld u.mod 3 0) (bfld u.mod 4 4 == 1) l t u.a.toNat
      (s1, match f with
        | some x => p.2 ++ [⟨l, x % 256, 0, x / 256, c.pc⟩]
        | none => p.2)) (s, [])
    r.1.takeFaults c.u r.2 none false

/-- `shtest`. -/
def execShtest (u : UOps) (s : State) : Out :=
  word' (.shtest u) s fun s c =>
    (c.w.active c.mask).foldl (fun s0 (l, t) =>
      let ready := match s.redeem c.w c.u l (t.getV u.a.toNat) with
        | none => true
        | some (_, r) => r.st == .replied
      s0.setLane c.u l fun t => t.setP u.d.toNat ready) s

/-- `shret`: outside a section SHIP_ENTRY. -/
def execShret (f : FOps) (s : State) : Out :=
  word' (.shret f) s fun s c =>
    let k := bfld f.mod 3 0
    match c.w.sect, c.lead with
    | some _, some (_, t) => s.endSection c.u 0 0 k (argsOf t f.a.num k) (tagsOf t f.a.num k)
    | _, _ => s.groupFault c cSHIPENTRY

/-- `homeof`: bit 30 says that the lock is global. -/
def execHomeof (m : MOps) (s : State) : Out :=
  word' (.homeof m) s fun s c =>
    let rs := (c.w.active c.mask).map fun (l, t) =>
      let va := addrOf m c.w t
      let cap := capOf m c.w t
      (l, va, cap, match capCheck cap va.toNat 8 pLOCK 1 with
        | some e => some e
        | none => if va.toNat % 8 ≠ 0 then some cMISALIGNED else none)
    let s1 := rs.foldl (fun s1 (l, va, cap, e) => match e with
      | some _ => s1
      | none => s1.setLane c.u l fun t =>
          t.setV m.data.toNat (s.homeEntry cap va ||| (if cap.global then 0x40000000 else 0))) s
    s1.laneFaults c 0 (rs.filterMap fun (l, va, _, e) => e.map fun e => (l, e, va))

end Sys2Proof.Machine
end

