-- ==== Sys2Proof/Machine/Engines.lean ====
section
/-!
DEFINITION. The engines class (spec/12_engines_and_promises.md, R281 to R300): commands and their checks, shape records and
the record cache, admission and promises, counters and their waits, guard slots.
-/
namespace Sys2Proof.Machine

/-! ### Commands (Table 12.1; Tables 16.5 and 16.6 for the fabric kinds) -/

def cKIND (x : BitVec 512) : Nat := cmdFld x 0 7 0
def cRM (x : BitVec 512) : Nat := cmdFld x 0 21 19
def cSCG (x : BitVec 512) : Bool := cmdFld x 0 22 22 == 1
def cUP (x : BitVec 512) : Bool := cmdFld x 0 23 23 == 1
def cSREC (x : BitVec 512) : Nat := cmdFld x 0x08 63 0
def cDREC (x : BitVec 512) : Nat := cmdFld x 0x10 63 0
def cXREC (x : BitVec 512) : Nat := cmdFld x 0x18 63 0
def cPAT (x : BitVec 512) : Nat := cmdFld x 0x20 63 0
def cCOP (x : BitVec 512) : Nat := cmdFld x 0x24 2 0
def cROP (x : BitVec 512) : Nat := cmdFld x 0x24 6 4
def cROOT (x : BitVec 512) : Nat := cmdFld x 0x24 27 16

def kTCOPY : Nat := 0x01
def kFILL : Nat := 0x02
def kCCOPY : Nat := 0x03
def kRGATHER : Nat := 0x04
def kFPUT : Nat := 0x10
def kCOLL : Nat := 0x11

/-- The header's own rules (R282). -/
def headerOk (x : BitVec 512) : Bool :=
  cmdFld x 0 31 24 == 0 && cmdFld x 0 18 14 == 0 && cmdFld x 0 12 12 == 0 && (cGV x || cGS x == 0) &&
    decide (cRM x < 4) && (!cUP x || cSCG x) && (cKIND x == kCCOPY || (cRM x == 0 && !cSCG x)) &&
    cmdFld x 4 31 29 == 0 && cmdFld x 4 23 21 == 0 && cmdFld x 4 15 13 == 0 && cmdFld x 4 7 5 == 0

/-- The body of each kind: no reserved bit, no field the kind does not use. `root` says that this member is the root of a
BCAST. -/
def bodyOk (x : BitVec 512) (root : Bool) : Bool :=
  let scap := cmdFld x 4 12 8
  let xcap := cmdFld x 4 28 24
  let rest := cmdFld x 0x28 191 0
  let scales := cKIND x == kCCOPY && cSCG x || cKIND x == kRGATHER
  if cKIND x = kFPUT then
    let fv := cmdFld x 0x28 0 0 == 1
    let f64 := cmdFld x 0x28 1 1 == 1
    cmdFld x 0x28 31 2 == 0 && cmdFld x 0x2C 159 0 == 0 && (fv || cXREC x == 0) && (f64 || cmdFld x 0x20 63 32 == 0)
  else if cKIND x = kCOLL then
    decide (cCOP x < 4) && (cCOP x == 0 || cROP x == 0) && decide (cROP x < 3) && (cCOP x == 2 || cROOT x == 0) &&
      cmdFld x 0x24 3 3 == 0 && cmdFld x 0x24 15 7 == 0 && cmdFld x 0x24 31 28 == 0 &&
      (cCOP x == 3 || cmdFld x 0x28 63 0 == 0) && cmdFld x 0x30 127 0 == 0 &&
      (cCOP x != 3 || (cSREC x == 0 && cDREC x == 0)) && (cCOP x != 2 || root || cSREC x == 0)
  else
    decide (1 ≤ cKIND x) && decide (cKIND x ≤ 4) && rest == 0 && (scales || (xcap == 0 && cXREC x == 0)) &&
      (cKIND x == kFILL || cPAT x == 0) && (cKIND x != kFILL || (scap == 0 && cSREC x == 0))

/-- The kind is one of the engine's: a fabric kind is no kind of the copy engine, and the reverse (log entry 21). -/
def kindOk (x : BitVec 512) (fab : Bool) : Bool := (cKIND x == kFPUT || cKIND x == kCOLL) == fab

/-! ### Shape records (Table 12.2) -/

/-- A shape record's contents: format code, UN, the used extents and strides. -/
structure Tensor where
  base : Nat
  code : Nat
  un   : Bool
  ext  : List Nat
  str  : List Int
deriving DecidableEq, Repr

/-- A field of a record. -/
def recFld (x : BitVec 1024) (off n : Nat) : Nat := bitsOf x.toNat (8 * (off + n) - 1) (8 * off)

/-- The element width (R57). -/
def Tensor.width (t : Tensor) : Nat :=
  match Fmt.ofCode t.code t.un with
  | some f => f.width
  | none => 8

/-- The element format. -/
def Tensor.fmt (t : Tensor) : Fmt := (Fmt.ofCode t.code t.un).getD .f32

/-- Number of elements. -/
def Tensor.count (t : Tensor) : Nat := t.ext.foldl (· * ·) 1

/-- Sum of index times stride. -/
def Tensor.offset (t : Tensor) (idx : List Nat) : Int :=
  ((idx.zip t.str).map fun p => (p.1 : Int) * p.2).foldl (· + ·) 0

/-- The least offset of any element. -/
def Tensor.least (t : Tensor) : Int :=
  ((t.ext.zip t.str).map fun p => min 0 (((p.1 : Int) - 1) * p.2)).foldl (· + ·) 0

/-- The record, unless it is malformed; `scale` allows FMT 0xE (R283). -/
def Tensor.parse (x : BitVec 1024) (scale : Bool) : Option Tensor :=
  let fmt := recFld x 8 1
  let code := fmt % 16
  let un := fmt / 16 % 2 == 1
  let rank := recFld x 9 1
  let ext := (List.range 6).map fun i => recFld x (0x10 + 4 * i) 4
  let str := (List.range 6).map fun i => signExt (recFld x (0x30 + 8 * i) 8) 64
  let t : Tensor := ⟨recFld x 0 8, code, un, ext.take rank, str.take rank⟩
  let bad := decide (t.base ≥ 2 ^ 56) || decide (fmt ≥ 32) || code == 7 || code == 15 || (code == 14 && !scale) ||
    (un && code != 8 && code != 9) || rank == 0 || decide (rank > 6) || recFld x 0x0A 6 != 0 || recFld x 0x28 8 != 0 ||
    recFld x 0x60 32 != 0 || t.ext.any (· == 0) || (ext.drop rank).any (· != 0) || (str.drop rank).any (· != 0) ||
    decide (t.least < 0)
  if bad then none else some t

/-- Bytes that so many elements occupy. -/
def Tensor.bytes (t : Tensor) : Nat := (t.count * t.width + 7) / 8

/-! ### The record cache (R284) -/

/-- What reading a record found: its bytes and the state, how many bytes missed the cache, and the latencies of the levels that may
have served it. -/
structure RecRead where
  raw  : BitVec 1024
  miss : Nat
  lats : List Nat
  st   : State

/-- The load latencies that Table 7.9 allows a core on a page (R167, R176): which levels hold a line is open but for those that the
page excludes (R441, Table 7.6, Table 7.7); the second tier has the figure of the package's mode (R17). -/
def State.latencies (s : State) (core : Nat) (e : TlbEntry) (va : Nat) : List Nat :=
  let key := e.key va
  let slice := fun (die : Nat) => if die = dieOf core then 90 else 160
  let ext := if key < Config.tier2Base then 420 else if bfld s.config 0 0 = 1 then 1100 else 700
  let l1 := if pHOME e.pte < 3 && !e.swm then [28] else []
  l1 ++ (match pHOME e.pte with
    | 0 => [if pHCORE e.pte = core then 40 else if dieOf (pHCORE e.pte) = dieOf core then 120 else 160]
    | 1 => [slice (pHCORE e.pte % 4)]
    | 2 => if e.swm then [90, ext] else [slice (bitsOf key 13 12), ext]
    | _ => [ext])

/-- A record read through RCAP by the pushing wave's core: at a miss as a load of the wave reads it, so with every store that the
wave made before the push. R283 says no more of an address that is no multiple of 128: the read fails with MISALIGNED, the model's
choice (log entry 131). -/
def State.readRec (s : State) (w : Wave) (rcap : Cap) (addr : Nat) : Except Nat RecRead :=
  let core := w.core
  let port := w.port
  match capCheck rcap addr 128 pLOAD 0 with
  | some c => .error c
  | none =>
    if addr % 128 ≠ 0 then .error cMISALIGNED
    else
      let hit := fun (r : RecEntry) => r.port == port && r.addr.toNat == addr
      match (s.core core).recs.find? hit with
      | some r => .ok ⟨r.raw, 0, [], s.modCore core fun c => { c with recs := r :: c.recs.filter fun x => !hit x }⟩
      | none => match s.lookup core port addr with
        | .error c => .error c
        | .ok e => match permitted true 0 e.pte with
          | some c => .error c
          | none =>
            let die := if e.swm then some (dieOf core) else none
            if s.badAt die (e.key addr) 128 then .error cCORK
            else
              let raw : BitVec 1024 := BitVec.ofNat 1024 (s.loadNum w die (e.key addr) 128)
              let s1 := (((s.fillTlb core e).claim core addr false e).hold die (e.key addr)).hold die (e.key addr + 64)
              .ok ⟨raw, 128, s.latencies core e addr, s1.modCore core fun c => { c with recs := (⟨port, BitVec.ofNat 64 addr, raw⟩ :: c.recs).take 64 }⟩

/-- The function is the root of the BCAST that the command asks for. -/
def State.isRoot (s : State) (port : Nat) (x : BitVec 512) : Bool :=
  match (s.port port).blend with
  | some (_, m) => m == cROOT x
  | none => false

/-- The records a command uses: source, destination, X; a MARK none, and a BCAST reads a source at its root (Table 16.6). -/
def usesRecs (x : BitVec 512) (root : Bool) : List Bool :=
  if cKIND x = kTCOPY ∨ cKIND x = kFPUT then [true, true, false]
  else if cKIND x = kFILL then [false, true, false]
  else if cKIND x = kCCOPY then [true, true, cSCG x]
  else if cKIND x = kRGATHER then [true, true, true]
  else [cCOP x != 3 && (cCOP x != 2 || root), cCOP x != 3, false]

/-- A command's records read in turn: what was read, the bytes missed, the latency of the slowest, and the first failure. -/
structure RecSet where
  s : BitVec 1024
  d : BitVec 1024
  x : BitVec 1024
  miss : Nat
  lat : Nat
  fault : Option Nat
  st : State

/-- One more record. -/
def RecSet.next (r : RecSet) (use : Bool) (w : Wave) (rcap : Cap) (addr : Nat) (put : RecSet → BitVec 1024 → RecSet) :
    RecSet :=
  if !use || r.fault.isSome then r
  else match r.st.readRec w rcap addr with
    | .error c => { r with fault := some c }
    | .ok q =>
      -- which level serves a record is open; of several that miss the slowest counts (log entry 10)
      let n := q.lats.getD ((Config.freeWord q.st.ctr).toNat % max 1 q.lats.length) 0
      { (put r q.raw) with miss := r.miss + q.miss, lat := max r.lat n, st := { q.st with ctr := q.st.ctr + min 1 q.miss } }

/-- The records of a command. -/
def State.readRecs (s : State) (w : Wave) (rcap : Cap) (x : BitVec 512) : RecSet :=
  let u := usesRecs x (s.isRoot w.port x)
  let r1 := RecSet.next ⟨0, 0, 0, 0, 0, none, s⟩ (u.getD 0 false) w rcap (cSREC x) fun r v => { r with s := v }
  let r2 := r1.next (u.getD 1 false) w rcap (cDREC x) fun r v => { r with d := v }
  r2.next (u.getD 2 false) w rcap (cXREC x) fun r v => { r with x := v }

/-! ### Admission (R288) -/

/-- Bytes of a shape, none for a malformed record. -/
def recBytes (x : BitVec 1024) (scale : Bool) : Nat := ((Tensor.parse x scale).map Tensor.bytes).getD 0

/-- LIVE members of a port's blend. -/
def State.liveCount (s : State) (port : Nat) : Nat :=
  match (s.port port).blend.bind fun b => fget s.blends b.1 with
  | some b => ((List.range b.size).filter fun m => bfld (rget b.ents m) 31 30 == 1).length
  | none => 0

/-- B of R288, R395 and R396. R288 does not say how its data bytes are counted for elements of half a byte, for strides that make
elements share bytes, for an RGATHER's rows out of range, and for a malformed record: the model counts the packed bytes of every
element, every row of the destination as read, and none for a malformed record (log entry 132). -/
def State.moved (s : State) (port : Nat) (x : BitVec 512) (r : RecSet) : Nat :=
  if cKIND x = kFPUT then recBytes r.s false + 460800 + (if cmdFld x 0x28 0 0 = 1 then 128 else 0)
  else if cKIND x = kCOLL then 2 * recBytes r.s false + 460800 * (bitLen (s.liveCount port - 1))
  else if cKIND x = kFILL then r.miss + recBytes r.d false
  else if cKIND x = kRGATHER then r.miss + 2 * recBytes r.d false + recBytes r.x false
  else r.miss + recBytes r.s false + recBytes r.d false + recBytes r.x true

/-- An engine's state. -/
def State.engine (s : State) (e : Eng) : Engine :=
  match e with
  | .copy n => (s.core n).eng
  | .fab d => (s.die d).eng
def State.modEngine (s : State) (e : Eng) (g : Engine → Engine) : State :=
  match e with
  | .copy n => s.modCore n fun c => { c with eng := g c.eng }
  | .fab d => s.modDie d fun c => { c with eng := g c.eng }

/-- Capacity of an engine, and the counter class of its commands. -/
def Eng.capacity : Eng → Nat
  | .copy _ => 512
  | .fab _ => 256
def Eng.cls : Eng → Nat
  | .copy _ => 0
  | .fab _ => 2

/-- Commands of a wave and class, in issue order. -/
def State.cmdsOf (s : State) (u cls : Nat) : List (Nat × Cmd) :=
  s.cmds.filter fun (_, (c : Cmd)) => c.wave == u && c.eng.cls == cls

/-- A wave, resident or saved. -/
def State.anyWave (s : State) (u : Nat) : Option Wave :=
  match s.wave u with
  | some w => some w
  | none => fget s.saved u

/-- No promise. -/
def noPromise : DWord := BitVec.allOnes 64

/-- A command accepted under its number. -/
def State.putCmd (s : State) (id : Nat) (c : Cmd) : State :=
  ({ s with cmds := fset s.cmds id { c with op := id }, nextId := max s.nextId (id + 1) } : State).modAny c.wave fun w =>
    w.opBegin id c.eng.cls 1

/-- The answer to a `push` in its wave. -/
def State.pushAnswer (s : State) (c : Cmd) (promise : DWord) (refused : Bool) : State :=
  s.modAny c.wave fun w => (w.setS2 c.dst promise).mapMask c.lanes fun _ t => t.setP c.pred refused

/-- The command of a word with everything but its engine's answer. -/
def Ctx.command (c : Ctx) (e : Eng) (x : BitVec 512) (scope d p : Nat) (deferred : Bool) : Cmd where
  eng := e
  core := c.w.core
  wave := c.u
  port := c.w.port
  op := 0
  lanes := c.mask
  words := x
  rcap := c.w.getC (cmdFld x 4 4 0)
  scap := c.w.getC (cmdFld x 4 12 8)
  dcap := c.w.getC (cmdFld x 4 20 16)
  xcap := c.w.getC (cmdFld x 4 28 24)
  srec := 0
  drec := 0
  xrec := 0
  scope := scope
  stage := .queued
  promise := noPromise
  o := 0
  flags := 0
  fault := none
  guard := none
  learn := 0
  nest := c.w.reg.isSome
  unsent := []
  dst := d
  pred := p
  quad := c.w.ctx / Config.ctxPerQuad
  deferred := deferred

/-- O of R288. -/
def costOf (b : Nat) : Nat := 16 + (b + 127) / 128

/-- The command holds a place in its engine. -/
def Cmd.inFlight (c : Cmd) (e : Eng) : Bool := c.eng == e && c.stage != .complete && c.stage != .sent

/-- A command's place among those that reach its engine in one clk (R288, R19). -/
def Cmd.place (c : Cmd) : Nat :=
  match c.eng with
  | .copy _ => c.quad
  | .fab _ => 4 * c.core + c.quad

/-- The wave that reads a command's records, through the cache of the pushing core (R284). -/
def Cmd.reader (c : Cmd) (w : Wave) : Wave := { w with core := c.core, port := c.port }

/-- The place of a wave among the requests that its die's fabric engine takes in one clk (R288, R19). -/
def Wave.fabPlace (w : Wave) : Nat := 4 * w.core + w.ctx / Config.ctxPerQuad

/-- A command scheduled at a clk (R288): O from its records, S and P from the engine's backlog clock, which moves on. -/
def State.scheduleAt (s : State) (c : Cmd) (a : Nat) : Cmd × State :=
  let e := s.engine c.eng
  let start := max a e.f.toNat
  ({ c with stage := .queued, promise := BitVec.ofNat 64 (start + c.o + e.drain) },
    s.modEngine c.eng fun e => { e with f := BitVec.ofNat 64 (start + c.o) })

/-- The command with its records, which are read now. -/
def State.withRecs (s : State) (c : Cmd) (w : Wave) : Cmd × State :=
  let r := s.readRecs (c.reader w) c.rcap c.words
  ({ c with srec := r.s, drec := r.d, xrec := r.x, o := costOf (s.moved c.port c.words r), fault := c.fault.orElse fun _ => r.fault }, r.st)

/-- Admission of a checked command at the clk `a` of its acceptance (R288, R289), under its number. A command whose slot its region
binds reads no record before it is scheduled (R239, R297). -/
def State.accept_ (s0 : State) (id : Nat) (cmd : Cmd) (a : Nat) : State :=
  let s : State := if cmd.stage = .sent then { s0 with cmds := fdel s0.cmds id } else s0
  match s.anyWave cmd.wave with
  | none => s
  | some w =>
    let x := cmd.words
    let full := decide ((s.cmds.filter fun (_, (k : Cmd)) => k.inFlight cmd.eng).length ≥ cmd.eng.capacity) ||
      decide (w.oc cmd.eng.cls ≥ 1023)
    let slot := w.slotOf (cGS x)
    let held := (cGV x && slot.val == .pending) ||
      (s.cmdsOf cmd.wave cmd.eng.cls).any fun (_, (k : Cmd)) => k.stage == .held
    if full then s.pushAnswer cmd 0 true
    else
      let (cmd1, s1) := if cmd.deferred && held then (cmd, s) else s.withRecs cmd w
      if held then
        (s1.putCmd id { cmd1 with
          stage := .held
          guard := if cGV x && slot.val != .pending then some (slot.val == .tru) else none
          learn := BitVec.ofNat 64 a }).pushAnswer cmd noPromise false
      else
        let (cmd2, s2) := s1.scheduleAt cmd1 a
        if cmd2.promise.toNat - a > (s.engine cmd.eng).horizon then s.pushAnswer cmd 0 true
        else
          let dropped := cGV x && slot.val == .fls
          (s2.putCmd id { cmd2 with
            stage := if dropped then .moved else .queued
            fault := if dropped then none else cmd1.fault }).pushAnswer cmd cmd2.promise false

/-! ### Held commands (R289) -/

/-- How a held command's slot resolved; none while it is pending. -/
def Cmd.resolved (c : Cmd) : Option Bool := if cGV c.words then c.guard else some true

/-- The commands behind one that left the held state at a clk are known to the engine no earlier (R289). -/
def State.behind (s : State) (c : Cmd) (clk : DWord) : State :=
  { s with cmds := s.cmds.map fun (id, (d : Cmd)) =>
      (id, if d.wave = c.wave ∧ d.eng.cls = c.eng.cls ∧ d.stage = .held ∧ d.learn < clk then { d with learn := clk } else d) }

/-- A held command at the head of its wave's queue whose slot has resolved: scheduled at the clk A′ at which the engine knows it,
without the refusal tests, or discarded. -/
def State.unhold (s : State) (id : Nat) (c : Cmd) (ok : Bool) : State :=
  if ok then
    let (c1, s1) := match (if c.deferred then s.anyWave c.wave else none) with
      | some w => s.withRecs c w
      | none => (c, s)
    let (c2, s2) := s1.scheduleAt c1 c.learn.toNat
    ({ s2 with cmds := fmod s2.cmds id fun _ => c2 } : State).behind c c.learn
  else
    ({ s with cmds := fmod s.cmds id fun c => { c with stage := .moved, fault := none, promise := c.learn } } : State).behind c
      c.learn

/-- No earlier command of its wave and class is held. -/
def State.headHeld (s : State) (id : Nat) (c : Cmd) : Bool :=
  (s.cmdsOf c.wave c.eng.cls).all fun (k, (d : Cmd)) => decide (k ≥ id) || d.stage != .held

/-- The engine knows by a clk `a` that it may accept or schedule the command. -/
def State.known (s : State) (a : Nat) (id : Nat) (c : Cmd) : Bool :=
  decide (c.learn.toNat ≤ a) && (c.stage == .sent || (c.stage == .held && c.resolved.isSome && s.headHeld id c))

/-- What an engine, or any engine, does first of all that is known by a clk: the earliest, in one clk the lowest place. -/
def State.nextKnown (s : State) (e : Option Eng) (a : Nat) : Option (Nat × Cmd) :=
  (s.cmds.filter fun (id, (c : Cmd)) => e.all (· == c.eng) && s.known a id c).foldl (fun (b : Option (Nat × Cmd)) x => match b with
    | some y => if x.2.learn < y.2.learn ∨ (x.2.learn = y.2.learn ∧ x.2.place < y.2.place) then some x else some y
    | none => some x) none

/-- It does it. -/
def State.know (s : State) (id : Nat) (c : Cmd) : State :=
  if c.stage = .sent then s.accept_ id c c.learn.toNat
  else match c.resolved with
    | some ok => s.unhold id c ok
    | none => s

/-- All that an engine knows by a clk done, so many commands at most. -/
def State.catchUp (s : State) (e : Eng) (a : Nat) : Nat → State
  | 0 => s
  | n + 1 => match s.nextKnown (some e) a with
    | some (id, c) => (s.know id c).catchUp e a n
    | none => s

/-- A checked command on its way (R288): it is accepted 8 clk after its issue, and where a record misses the core's cache by the
latency of the record's level later. With every record at hand what decides its acceptance is known at its issue: what its engine
learns before then goes first. Else it is sent, and answered at its acceptance. -/
def State.enter (s : State) (cmd : Cmd) : State :=
  let a := (s.clk + 8).toNat
  match s.anyWave cmd.wave with
  | none => s
  | some w =>
    let r := s.readRecs (cmd.reader w) cmd.rcap cmd.words
    if r.miss = 0 || cmd.deferred then (s.catchUp cmd.eng (a - 1) s.cmds.length).accept_ s.nextId cmd a
    else
      let (id, s1) := s.fresh
      { s1 with
        ctr := r.st.ctr
        cmds := fset s1.cmds id { cmd with op := id, stage := .sent, learn := BitVec.ofNat 64 (a + r.lat) } }

/-! ### push (R297, R298, R300) -/

/-- A `push`: refused on an L-core; inside a region only with a slot bound to it. The fabric engine of a die takes the commands
of one clk in ascending core and quadrant: one that comes too late waits for the next. -/
def State.push (s : State) (c : Ctx) (u : UOps) (fab : Bool) : Option State :=
  let d := u.d.toNat
  let p := u.bc.numC % 8
  let x : BitVec 512 := BitVec.ofNat 512 (c.w.getSn u.a.toNat 16)
  let sc := bfld u.mod 6 5
  let cmd := c.command (if fab then .fab (dieOf c.w.core) else .copy c.w.core) x sc d p (s.inRegion c.w)
  if c.w.sect.isSome then some (s.pushAnswer cmd 0 true)
  else if s.inRegion c.w && !(cGV x && (c.w.slotOf (cGS x)).bound != 0) then some (s.groupFault c cIRREVOCABLE)
  else if !(kindOk x fab && headerOk x && bodyOk x (s.isRoot c.w.port x)) then some (s.groupFault c cILLEGAL)
  else if !s.quietWave c.u || (fab && !s.inPlace (unitFabric (dieOf c.w.core)) c.w.fabPlace) then none
  else
    let s0 := if fab then s.took (unitFabric (dieOf c.w.core)) c.w.fabPlace else s
    let s1 := if decide (2 ≤ sc) && !s0.inRegion c.w then s0.releaseBy c.w else s0
    some (s1.enter cmd)

/-- `push.copy`. -/
def execPushCopy (u : UOps) (s : State) : Out := word (.pushCopy u) s fun s c => s.push c u false
/-- `push.fab`. -/
def execPushFab (u : UOps) (s : State) : Out := word (.pushFab u) s fun s c => s.push c u true

/-! ### Counters (R291 to R294) -/

/-- The operations of a class that a threshold covers: all but the youngest n. -/
def Wave.covered (w : Wave) (cls n : Nat) : List Op :=
  let os := w.ops.filter fun o => o.cls == cls
  os.take (os.length - n)

/-- sr.estat for a failure (Table 12.4). -/
def estatOf (f : Failure) : Word := BitVec.ofNat 32 (2 ^ 31 + f.cls * 2 ^ 29 + f.code * 2 ^ 16 + f.kind * 2 ^ 8)

/-- The oldest failure that a threshold covers: of an operation of the class that counts no longer and is not among the youngest n. -/
def Wave.failure (w : Wave) (cls n : Nat) : Option Failure :=
  let fs := w.fails.filter fun f => f.cls == cls && decide (n ≤ f.younger) && !w.ops.any fun o => o.id == f.op
  fs.foldl (fun (b : Option Failure) f => match b with
    | some g => if f.op < g.op then some f else some g
    | none => some f) none

/-- A covered failure reported in every thread of a group, at the word before `ret` (R293). -/
def State.reportFailure (s : State) (u : Nat) (grp : Word) (f : Failure) (pc : DWord) : State :=
  let s1 := s.modAny u fun w => { w with fails := w.fails.filter (· ≠ f), estat := estatOf f }
  s1.onWave u fun s => s.takeFaults u ((lanesOf grp).map fun l => ⟨l, f.code, 0, 0, pc⟩) none false

/-- The threads of a group that wait on a counter, if any. -/
def Wave.waiting (w : Wave) (grp : Word) : Word :=
  maskOf ((w.active grp).filterMap fun (l, t) => match t.wait with
    | .counter _ _ _ g => if g = grp ∧ !t.exited then some l else none
    | _ => none)

/-- Groups of threads whose counter has come down are released: with the oldest covered failure of their class, or
without (R293, R300). -/
def State.releaseWaits (s : State) (u : Nat) : State :=
  match s.anyWave u with
  | none => s
  | some w =>
    let due : List (Word × Nat × Nat × DWord) := w.threads.filterMap fun (_, t) => match t.wait with
      | .counter cls n _ g => if w.oc cls ≤ n then some (g, cls, n, t.pc) else none
      | _ => none
    let gs := due.foldl (fun l (x : Word × Nat × Nat × DWord) =>
      if l.any (fun y : Word × Nat × Nat × DWord => y.1 == x.1) then l else l ++ [x]) []
    gs.foldl (fun s (g, cls, n, pc) => match s.anyWave u with
      | none => s
      | some w =>
        let m := w.waiting g
        let s1 := s.modAny u fun w => w.wakeBy s.clk fun w => w.mapMask m fun _ t => { t with wait := .none }
        match w.failure cls n with
        | some f => s1.reportFailure u m f (pc56 (pc - 8))
        | none => s1) s

/-- Completed commands of a wave that it no longer counts leave. -/
def State.dropDone (s : State) (u : Nat) : State :=
  { s with cmds := s.cmds.filter fun (_, (c : Cmd)) =>
      !(c.wave == u && c.stage == .complete && !(s.anyWave u).any fun w => w.ops.any fun o => o.id == c.op) }

/-- A part of an operation of a wave done, with what waits for it. -/
def State.partDone (s : State) (u op : Nat) : State := ((s.modAny u fun w => w.opDone op).dropDone u).releaseWaits u

/-- The command of an operation. -/
def State.cmdOf (s : State) (op : Nat) : Option Cmd := fget s.cmds op

/-- T of R294: the largest promise among the commands a `wait` covers; none if a covered operation gives no promise. -/
def State.waitDeadline (s : State) (w : Wave) (cls n : Nat) : Option DWord :=
  if cls = 1 ∨ cls = 3 then none
  else
    let os := w.covered cls n
    let ps := os.map fun o => (s.cmdOf o.id).map fun c => (c.promise, c.stage == .held)
    if os.isEmpty || ps.any fun p => p.all fun p => p.2 then none
    else some (ps.foldl (fun m p => match p with
      | some p => if m < p.1 then p.1 else m
      | none => m) 0)

/-- Promises of covered commands that have passed are renewed (R294). -/
def State.renew (s : State) (w : Wave) (cls n : Nat) : State :=
  let ids := (w.covered cls n).map fun o => o.id
  { s with cmds := s.cmds.map fun (id, (c : Cmd)) =>
      (id, if ids.contains id && decide (c.promise ≤ s.clk) then
        { c with promise := s.clk + BitVec.ofNat 64 (c.o + (s.engine c.eng).drain) } else c) }

/-- The threshold of a `wait`. -/
def waitN (u : UOps) (w : Wave) : Nat := if u.bc.isImm then u.imm.toNat else min (w.getS u.a.toNat).toNat 1023

/-- `wait`: a threshold above the count discards unreported failures; one that is met reports the oldest covered failure or
goes on; else the threads are held. -/
def execWait (u : UOps) (s : State) : Out :=
  word' (.wait u) s fun s c =>
    let cls := bfld u.mod 1 0
    let n := waitN u c.w
    if c.w.oc cls < n then s.modWave c.u fun w => { w with fails := w.fails.filter fun f => f.cls != cls }
    else if c.w.oc cls = n then
      match c.w.failure cls n with
      | some f => s.reportFailure c.u c.mask f c.pc
      | none => s
    else
      s.modWave c.u fun w => w.mapMask c.mask fun _ t => { t with wait := .counter cls n (bfld u.mod 2 2 == 1) c.mask }

/-- What LATE leaves where a `wait` of the lane has reached its deadline with a covered command incomplete (R294): LATE at the word,
in the whole group; it takes precedence over a failure. -/
def State.lateAt (s : State) (u lane : Nat) : Option State :=
  match s.waitOf u lane, s.wave u with
  | .counter cls n nl g, some w =>
    let pc := match w.th lane with
      | some t => pc56 (t.pc - 8)
      | none => 0
    let m := w.waiting g
    if !nl && decide (w.oc cls > n) && (s.waitDeadline w cls n).any fun t => decide (t ≤ s.clk) then
      let s1 := (s.renew w cls n).modWave u fun w => w.wakeBy s.clk fun w => w.mapMask m fun _ t => { t with wait := .none }
      some (s1.takeFaults u ((lanesOf m).map fun l => ⟨l, cLATE, 0, 0, pc⟩) none false)
    else none
  | _, _ => none

/-- WAIT_DEADLINE_LATE. -/
def execWaitDeadlineLate (u lane : Nat) (s : State) : Out := happens s (s.lateAt u lane)

/-- `ocrd` and `ocrd.p`. -/
def execOcrd (u : UOps) (s : State) : Out :=
  word' (.ocrd u) s fun s c =>
    let cls := bfld u.mod 1 0
    let d := u.d.toNat
    if bfld u.mod 2 2 = 1 then
      let cs := (s.cmdsOf c.u cls).filter fun (_, (k : Cmd)) => c.w.ops.any fun o => o.id == k.op
      let p := cs.foldl (fun m (_, (k : Cmd)) => if m < k.promise then k.promise else m) 0
      s.modWave c.u fun w => w.setS2 d p
    else s.modWave c.u fun w => w.setS d (BitVec.ofNat 32 (c.w.oc cls))

/-! ### Guard slots and the record cache (R284, R295 to R298) -/

/-- A slot written. -/
def State.setGuard (s : State) (u : Nat) (k : Nat) (g : GuardSlot) : State :=
  (s.modWave u fun w => { w with g := fset w.g k g }).latchGuards u

/-- `gset`. -/
def execGset (u : UOps) (s : State) : Out :=
  word' (.gset u) s fun s c =>
    let k := u.d.toNat
    let v : GVal := if u.bc.isImm then
        (match u.imm.toNat with | 0 => .fls | 1 => .tru | _ => .pending)
      else if c.w.getS u.a.toNat = 0 then .fls else .tru
    if c.w.sect.isSome then s
    else if (c.w.slotOf k).bound ≠ 0 then s.groupFault c cIRREVOCABLE
    else s.setGuard c.u k ⟨v, 0⟩

/-- `gbind`. -/
def execGbind (u : UOps) (s : State) : Out :=
  word' (.gbind u) s fun s c =>
    let k := u.d.toNat
    if c.w.sect.isSome then s
    else match s.outermost c.w with
      | none => s.groupFault c cNESTING
      | some l =>
        if (c.w.slotOf k).bound ≠ 0 then s else s.setGuard c.u k ⟨.pending, if l = 0 then 1 else 2⟩

/-- `rfence`. -/
def execRfence (u : UOps) (s : State) : Out :=
  word' (.rfence u) s fun s c => if c.w.sect.isSome then s else s.modCore c.w.core fun k => { k with recs := [] }

end Sys2Proof.Machine
end

