-- ==== Sys2Proof/Machine/Copy.lean ====
section
/-!
DEFINITION. What the copy engine does (spec/12_engines_and_promises.md, R285 to R291), the schedule of held commands
(R289) and the completion of commands (R291, R293).
-/
namespace Sys2Proof.Machine

/-! ### Elements -/

/-- The indices of element n: dimension 0 varies fastest. -/
def digits : List Nat → Nat → List Nat
  | [], _ => []
  | e :: t, n => n % e :: digits t (n / e)

/-- All elements in index order. -/
def Tensor.all (t : Tensor) : List (List Nat) := (List.range t.count).map (digits t.ext)

/-- The bit address of an element. -/
def Tensor.bit (t : Tensor) (idx : List Nat) : Nat := (8 * (t.base : Int) + (t.width : Int) * t.offset idx).toNat

/-- The addresses of an element's bytes. -/
def Tensor.vas (t : Tensor) (idx : List Nat) : List Nat :=
  (List.range ((t.width + 7) / 8)).map fun i => t.bit idx / 8 + i

/-- The element's value, given its bytes. -/
def Tensor.value (t : Tensor) (idx : List Nat) (bs : List Byte) : Nat :=
  numOf bs / 2 ^ (t.bit idx % 8) % 2 ^ t.width

/-- The bits of a value that an element of the tensor takes: of e3m2, bits 7:6 are written as zero (R57). -/
def Tensor.stored (t : Tensor) (v : Nat) : Nat := if t.fmt = .e3m2 then v % 64 else v % 2 ^ t.width

/-- The element's bytes with a value put in. -/
def Tensor.withValue (t : Tensor) (idx : List Nat) (old : List Byte) (v : Nat) : List Byte :=
  let x := numOf old
  let sh := t.bit idx % 8
  bytesOf (x - x / 2 ^ sh % 2 ^ t.width * 2 ^ sh + t.stored v * 2 ^ sh) old.length

/-! ### An engine's accesses (R287) -/

/-- The check of one byte: of its capability, then of its page. -/
def State.engByte (s : State) (core port perms kind space : Nat) (cap : Cap) (va : Nat) : Except Nat TlbEntry :=
  match capCheck cap va 1 perms space with
  | some c => .error c
  | none => match s.lookup core port va with
    | .error c => .error c
    | .ok e => match permitted true kind e.pte with
      | some c => .error c
      | none => .ok e

/-- The checks of bytes read, in order; the places, or the first failure. A byte on a line whose cork fails is not used
(R410). -/
def State.engReads (s : State) (core port : Nat) (cap : Cap) : List Nat → Except Nat (List (Nat × TlbEntry))
  | [] => .ok []
  | va :: t => match s.engByte core port pLOAD 0 0 cap va with
    | .error c => .error c
    | .ok e =>
      if s.badAt (if e.swm then some (dieOf core) else none) (e.key va) 1 then .error cCORK
      else match s.engReads core port cap t with
        | .error c => .error c
        | .ok l => .ok ((va, e) :: l)

/-- The checks of bytes written. -/
def State.engWrites (s : State) (core port : Nat) (cap : Cap) : List Nat → Except Nat (List (Nat × TlbEntry))
  | [] => .ok []
  | va :: t => match s.engByte core port pSTORE 1 0 cap va with
    | .error c => .error c
    | .ok e => match s.engWrites core port cap t with
      | .error c => .error c
      | .ok l => .ok ((va, e) :: l)

/-- The line of memory, or of a die's copy, that an agent of a die reads and writes at a place (R171). -/
def State.lineOf (s : State) (die : Nat) (x : Nat × TlbEntry) : Nat :=
  s.lineRead (if x.2.swm then some die else none) (x.2.key x.1 / 64)

/-- The places cover the line. -/
def State.coversLine (s : State) (die : Nat) (ws : List (Nat × TlbEntry)) (line : Nat) : Bool :=
  (List.range 64).all fun i => ws.any fun x => s.lineOf die x == line && x.2.key x.1 % 64 == i

/-- A write of part of a line merges with the rest: where the old cork of one does not match, the write is not sound (R410). -/
def State.mergeFails (s : State) (die : Nat) (ws : List (Nat × TlbEntry)) : Bool :=
  s.bad.any fun l => ws.any (fun x => s.lineOf die x == l) && !s.coversLine die ws l

/-- Lines written whole carry new corks (R410). -/
def State.recork (s : State) (die : Nat) (ws : List (Nat × TlbEntry)) : State :=
  { s with bad := s.bad.filter fun l => !s.coversLine die ws l }

/-- The byte at an address that passed. -/
def State.engGet (s : State) (core port va : Nat) : Byte :=
  match s.lookup core port va with
  | .ok e => s.byteAt (if e.swm then some (dieOf core) else none) (e.key va)
  | .error _ => 0

/-- A byte written at an address that passed: an untested write (Table 9.1). -/
def State.engPut (s : State) (core port va : Nat) (b : Byte) : State :=
  match s.lookup core port va with
  | .ok e => s.write none false (if e.swm then some (dieOf core) else none) (e.key va) [b]
  | .error _ => s

/-- Bytes written from an address on. -/
def State.engPuts (s : State) (core port : Nat) : Nat → List Byte → State
  | _, [] => s
  | va, b :: t => (s.engPut core port va b).engPuts core port (va + 1) t

/-- The bytes of an element. -/
def State.engElem (s : State) (core port : Nat) (t : Tensor) (idx : List Nat) : Nat :=
  t.value idx ((t.vas idx).map (s.engGet core port))

/-- An element written. -/
def State.engSet (s : State) (core port : Nat) (t : Tensor) (idx : List Nat) (v : Nat) : State :=
  let vas := t.vas idx
  s.engPuts core port (t.bit idx / 8) (t.withValue idx (vas.map (s.engGet core port)) v)

/-! ### What a command writes -/

/-- One element to be written: where, what, and the addresses its value comes from. -/
structure Put where
  t    : Tensor
  idx  : List Nat
  val  : Nat
  from_ : List Nat

/-- A command's work: the bytes it reads and writes with their capabilities, its elements, its flags, and the elements
whose source is an abandoned f32. -/
structure Job where
  reads  : List (Cap × List Nat)
  writes : List (Cap × List Nat)
  puts   : List Put
  flags  : List Nat
  fault  : Option Nat

/-- Bytes of all elements. -/
def Tensor.span (t : Tensor) : List Nat := t.all.flatMap t.vas

/-- TCOPY. -/
def State.jobTcopy (s : State) (c : Cmd) : Option Job := do
  let a ← Tensor.parse c.srec false
  let b ← Tensor.parse c.drec false
  if a.code = b.code ∧ a.un = b.un ∧ a.count = b.count then
    some ⟨[(c.scap, a.span)], [(c.dcap, b.span)],
      (a.all.zip b.all).map fun (i, j) => ⟨b, j, s.engElem c.core c.port a i, a.vas i⟩, [], none⟩
  else none

/-- FILL. -/
def State.jobFill (_ : State) (c : Cmd) : Option Job := do
  let b ← Tensor.parse c.drec false
  some ⟨[], [(c.dcap, b.span)], b.all.map fun j => ⟨b, j, cPAT c.words % 2 ^ b.width, []⟩, [], none⟩

/-- RGATHER: a row beyond the source is written with zeros. -/
def State.jobRgather (s : State) (c : Cmd) : Option Job := do
  let a ← Tensor.parse c.srec false
  let b ← Tensor.parse c.drec false
  let x ← Tensor.parse c.xrec false
  let n := fun (t : Tensor) (k : Nat) => t.ext.getD k 0
  if a.ext.length = 2 ∧ b.ext.length = 2 ∧ x.ext.length = 1 ∧ x.code = 8 ∧ a.code = b.code ∧ a.un = b.un ∧
      n b 0 = n a 0 ∧ n b 1 = n x 0 then
    let row : Nat → Option Nat := fun j =>
      let v := s.engElem c.core c.port x [j]
      let i : Int := if x.un then (v : Int) else signExt v 32
      if i < 0 ∨ i ≥ (n a 1 : Int) then none else some i.toNat
    let rows := (List.range (n b 1)).filterMap row
    let cols := List.range (n a 0)
    let put : List Nat → Put := fun j => match row (j.getD 1 0) with
      | some i => ⟨b, j, s.engElem c.core c.port a [j.getD 0 0, i], x.vas [j.getD 1 0] ++ a.vas [j.getD 0 0, i]⟩
      | none => ⟨b, j, 0, x.vas [j.getD 1 0]⟩
    some ⟨[(c.xcap, x.span), (c.scap, rows.flatMap fun i => cols.flatMap fun k => a.vas [k, i])],
      [(c.dcap, b.span)], b.all.map put, [], none⟩
  else none

/-- The greater of two magnitudes; a NaN or an infinity before any number (R286). -/
def maxMag (a b : FV) : FV :=
  if a.isNaN || (a.isInf && !b.isNaN) then a
  else if b.isNaN || b.isInf then b
  else if Dy.lt a.dy.abs b.dy.abs then b else a

/-- One element of a scaled conversion (R286): the result and the flags. -/
def convScaled (tgt : Fmt) (mode : RMode) (k : Nat) (v : FV) : Res :=
  if k = 255 then (if tgt.hasNaN then tgt.qnan else 0, fNV)
  else match v with
    | .fin neg m e =>
      let r := Fmt.round tgt mode neg m (e + 127 - (k : Int)) false
      (tgt.satBits r.1, r.2)
    | _ => (if tgt.hasNaN then tgt.qnan else 0, fNV)

/-- The block of an element, as an index of the scale record. -/
def blockOf (idx : List Nat) : List Nat :=
  match idx with
  | [] => []
  | i :: t => i / 32 :: t

/-- CCOPY (R286). -/
def State.jobCcopy (s : State) (c : Cmd) : Option Job := do
  let a ← Tensor.parse c.srec false
  let b ← Tensor.parse c.drec false
  let mode := RMode.ofCode (cRM c.words)
  let val : List Nat → Nat := s.engElem c.core c.port a
  let fault : Option Nat := if a.code = 0 && a.all.any (fun i => isAbandoned (BitVec.ofNat 32 (val i))) then some cABANDONED else none
  if a.ext ≠ b.ext then none
  else if cSCG c.words then
    let x ← Tensor.parse c.xrec true
    if b.code = 0 ∨ b.code > 6 ∨ x.code ≠ 14 ∨ x.ext ≠ ((a.ext.getD 0 0 + 31) / 32 :: a.ext.drop 1) then none
    else
      let members : List Nat → List (List Nat) := fun blk => a.all.filter fun i => blockOf i == blk
      let scale : List Nat → Nat × Nat := fun blk =>
        scaleOfV b.fmt (cUP c.words) ((members blk).foldl (fun m i => maxMag m (a.fmt.value (val i))) (.fin false 0 0))
      let conv : List Nat → Res := fun i => convScaled b.fmt mode (scale (blockOf i)).1 (a.fmt.value (val i))
      some ⟨[(c.scap, a.span)], [(c.dcap, b.span), (c.xcap, x.span)],
        a.all.map (fun i => ⟨b, i, (conv i).1, a.vas i⟩) ++
          x.all.map fun k => ⟨x, k, (scale k).1, (members k).flatMap a.vas⟩,
        a.all.map (fun i => (conv i).2) ++ x.all.map fun k => (scale k).2, fault⟩
  else
    let conv : List Nat → Res := fun i => convert (val i) a.fmt b.fmt mode
    some ⟨[(c.scap, a.span)], [(c.dcap, b.span)], a.all.map (fun i => ⟨b, i, (conv i).1, a.vas i⟩),
      a.all.map (fun i => (conv i).2), fault⟩

/-! ### A command runs (R286, R287) -/

/-- Places of every byte of a list of spans, or the first failure. -/
def State.engSpans (g : Cap → List Nat → Except Nat (List (Nat × TlbEntry))) :
    List (Cap × List Nat) → Except Nat (List (Nat × TlbEntry))
  | [] => .ok []
  | (c, vas) :: t => match g c vas, State.engSpans g t with
    | .error e, _ => .error e
    | .ok _, .error e => .error e
    | .ok a, .ok b => .ok (a ++ b)

/-- A list's element by an open number. -/
def openPick (xs : List Nat) (d ctr : Nat) : Nat := xs.getD ((Config.freeWord ctr).toNat % max 1 xs.length) d

/-- The elements written one after another. `both` holds the storage that the command reads and writes: an element that
meets it holds its old contents or a value the command writes; with `free` each element may keep its old contents. -/
def State.engWriteAll (s0 : State) (c : Cmd) (both : List Nat) (free : Bool) (vals : List Nat) : List Put → State → State
  | [], s => s
  | p :: t, s =>
    let keyOf : Nat → List Nat := fun va => match s0.lookup c.core c.port va with
      | .ok e => [e.key va]
      | .error _ => []
    let meets := ((p.t.vas p.idx ++ p.from_).flatMap keyOf).any both.contains
    let old := s0.engElem c.core c.port p.t p.idx
    let v := if free then (if Config.freeBit s.ctr then p.val else old)
      else if meets then openPick (p.val :: old :: vals) p.val s.ctr
      else p.val
    let s1 := if free || meets then { s with ctr := s.ctr + 1 } else s
    s0.engWriteAll c both free vals t (s1.engSet c.core c.port p.t p.idx v)

/-- The outcome of a command: it waits for a page, fails, or is done with its flags. -/
inductive JobEnd where
  | waits
  | fails (code : Nat)
  | done (s : State) (flags : Word) (fault : Option Nat)

/-- A job checked and done. -/
def State.runJob (s : State) (c : Cmd) (j : Option Job) : JobEnd :=
  match j with
  | none => .fails cTILE
  | some j =>
    match State.engSpans (s.engReads c.core c.port) j.reads, State.engSpans (s.engWrites c.core c.port) j.writes with
    | .error e, _ => if e = cNOTPRESENT then .waits else .fails e
    | .ok _, .error e => if e = cNOTPRESENT then .waits else .fails e
    | .ok rs, .ok ws => if s.mergeFails (dieOf c.core) ws then .fails cCORK else
      let s1 := rs.foldl (fun s (va, e) =>
        (s.claim c.core va false e).hold (if e.swm then some (dieOf c.core) else none) (e.key va)) s
      let s2 := ws.foldl (fun s (va, e) => s.claim c.core va true e) s1
      let rk := rs.map fun (va, e) => e.key va
      let both := (ws.map fun (va, e) => e.key va).filter rk.contains
      let s3 := s2.engWriteAll c both j.fault.isSome (j.puts.map fun p => p.val) j.puts s2
      .done (s3.recork (dieOf c.core) ws) (BitVec.ofNat 32 (j.flags.foldl (· ||| ·) 0)) j.fault

/-- The addresses RGATHER's rows come from are known only once its indices may be read. -/
def State.gatherReady (s : State) (c : Cmd) : JobEnd :=
  match Tensor.parse c.xrec false with
  | none => .fails cTILE
  | some x => match s.engReads c.core c.port c.xcap x.span with
    | .error e => if e = cNOTPRESENT then .waits else .fails e
    | .ok _ => s.runJob c (s.jobRgather c)

/-- Every earlier command of the wave and class has moved its data (R291). -/
def State.inTurn (s : State) (id : Nat) (c : Cmd) : Bool :=
  (s.cmdsOf c.wave c.eng.cls).all fun (k, d) => decide (k ≥ id) || d.stage == .moved || d.stage == .complete

/-- A command's transfer: one step of the engine; none where it is not its turn, or where it waits for a page. -/
def State.transfer (s : State) (id kind : Nat) (run : State → Cmd → JobEnd) : Option State :=
  match fget s.cmds id with
  | none => none
  | some c =>
    let put : State → Option Nat → Word → State := fun s f fl =>
      { s with cmds := fmod s.cmds id fun c => { c with stage := .moved, fault := f, flags := fl } }
    if cKIND c.words ≠ kind ∨ c.stage ≠ .queued ∨ !s.inTurn id c then none
    else match c.fault with
      | some f => some (put s (some f) 0)
      | none => match run s c with
        | .waits => none
        | .fails f => some (put s (some f) 0)
        | .done s1 fl f => some (put s1 f fl)

/-- The transfer of each kind. -/
def State.copied (s : State) (id kind : Nat) : Option State :=
  s.transfer id kind fun s c =>
    if kind = kTCOPY then s.runJob c (s.jobTcopy c)
    else if kind = kFILL then s.runJob c (s.jobFill c)
    else if kind = kCCOPY then s.runJob c (s.jobCcopy c)
    else s.gatherReady c

def execTcopy (cmd : Nat) (s : State) : Out := happens s (s.copied cmd kTCOPY)
def execFill (cmd : Nat) (s : State) : Out := happens s (s.copied cmd kFILL)
def execCcopy (cmd : Nat) (s : State) : Out := happens s (s.copied cmd kCCOPY)
def execRgather (cmd : Nat) (s : State) : Out := happens s (s.copied cmd kRGATHER)

/-- HELD_COMMAND_SCHEDULE (R289), from the clk A′ on at which the engine knows the command. -/
def execHeldCommandSchedule (cmd : Nat) (s : State) : Out :=
  match fget s.cmds cmd with
  | none => .next s
  | some c => match c.resolved with
    | none => .next s
    | some ok => event s (c.stage == .held && s.headHeld cmd c && decide (c.learn ≤ s.clk)) (s.unhold cmd c ok)

/-! ### Completion (R286, R291, R293) -/

/-- A command complete: flags, an unreported failure, the counter. A put that still has a packet unacknowledged is not
complete (R395). A command stays known, with its promise, while its wave counts it (R294, R300). -/
def State.completed (s : State) (id : Nat) : Option State :=
  match fget s.cmds id with
  | none => none
  | some c =>
    if c.stage == .moved && !s.packets.any fun (_, (p : Packet)) => p.pkt.kind == 4 && p.op == c.op then
      let s1 : State := { s with cmds := fmod s.cmds id fun c => { c with stage := .complete } }
      let s2 := s1.modAny c.wave fun w =>
        { (w.mapMask c.lanes fun _ t => { t with fflags := t.fflags ||| (c.flags &&& fflagsMask) }) with
          fails := match c.fault with
            | some f => w.fails ++ [w.failed c.op c.eng.cls f (cKIND c.words)]
            | none => w.fails }
      some (s2.partDone c.wave c.op)
    else none

/-- COMMAND_COMPLETE. -/
def execCommandComplete (cmd : Nat) (s : State) : Out := happens s (s.completed cmd)

end Sys2Proof.Machine
end

