-- ==== Sys2Proof/Machine/Fabric.lean ====
section
/-!
DEFINITION. The fabric class (spec/16_fabric_and_blends.md, R377 to R392): blends, streams and paths, and the instructions.
-/
namespace Sys2Proof.Machine

/-! ### Blends (R377, R379) -/

/-- Entry states of Table 16.1. -/
def eLIVE : Nat := 1
def eDEAD : Nat := 2
def eJOINING : Nat := 3

/-- The blend of a port function and its own member index. -/
def State.blendOf (s : State) (port : Nat) : Option (Nat × Blend × Nat) :=
  match (s.port port).blend with
  | some (n, self) => (fget s.blends n).map fun b => (n, b, self)
  | none => none

/-- The state of a member's entry. -/
def Blend.st (b : Blend) (m : Nat) : Nat := bfld (rget b.ents m) 31 30

/-- The members in a state, ascending. -/
def Blend.inState (b : Blend) (st : Nat) : List Nat := (List.range b.size).filter fun m => b.st m == st

/-- The member can be named: it is LIVE in the blend of the function (R379). -/
def State.memberLive (s : State) (port m : Nat) : Bool :=
  match s.blendOf port with
  | some (_, b, _) => decide (m < b.size) && b.st m == eLIVE
  | none => false

/-! ### Streams and paths (R380, R381) -/

/-- The packet belongs to a write word, and counts in its stream. -/
def pktWrite (p : ForeignPacket) : Bool := p.kind == 0 || p.kind == 2 || p.kind == 3

/-- Two packets of one stream: members are numbered within the blend of the function they come to. -/
def sameStream (p q : ForeignPacket) : Bool :=
  p.port == q.port && p.member == q.member && p.core == q.core && p.ctx == q.ctx && p.epoch == q.epoch

/-- Sector of a packet. -/
def pktSector (p : ForeignPacket) : Nat :=
  match p.lanes with
  | (_, va, _) :: _ => va.toNat / 64
  | [] => 0

/-- A member of a blend, as `State.paths` and `State.windows` are keyed. -/
def memberKey (blend m : Nat) : Nat := 4096 * blend + m

/-- The number of paths enabled to a member: one to four (R381). -/
def State.pathCount (s : State) (blend m : Nat) : Nat := max 1 (min 4 ((fget s.paths (memberKey blend m)).getD 1))

/-- The emptiest path of a die's engine to a member, the lowest number winning a tie. -/
def State.emptiest (s : State) (die blend m : Nat) : Nat :=
  let load := fun (k : Nat) => (s.packets.filter fun (_, (p : Packet)) =>
    p.die == die && p.blend == blend && p.member == m && p.pkt.path == k).length
  (List.range (s.pathCount blend m)).foldl (fun b k => if load k < load b then k else b) 0

/-- The path of a new packet of a wave's stream: that of an unacknowledged one to its sector, else the emptiest. -/
def State.choosePath (s : State) (u die blend m sector : Nat) : Nat :=
  let same := s.packets.filter fun (_, (p : Packet)) =>
    p.wave == u && p.blend == blend && p.member == m && p.pkt.kind != 4 && pktSector p.pkt == sector
  match same with
  | (_, p) :: _ => p.pkt.path
  | [] => s.emptiest die blend m

/-- Unacknowledged packets that a die's engine holds: at most 8,192 (R383). -/
def State.dieLoad (s : State) (die : Nat) : Nat := (s.packets.filter fun (_, (p : Packet)) => p.die == die).length

/-- Data bytes at one entry of a packet. -/
def entryBytes (p : ForeignPacket) (l : Nat) : Nat := if p.kind = 4 ∧ l ≠ 3 then 1 else p.size

/-- Bytes of a packet that its path's rate window counts: the data it carries or asks for (log entry 123). -/
def pktBytes (p : ForeignPacket) : Nat := (p.lanes.map fun x => entryBytes p x.1).foldl (· + ·) 0

/-- The rate window of a path: never less than 4 KiB (R383). -/
def State.window (s : State) (blend m path : Nat) : Nat := max 4096 ((fget s.windows (4 * memberKey blend m + path)).getD 4096)

/-- The packet has left: with the packets before it on its path that are unacknowledged it fits the path's window. -/
def State.left (s : State) (id : Nat) (p : Packet) : Bool :=
  let before := s.packets.filter fun (k, (q : Packet)) =>
    decide (k < id) && q.blend == p.blend && q.member == p.member && q.pkt.path == p.pkt.path
  decide ((before.map fun x => pktBytes x.2.pkt).foldl (· + ·) (pktBytes p.pkt) ≤ s.window p.blend p.member p.pkt.path)

/-- The sent count of a wave's stream to a member on a path. -/
def Wave.sentOn (w : Wave) (m k : Nat) : Nat := (fget w.sent (4 * m + k)).getD 0

/-- A packet sent: it carries the count of its path, which then rises. -/
def State.sendPacket (s : State) (u die m blend op dst : Nat) (sext : Bool) (pkt : ForeignPacket)
    (pc : DWord) : State :=
  let k := s.choosePath u die blend m (pktSector pkt)
  let seq := match s.wave u with
    | some w => if pktWrite pkt then w.sentOn m k else 0
    | none => 0
  let (id, s1) := s.fresh
  let s2 : State := { s1 with packets := fset s1.packets id ⟨u, die, m, blend, op, seq, dst, sext, { pkt with path := k }, none, pc⟩ }
  if pktWrite pkt then s2.modWave u fun w => { w with sent := fset w.sent (4 * m + k) ((w.sentOn m k + 1) % 2 ^ 32) } else s2

/-! ### The four access words (R386 to R388) -/

/-- A lane that passed its checks. -/
structure FabHit where
  lane : Nat
  t    : Thread
  va   : DWord
  mem  : Nat

/-- The checks of R387 of one lane. -/
def State.fabCheck (s : State) (c : Ctx) (m : MOps) (size perms : Nat) (abandoned : Bool) (l : Nat) (t : Thread) :
    Except (Nat × DWord) FabHit :=
  let va := addrOf m c.w t
  let cap := capOf m c.w t
  if abandoned then .error (cABANDONED, 0)
  else match capCheck cap va.toNat size perms 2 with
    | some e => .error (e, va)
    | none =>
      if va.toNat % size ≠ 0 then .error (cMISALIGNED, va)
      else if !s.memberLive c.w.port cap.member then .error (cMEMBERDEAD, 0)
      else .ok ⟨l, t, va, cap.member⟩

/-- The packets of a word's lanes, in ascending address order: by sector and member. -/
def groupPackets (hs : List FabHit) : List (List FabHit) :=
  let key := fun (h : FabHit) => h.va.toNat / 64 * 4096 + h.mem
  (hs.foldl (fun l h => sinsert l (key h)) []).map fun k => hs.filter fun h => key h == k

/-- What a fabric word sends: kind, operation, size, extension, order, and the operand of a lane. -/
structure FabWord where
  kind : Nat
  opk  : Nat
  size : Nat
  sext : Bool
  perms : Nat
  ordered : Bool
  val  : Thread → QWord
  abandoned : Thread → Bool

/-- The packet of some lanes. -/
def State.packetOf (s : State) (c : Ctx) (f : FabWord) (sys : Bool) (counts : Option (List Nat)) (hs : List FabHit) : ForeignPacket where
  member := match s.blendOf c.w.port with
    | some (_, _, self) => self
    | none => 0
  core := c.w.core
  ctx := c.w.ctx
  epoch := c.w.epoch
  path := 0
  port := c.w.port
  kind := f.kind
  opk := f.opk
  size := f.size
  sys := sys
  counts := counts
  lanes := hs.map fun h => (h.lane, h.va, f.val h.t)

/-- A fabric word: held while its die holds too many unacknowledged packets (R383) or 1,023 words are outstanding; a word
with RS = .sys releases the thread's earlier local accesses first (R385). -/
def State.fabWord (s : State) (c : Ctx) (m : MOps) (f : FabWord) : Option State :=
  let die := dieOf c.w.core
  let sys := bfld m.mod 6 5 == 3
  if s.inRegion c.w then some (s.actingFault c m.g cIRREVOCABLE)
  else
    let rs := (c.acting m.g).map fun (l, t) => (l, s.fabCheck c m f.size f.perms (f.abandoned t) l t)
    let hs := rs.filterMap fun (_, r) => r.toOption
    let fs := rs.filterMap fun (l, r) => match r with
      | .ok _ => none
      | .error (e, va) => some (l, e, va)
    let gs := groupPackets hs
    if decide (s.dieLoad die + gs.length > 8192) || decide (c.w.oc 2 ≥ 1023) || (sys && !s.quiet c.u c.mask) then none
    else
      let s1 := if sys then s.releaseBy c.w else s
      let (op, s2) := s1.fresh
      let blend := match s.blendOf c.w.port with
        | some (n, _, _) => n
        | none => 0
      let s3 := if gs.isEmpty then s2 else s2.modWave c.u fun w => w.opBegin op 2 gs.length
      let s4 := gs.foldl (fun s0 g =>
        let mem := (g.map fun h => h.mem).headD 0
        let counts := if f.ordered then some ((List.range 4).map fun k => c.w.sentOn mem k) else none
        s0.sendPacket c.u die mem blend op m.data.toNat f.sext (s.packetOf c f sys counts g) c.pc) s3
      let s5 := if sys && f.kind == 1 then s4.launchAccess c (.fence true false) c.mask 3 false [] else s4
      some (s5.laneFaults c 0 fs)

/-- `fst`. -/
def execFst (m : MOps) (s : State) : Out :=
  word (.fst m) s fun s c =>
    let n := szBytes (szM m)
    s.fabWord c m ⟨0, 0, n, false, pSTORE, false, fun t => t.dataOf m.data.toNat n, fun _ => false⟩

/-- `fld`. -/
def execFld (m : MOps) (s : State) : Out :=
  word (.fld m) s fun s c =>
    s.fabWord c m ⟨1, 0, szBytes (szM m), szSigned (szM m), pLOAD, false, fun _ => 0, fun _ => false⟩

/-- `fatom`. -/
def execFatom (m : MOps) (s : State) : Out :=
  word (.fatom m) s fun s c =>
    let d := m.data.toNat
    s.fabWord c m ⟨2, opkA m, aBytes m, false, pLOAD ||| pSTORE ||| pATOMIC, false, fun t => t.dataOf d (aBytes m),
      fun t => opkFloat (opkA m) && isAbandoned (t.getV d)⟩

/-- `fflag`: SZ in bit 0, O in bit 4. -/
def execFflag (m : MOps) (s : State) : Out :=
  word (.fflag m) s fun s c =>
    let n := if bfld m.mod 0 0 = 1 then 8 else 4
    s.fabWord c m ⟨3, 0, n, false, pSTORE, bfld m.mod 4 4 == 1, fun t => t.dataOf m.data.toNat n, fun _ => false⟩

/-! ### ffence and blstat (R385, R389, R390, R392) -/

/-- A write packet of the wave issued before packet number n is unacknowledged. -/
def State.abroad (s : State) (u n : Nat) : Bool :=
  s.packets.any fun (id, (p : Packet)) => decide (id < n) && p.wave == u && pktWrite p.pkt

/-- The oldest failed fabric word issued before a number. -/
def Wave.packetFailure (w : Wave) (n : Nat) : Option Failure :=
  let fs := w.fails.filter fun f => f.cls == 2 && decide (f.kind ≥ 0x80) && decide (f.op < n)
  fs.foldl (fun (b : Option Failure) f => match b with
    | some g => if f.op < g.op then some f else some g
    | none => some f) none

/-- `ffence`: held until the thread's earlier local accesses are performed; then it waits for the write packets. -/
def execFfence (u : UOps) (s : State) : Out :=
  word (.ffence u) s fun s c =>
    if !s.quiet c.u c.mask then none
    else
      let s1 := s.releaseBy c.w
      if s.abroad c.u s.nextId then
        some (s1.modWave c.u fun w => w.mapMask c.mask fun _ t => { t with wait := .ffence s.nextId c.mask })
      else match c.w.packetFailure s.nextId with
        | some f => some (s1.reportFailure c.u c.mask f c.pc)
        | none => some s1

/-- Bytes of an entry of a racking log (R402). -/
def LogEntry.bytes : LogEntry → Nat
  | .coll r => 64 + (1088 + (r.elems.length * ((Fmt.ofCode (r.fmt % 16) false).map Fmt.width).getD 8 + 7) / 8 + 63) / 64 * 64
  | .member _ _ _ => 64
  | .mark _ _ _ => 64

/-- Bytes in use in a log. -/
def logBytes (l : List LogEntry) : Nat := (l.map LogEntry.bytes).foldl (· + ·) 0

/-- The value of a `blstat` (R390). -/
def State.blendFact (s : State) (port kind a : Nat) : Nat :=
  match s.blendOf port with
  | none => if kind = 0 then 0xFFFFFFFF else 0
  | some (_, b, self) =>
    match kind with
    | 0 => self
    | 1 => b.gen
    | 2 => if a ≥ b.size then 0 else (rget b.ents a).toNat
    | 3 => b.size
    | 4 => (b.inState eLIVE).length
    | _ => logBytes (s.port port).log / 64

/-- `blstat`. -/
def execBlstat (u : UOps) (s : State) : Out :=
  word' (.blstat u) s fun s c =>
    let x := s.blendFact c.w.port (bfld u.mod 2 0) (c.w.getS u.a.toNat).toNat
    s.modWave c.u fun w => w.setS u.d.toNat (BitVec.ofNat 32 x)

end Sys2Proof.Machine
end

