-- ==== Sys2Proof/Machine/Homes.lean ====
section
/-!
DEFINITION. What homes, L-cores and ship ports do (spec/10_shipped_sections.md, R253, R255, R259 to R268, R272, R275).
-/
namespace Sys2Proof.Machine

/-! ### Answers and replies (R266 to R268) -/

/-- The part of an operation whose slot is free already ends with nothing delivered (R115, R268, R278). -/
def State.endPart (s : State) (u op lane : Nat) : State :=
  (s.modAny u fun w => { w with abroad := w.abroad.filter fun (o, l, _) => !(o == op && l == lane) }).partDone u op

/-- The answer to a `shipt`: its promise, or a refusal, which frees the slot. -/
def State.answer (s : State) (q : Req) (p : Option DWord) : State :=
  match s.slotOf q with
  | none => match p with
    | some _ => s
    -- refused after the wave is gone: the part of its operation that this lane was
    | none => if q.member.isSome then s else s.endPart q.wave q.op q.lane
  | some r =>
    let put := fun (s : State) (x : Word) =>
      s.wakeAny q.wave q.lane fun t => if t.wait = .shipt (slotKey q.core q.slot) then
        { (t.setV r.dst x) with wait := .none } else t
    match p with
    | some p => put (s.setSlot q.core q.slot { r with p := p, answered := true }) (token r.gen q.slot)
    | none => ((put s 0).freeSlot q.core q.slot).partDone q.wave q.op

/-- A reply at its sender's port: of a `ship` into the waiting thread, or as a fault at its word; of a `shipt` into the slot;
of a `shipp` the slot is freed. A wave that has exited gets nothing. -/
def State.shipReply (s : State) (x : Reply) : State :=
  let q := x.req
  let s0 := if q.member.isSome then s else s.partDone q.wave q.op
  let key := slotKey q.core q.slot
  match s.slotOf q with
  | none => s0
  | some r =>
    if r.mode = 0 then
      let s1 := (s0.freeSlot q.core q.slot).wakeAny q.wave q.lane fun t =>
        let t1 := { t with fflags := t.fflags ||| (x.flags &&& fflagsMask), wait := .none }
        if x.status = 0 then t1.deliver r.dst (min x.k r.na) x.regs x.tags else t1
      if x.status = 0 then s1
      else s1.onWave q.wave fun s => match (s.wave q.wave).bind fun w => w.th q.lane with
        | some t => s.takeFaults q.wave [⟨q.lane, x.status, 0, x.det, pc56 (t.pc - 8)⟩] none false
        | none => s
    else if r.mode = 1 then
      let s1 := s0.setSlot q.core q.slot { r with
        st := .replied, status := x.status, det := x.det, k := x.k, regs := x.regs, tags := x.tags, flags := x.flags }
      s1.wakeAny q.wave q.lane fun t => match t.wait with
        | .shwait k _ => if k = key then { t with wait := .none } else t
        | _ => t
    else s0.freeSlot q.core q.slot

/-- A request returned with HOME_LOST: the event of R264, a valid token for a `shipt` (R253), and the reply. -/
def State.returnLost (s : State) (lcore : Nat) (q : Req) : State :=
  let s1 := s.sectionEvent lcore q 2 cHOMELOST
  let s2 := if q.mode = 1 then s1.answer q (some s1.clk) else s1
  s2.reply q cHOMELOST 0 0 [] [] 0

/-! ### Acceptance (R253, R260, R266) -/

/-- Two requests name one lock (R250). -/
def sameLock (a b : Req) : Bool := a.port == b.port && a.lock == b.lock

/-- The sections of an L-core, running, suspended or waiting in their context. -/
def State.sectionsOn (s : State) (lcore : Nat) : List Section :=
  s.waves.filterMap fun (_, (w : Wave)) => match w.sect with
    | some c => if c.lcore = lcore then some c else none
    | none => none

/-- What is left of a running section's budget, as an integer. -/
def State.budgetLeft (s : State) (c : Section) : Int := (budget c.req.cc : Int) - ((s.clk - c.start).toNat : Int)

/-- P - A of R266. -/
def State.promiseSpan (s : State) (lcore : Nat) (q : Req) : Nat :=
  let secs := s.sectionsOn lcore
  let queued := (((s.lcore lcore).queue.filter (sameLock q)).map fun r => budget r.cc).foldl (· + ·) 0
  let suspended := ((secs.filter fun c => sameLock q c.req && c.suspended).map fun c => budget c.req.cc).foldl (· + ·) 0
  let running := ((secs.filter fun c => sameLock q c.req && !c.suspended).map fun c => (s.budgetLeft c).toNat).foldl (· + ·) 0
  let busy := secs.filter fun c => !c.suspended
  let blocked := match busy.map fun c => (s.budgetLeft c).toNat with
    | a :: t => if decide (busy.length ≥ 4) && busy.all (fun c => !sameLock q c.req) then t.foldl min a else 0
    | [] => 0
  let back := if q.member.isSome then 4096 + 29 else if dieOf q.core = lcore / 16 then 64 else 128
  queued + suspended + running + blocked + budget q.cc + back

/-- A request accepted: queued, unless it is a `shipt` whose promise would exceed the horizon. -/
def State.acceptReq (s : State) (lcore : Nat) (q : Req) : State :=
  let d := s.promiseSpan lcore q
  let p := s.clk + BitVec.ofNat 64 d
  let put := fun (s : State) (q : Req) => s.modLCore lcore fun l => { l with queue := l.queue ++ [q] }
  if q.mode ≠ 1 then put s { q with accepted := s.clk }
  else if d > (s.lcore lcore).horizon then s.answer q none
  else put (s.answer q (some p)) { q with accepted := s.clk, p := p }

/-- The L-core homes the lock of a request under the current tables (R253, R275). -/
def State.homes (s : State) (lcore : Nat) (q : Req) : Bool :=
  let e := s.homeEntry q.lockCap q.lock
  hV e && hLCORE e == lcore && (s.homeMember q.port q.lockCap e).isNone && !(s.lcore lcore).retired &&
    !(q.lockCap.global && s.departed q.port)

/-- A source's place in the order of R260 within one clk. -/
def Req.source (q : Req) : Nat :=
  match q.member with
  | some m => 2 ^ 16 * (m + 1) + q.core
  | none => q.core

/-- A whole bundle taken by a home: none where it does not fit. -/
def State.takeBundle (s : State) (lcore : Nat) (qs : List Req) : Option State :=
  let here := qs.filter (s.homes lcore)
  if (s.lcore lcore).queue.length + here.length > 256 then none
  else
    let s0 := match qs with
      | [] => s
      | q :: _ => s.took (unitHome lcore) (q.source + 1)
    some (qs.foldl (fun s1 q => if s.homes lcore q then s1.acceptReq lcore q else s1.returnLost lcore q) s0)

/-- No bundle of a later or equal place in the order was accepted at this clk. -/
def State.inOrder (s : State) (lcore : Nat) (qs : List Req) : Bool :=
  match qs with
  | [] => true
  | q :: _ => s.inPlace (unitHome lcore) q.source

/-- No earlier bundle of the wave to the same home is still at the port (R259). -/
def firstBundle (b : Bundle) : List Bundle → Bool
  | [] => true
  | x :: t => x.id == b.id || ((x.wave != b.wave || x.home != b.home || x.remote != b.remote) && firstBundle b t)

/-- A request of another member as its L-core holds it; the section's cost class is read at its entry, and is open where
that cannot be read. -/
def State.foreignReq (s : State) (lcore member : Nat) (f : ForeignRequest) : Req :=
  let ent : Cap := ⟨f.entryCap, true⟩
  let cc := match s.translateX (0x100 + lcore) f.port ent.base with
    | .ok e => sectionClass (s.wordAt (0x100 + lcore) e (BitVec.ofNat 64 ent.base))
    | .error _ => none
  { lock := f.lock
    port := f.port
    lockCap := ⟨f.lockCap, true⟩
    entryCap := ent
    args := ((List.range f.args.length).zip f.args).foldl (fun m (i, x) => rset m i x) []
    argTags := f.argTags
    na := f.args.length
    mode := f.mode
    cc := cc.getD ((Config.freeWord (s.ctr + f.lane)).toNat % 8)
    core := f.core
    ctx := f.ctx
    lane := f.lane
    wave := 0
    slot := 0
    op := 0
    member := some member
    token := f.token
    accepted := 0
    p := 0 }

/-- HOME_ACCEPT_BUNDLE: accepted whole or refused. -/
def execHomeAcceptBundle (src : BundleSrc) (s : State) : Out :=
  match src with
  | .own id => match s.bundles.find? fun b => b.id == id with
    | none => .next s
    | some b =>
      let gone := { s with bundles := s.bundles.filter fun x => x.id != id }
      event s
        (b.remote.isNone && b.refused.isNone && firstBundle b s.bundles && s.inOrder b.home b.reqs)
        ((gone.takeBundle b.home b.reqs).getD
          { s with bundles := s.bundles.map fun x => if x.id = id then { x with refused := some s.clk } else x })
  | .foreign member fs => match fs with
    | [] => .next s
    | f :: _ =>
      let qs := fs.map (s.foreignReq f.lcore member)
      event s (decide (f.lcore < Config.lCores) && (fs.all fun g => g.lcore == f.lcore) && s.inOrder f.lcore qs &&
          qs.all fun q => q.lockCap.global)
        ((State.takeBundle { s with ctr := s.ctr + 32 } f.lcore qs).getD s)
  | .remoteAnswer id answers => match s.bundles.find? fun b => b.id == id with
    | none => .next s
    | some b =>
      let gone := { s with bundles := s.bundles.filter fun x => x.id != id }
      event s (b.remote.isSome && firstBundle b s.bundles)
        ((b.reqs.zip answers).foldl (fun s (q, a) => if q.mode = 1 then s.answer q a else s) gone)

/-- BUNDLE_REOFFER (R259). -/
def execBundleReoffer (id : Nat) (s : State) : Out :=
  event s
    (s.bundles.any fun b => b.id == id && b.refused.any fun c => decide ((s.clk - c).toNat ≥ 64))
    { s with bundles := s.bundles.map fun x => if x.id = id then { x with refused := none } else x }

/-! ### Starts (R261, R263, R265) -/

/-- The contexts of an L-core that no section holds. -/
def State.freeContexts (s : State) (lcore : Nat) : List Nat :=
  [0, 1, 2, 3].filter fun k => (s.sectionsOn lcore).all fun c => c.suspended || c.ctx != k

/-- So many clk have passed since a moment, if there was one. -/
def State.since (s : State) (c : Option DWord) (n : Nat) : Bool := c.all fun c => decide ((s.clk - c).toNat ≥ n)

/-- A queued request may start: its lock is idle, and 8 clk have passed since the lock's last section. -/
def State.startable (s : State) (lcore : Nat) (before : List Req) (q : Req) : Bool :=
  before.all (fun r => !sameLock q r) && (s.sectionsOn lcore).all (fun c => !sameLock q c.req) &&
    s.since (((s.lcore lcore).lockEnd.find? fun e => e.1 == (q.port, q.lock)).map (·.2)) 8

/-- The earliest arrival that may start. -/
def State.nextStart (s : State) (lcore : Nat) : List Req → List Req → Option Req
  | _, [] => none
  | before, q :: t => if s.startable lcore before q then some q else s.nextStart lcore (before ++ [q]) t

/-- The state at section start (Table 10.4). -/
def Req.section (q : Req) (lcore ctx : Nat) (clk : DWord) : Wave :=
  let t := Thread.init (BitVec.ofNat 64 q.entryCap.base) 0
  let sender := match q.member with
    | some m => 0x8000 + m
    | none => q.core
  { Wave.init with
    ctx := ctx
    port := q.port
    vlim := 256
    slim := 1024
    threads := [(0, { t with v := q.args, qtag := q.argTags })]
    s := ((((([] : Regs 32) |> (rset · 0 (BitVec.ofNat 32 q.na))) |> (rset · 1 (BitVec.ofNat 32 sender))) |>
      (rset · 2 (BitVec.ofNat 32 q.ctx))) |> (rset · 3 (BitVec.ofNat 32 q.lane))) |> (rset · 4 (BitVec.ofNat 32 q.mode))
    c := [(0, q.lockCap), (1, q.entryCap)]
    since := clk
    sect := some ⟨lcore, ctx, q, clk, false, false, false⟩ }

/-- A suspended section that is ready goes first (R265). -/
def State.resumable (s : State) (lcore : Nat) : Bool := (s.sectionsOn lcore).any fun c => c.suspended && c.ready

/-- SECTION_START. -/
def execSectionStart (lcore : Nat) (s : State) : Out :=
  let l := s.lcore lcore
  let ctxs := (s.freeContexts lcore).filter fun k => s.since (fget l.ctxEnd k) 8
  match s.nextStart lcore [] l.queue, ctxs with
  | some q, k :: _ =>
    let (u, s1) := s.fresh
    let gone : List Req → List Req := fun qs => qs.eraseIdx ((qs.findIdx? fun r => r == q).getD qs.length)
    let s2 := s1.modLCore lcore fun l => { l with queue := gone l.queue, lastStart := some s.clk }
    event s (!s.resumable lcore && s.since l.lastStart 8) (s2.setWave u (q.section lcore k s.clk))
  | _, _ => .next s

/-- SECTION_RESUME: on the first free context; the faulting word issues again. -/
def execSectionResume (lcore u : Nat) (s : State) : Out :=
  match (s.wave u).bind fun w => w.sect, s.freeContexts lcore with
  | some c, k :: _ =>
    event s (c.lcore == lcore && c.suspended && c.ready)
      (s.modWave u fun w =>
        { (w.modTh 0 fun t => { t with wait := .none }) with
          ctx := k, since := s.clk, sect := some { c with ctx := k, suspended := false, ready := false } })
  | _, _ => .next s

/-- SECTION_OVERRUN (R255): one record; the section keeps running. -/
def State.overrun (s : State) (u : Nat) : Option State :=
  ((s.wave u).bind fun w => w.sect).bind fun c =>
    if !c.overrun && decide ((s.clk - c.start).toNat > 4 * budget c.req.cc) then
      some ((s.modWave u fun w => { w with sect := some { c with overrun := true } }).sectionEvent c.lcore c.req 0 0)
    else none

/-- SECTION_OVERRUN. -/
def execSectionOverrun (u : Nat) (s : State) : Out := happens s (s.overrun u)

/-! ### Replies and promises that pass -/

/-- The request of this package that a lane of an operation sent, from its slot. -/
def State.sentBy (s : State) (op lane : Nat) : Option (Nat × Nat × RSlot) :=
  s.cores.findSome? fun (n, (c : Core)) => (c.slots.find? fun (_, (r : RSlot)) =>
    r.st == .waiting && r.op == op && r.lane == lane).map fun (k, r) => (n, k, r)

/-- The wave whose request this was, where its exit or a kill has freed the slot. -/
def State.forsaken (s : State) (op lane : Nat) : Option Nat :=
  ((s.waves ++ s.saved).find? fun (_, (w : Wave)) => w.abroad.any fun (o, l, _) => o == op && l == lane).map Prod.fst

/-- REPLY_ARRIVE (R268). A reply to another member leaves the package; one for a wave that has exited is discarded. -/
def execReplyArrive (src : ReplySrc) (s : State) : Out :=
  match src with
  | .own id => match fget s.replies id with
    | none => .next s
    | some x =>
      let s1 := { s with replies := fdel s.replies id }
      .next (if x.req.member.isSome then s1 else s1.shipReply x)
  | .foreign op lane status det results tags flags => match s.sentBy op lane with
    | none => happens s ((s.forsaken op lane).map fun u => s.endPart u op lane)
    | some (core, n, r) =>
      let q : Req := ⟨0, 0, Cap.nil, Cap.nil, [], [], r.na, r.mode, r.cc, core, 0, lane, r.wave, n, op, none, 0, 0, 0⟩
      let regs := ((List.range results.length).zip results).foldl (fun m (i, x) => rset m i x) []
      -- a token stands before its reply (R253)
      let s1 := if r.mode = 1 && !r.answered then s.answer q (some s.clk) else s
      .next (s1.shipReply ⟨q, status, det, results.length, regs, tags, flags⟩)

/-- A `shwait` whose promise has passed (R272): P of the slot is renewed, LATE raised at the word. -/
def State.shwaitLate (s : State) (u lane : Nat) : Option State :=
  match s.waitOf u lane, (s.wave u).bind fun w => w.th lane with
  | .shwait key nl, some t =>
    let r := s.slot (key / 4096) (key % 4096)
    let s1 := s.setSlot (key / 4096) (key % 4096) { r with p := s.clk + BitVec.ofNat 64 (budget r.cc) }
    let s2 := s1.wakeAny u lane fun t => { t with wait := .none }
    if !nl && decide (t.deadline ≤ s.clk) then some (s2.takeFaults u [⟨lane, cLATE, 0, 0, t.pc⟩] none false) else none
  | _, _ => none

/-- SHWAIT_LATE. -/
def execShwaitLate (u lane : Nat) (s : State) : Out := happens s (s.shwaitLate u lane)

/-! ### Firmware (R252, R253, R275) -/

/-- Requests queued, suspended or running at an L-core return with HOME_LOST: those that `lost` names. -/
def State.vacate (s : State) (lcore : Nat) (lost : Req → Bool) : State :=
  let qs := (s.lcore lcore).queue.filter lost
  let us : List Nat := (s.waves.filter fun (_, (w : Wave)) => match w.sect with
    | some c => c.lcore == lcore && lost c.req
    | none => false).map (·.1)
  let s1 := if qs.isEmpty then s else s.modLCore lcore fun l => { l with queue := l.queue.filter fun q => !lost q }
  us.foldl (fun s u => s.endSection u cHOMELOST 0 0 [] []) (qs.foldl (fun s q => s.returnLost lcore q) s1)

/-- HOME_LOSS: firmware retires an L-core; everything queued, suspended or running there is returned. -/
def execHomeLoss (lcore : Nat) (s : State) : Out :=
  event s (decide (lcore < Config.lCores) && !(s.lcore lcore).retired)
    ((s.modLCore lcore fun l => { l with retired := true }).vacate lcore fun _ => true)

/-- The member is LIVE in a blend of the package. -/
def State.liveSomewhere (s : State) (m : Nat) : Bool :=
  s.blends.any fun (_, (b : Blend)) => decide (m < b.size) && bfld (rget b.ents m) 31 30 == 1

/-- HOME_TABLE_WRITE: reserved bits stay zero, and a local entry has no MEMBER. -/
def execHomeTableWrite (global : Bool) (idx : Nat) (entry : Word) (s : State) : Out :=
  let e := entry &&& (if global then 0x80FFF03F else 0x8000003F)
  let own := !global || s.blends.isEmpty || s.ports.any fun (_, (p : Port)) => p.blend.any fun b => b.2 == hMEMBER e
  let live := !global || s.blends.isEmpty || s.liveSomewhere (hMEMBER e)
  let ok := !hV e || (live && (!own || !(s.lcore (hLCORE e)).retired))
  event s (decide (idx < (if global then 4096 else 64)) && ok)
    (if global then { s with homeG := rset s.homeG idx e } else { s with homeL := rset s.homeL idx e })

end Sys2Proof.Machine
end

