-- ==== Sys2Proof/Machine/Work.lean ====
section
/-!
DEFINITION. The launch record and its acceptance (spec/06_work_creation_and_scheduling.md, R122 to R129), and the work
creation instructions (R142 to R149).
-/
namespace Sys2Proof.Machine

/-! ### The record (Table 6.1) -/

/-- The fields of a record's 384 bytes; the capabilities keep the tags given. -/
def LaunchRec.parse (bs : List Byte) (caps : List Cap) : LaunchRec :=
  let f := fieldOf bs
  let ctl := f 0x2F 1
  { entry := BitVec.ofNat 64 (f 0 8)
    mentry := BitVec.ofNat 64 (f 8 8)
    traph := BitVec.ofNat 64 (f 0x10 8)
    gx := f 0x18 4
    gy := f 0x1C 4
    gz := f 0x20 4
    bx := f 0x24 2
    bY := f 0x26 2
    bz := f 0x28 2
    vregs := 8 * f 0x2A 1
    sregs := 32 * f 0x2B 1
    tiles := f 0x2C 1
    rwave := f 0x2D 1
    rblk := f 0x2E 1
    prio := ctl % 8
    dbg := ctl / 8 % 2 == 1
    fetch := ctl / 16 % 2 == 1
    sram := f 0x30 4
    bint := if f 0x34 4 = 0 then 4096 else f 0x34 4
    needs := BitVec.ofNat 32 (f 0x38 4)
    after := ((List.range 4).map fun i => f (0x40 + 4 * i) 4).filter (· ≠ 0)
    dies := f 0x56 1 % 16
    args := ((List.range 32).map fun i => (i, BitVec.ofNat 32 (f (0x80 + 4 * i) 4))).filter fun p => p.2 != 0
    caps := caps }

/-- The eight capability fields, untagged. -/
def recordCaps (bs : List Byte) : List QWord := (List.range 8).map fun i => BitVec.ofNat 128 (fieldOf bs (0x100 + 16 * i) 16)

/-- Need of one block in the resources of Table 6.6, in the table's order. -/
def LaunchRec.needsOf (r : LaunchRec) (spawned : Bool) : List Nat :=
  let w := if spawned then 1 else r.bx * r.bY * r.bz / 32
  [w, w * 32 * r.vregs * 4, w * r.sregs * 4, if spawned then 0 else r.tiles,
    w * 64 * r.rwave + (if spawned then 0 else 64 * r.rblk), if spawned then 0 else 4096 * r.sram]

/-- Capacities of a core (Table 6.6), its block window given. -/
def capacities (win : Nat) : List Nat := [512, Config.vrfBytes, Config.urfBytes, 128, Config.regionLines, win]

/-- A field breaks a limit of Table 6.1, or a reserved or device field is nonzero (R123). -/
def badFields (bs : List Byte) : Bool :=
  let f := fieldOf bs
  let addr := fun (off : Nat) => f off 8 % 8 ≠ 0 || f off 8 / 2 ^ 56 ≠ 0
  let threads := f 0x24 2 * f 0x26 2 * f 0x28 2
  f 0 8 = 0 || addr 0 || addr 8 || addr 0x10 ||
    f 0x18 4 = 0 || f 0x1C 4 = 0 || f 0x20 4 = 0 || decide (f 0x18 4 * f 0x1C 4 * f 0x20 4 > 2 ^ 32) ||
    f 0x24 2 = 0 || f 0x26 2 = 0 || f 0x28 2 = 0 || threads % 32 ≠ 0 || decide (threads < 32) || decide (threads > 1024) ||
    f 0x2A 1 = 0 || decide (f 0x2A 1 > 32) || f 0x2B 1 = 0 || decide (f 0x2B 1 > 32) || decide (f 0x2C 1 > 128) ||
    decide (f 0x2D 1 > 4) || decide (f 0x2E 1 > 64) || f 0x2F 1 / 32 ≠ 0 || decide (f 0x30 4 > 32768) ||
    decide (f 0x34 4 > 2 ^ 24) || f 0x38 4 / 512 ≠ 0 ||
    f 0x3C 4 ≠ 0 || f 0x50 6 ≠ 0 || f 0x57 1 ≠ 0 || f 0x58 12 ≠ 0 || f 0x64 28 ≠ 0 ||
    f 0x56 1 % 16 = 0 || f 0x56 1 / 16 ≠ 0

/-- Every bit of a needs mask is in a feature mask. -/
def covers (fmask needs : Word) : Bool := needs &&& ~~~fmask == 0

/-- The T-core is in service: it has survived phase 2 (Table 18.4). -/
def State.inService (s : State) (core : Nat) : Bool := !s.deadCores.contains core

/-- Some T-core of the die mask can hold one block (R123). -/
def State.fitsSomewhere (s : State) (r : LaunchRec) : Bool :=
  let can := ((r.needsOf false).zip (capacities Config.coreSram)).all fun (n, c) => decide (n ≤ c)
  can && (List.range Config.tCores).any fun n => s.inService n && bitsOf r.dies (n / 64) (n / 64) == 1 && covers (s.core n).fmask r.needs

/-- The id was never assigned: a launch keeps its entry for ever. -/
def State.unassigned (s : State) (id : Nat) : Bool := (fget s.launches id).isNone

/-- RES of R123: none when the record is accepted, 3 BAD_RECORD, 4 BAD_AFTER. -/
def State.reject (s : State) (bs : List Byte) (r : LaunchRec) : Option Nat :=
  if badFields bs || !s.fitsSomewhere r then some 3
  else if r.after.any s.unassigned then some 4
  else none

/-- Launches of status PENDING (R127). -/
def State.pendingCount (s : State) : Nat := (s.launches.filter fun (_, l) => l.status == .pending).length

/-- A launch accepted: its id, and LID, PARENT, DEPTH and STATUS in the record (R123, R127). -/
def State.accept (s : State) (l : Launch) : Nat × State :=
  let lid := s.nextLid.toNat
  let next := if s.nextLid + 1 = 0 then 1 else s.nextLid + 1
  let (n, s0) := s.fresh
  let s1 : State := { s0 with nextLid := next, newestLid := s.nextLid, launches := fset s.launches lid { l with order := n } }
  let s2 := ((s1.recordWrite l 0x3C (bytesOf lid 4)).recordWrite l 0x50 (bytesOf l.parent 4)).recordWrite l 0x54 (bytesOf l.depth 1)
  let s3 := s2.recordWrite l 0x55 (bytesOf LStatus.pending.code 1)
  (lid, s3.cancelAll s3.launches.length)

/-! ### Spawn bins (R138, R143) -/

/-- A bin sealed. -/
def Bin.seal (b : Bin) (clk : DWord) : Bin := { b with sealed := true, sealAt := clk }

/-- The open bin of a key. -/
def Core.openBin (k : Core) (lid : Nat) (entry : DWord) : Option Nat :=
  (k.bins.find? fun (_, (b : Bin)) => !b.sealed && b.lid == lid && b.entry == entry).map (·.1)

/-- The lowest-numbered free bin. -/
def Core.freeBin (k : Core) : Option Nat := (List.range 64).find? fun n => (fget k.bins n).isNone

/-- One lane of a `spawn`. -/
def State.spawnLane (s : State) (c : Ctx) (d a : Nat) (entry : DWord) (l : Nat) (t : Thread) : State :=
  let k := s.core c.w.core
  let args : Regs 32 := (List.range 8).foldl (fun m i => rset m i (t.getV (a + i))) []
  let put := fun (n : Nat) (b : Bin) =>
    let b1 := { b with threads := b.threads ++ [args] }
    let b2 := if b1.threads.length = 32 then b1.seal s.clk else b1
    (s.modCore c.w.core fun k => { k with bins := fset k.bins n b2 }).setLane c.u l fun t => t.setP d true
  match k.openBin c.w.lid entry with
  | some n => put n ((fget k.bins n).getD ⟨c.w.lid, entry, [], false, s.clk, 0, false⟩)
  | none => match k.freeBin with
    | some n => put n ⟨c.w.lid, entry, [], false, s.clk, 0, false⟩
    | none => s.setLane c.u l fun t => t.setP d false

/-- `spawn`: a .dev release to the threads it creates. -/
def execSpawn (f : FOps) (s : State) : Out :=
  word (.spawn f) s fun s c =>
    if s.inRegion c.w then some (s.groupFault c cIRREVOCABLE)
    else if !s.quiet c.u c.mask then none
    else
      some ((c.w.active c.mask).foldl (fun s (l, t) => s.spawnLane c f.d.toNat f.a.num (target c.pc f.imm) l t)
        (s.releaseBy c.w))

/-- Open bins of a launch on a core sealed, of one entry or of all. -/
def State.sealBins (s : State) (core lid : Nat) (entry : Option DWord) : State :=
  s.modCore core fun k => { k with bins := k.bins.map fun (n, (b : Bin)) =>
    (n, if !b.sealed && b.lid == lid && entry.all (· == b.entry) then b.seal s.clk else b) }

/-- `binflush`. -/
def execBinflush (u : UOps) (s : State) : Out :=
  word' (.binflush u) s fun s c => s.sealBins c.w.core c.w.lid none

/-- `binflush label`. -/
def execBinflushLabel (u : UOps) (s : State) : Out :=
  word' (.binflushLabel u) s fun s c => s.sealBins c.w.core c.w.lid (some (targetU c.pc u.imm))

/-! ### launch, lwait, fetchw, prio (R145 to R149) -/

/-- The group holds the block's lowest-numbered live thread. -/
def State.leads (s : State) (c : Ctx) : Bool :=
  let ts := (s.blockWaves c.w.blk).flatMap fun (u, (w : Wave)) =>
    w.threads.filterMap fun (l, t) => if t.exited then none else some (t.tid, u == c.u && inMask c.mask l)
  ts.any fun (n, mine) => mine && ts.all fun (k, _) => decide (n ≤ k)

/-- The record's capabilities as `launch` loads them: with the tags of their granules, if the capability may load them. -/
def State.capsAt (s : State) (w : Wave) (ks : List (Nat × TlbEntry)) (keep : Bool) (vals : List QWord) : List Cap :=
  ((List.range 8).zip vals).map fun (i, x) =>
    match ks[0x100 + 16 * i]? with
    | some (k, e) => ⟨x, keep && s.tagAt (e.die w) k && (⟨x, false⟩ : Cap).wellFormed⟩
    | none => ⟨x, false⟩

/-- The two result words of `launch`. -/
def State.launchResult (s : State) (c : Ctx) (d a b : Nat) : State :=
  s.modWave c.u fun w => (w.setS d (BitVec.ofNat 32 a)).setS (d + 1) (BitVec.ofNat 32 b)

/-- The launch a `launch` makes: in a section it has depth 1 and no parent. A section has no launcher priority of R124, so
its launch keeps the PRIO of the record: the model's choice (log entry 111). -/
def State.child (s : State) (c : Ctx) (r : LaunchRec) (va : Nat) : Launch :=
  let up := fget s.launches c.w.lid
  let prio := match up with
    | some l => if c.w.sect.isSome then r.prio else min r.prio l.rc.prio
    | none => r.prio
  { Launch.init with
    rc := { r with prio := prio }
    va := BitVec.ofNat 64 va
    port := c.w.port
    parent := if c.w.sect.isSome then 0 else c.w.lid
    parentBlk := if c.w.sect.isSome then none else some c.w.blk
    depth := if c.w.sect.isSome then 1 else (match up with | some l => l.depth | none => 0) + 1
    status := .pending
    next := 0 }

/-- A slot of a host port whose record waits for its acceptance, in the order of R127: arrival, port, slot. -/
def State.waitingSlots (s : State) : List (Nat × Nat × LSlot) :=
  let all := s.ports.flatMap fun (p, (x : Port)) => (x.slots.filter fun (_, (l : LSlot)) => l.busy).map fun (n, l) => (p, n, l)
  let key := fun (x : Nat × Nat × LSlot) => x.2.2.arrived.toNat * 2 ^ 40 + x.1 * 2 ^ 32 + x.2.1
  ((all.map key).foldl sinsert []).filterMap fun k => all.find? fun x => key x == k

/-- The scheduler's place for a submission of a clk: the host slots, then the cores (R127). -/
def slotPlace (port slot : Nat) : Nat := 64 * port + slot
def corePlace (core : Nat) : Nat := 256 + core

/-- A device launch is accepted at once: no host submission that arrived by now still waits for room it could have, and in
this clk none of a later core has been accepted (R127). -/
def State.launchTurn (s : State) (core : Nat) : Bool :=
  (s.waitingSlots.isEmpty || decide (s.pendingCount ≥ 4096)) && s.inPlace unitLaunch (corePlace core)

/-- `launch` (R145). -/
def execLaunch (u : UOps) (s : State) : Out :=
  word (.launch u) s fun s c =>
    let d := u.d.toNat
    let cap := c.w.getC u.a.toNat
    let deep := c.w.sect.isNone && (fget s.launches c.w.lid).any fun l => l.depth == 10
    if s.inRegion c.w then some (s.groupFault c cIRREVOCABLE)
    else if deep then some (s.groupFault c cDEPTH)
    else if c.w.sect.isNone && !s.leads c then some (s.launchResult c d 0 1)
    else match capCheck cap cap.base 384 (pLOAD ||| pSTORE) 0 with
      | some e => some (s.groupFault c e (BitVec.ofNat 64 cap.base))
      | none =>
        if cap.base % 128 ≠ 0 then some (s.groupFault c cMISALIGNED (BitVec.ofNat 64 cap.base))
        else match c.lead with
          | none => some s
          | some (l, t) =>
            if !s.quiet c.u c.mask || !s.launchTurn c.w.coreNo then none
            else match s.keysAt c.w t cap.base 0 384 with
              | .error (e, a) => some (s.laneFaults c 0 ((lanesOf c.mask).map fun l => (l, e, BitVec.ofNat 64 a)))
              | .ok ks =>
                let s1 := (s.touchKeys c l t cap.base ks).releaseBy c.w
                let bs := s1.bytesAt c.w ks
                let r := LaunchRec.parse bs (s1.capsAt c.w ks (cap.has pLDCAP) (recordCaps bs))
                if s1.pendingCount ≥ 4096 then some (s1.launchResult c d 0 2)
                else match s1.reject bs r with
                  | some x => some (s1.launchResult c d 0 x)
                  | none =>
                    let (lid, s2) := s1.accept (s1.child c r cap.base)
                    let s3 := if c.w.sect.isSome then s2
                      else s2.modBlock c.w.blk fun b => { b with kids := b.kids ++ [lid] }
                    some ((s3.took unitLaunch (corePlace c.w.coreNo)).launchResult c d lid 0)

/-- What an `lwait` finds at once: the final status, 6 for an id never assigned, 3 for one beyond the window. -/
def State.lwaitValue (s : State) (id : Nat) : Option Nat :=
  match fget s.launches id with
  | some l => if s.age id > 65536 then some 3 else if l.status.final then some l.status.code else none
  | none => some 6

/-- What a waiting `lwait` finds (R146): the final status of the launch, once it has one. That its id may leave the window of R128
meanwhile changes nothing: R146 answers 3 for that at once, at the issue alone. -/
def State.lwaitEnd (s : State) (id : Nat) : Option Nat :=
  (fget s.launches id).bind fun l => if l.status.final then some l.status.code else none

/-- `lwait` (R146): a .dev acquire as it returns. -/
def execLwait (u : UOps) (s : State) : Out :=
  word' (.lwait u) s fun s c =>
    let id := (c.w.getS u.a.toNat).toNat
    match s.lwaitValue id with
    | some x => (s.modWave c.u fun w => w.setS u.d.toNat (BitVec.ofNat 32 x)).fenceBy c true false 2
    | none => s.modWave c.u fun w => w.mapMask c.mask fun _ t => { t with wait := .lwait id u.d.toNat }

/-- `fetchw` (R147, R149). -/
def execFetchw (u : UOps) (s : State) : Out :=
  word' (.fetchw u) s fun s c =>
    let d := u.d.toNat
    let cap := c.w.getC u.bc.numB
    let va : DWord := BitVec.ofNat 64 (cap.base + (c.w.getS u.bc.numC).toNat)
    let put := fun (s : State) (x : Word) => s.modWave c.u fun w => w.setS d x
    if c.w.sect.isSome then put s 0
    else if s.inRegion c.w then s.groupFault c cIRREVOCABLE
    else match c.lead with
      | none => s
      | some (l, t) => match s.checkAt c.w t cap va 16 pSTORE 1 with
        | .error e => s.laneFaults c 1 ((lanesOf c.mask).map fun l => (l, e, va))
        | .ok e =>
          if (s.core c.w.core).fetchq.length ≥ 16 then put s 0
          else
            put (((s.cacheEntry c ⟨l, t, va, e⟩).claim c.w.coreNo va.toNat true e).modCore c.w.core fun k =>
              { k with fetchq := k.fetchq ++ [⟨(c.w.getS u.a.toNat).toNat, c.w.port, va⟩] }) 1

/-- `prio` (R148); on an L-core it does nothing. -/
def execPrio (u : UOps) (s : State) : Out :=
  word' (.prio u) s fun s c =>
    if c.w.sect.isSome then s
    else s.modWave c.u fun w =>
      { w with hint := if u.bc.isImm then u.imm.toNat % 8 else bfld (c.w.getS u.a.toNat) 2 0 }

end Sys2Proof.Machine
end

