-- ==== Sys2Proof/Machine/Launching.lean ====
section
/-!
DEFINITION. The launch scheduler and the block distributor (spec/06_work_creation_and_scheduling.md, R123 to R141;
spec/07_memory_access.md, R440), saves and resumptions (spec/17_traps_errors_context.md, R417, R419).
-/
namespace Sys2Proof.Machine

/-! ### Launch slots (R125, R126) -/

def LSlot.init : LSlot := ⟨0, false, false, 0, 0, 0, 0⟩

/-- A slot of a port. -/
def Port.slot (p : Port) (n : Nat) : LSlot := (fget p.slots n).getD LSlot.init

def State.modSlot (s : State) (port n : Nat) (g : LSlot → LSlot) : State :=
  s.modPort port fun p => { p with slots := fset p.slots n (g (p.slot n)) }

/-- GO written to a slot (R126). -/
def LSlot.go (x : LSlot) (prio : BitVec 3) (clk : DWord) : LSlot :=
  if x.busy then { x with ovr := true } else { x with busy := true, prio := prio, arrived := clk }

/-- The clk in which a submission reaches the scheduler: the next one, where this clk has seen one of a later place (R127). -/
def State.submits (s : State) (place : Nat) : State :=
  (if s.inPlace unitLaunch place then s else { s with clk := s.clk + 1 }).took unitLaunch place

/-- LAUNCH_SLOT_GO: ignored, with OVR set, while BUSY; before phase 6 the write is ignored (R431). -/
def execLaunchSlotGo (port slot : Nat) (prio : BitVec 3) (s : State) : Out :=
  event s (decide (port < 2) && decide (slot < 64))
    (if s.phase ≠ 6 then s
     else
       let s1 := s.submits (slotPlace port slot)
       s1.modSlot port slot fun x => x.go prio s1.clk)

/-- LSRES as a number (Table 6.5). -/
def LSlot.lsres (x : LSlot) : Nat := (if x.busy then 2 ^ 31 else 0) + (if x.ovr then 2 ^ 30 else 0) + x.res.toNat

/-- LSRES_READ: the read returns the register and clears OVR. -/
def execLsresRead (port slot : Nat) (s : State) : Out :=
  event s (decide (port < 2) && decide (slot < 64))
    (if s.phase ≠ 6 then { s with hostOut := .data (bytesOf 0 4) }
     else { (s.modSlot port slot fun x => { x with ovr := false }) with
       hostOut := .data (bytesOf ((s.port port).slot slot).lsres 4) })

/-! ### Acceptance (R123, R124) -/

/-- Bytes of a port's address space as the device reads them, with their storage; none where a page is missing. -/
def State.deviceBytes (s : State) (port va : Nat) : Nat → Option (List Byte)
  | 0 => some []
  | n + 1 => match s.deviceBytes port va n, s.walkVa port (va + n) with
    | some bs, .ok e => some (bs ++ [s.byteAt (if e.swm then some 0 else none) (e.key (va + n))])
    | _, _ => none

/-- The range lies in the port's partition. -/
def Port.holds (p : Port) (base len : Nat) : Bool :=
  decide (p.partBase.toNat ≤ base) && decide (base + len ≤ p.partBase.toNat + p.partSize.toNat)

/-- A capability field of a host's record that is tagged as it is loaded (R124). -/
def State.hostTag (s : State) (p : Port) (x : QWord) : Bool :=
  let c : Cap := ⟨x, false⟩
  x != 0 && c.top == 0 && c.base % 2 ^ c.le == 0 &&
    ((decide (c.space < 2) && c.member == 0 && p.holds c.base c.length) ||
      (c.space == 2 && match p.blend with
        | some (b, _) => (fget s.blends b).any fun k => decide (c.member < k.size)
        | none => false))

/-- A record submitted from outside a program: read whole, then accepted or rejected. -/
def State.submit (s : State) (port va : Nat) (prio : Nat) (priv : Bool) : Option (Except Nat (Nat × State)) :=
  if !(s.port port).holds va 384 then none
  else match s.deviceBytes port va 384 with
    | none => none
    | some bs =>
      let r := LaunchRec.parse bs ((recordCaps bs).map fun x => ⟨x, s.hostTag (s.port port) x⟩)
      match s.reject bs r with
      | some x => some (.error x)
      | none =>
        let l : Launch := { Launch.init with
          rc := { r with prio := prio }, va := BitVec.ofNat 64 va, port := port, priv := priv, status := .pending, next := 0 }
        let (lid, s1) := s.accept l
        some (.ok (lid, s1.recordWrite l 0x2F (bytesOf (fieldOf bs 0x2F 1 / 8 * 8 + prio) 1)))

/-- The slot's record would raise the pending count above 4,096 (R126). -/
def State.blocked (s : State) (port : Nat) (x : LSlot) : Bool :=
  decide (s.pendingCount ≥ 4096) && match s.submit port x.addr.toNat x.prio.toNat false with
    | some (.ok _) => true
    | _ => false

/-- The slot the scheduler turns to next: the first that waits, but for those that wait for a pending entry (R126, R127). -/
def State.nextSlot (s : State) : Option (Nat × Nat) :=
  (s.waitingSlots.find? fun (p, _, x) => !s.blocked p x).map fun (p, n, _) => (p, n)

/-- LAUNCH_ACCEPT: the outcome for the next slot in the order of R127. The result for a record the scheduler cannot read is
open (log entry 19). -/
def execLaunchAccept (port slot : Nat) (s : State) : Out :=
  let x := (s.port port).slot slot
  if s.phase ≠ 6 ∨ s.nextSlot ≠ some (port, slot) then .next s
  else match s.submit port x.addr.toNat x.prio.toNat false with
    | none =>
      let (o, s1) := s.open_
      .next (s1.modSlot port slot fun x => { x with busy := false, res := o.setWidth 3 })
    | some (.error e) => .next (s.modSlot port slot fun x => { x with busy := false, res := BitVec.ofNat 3 e })
    | some (.ok (lid, s1)) =>
      .next (s1.modSlot port slot fun x => { x with busy := false, res := 0, lid := BitVec.ofNat 32 lid })

/-- PRIVILEGED_LAUNCH_SUBMIT (R420): firmware's own interface has no result register. -/
def execPrivilegedLaunchSubmit (port : Nat) (addr : DWord) (prio : BitVec 3) (s : State) : Out :=
  if s.phase ≠ 6 ∨ port ≥ 2 ∨ s.pendingCount ≥ 4096 then .next s
  else match s.submit port addr.toNat prio.toNat true with
    | some (.ok (_, s1)) => .next s1
    | _ => .next s

/-! ### Readiness and completion (R128, R129) -/

/-- Every AFTER launch has ended COMPLETE. -/
def State.readyLaunch (s : State) (l : Launch) : Bool :=
  l.rc.after.all fun id => decide (s.age id > 65536) || (match fget s.launches id with
    | some a => a.status == .complete
    | none => true)

/-- Every block was placed or withdrawn and none is unplaced again. -/
def Launch.allPlaced (l : Launch) : Bool := decide (l.next ≥ l.rc.gridBlocks) && l.returned.isEmpty

/-- What a launch wrote before a status write of the scheduler is performed first (R123): the accesses its waves have in
flight, and its stores in the store queues. -/
def State.releaseLaunch (s : State) (lid : Nat) : State :=
  let us : List Nat := (s.waves.filter fun (_, (w : Wave)) => w.sect.isNone && w.lid == lid).map (·.1)
  let s1 := us.foldl State.serveWave s
  s1.cores.foldl (fun s (n, _) => s.drainSq n fun e => e.lid == lid) s1

/-- A launch becomes RUNNING when every block is placed or withdrawn. -/
def State.noteRunning (s : State) (lid : Nat) : State :=
  match fget s.launches lid with
  | some l => if l.status = .pending ∧ l.allPlaced then (s.releaseLaunch lid).setStatus lid .running else s
  | none => s

/-- Nothing of the launch is left (R129). -/
def State.launchDone (s : State) (lid : Nat) (l : Launch) : Bool :=
  !l.status.final && l.allPlaced && (s.blocks.all fun (_, (b : Block)) => b.lid != lid) &&
    (s.cores.all fun (_, (c : Core)) => c.bins.all fun (_, (b : Bin)) => b.lid != lid) &&
    (s.launches.all fun (_, (k : Launch)) => k.parent != lid || k.status.final)

/-- LAUNCH_COMPLETE: COMPLETE, or KILLED after a KILL_WAVE decision (Table 17.6). -/
def execLaunchComplete (lid : Nat) (s : State) : Out :=
  match fget s.launches lid with
  | none => .next s
  | some l =>
    event s (s.launchDone lid l)
      (if l.kcode = 0 then s.finish lid .complete
       else ((s.recordWrite l 0x57 (bytesOf l.kcode 1)).recordWrite l 0x60 (bytesOf l.karg 4)).finish lid .killed)

/-- LWAIT_RELEASE: the word that the lane waits in returns as a whole (R98): the code written once, and a .dev acquire. R85
admits no other `lwait` with that register while it waits. -/
def execLwaitRelease (u lane : Nat) (s : State) : Out :=
  match s.waitOf u lane, s.wave u with
  | .lwait id d, some w => match s.lwaitEnd id with
    | some x =>
      let m := maskOf ((w.threads.filter fun (_, t) => t.wait == .lwait id d).map (·.1))
      let s1 := s.modWave u fun w =>
        (w.setS d (BitVec.ofNat 32 x)).wakeBy s.clk fun w => { w with
          threads := w.threads.map fun (l, t) => (l, if t.wait = .lwait id d then { t with wait := .none } else t) }
      .next (s1.fenceBy ⟨u, w, m⟩ true false 2)
    | none => .next s
  | _, _ => .next s

/-! ### Resources (R130, R440) -/

/-- The blocks that hold resources of a core. -/
def State.held (s : State) (core : Nat) : List (Nat × Block) :=
  s.blocks.filter fun (_, (b : Block)) => b.core == core && b.placed && !b.ended

/-- The blocks whose range lies in the block window of a core: a range is freed when its block ends, not when the block is
saved (R440, log entry 112). -/
def State.ranges (s : State) (core : Nat) : List (Nat × Nat) :=
  s.blocks.filterMap fun (_, (b : Block)) =>
    if b.sramCore = core ∧ !b.ended ∧ b.sramLen ≠ 0 then some (b.sramOff, b.sramLen) else none

/-- What a core has in use of each resource of Table 6.6. -/
def State.used (s : State) (core : Nat) : List Nat :=
  let need := fun (b : Block) => match fget s.launches b.lid with
    | some l => l.rc.needsOf b.spawned.isSome
    | none => []
  let sum := (s.held core).foldl (fun (a : List Nat) (_, b) => List.zipWith (· + ·) a (need b)) [0, 0, 0, 0, 0, 0]
  -- region-store lines held from the pool count as used (R223)
  [sum.getD 0 0, sum.getD 1 0, sum.getD 2 0, sum.getD 3 0, Config.regionLines - s.poolFree core,
    ((s.ranges core).map (·.2)).foldl (· + ·) 0]

/-- The lowest offset of the block window after which enough bytes are free (R440). -/
def State.sramRange (s : State) (core need : Nat) : Option Nat :=
  if need = 0 then some 0
  else
    let rs := s.ranges core
    let starts := rs.foldl (fun l r => sinsert l (r.1 + r.2)) [0]
    starts.find? fun a => decide (a + need ≤ (s.core core).win) &&
      rs.all fun r => decide (a + need ≤ r.1) || decide (r.1 + r.2 ≤ a)

/-- The load of a core after placing a need there (R130); none where it does not fit. -/
def State.loadAfter (s : State) (core : Nat) (need : List Nat) : Option Nat :=
  let caps := capacities (s.core core).win
  let after := List.zipWith (· + ·) (s.used core) need
  if (List.zip after caps).all (fun (a, c) => decide (a ≤ c)) && (s.sramRange core (need.getD 5 0)).isSome then
    some (((List.zip after caps).map fun (a, c) => if c = 0 then 0 else (256 * a + c - 1) / c).foldl max 0)
  else none

/-- The least-loaded eligible core for a need. -/
def State.bestCore (s : State) (dies : Nat) (needs : Word) (need : List Nat) : Option Nat :=
  let cs : List (Nat × Nat) := (List.range Config.tCores).filterMap fun n =>
    if s.inService n ∧ bitsOf dies (n / 64) (n / 64) = 1 ∧ covers (s.core n).fmask needs then (s.loadAfter n need).map fun x => (x, n) else none
  (cs.foldl (fun (b : Option (Nat × Nat)) c => match b with
    | none => some c
    | some x => if c.1 < x.1 then some c else some x) none).map fun p => p.2

/-! ### What a launch offers -/

/-- The order of a launch's blocks by linear id (R134): spawned ones above the static ones, those without a number yet last. -/
def Block.place (b : Block) : Nat :=
  match b.spawned with
  | none => b.lin
  | some n => if b.started then 2 ^ 33 + n else 2 ^ 66

/-- The block of a list that is first (`lt`) by linear id, or last. -/
def State.pickBlock (s : State) (lt : Nat → Nat → Bool) (ns : List Nat) : Option Nat :=
  (ns.foldl (fun (m : Option (Nat × Nat)) n => match fget s.blocks n, m with
    | none, _ => m
    | some b, none => some (b.place, n)
    | some b, some x => if lt b.place x.1 then some (b.place, n) else m) none).map (·.2)

/-- A block of the launch is being saved: until it is unplaced, no block of a higher linear id is placed (R133, R134). -/
def State.saving (s : State) (lid : Nat) : Bool := s.blocks.any fun (_, (b : Block)) => b.lid == lid && b.leaving && b.placed

/-- A launch's offer (R130, R133, R138): a block that was pre-empted, the lowest linear id first; then an offered bin; then the
next block. R133 puts a pre-empted block before every never-placed one, R138 puts a bin before every unplaced static one: that a
pre-empted static block goes before a bin is the model's choice (log entry 130). Which of several offered bins comes first R138
leaves open: that of the lowest core, and on it the lowest bin (log entry 113). -/
def State.offer (s : State) (lid : Nat) (l : Launch) : Option Offer :=
  let bins : List (Nat × Nat) := s.cores.flatMap fun (n, (c : Core)) =>
    c.bins.filterMap fun (k, (b : Bin)) => if b.lid = lid ∧ b.offered then some (n, k) else none
  if s.saving lid then none
  else match s.pickBlock (fun a b => decide (a < b)) l.returned, bins with
  | some b, _ => some (.again b)
  | none, (n, k) :: _ => some (.bin n k)
  | none, [] => if !l.rc.fetch && decide (l.next < l.rc.gridBlocks) then some (.block l.next) else none

/-- The need of an offer and the feature groups it asks for. -/
def State.offerNeed (s : State) (l : Launch) (o : Offer) : List Nat × Word :=
  match o with
  | .bin _ _ => (l.rc.needsOf true, l.rc.needs)
  | .again b => match fget s.blocks b with
    -- its range of core SRAM is its own already (R440)
    | some k => ((l.rc.needsOf k.spawned.isSome).set 5 0, l.rc.needs ||| k.needs)
    | none => (l.rc.needsOf false, l.rc.needs)
  | .block _ => (l.rc.needsOf false, l.rc.needs)

/-- Ready launches in the order of R129: priority, then arrival. -/
def State.readyOrder (s : State) : List (Nat × Launch) :=
  let rs := s.launches.filter fun (_, (l : Launch)) => !l.status.final && s.readyLaunch l
  let key := fun (p : Nat × Launch) => (7 - p.2.rc.prio) * 2 ^ 80 + p.2.order
  (rs.foldl (fun l p => sinsert l (key p)) []).filterMap fun k => rs.find? fun p => key p == k

/-- A block put on a core. -/
def State.putBlock (s : State) (lid core : Nat) (need : List Nat) (b : Block) : State :=
  let (id, s1) := s.fresh
  let off := (s.sramRange core (need.getD 5 0)).getD 0
  { s1 with blocks := fset s1.blocks id { b with
      lid := lid, core := core, sramCore := core, sramOff := off, sramLen := need.getD 5 0, placedAt := s.clk } }

/-- An offer placed on a core. -/
def State.placeOffer (s : State) (lid : Nat) (l : Launch) (o : Offer) (core : Nat) (need : List Nat) : State :=
  let s0 := s.modLaunch lid fun l =>
    if l.waiting.any fun x => x.1 != o && l.reserving then l else { l with waiting := none, reserving := false }
  match o with
  | .bin n k => match fget (s.core n).bins k with
    | some b =>
      let s1 := s0.modCore n fun c => { c with bins := fdel c.bins k }
      s1.putBlock lid core need { Block.init with spawned := some 0, bin := b.threads, binEntry := b.entry }
    | none => s0
  | .again b =>
    ((s0.modBlock b fun k => { k with core := core, placed := true, placedAt := s.clk }).modLaunch lid fun l =>
      { l with returned := l.returned.filter (· ≠ b) }).noteRunning lid
  | .block lin =>
    ((s0.putBlock lid core need { Block.init with lin := lin }).modLaunch lid fun l => { l with next := l.next + 1 }).noteRunning
      lid

/-- Since when the offered block has found no core: another block's wait counts no longer, but for that of the block which made
the launch reserving (R130). -/
def Launch.waitsFor (l : Launch) (o : Offer) (clk : DWord) : Option (Offer × DWord) :=
  match l.waiting with
  | some x => if x.1 = o ∨ l.reserving then some x else some (o, clk)
  | none => some (o, clk)

/-- One pass over the ready launches: the first whose offer finds a core is placed, and whether one was; those before it
begin to wait, and none is passed that is reserving. -/
def State.distribute (s : State) : List (Nat × Launch) → State × Bool
  | [] => (s, false)
  | (lid, l) :: t => match s.offer lid l with
    | none => s.distribute t
    | some o =>
      let (need, needs) := s.offerNeed l o
      match s.bestCore l.rc.dies needs need with
      | some core => (s.placeOffer lid l o core need, true)
      | none =>
        let s1 := s.modLaunch lid fun l => { l with waiting := l.waitsFor o s.clk }
        if l.reserving then (s1, false) else s1.distribute t


/-- LAUNCH_RESERVING (R130). -/
def execLaunchReserving (lid : Nat) (s : State) : Out :=
  event s
    ((fget s.launches lid).any fun l => !l.reserving && (match l.waiting with
      | some (_, c) => decide ((s.clk - c).toNat ≥ 65536)
      | none => false))
    (s.modLaunch lid fun l => { l with reserving := true })

/-! ### Starts (R131, R138 to R140, R302) -/

/-- Resident waves of a quadrant of a core. -/
def State.inQuad (s : State) (core q : Nat) : List Wave :=
  (s.waves.filter fun (_, (w : Wave)) => w.sect.isNone && w.core == core && w.ctx / 128 == q).map (·.2)

/-- The wave context a new wave takes (R131). -/
def State.newCtx (s : State) (core : Nat) : Nat :=
  let size := fun (q : Nat) => (s.inQuad core q).length
  let q := (List.range 4).foldl (fun b q => if size q < size b then q else b) 0
  let taken := (s.inQuad core q).map fun w => w.ctx % 128
  128 * q + ((List.range 128).find? fun k => !taken.contains k).getD 0

/-- The `.sram` window capability (R161). -/
def sramCap (core off len : Nat) : Cap :=
  if len = 0 then Cap.nil
  else Cap.make (Config.windowBase + 2 ^ 27 * core + off) len 0 (pLOAD ||| pSTORE ||| pATOMIC ||| pLDCAP ||| pSTCAP) 0 0 true

/-- The registers every wave of a launch starts with (R131, R161). -/
def State.freshWave (s : State) (l : Launch) (b : Nat) (k : Block) (wid : Nat) (threads : FMap Thread) : Wave :=
  let caps := ((List.range 8).zip l.rc.caps).filter fun p => p.2 != Cap.nil
  let sram := sramCap k.core k.sramOff k.sramLen
  { Wave.init with
    core := k.core
    ctx := s.newCtx k.core
    lid := k.lid
    blk := b
    wid := wid
    port := l.port
    vlim := l.rc.vregs
    slim := l.rc.sregs
    threads := threads
    s := l.rc.args
    c := if sram = Cap.nil then caps else caps ++ [(31, sram)]
    since := s.clk }

/-- A wave becomes resident, with a new context epoch (R380). -/
def State.addWave (s : State) (w : Wave) : State :=
  let (u, s1) := s.fresh
  s1.setWave u { w with epoch := u }

/-- The static waves of a block. -/
def State.startStatic (s : State) (l : Launch) (b : Nat) (k : Block) : State :=
  (List.range (l.rc.blockThreads / 32)).foldl (fun s i =>
    s.addWave (s.freshWave l b k i ((List.range 32).map fun j => (j, Thread.init l.rc.entry (32 * i + j))))) s

/-- The threads of a spawned block (R139, R140). -/
def spawnedThreads (entry : DWord) (args : List (Regs 32)) : FMap Thread :=
  (List.range 32).map fun j => match args[j]? with
    | some a => (j, { Thread.init entry j with v := a, atEntry := true })
    | none => (j, { Thread.init entry j with exited := true })

/-- The spawned wave's number, and its wave; in one clk cores start theirs in ascending order (R139). -/
def State.startSpawned (s : State) (l : Launch) (b : Nat) (k : Block) : State :=
  let s1 := (s.took unitSpawn k.core).modLaunch k.lid fun l => { l with spawnNo := l.spawnNo + 1 }
  let s2 := s1.modBlock b fun k => { k with spawned := some l.spawnNo, bin := [] }
  s2.addWave (s2.freshWave l b k 0 (spawnedThreads k.binEntry k.bin))

/-- The sequencer of a block (R302). -/
def startSeq (l : Launch) : Option Seq :=
  if l.rc.mentry = 0 then none
  else some { Seq.init with
    pc := l.rc.mentry
    mc := ((List.range 8).zip l.rc.caps).filter fun p => p.2 != Cap.nil }

/-- A placed block starts. -/
def State.startBlock (s : State) (b : Nat) : State :=
  match fget s.blocks b with
  | none => s
  | some k => match fget s.launches k.lid with
    | none => s
    | some l =>
      let s1 := s.modBlock b fun k => { k with started := true, seq := startSeq l }
      if k.spawned.isSome then s1.startSpawned l b k else s1.startStatic l b k

/-- BLOCK_START. -/
def execBlockStart (b : Nat) (s : State) : Out :=
  event s
    ((fget s.blocks b).any fun k => k.placed && !k.started && (k.spawned.isNone || s.inPlace unitSpawn k.core)) (s.startBlock b)

/-- BIN_TIMER_SEAL (R138). -/
def execBinTimerSeal (core bin : Nat) (s : State) : Out :=
  let due := (fget (s.core core).bins bin).any fun b => !b.sealed && (fget s.launches b.lid).any fun l =>
    decide ((s.clk - b.start).toNat ≥ l.rc.bint)
  event s due
    (s.modCore core fun c => { c with bins := fmod c.bins bin fun b => b.seal s.clk })

/-- BIN_START: on its own core, when that has the resources for one wave. -/
def execBinStart (core bin : Nat) (s : State) : Out :=
  match fget (s.core core).bins bin with
  | none => .next s
  | some b => match fget s.launches b.lid with
    | none => .next s
    | some l =>
      let need := l.rc.needsOf true
      let id := s.nextId
      let s1 := (s.modCore core fun c => { c with bins := fdel c.bins bin }).putBlock b.lid core need
        { Block.init with spawned := some 0, bin := b.threads, binEntry := b.entry }
      event s (b.sealed && !b.offered && (s.loadAfter core need).isSome && s.inPlace unitSpawn core) (s1.startBlock id)

/-- BIN_OFFER. -/
def execBinOffer (core bin : Nat) (s : State) : Out :=
  let due := (fget (s.core core).bins bin).any fun b => b.sealed && !b.offered && (fget s.launches b.lid).any fun l =>
    decide ((s.clk - b.sealAt).toNat ≥ l.rc.bint)
  event s due
    (s.modCore core fun c => { c with bins := fmod c.bins bin fun b => { b with offered := true } })

/-! ### Ends (R115, R137) -/

/-- BLOCK_END: its resources are free. -/
def execBlockEnd (b : Nat) (s : State) : Out :=
  event s
    ((fget s.blocks b).any fun k => k.started && k.placed && !k.ended && (s.blockWaves b).isEmpty &&
      k.seq.all fun q => q.ops.isEmpty)
    (s.modBlock b fun k => { k with ended := true, tiles := [], tc := [] })

/-- BLOCK_RETIRE: its child grids have ended. -/
def execBlockRetire (b : Nat) (s : State) : Out :=
  event s
    ((fget s.blocks b).any fun k => k.ended && k.kids.all fun c => (fget s.launches c).all fun l => l.status.final)
    { s with blocks := fdel s.blocks b }

/-! ### Saves (R133, R417) -/

/-- A launch's resident block of highest linear id: one that has ended its waves holds nothing. -/
def State.highestBlock (s : State) (lid : Nat) : Option Nat :=
  s.pickBlock (fun a b => decide (b < a)) ((s.blocks.filter fun (n, (b : Block)) =>
    b.lid == lid && b.placed && !b.ended && (!b.started || !(s.blockWaves n).isEmpty)).map (·.1))

/-- The block that R133 pre-empts now: of the launch of lowest priority, the later arrival, below that of a ready launch
whose offer finds no core. -/
def State.victim (s : State) : Option Nat :=
  let wanting := s.readyOrder.find? fun (lid, l) => match s.offer lid l with
    | some o => (s.bestCore l.rc.dies (s.offerNeed l o).2 (s.offerNeed l o).1).isNone
    | none => false
  match wanting with
  | none => none
  | some (_, h) =>
    let low := (s.launches.filter fun (lid, (l : Launch)) => decide (l.rc.prio < h.rc.prio) && (s.highestBlock lid).isSome)
    -- lowest priority, the later arrival on a tie
    let less := fun (p x : Nat × Launch) =>
      decide (p.2.rc.prio < x.2.rc.prio) || (p.2.rc.prio == x.2.rc.prio && decide (x.2.order < p.2.order))
    let first := low.foldl (fun (m : Option (Nat × Launch)) p => match m with
      | none => some p
      | some x => if less p x then some p else some x) none
    first.bind fun p => s.highestBlock p.1

/-- A `push` of the wave has not been answered yet: two of its registers are still to be written (R115, R288). -/
def State.pushing (s : State) (u : Nat) : Bool := s.cmds.any fun (_, (c : Cmd)) => c.wave == u && c.stage == .sent

/-- WAVE_CONTEXT_FREE: every thread has exited, every counter is zero, no register write is in flight. -/
def execWaveContextFree (u : Nat) (s : State) : Out :=
  match s.wave u with
  | none => .next s
  | some w =>
    let s1 := (s.flushWave u false).freeSlots u fun _ => true
    event s (w.sect.isNone && w.live == 0 && w.ops.isEmpty && s.quietWave u && !s.pushing u)
      (({ s1 with waves := fdel s1.waves u } : State).lastGone w.blk)

/-- A victim of R133 without a resident wave, not yet started or with its waves all saved still, is unplaced at once, or as soon
as the tile operations of its sequencer, which stops, are complete (R328). -/
def State.unplaceVictim (s : State) : State :=
  match s.victim with
  | none => s
  | some b => match fget s.blocks b with
    | some k =>
      if !(s.wavesOf b).isEmpty then s
      else if !k.started then s.unplace b k.lid
      else (s.modBlock b fun k => { k with leaving := true }).lastGone b
    | none => s

/-- BLOCK_PLACE (R130): what the distributor does in one clk, in which it places at most one block. -/
def execBlockPlace (s : State) : Out :=
  let any := s.readyOrder.any fun (lid, l) => (s.offer lid l).isSome
  let r := s.distribute s.readyOrder
  event s (any && s.phase == 6 && s.inPlace unitPlace 0) (if r.2 then r.1.took unitPlace 1 else r.1.unplaceVictim)

/-- A thread as it is saved: no translation, no monitor; an sc fence is repeated in full (R163, R215). -/
def Thread.saved (t : Thread) : Thread :=
  let t1 := { t with lastPage := none, mon := none }
  match t.wait with
  | .fenceSc _ _ _ => { t1 with wait := .none, pc := pc56 (t.pc - 8) }
  | _ => t1

/-- The block's save begins or goes on: its region, also one that the end of another wave's run has opened since, aborts with
PREEMPT (R242); its waves go on to the end of their runs. -/
def State.beginSave (s : State) (b : Nat) : State :=
  let s1 := s.modBlock b fun k => { k with leaving := true }
  if (fget s1.blocks b).any fun k => k.reg.isSome then s1.abortBlock b none 5 0 else s1

/-- A wave saved at a run boundary; with the last of its block the block is unplaced. -/
def State.saveWave (s : State) (u : Nat) : State :=
  match s.wave u with
  | none => s
  | some w0 =>
    let s0 := s.beginSave w0.blk
    let s2 := s0.flushWave u false
    let s3 := if (s2.wave u).any fun w => w.reg.isSome then s2.abortWave u 5 0 else s2
    match s3.wave u with
    | none => s3
    | some w =>
      let w1 : Wave := { w with
        run := none, resv := none, faultAbort := none
        threads := w.threads.map fun (l, (t : Thread)) => (l, t.saved) }
      let s4 : State := { s3 with waves := fdel s3.waves u, saved := fset s3.saved u w1 }
      s4.lastGone w.blk

/-- WAVE_SAVE: the wave's block is being saved, or is the one that R133 pre-empts; the wave stands between two runs, its
accesses are performed and its fabric packets acknowledged, and the sequencer's tile operations are done (R328, R417). -/
def execWaveSave (u : Nat) (s : State) : Out :=
  let ok := (s.wave u).any fun w => w.sect.isNone && w.run.isNone && s.quietWave u &&
    (fget s.blocks w.blk).any (fun k => (k.leaving || s.victim == some w.blk) && k.seq.all fun q => q.ops.isEmpty) &&
    !s.pushing u && !s.packets.any fun (_, (p : Packet)) => p.wave == u
  event s ok (s.saveWave u)

/-- WAVE_RESUME: on the core its block was placed on again, in ascending wave id (R131), with a new stream (R384). -/
def execWaveResume (u core : Nat) (s : State) : Out :=
  match fget s.saved u with
  | none => .next s
  | some w =>
    let (n, s1) := s.fresh
    let w1 := { w with core := core, ctx := s.newCtx core, since := s.clk, epoch := n, sent := [] }
    let first := s.saved.all fun (_, (x : Wave)) => x.blk != w.blk || decide (w.wid ≤ x.wid)
    event s (first && (fget s.blocks w.blk).any fun k => k.placed && !k.leaving && k.core == core)
      { s1 with saved := fdel s.saved u, waves := fset s.waves u w1 }

/-! ### fetchw (R141) -/

/-- The answer to a request: code, and the block withdrawn. -/
def State.fetchCode (s : State) (lid : Nat) : Nat × Option Nat :=
  match fget s.launches lid with
  | none => (3, none)
  | some l =>
    if !l.rc.fetch || l.status.final then (3, none)
    else if !s.readyLaunch l then (2, none)
    else if l.next ≥ l.rc.gridBlocks then (1, none)
    else (0, some l.next)

/-- A mailbox written: the words, then the flag word. -/
def State.mailbox (s : State) (port va : Nat) (x y z flag : Nat) : State :=
  match s.walkVa port va with
  | .error _ => s
  | .ok e => s.write none false (if e.swm then some 0 else none) (e.key va)
      (bytesOf x 4 ++ bytesOf y 4 ++ bytesOf z 4 ++ bytesOf flag 4)

/-- FETCHW_ANSWER: the oldest request of a core; in one clk the cores are served in ascending order. -/
def execFetchwAnswer (core : Nat) (s : State) : Out :=
  match (if s.inPlace unitFetch core then (s.core core).fetchq else []) with
  | [] => .next s
  | q :: rest =>
    let s1 := (s.took unitFetch core).modCore core fun c => { c with fetchq := rest }
    match s.fetchCode q.lid, fget s.launches q.lid with
    | (_, some n), some l =>
      let s2 := (s1.modLaunch q.lid fun l => { l with next := l.next + 1 }).noteRunning q.lid
      .next (s2.mailbox q.port q.addr.toNat (n % l.rc.gx) (n / l.rc.gx % l.rc.gy) (n / (l.rc.gx * l.rc.gy)) (2 ^ 31))
    | (code, _), _ => .next (s1.mailbox q.port q.addr.toNat 0 0 0 (2 ^ 31 + code))

end Sys2Proof.Machine
end

