-- ==== Sys2Proof/Machine/Blend.lean ====
section
/-!
DEFINITION. What the fabric engines, the destination packages and the leaders of blends do
(spec/16_fabric_and_blends.md, R381 to R403), and the effects of a member's death on requests and homes (R275, R401).
-/
namespace Sys2Proof.Machine

/-! ### Performing a packet at its destination (R382, R392) -/

/-- The access kind a packet's checks use. -/
def ingressKind (kind : Nat) : Nat := if kind = 1 then 0 else if kind = 2 then 2 else 1

/-- The check of one entry: the page, the partition and the alignment; the data it reads. -/
def State.ingressCheck (s : State) (p : ForeignPacket) (l : Nat) (va : DWord) : Except Nat TlbEntry :=
  let n := entryBytes p l
  if !(s.port p.port).holds va.toNat n then .error cPROTECTION
  else match s.walkVa p.port va.toNat with
    | .error c => .error c
    | .ok e => match permitted true (ingressKind p.kind) e.pte with
      | some c => .error c
      | none =>
        if va.toNat % n ≠ 0 then .error cMISALIGNED
        else if (p.kind == 1 || p.kind == 2) && s.badAt (if e.swm then some 0 else none) (e.key va.toNat) n then .error cCORK
        else .ok e

/-- The places that a packet writes. -/
def State.ingressPlaces (s : State) (p : ForeignPacket) : List (Nat × TlbEntry) :=
  p.lanes.flatMap fun (l, va, _) => match s.ingressCheck p l va with
    | .error _ => []
    | .ok e => (List.range (entryBytes p l)).map fun i => (va.toNat + i, e)

/-- The first entry that fails; then a write that would merge with a line whose old cork does not match (R410). -/
def State.ingressFault (s : State) (p : ForeignPacket) : Option Nat :=
  match p.lanes.findSome? fun (l, va, _) => match s.ingressCheck p l va with
    | .error c => some c
    | .ok _ => none with
  | some c => some c
  | none => if p.kind != 1 && s.mergeFails 0 (s.ingressPlaces p) then some cCORK else none

/-- A write that no T-core makes reclassifies a READONLY page; the record's core is open (R170). -/
def State.claimOut (s : State) (va : Nat) (e : TlbEntry) : State :=
  if e.pteAddr ≠ 0 ∧ pCLASS (s.pteOf e) = 1 then
    State.reclassify { s with ctr := s.ctr + 1 } ((Config.freeWord s.ctr).toNat % Config.tCores) va e
  else s

/-- Bytes of one entry read, written. -/
def State.inGet (s : State) (e : TlbEntry) (va n : Nat) : Nat := s.numAt (if e.swm then some 0 else none) (e.key va) n
def State.inPut (s : State) (e : TlbEntry) (va x n : Nat) : State :=
  (s.claimOut va e).write none false (if e.swm then some 0 else none) (e.key va) (bytesOf x n)

/-- One entry performed: the value it brings back with its flags. -/
def State.ingressOne (s : State) (p : ForeignPacket) (l : Nat) (va : DWord) (x : QWord) : State × (Nat × QWord × Word) :=
  match s.ingressCheck p l va with
  | .error _ => (s, l, 0, 0)
  | .ok e =>
    let n := entryBytes p l
    let a := va.toNat
    match p.kind with
    | 1 => (s.hold (if e.swm then some 0 else none) (e.key a), l, BitVec.ofNat 128 (s.inGet e a n), 0)
    | 2 =>
      let m := s.inGet e a n
      let r := atomOp p.opk n m (x.toNat % 2 ^ (8 * n))
      (s.inPut e a r.1 n, l, BitVec.ofNat 128 m, BitVec.ofNat 32 r.2)
    | 4 =>
      let old := s.inGet e a 1
      let b := if l = 1 then old / 16 * 16 + x.toNat % 16 else if l = 2 then old % 16 + x.toNat % 16 * 16 else x.toNat
      (s.inPut e a b n, l, 0, 0)
    | _ => (s.inPut e a x.toNat n, l, 0, 0)

/-- A packet performed, or failed; none while a page is absent. -/
def State.ingress (s : State) (p : ForeignPacket) : Option (State × PacketResult) :=
  match s.ingressFault p with
  | some c => if c = cNOTPRESENT then none else some (s, .failed c)
  | none =>
    let r := p.lanes.foldl (fun (a : State × List (Nat × QWord × Word)) (l, va, x) =>
      let (s1, v) := a.1.ingressOne p l va x
      (s1, a.2 ++ [v])) (s, [])
    some (if p.kind = 1 then r.1 else r.1.recork 0 (s.ingressPlaces p), .values r.2)

/-! ### Arrival counts (R382, R385) -/

/-- The entry of a packet's stream and a path. -/
def arrivalOn (p : ForeignPacket) (k : Nat) (a : Arrival) : Bool :=
  a.port == p.port && a.member == p.member && a.core == p.core && a.ctx == p.ctx && a.epoch == p.epoch && a.path == k

/-- How many write packets of the stream have completed on a path. -/
def State.arrived (s : State) (p : ForeignPacket) (k : Nat) : Nat :=
  match s.arrivals.find? (arrivalOn p k) with
  | some a => a.count
  | none => 0

/-- One more has completed. -/
def State.countArrival (s : State) (p : ForeignPacket) : State :=
  if !pktWrite p then s
  else if s.arrivals.any (arrivalOn p p.path) then
    { s with arrivals := s.arrivals.map fun a => if arrivalOn p p.path a then { a with count := (a.count + 1) % 2 ^ 32 } else a }
  else { s with arrivals := s.arrivals ++ [⟨p.port, p.member, p.core, p.ctx, p.epoch, p.path, 1⟩] }

/-- A count has reached another in serial arithmetic. -/
def reached (have_ want : Nat) : Bool := decide ((have_ + 2 ^ 32 - want % 2 ^ 32) % 2 ^ 32 < 2 ^ 31)

/-- The flag may be applied: every path of its stream has caught up. -/
def State.flagDue (s : State) (p : ForeignPacket) : Bool :=
  match p.counts with
  | none => true
  | some cs => ((List.range 4).zip cs).all fun (k, n) => reached (s.arrived p k) n

/-- A held flag of the stream to the same sector stands before the packet. -/
def State.behindFlag (s : State) (p : ForeignPacket) : Bool :=
  s.heldFlags.any fun (_, (f : HeldFlag)) => sameStream f.pkt p && pktSector f.pkt == pktSector p

/-- The result of an own packet noted for its acknowledgement. -/
def State.setResult (s : State) (own : Option Nat) (r : PacketResult) : State :=
  match own with
  | some id => { s with packets := fmod s.packets id fun p => { p with res := some r } }
  | none => s

/-- A packet performed and counted. -/
def State.finishPacket (s : State) (p : ForeignPacket) (own : Option Nat) : Option State :=
  (s.ingress p).map fun (s1, r) => (s1.countArrival p).setResult own r

/-- A packet that has arrived: performed, or held as an ordered flag; one whose page is absent stands and waits, and goes on
when firmware has made the page present. -/
def State.arrivePacket (s : State) (src : PacketSrc) (p : ForeignPacket) (own : Option Nat) : Option State :=
  if s.flagDue p then
    match s.finishPacket p own with
    | some s1 => some { s1 with stalled := s1.stalled.filter fun x => x != src }
    | none => if s.stalled.contains src then none else some { s with stalled := s.stalled ++ [src] }
  else
    let (id, s1) := s.fresh
    some { s1 with heldFlags := fset s1.heldFlags id ⟨p, own⟩ }

/-- The packet is addressed to this package. -/
def State.toSelf (s : State) (p : Packet) : Bool :=
  s.ports.any fun (_, (q : Port)) => q.blend == some (p.blend, p.member)

/-- The function of this package with which the destination member joined the blend: its address space holds the packet's
addresses (R378). -/
def State.destPort (s : State) (p : Packet) : Nat :=
  match s.ports.find? fun (_, (q : Port)) => q.blend == some (p.blend, p.member) with
  | some (n, _) => n
  | none => p.pkt.port

/-- The packet that an arrival brings, and the own packet that it is. -/
def State.arriving (s : State) (src : PacketSrc) : Option (ForeignPacket × Option Nat) :=
  match src with
  | .foreign p => some (p, none)
  | .own id => (fget s.packets id).map fun p => ({ p.pkt with port := s.destPort p }, some id)

/-- Two packets come to this package on one path. -/
def samePath (p q : ForeignPacket) : Bool := p.member == q.member && p.port == q.port && p.path == q.path

/-- A packet that waits for a page stands before the packet on its path (R382). -/
def State.behindStalled (s : State) (src : PacketSrc) (p : ForeignPacket) : Bool :=
  s.stalled.any fun x => x != src && (s.arriving x).any fun y => samePath y.1 p

/-- An own packet to this package has left, and its stream's earlier packets on its path have been performed. -/
def State.ownArrives (s : State) (id : Nat) (p : Packet) : Bool :=
  let held := fun (k : Nat) => s.heldFlags.any fun (_, (f : HeldFlag)) => f.own == some k
  let before := s.packets.any fun (k, (q : Packet)) =>
    decide (k < id) && q.wave == p.wave && q.blend == p.blend && q.member == p.member && q.pkt.path == p.pkt.path &&
      q.res.isNone && q.pkt.kind != 4 && p.pkt.kind != 4 && !held k
  s.toSelf p && p.res.isNone && !held id && !before && s.left id p

/-- FABRIC_PACKET_ARRIVE: a path delivers its stream's packets in order. -/
def execFabricPacketArrive (src : PacketSrc) (s : State) : Out :=
  match s.arriving src with
  | none => .next s
  | some (p, own) =>
    let ok := match own with
      | some id => (fget s.packets id).any fun q => s.ownArrives id q
      | none => true
    if !ok || s.behindFlag p || s.behindStalled src p then .next s
    else happens s (s.arrivePacket src p own)

/-- The arrival that brings a held flag. -/
def HeldFlag.src (f : HeldFlag) : PacketSrc :=
  match f.own with
  | some id => .own id
  | none => .foreign f.pkt

/-- ORDERED_FLAG_APPLY; a flag whose page is absent stands and waits for it. -/
def execOrderedFlagApply (idx : Nat) (s : State) : Out :=
  match fget s.heldFlags idx with
  | none => .next s
  | some f =>
    let s0 : State := { s with heldFlags := fdel s.heldFlags idx }
    event s (s.flagDue f.pkt) ((s0.finishPacket f.pkt f.own).getD { s0 with stalled := s0.stalled ++ [f.src] })

/-! ### Acknowledgements (R382, R386, R389, R391, R392) -/

/-- Groups in `ffence` whose write packets are all acknowledged. -/
def State.releaseFfence (s : State) (u : Nat) : State :=
  match s.anyWave u with
  | none => s
  | some w =>
    let due : List (Word × Nat × DWord) := w.threads.filterMap fun (_, t) => match t.wait with
      | .ffence n g => if s.abroad u n then none else some (g, n, t.pc)
      | _ => none
    let gs := due.foldl (fun l (x : Word × Nat × DWord) => if l.any (fun y : Word × Nat × DWord => y.1 == x.1) then l else l ++ [x]) []
    gs.foldl (fun s (g, n, pc) => match s.anyWave u with
      | none => s
      | some w =>
        let m := maskOf ((w.active g).filterMap fun (l, t) => if t.wait == .ffence n g && !t.exited then some l else none)
        let s1 := s.modAny u fun w => w.wakeBy s.clk fun w => w.mapMask m fun _ t => { t with wait := .none }
        match w.packetFailure n with
        | some f => s1.reportFailure u m f (pc56 (pc - 8))
        | none => s1) s

/-- The value a lane receives, with its flags. -/
def PacketValue (r : PacketResult) (l : Nat) : QWord × Word :=
  match r with
  | .values vs => (match vs.find? fun v => v.1 == l with
    | some (_, x, f) => (x, f)
    | none => (0, 0))
  | .failed _ => (0, 0)

/-- The code of a failed packet. -/
def packetCode (r : PacketResult) : Option Nat :=
  match r with
  | .values _ => none
  | .failed c => some c

/-- A packet acknowledged: values into registers, a failure noted, the word's counter. -/
def State.acknowledge (s : State) (id : Nat) (p : Packet) (r : PacketResult) : State :=
  let s1 : State := { s with packets := fdel s.packets id }
  if p.pkt.kind = 4 then
    match packetCode r with
    | some c => { s1 with cmds := s1.cmds.map fun (k, (x : Cmd)) => (k, if x.op = p.op then { x with fault := some c } else x) }
    | none => s1
  else
    let put := fun (s : State) (l : Nat) => s.modAny p.wave fun w => w.modTh l fun t =>
      let v := PacketValue r l
      if p.pkt.kind = 1 ∨ p.pkt.kind = 2 then
        { (t.setSized p.dst p.pkt.size p.sext v.1.toNat) with fflags := t.fflags ||| (v.2 &&& fflagsMask) }
      else t
    let s2 := p.pkt.lanes.foldl (fun s (l, _, _) => put s l) s1
    let s3 := match packetCode r with
      | some c => s2.modAny p.wave fun w => { w with fails := w.fails ++ [w.failed p.op 2 c (0x80 + p.pkt.kind)] }
      | none => s2
    (s3.partDone p.wave p.op).releaseFfence p.wave

/-- FABRIC_ACK: of a packet performed here, or from another package. -/
def execFabricAck (id : Nat) (res : Option PacketResult) (s : State) : Out :=
  match fget s.packets id with
  | none => .next s
  | some p =>
    if s.toSelf p then
      match p.res with
      | some r => .next (s.acknowledge id p r)
      | none => .next s
    else event s (s.left id p) (s.acknowledge id p (res.getD (.values [])))

/-! ### Links (R381, R382) -/

/-- Fabric ports of a package: nine on each die. -/
def fabricPorts : Nat := 36

/-- A link taken down: path labels and counts stay as they are (R381). -/
def State.takeDown (s : State) (link : Nat) : State :=
  { s with linksDown := sinsert s.linksDown link, crcRetries := fdel s.crcRetries link }

/-- FLIT_CRC_FAIL: the flit is resent, `again` where it is a resend that failed; after 16 of those in a row the link is taken
down (R382). -/
def execFlitCrcFail (flit : FlitFail) (s : State) : Out :=
  let ⟨link, again⟩ := flit
  let up := decide (link < fabricPorts) && !s.linksDown.contains link
  let n := if again then (fget s.crcRetries link).getD 0 + 1 else 0
  event s (up && (!again || (fget s.crcRetries link).isSome))
    (if 16 ≤ n then s.takeDown link else { s with crcRetries := fset s.crcRetries link n })

/-- LINK_FAIL. -/
def execLinkFail (link : Nat) (s : State) : Out :=
  event s (decide (link < fabricPorts) && !s.linksDown.contains link) (s.takeDown link)

/-! ### FPUT (R395) -/

/-- The bytes a command's result goes to. -/
def Cmd.destBytes (c : Cmd) : List Nat :=
  (((Tensor.parse c.drec false).map Tensor.span).getD []) ++ (List.range 1088).map fun i => cXREC c.words + i

/-- The bytes a command reads. -/
def Cmd.sourceBytes (c : Cmd) : List Nat := ((Tensor.parse c.srec false).map Tensor.span).getD []

/-- The address of an FPUT's flag, and its size; none without a flag. -/
def Cmd.putFlag (c : Cmd) : Option (Nat × Nat) :=
  if cmdFld c.words 0x28 0 0 = 1 then some ((c.xcap.base + cXREC c.words) % 2 ^ 64, if cmdFld c.words 0x28 1 1 = 1 then 8 else 4)
  else none

/-- The bytes that an FPUT writes at its member. -/
def Cmd.putBytes (c : Cmd) : List Nat :=
  (((Tensor.parse c.drec false).map Tensor.span).getD []) ++ match c.putFlag with
    | some (va, n) => (List.range n).map fun i => va + i
    | none => []

/-- Packets of an FPUT are unacknowledged. -/
def State.putting (s : State) (c : Cmd) : Bool := s.packets.any fun (_, (p : Packet)) => p.pkt.kind == 4 && p.op == c.op

/-- The earlier command leaves the bytes that this one touches alone: one that moved or sent its data, unless both put to the same
bytes of a member (R291); a collective that has contributed. -/
def State.clearOf (s : State) (d c : Cmd) : Bool :=
  match d.stage with
  | .complete => true
  | .moved | .sending =>
    cKIND c.words != kFPUT || cKIND d.words != kFPUT || d.dcap.member != c.dcap.member || (d.unsent.isEmpty && !s.putting d) ||
      d.putBytes.all fun x => !c.putBytes.contains x
  | .contributed => d.destBytes.all fun x => !c.sourceBytes.contains x && !c.destBytes.contains x
  | _ => false

/-- Earlier fabric commands of the wave are clear of this one. -/
def State.inTurnFab (s : State) (id : Nat) (c : Cmd) : Bool :=
  (s.cmdsOf c.wave 2).all fun (k, d) => decide (k ≥ id) || s.clearOf d c

/-- The entries an FPUT packet carries for one element. -/
def Tensor.entries (t : Tensor) (idx : List Nat) (x : Nat) : List (Nat × DWord × QWord) :=
  let a := t.bit idx / 8
  let v := t.stored x
  if t.width < 8 then [(if t.bit idx % 8 = 0 then 1 else 2, BitVec.ofNat 64 a, BitVec.ofNat 128 v)]
  else (List.range (t.width / 8)).map fun i => (0, BitVec.ofNat 64 (a + i), BitVec.ofNat 128 (v / 256 ^ i % 256))

/-- Checks of an FPUT's destination and flag against their remote capabilities. -/
def Cmd.fputCheck (c : Cmd) (b : Tensor) (fva fsize : Nat) (fv : Bool) : Option Nat :=
  if c.dcap.space ≠ 2 ∨ (fv ∧ (c.xcap.space ≠ 2 ∨ c.xcap.member ≠ c.dcap.member)) then some cPERM
  else match b.span.findSome? fun va => capCheck c.dcap va 1 pSTORE 2 with
    | some e => some e
    | none =>
      if fv then (match capCheck c.xcap fva fsize pSTORE 2 with
        | some e => some e
        | none => if fva % fsize ≠ 0 then some cMISALIGNED else none)
      else none

/-- Entries cut into packets: at most the 128 half bytes of a sector in one, so that each fits the smallest window (R383). -/
def inPackets (es : List (Nat × DWord × QWord)) : List (List (Nat × DWord × QWord)) :=
  (List.range ((es.length + 127) / 128)).map fun i => (es.drop (128 * i)).take 128

/-- The entries by the 64-byte sector they go to, in ascending order: those of one sector leave in one packet (log entry 38), or in
several where elements lie on one another. -/
def bySector (es : List (Nat × DWord × QWord)) : List (List (Nat × DWord × QWord)) :=
  (es.foldl (fun l e => sinsert l (e.2.1.toNat / 64)) []).flatMap fun k => inPackets (es.filter fun e => e.2.1.toNat / 64 == k)

/-- FPUT: the source checked and read; packets with the data are to be sent, and after them the flag. -/
def State.runFput (id : Nat) (s : State) (c : Cmd) : JobEnd :=
  match Tensor.parse c.srec false, Tensor.parse c.drec false with
  | some a, some b =>
    if a.code ≠ b.code ∨ a.un ≠ b.un ∨ a.count ≠ b.count then .fails cTILE
    else
      let (fva, fsize) := c.putFlag.getD (0, 4)
      match c.fputCheck b fva fsize c.putFlag.isSome with
      | some e => .fails e
      | none =>
        if !s.memberLive c.port c.dcap.member then .fails cMEMBERDEAD
        else match s.engReads c.core c.port c.scap a.span with
          | .error e => if e = cNOTPRESENT then .waits else .fails e
          | .ok rs =>
            let s1 := rs.foldl (fun s (va, e) => s.claim c.core va false e) s
            let data := (a.all.zip b.all).flatMap fun (i, j) => b.entries j (s.engElem c.core c.port a i)
            let flag := if c.putFlag.isSome then [[(3, BitVec.ofNat 64 fva, BitVec.ofNat 128 (cPAT c.words))]] else []
            let self := match s.blendOf c.port with
              | some (_, _, m) => m
              | none => 0
            let ps := (bySector data ++ flag).map fun l => (⟨self, c.core, 0, 0, 0, c.port, 4, 0, fsize, true, none, l⟩ : ForeignPacket)
            .done { s1 with cmds := fmod s1.cmds id fun c => { c with unsent := ps } } 0 none
  | _, _ => .fails cTILE

/-- A packet of an FPUT sent: it belongs to no wave's stream. -/
def State.sendPut (s : State) (c : Cmd) (p : ForeignPacket) : State :=
  let die := dieOf c.core
  let blend := match s.blendOf c.port with
    | some (n, _, _) => n
    | none => 0
  let k := s.emptiest die blend c.dcap.member
  let (id, s1) := s.fresh
  { s1 with packets := fset s1.packets id ⟨c.wave, die, c.dcap.member, blend, c.op, 0, 0, false, { p with path := k }, none, 0⟩ }

/-- The packets of an FPUT that its die's engine can send now: data while it has room (R383), the flag once every data packet is
acknowledged (R395). -/
def State.putsDue (s : State) (c : Cmd) : List ForeignPacket :=
  let room := 8192 - s.dieLoad (dieOf c.core)
  let data := c.unsent.takeWhile fun p => p.lanes.all fun x => x.1 != 3
  if !data.isEmpty then data.take room
  else if s.putting c then []
  else c.unsent.take room

/-- An FPUT sends what it can; all sent, it has moved. A member that is no longer LIVE ends it. -/
def State.goPut (s : State) (id : Nat) : State :=
  match fget s.cmds id with
  | none => s
  | some c =>
    if c.stage ≠ .sending then s
    else if !s.memberLive c.port c.dcap.member then
      { s with cmds := fmod s.cmds id fun c => { c with stage := .moved, fault := some cMEMBERDEAD, unsent := [] } }
    else
      let ps := s.putsDue c
      let rest := c.unsent.drop ps.length
      let s1 := ps.foldl (fun s p => s.sendPut c p) s
      { s1 with cmds := fmod s1.cmds id fun c => { c with unsent := rest, stage := if rest.isEmpty then .moved else .sending } }

/-- A fabric command's step; none where it is not its turn, or where it waits. -/
def State.fabStep (s : State) (id : Nat) (ok : Cmd → Bool) (after : CmdStage) (run : State → Cmd → JobEnd) : Option State :=
  match fget s.cmds id with
  | none => none
  | some c =>
    let put : State → CmdStage → Option Nat → Word → State := fun s g f fl =>
      { s with cmds := fmod s.cmds id fun c => { c with stage := g, fault := f, flags := fl } }
    if !ok c || c.stage ≠ .queued || !s.inTurnFab id c then none
    else match c.fault with
      | some f => some (put s .moved (some f) 0)
      | none => match run s c with
        | .waits => none
        | .fails f => some (put s .moved (some f) 0)
        | .done s1 fl f => some (put s1 after f fl)

/-- FPUT: the command starts, or goes on sending. -/
def State.putStep (s : State) (cmd : Nat) : Option State :=
  (fget s.cmds cmd).bind fun c =>
    if c.stage = .sending then
      (if !s.memberLive c.port c.dcap.member || !(s.putsDue c).isEmpty then some (s.goPut cmd) else none)
    else (s.fabStep cmd (fun c => cKIND c.words == kFPUT) .sending (State.runFput cmd)).map fun s1 => s1.goPut cmd

def execFput (cmd : Nat) (s : State) : Out := happens s (s.putStep cmd)

/-! ### Racking logs (R402) -/

/-- Capacity of a racking log. -/
def rackCapacity : Nat := min Config.rackBytes (2 ^ 28)

/-- A port function in a blend keeps its log while its member is LIVE or JOINING. -/
def State.keepsLog (s : State) (p : Port) (blend : Nat) : Bool :=
  match p.blend, fget s.blends blend with
  | some (n, m), some b => n == blend && (b.st m == eLIVE || b.st m == eJOINING)
  | _, _ => false

/-- An entry appended; a mark empties the log first. A joining member also has it to replay. -/
def Port.append (p : Port) (joining : Bool) (e : LogEntry) : Port :=
  let mark := match e with
    | .mark _ _ _ => true
    | _ => false
  { p with
    log := (if mark then [] else p.log) ++ [e]
    replay := if joining then (if mark then [] else p.replay) ++ [e] else p.replay }

/-- A port function is the JOINING member of a blend. -/
def State.joins (s : State) (p : Port) (blend : Nat) : Bool :=
  match p.blend, fget s.blends blend with
  | some (n, m), some b => n == blend && b.st m == eJOINING
  | _, _ => false

/-- Generation `a` comes after `b`, in serial arithmetic of n bits. -/
def later (n a b : Nat) : Bool :=
  let d := (a % 2 ^ n + 2 ^ n - b % 2 ^ n) % 2 ^ n
  decide (0 < d) && decide (d < 2 ^ (n - 1))

/-- An entry of a blend table (Table 16.1). -/
def entryOf (st pkg gen : Nat) : Word := BitVec.ofNat 32 (st * 2 ^ 30 + pkg % 2 ^ 12 * 2 ^ 16 + gen % 2 ^ 16)

/-- A membership entry updates a spare's view of the table: a slot that changed later stays, and so does the spare's own (R403,
log entry 120). -/
def State.viewMember (s : State) (blend gen m st : Nat) : State :=
  match fget s.blends blend with
  | none => s
  | some b =>
    let old := rget b.ents m
    let own := s.ports.any fun (_, (p : Port)) => p.blend == some (blend, m)
    { s with blends := fset s.blends blend { b with
        gen := if later 32 gen b.gen then gen else b.gen
        ents := if own || !later 16 gen (bfld old 15 0) then b.ents else rset b.ents m (entryOf st (bfld old 27 16) gen) } }

/-- Membership entries of a log, in order. -/
def State.viewAll (s : State) (blend : Nat) (es : List LogEntry) : State :=
  es.foldl (fun s e => match e with
    | .member g m st => s.viewMember blend g m st
    | _ => s) s

/-- What a joining member has to replay, up to its next collective, takes effect. -/
def State.settleView (s : State) (n : Nat) : State :=
  let p := s.port n
  let due := p.replay.takeWhile fun e => match e with
    | .coll _ => false
    | _ => true
  match p.blend with
  | some (blend, _) => if due.isEmpty then s else (s.viewAll blend due).modPort n fun p => { p with replay := p.replay.drop due.length }
  | none => s

/-- The same for every JOINING function of a blend. -/
def State.settleJoining (s : State) (blend : Nat) : State :=
  ((s.ports.filter fun (_, (p : Port)) => s.joins p blend).map (·.1)).foldl State.settleView s

/-- An entry appended to the logs that this package keeps for a blend. -/
def State.appendLog (s : State) (blend : Nat) (e : LogEntry) : State :=
  ({ s with ports := s.ports.map fun (n, (p : Port)) =>
      (n, if s.keepsLog p blend then p.append (s.joins p blend) e else p) } : State).settleJoining blend

/-! ### Collectives (R397 to R400) -/

/-- The lowest LIVE member. -/
def Blend.leader (b : Blend) : Option Nat := (b.inState eLIVE).head?

/-- The port function of this package in a blend, with its member index. -/
def State.selfIn (s : State) (blend : Nat) : Option (Nat × Nat) :=
  s.ports.findSome? fun (n, (p : Port)) => match p.blend with
    | some (k, m) => if k = blend then some (n, m) else none
    | none => none

/-- This package leads the blend. -/
def State.leads' (s : State) (blend : Nat) : Bool :=
  match fget s.blends blend, s.selfIn blend with
  | some b, some (_, m) => b.leader == some m
  | _, _ => false

/-- One step of a fold of ALLRED. -/
def reduceStep (rop code : Nat) (a b : Nat) : Res :=
  match Fmt.ofCode code false with
  | some f =>
    if f.isFloat then
      (match rop with
        | 0 => fAdd f .rne a b
        | 1 => fMinMax f true false a b
        | _ => fMinMax f false false a b)
    else
      (match rop with
        | 0 => ((a + b) % 2 ^ 32, 0)
        | 1 => (if signExt a 32 < signExt b 32 then b else a, 0)
        | _ => (if signExt b 32 < signExt a 32 then b else a, 0))
  | none => (a, 0)

/-- The fold over contributors in ascending member order, element by element. -/
def reduceAll (rop code : Nat) : List Contribution → List Word × Nat
  | [] => ([], 0)
  | c :: t => t.foldl (fun (acc : List Word × Nat) d =>
      let rs := (acc.1.zip d.elems).map fun (a, b) => reduceStep rop code a.toNat b.toNat
      (rs.map fun r => BitVec.ofNat 32 r.1, rs.foldl (fun f r => f ||| r.2) acc.2)) (c.elems, 0)

/-- Two contributions agree in what R397 asks. -/
def agree (a b : Contribution) : Bool :=
  a.cop == b.cop && a.rop == b.rop && a.fmt == b.fmt && a.root == b.root && a.elems.length == b.elems.length

/-- The log entry of a decided collective: of members that disagree there is no mark (R402). -/
def collEntry (r : CollResult) : LogEntry := if r.cop = 3 ∧ r.status ≠ 3 then .mark r.gen r.seq r.ckpt else .coll r

/-- The result of a decision. -/
def decideColl (b : Blend) (k : Coll) (rack : Nat) : CollResult :=
  let live := b.inState eLIVE
  let all := live.filterMap fun m => k.cs.find? fun c => c.member == m
  let good := all.filter fun c => !c.poison
  let c0 : Contribution := all.headD ⟨k.blend, k.seq, 0, false, 0, 0, 0, 0, 0, []⟩
  let n := c0.elems.length
  let zeros : List Word := List.replicate n 0
  let red := reduceAll c0.rop c0.fmt good
  let elems : List Word := match c0.cop with
    | 0 => if good.isEmpty then zeros else red.1
    | 1 => (List.range b.size).flatMap fun m => match good.find? fun c => c.member == m with
      | some c => c.elems
      | none => zeros
    | 2 => (match good.find? fun c => c.member == c0.root with
      | some c => c.elems
      | none => zeros)
    | _ => []
  let shrunk := k.live.any fun m => !live.contains m
  let r : CollResult :=
    { blend := k.blend, seq := k.seq, cop := c0.cop, fmt := c0.fmt
      status := if shrunk then 1 else 0
      gen := b.gen
      ckpt := if c0.cop = 3 then c0.ckpt else 0
      cmask := good.map fun c => c.member
      pmask := (all.filter fun c => c.poison).map fun c => c.member
      elems := elems
      flags := if c0.cop = 0 then BitVec.ofNat 32 red.2 else 0 }
  let r1 := if all.any fun c => !agree c0 c then { r with status := 3, elems := [], flags := 0 } else r
  match collEntry r1 with
  | .coll _ => if rack + LogEntry.bytes (.coll r1) > rackCapacity then { r1 with status := 2, elems := [], flags := 0 } else r1
  | _ => r1

/-- A collective decided if every LIVE member's contribution is there. -/
def State.tryDecide (s : State) (blend seq : Nat) : State :=
  match fget s.blends blend, s.colls.find? (fun k => k.blend == blend && k.seq == seq), s.selfIn blend with
  | some b, some k, some (port, _) =>
    if !((b.inState eLIVE).all fun m => k.cs.any fun c => c.member == m) then s
    else
      let r := decideColl b k (logBytes (s.port port).log)
      let s1 : State := { s with
        colls := s.colls.filter fun x => !(x.blend == blend && x.seq == seq)
        decided := s.decided ++ [r] }
      if r.status = 2 then s1 else s1.appendLog blend (collEntry r)
  | _, _, _ => s

/-- Contributions at the leader: at the first receipt, with the members then LIVE. -/
def State.addColl (s : State) (x : Coll) : State :=
  let hit := fun (k : Coll) => k.blend == x.blend && k.seq == x.seq
  let s1 : State :=
    if s.colls.any hit then { s with colls := s.colls.map fun k => if hit k then { k with cs := k.cs ++ x.cs } else k }
    else { s with colls := s.colls ++ [x] }
  s1.tryDecide x.blend x.seq

/-- A contribution as it leaves, with the members LIVE at that moment. -/
def State.offerColl (s : State) (c : Contribution) : Coll :=
  ⟨c.blend, c.seq, ((fget s.blends c.blend).map fun b => b.inState eLIVE).getD [], [c]⟩

/-- A contribution at the leader. -/
def State.contribute (s : State) (c : Contribution) : State := s.addColl (s.offerColl c)

/-- The shape rules of a COLL (R396); a member that is not the root of a BCAST has no source. -/
def Cmd.collShape (c : Cmd) (size : Nat) (root : Bool) : Bool :=
  match cCOP c.words with
  | 3 => true
  | 2 => (match Tensor.parse c.drec false with
    | none => false
    | some b => if root then (match Tensor.parse c.srec false with
        | some a => a.code == b.code && a.un == b.un && a.count == b.count
        | none => false) else true)
  | k => match Tensor.parse c.srec false, Tensor.parse c.drec false with
    | some a, some b =>
      if k = 0 then a.code == b.code && !a.un && !b.un && (a.code == 0 || a.code == 2 || a.code == 8) && a.count == b.count
      else a.code == b.code && a.un == b.un && b.count == size * a.count
    | _, _ => false

/-- The record's place checked for writing. -/
def State.recordCheck (s : State) (c : Cmd) : Option Nat :=
  match capCheck c.xcap (cXREC c.words) 1088 pSTORE 0 with
  | some e => some e
  | none =>
    if cXREC c.words % 64 ≠ 0 then some cMISALIGNED
    else match s.engWrites c.core c.port c.xcap ((List.range 1088).map fun i => cXREC c.words + i) with
      | .error e => some e
      | .ok ws => if s.mergeFails (dieOf c.core) ws then some cCORK else none

/-- The destination checked for writing. -/
def State.destCheck (s : State) (c : Cmd) : Option Nat :=
  match cCOP c.words, Tensor.parse c.drec false with
  | 3, _ | _, none => none
  | _, some b => match s.engWrites c.core c.port c.dcap b.span with
    | .error e => some e
    | .ok ws => if s.mergeFails (dieOf c.core) ws then some cCORK else none

/-- A result record (Table 16.7). -/
def recordBytes (r : CollResult) : List Byte :=
  let bits := fun (ms : List Nat) => (ms.map fun m => 2 ^ m).foldl (· ||| ·) 0
  bytesOf (r.status % 256) 4 ++ bytesOf r.gen 4 ++ bytesOf r.seq 4 ++ bytesOf r.cmask.length 4 ++ bytesOf r.ckpt.toNat 8 ++
    List.replicate 40 0 ++ bytesOf (bits r.cmask) 512 ++ bytesOf (bits r.pmask) 512

/-- The pages of bytes to be written claimed (R170), and new corks for lines that they fill. -/
def State.claimBytes (s : State) (c : Cmd) (cap : Cap) (vas : List Nat) : State :=
  match s.engWrites c.core c.port cap vas with
  | .error _ => s
  | .ok ws => (ws.foldl (fun s (va, e) => s.claim c.core va true e) s).recork (dieOf c.core) ws

/-- A result written for a command: the pages claimed, then the destination data, then the record. -/
def State.writeResult (s : State) (c : Cmd) (r : CollResult) : State :=
  let dst := if r.status = 2 ∨ r.status = 3 ∨ r.cop = 3 then none else Tensor.parse c.drec false
  let s0 := match dst with
    | some b => s.claimBytes c c.dcap b.span
    | none => s
  let s1 := s0.claimBytes c c.xcap ((List.range 1088).map fun i => cXREC c.words + i)
  let s2 := match dst with
    | some b => (b.all.zip r.elems).foldl (fun (s : State) (x : List Nat × Word) => s.engSet c.core c.port b x.1 x.2.toNat) s1
    | none => s1
  s2.engPuts c.core c.port (cXREC c.words) (recordBytes r)

/-- What this member contributes. -/
def State.contribution (s : State) (c : Cmd) (blend self : Nat) (root poison : Bool) : Contribution :=
  let a := Tensor.parse c.srec false
  let b := Tensor.parse c.drec false
  let elems : List Word := match a with
    | some a => a.all.map fun i => if poison then 0 else BitVec.ofNat 32 (s.engElem c.core c.port a i)
    | none => []
  let n := match b with
    | some b => b.count
    | none => 0
  let w := c.words
  { blend := blend, seq := cmdFld w 0x20 31 0, member := self, poison := poison, cop := cCOP w, rop := cROP w
    fmt := match b with | some b => b.code + (if b.un then 16 else 0) | none => 0
    root := cROOT w
    ckpt := BitVec.ofNat 64 (if cCOP w = 3 then cmdFld w 0x28 63 0 else 0)
    elems := if cCOP w = 3 then [] else if cCOP w = 2 ∧ !root then List.replicate n 0 else elems }

/-- A contribution on its way to the leader: kept here if this package leads. Firmware's mark on it is spent. -/
def State.sendContribution (s : State) (c : Contribution) : State :=
  let s1 : State := { s with poisons := s.poisons.filter fun x => x != (c.blend, c.seq) }
  if s.leads' c.blend then s1.contribute c else { s1 with outbox := s1.outbox ++ [s.offerColl c] }

/-- An element that the fold may not read: an abandoned f32 of an ALLRED (R63, log entry 119). -/
def State.foldAbandoned (s : State) (c : Cmd) : Bool :=
  cCOP c.words == 0 && (Tensor.parse c.srec false).any fun a =>
    a.code == 0 && a.all.any fun i => isAbandoned (BitVec.ofNat 32 (s.engElem c.core c.port a i))

/-- A BCAST names a root at or beyond BS (R379). -/
def Cmd.noRoot (c : Cmd) (size : Nat) : Bool := cCOP c.words == 2 && decide (size ≤ cROOT c.words)

/-- A BCAST names a root that is EMPTY or JOINING (R379); a dead root gives zeros (R398; log entry 126). -/
def Cmd.rootAway (c : Cmd) (b : Blend) : Bool := cCOP c.words == 2 && (b.st (cROOT c.words) == 0 || b.st (cROOT c.words) == eJOINING)

/-- A COLL of a LIVE member: checked, read, contributed; poisoned where its data was, or where firmware marked it (R399). -/
def State.runColl (s : State) (c : Cmd) (blend : Nat) (b : Blend) (self : Nat) : JobEnd :=
  let root := self == cROOT c.words
  let marked := s.poisons.contains (blend, cmdFld c.words 0x20 31 0)
  if c.noRoot b.size || c.rootAway b then .fails cMEMBERDEAD
  else if !c.collShape b.size root then .fails cTILE
  else match s.recordCheck c, s.destCheck c with
    | some e, _ | none, some e => if e = cNOTPRESENT then .waits else .fails e
    | none, none =>
      match s.engReads c.core c.port c.scap c.sourceBytes with
      | .error e =>
        if e = cNOTPRESENT then .waits
        else if e = cCORK then .done (s.sendContribution (s.contribution c blend self root true)) 0 none
        else .fails e
      | .ok rs =>
        let s1 := rs.foldl (fun s (va, e) => s.claim c.core va false e) s
        if !marked && s.foldAbandoned c then .fails cABANDONED
        else .done (s1.sendContribution (s.contribution c blend self root marked)) 0 none

/-- The logged result of a SEQ that a joining member replays (R403). -/
def Port.logged (p : Port) (seq : Nat) : Option CollResult :=
  p.replay.findSome? fun e => match e with
    | .coll r => if r.seq = seq then some r else none
    | _ => none

/-- How many entries the replay of a SEQ passes over, its own among them. -/
def replayed (seq : Nat) : List LogEntry → Nat
  | [] => 0
  | e :: t => match e with
    | .coll r => if r.seq = seq then 1 else replayed seq t + 1
    | _ => replayed seq t + 1

/-- A collective entry. -/
def LogEntry.isColl : LogEntry → Bool
  | .coll _ => true
  | _ => false

/-- The replay of a SEQ: the membership entries passed over take effect, and those before the next collective; collectives passed
over, which were decided before it, stay to be replayed. -/
def State.replayTo (s : State) (port blend seq : Nat) : State :=
  let es := (s.port port).replay
  let n := replayed seq es
  (((s.viewAll blend (es.take n)).modPort port fun p =>
    { p with replay := (es.take (n - 1)).filter LogEntry.isColl ++ es.drop n })).settleView port

/-- A COLL of a joining member: the logged data and record at once, or it waits. -/
def State.replayColl (s : State) (c : Cmd) (blend : Nat) (b : Blend) (self : Nat) : JobEnd :=
  let seq := cmdFld c.words 0x20 31 0
  if c.noRoot b.size then .fails cMEMBERDEAD
  else if !c.collShape b.size (self == cROOT c.words) then .fails cTILE
  else match (s.port c.port).logged seq with
    | none => .waits
    | some r => match s.recordCheck c, s.destCheck c with
      | some e, _ | none, some e => if e = cNOTPRESENT then .waits else .fails e
      | none, none => .done ((s.writeResult c { r with status := 4 }).replayTo c.port blend seq) r.flags none

/-- A COLL's start. -/
def State.collStart (s : State) (id cop : Nat) : Option State :=
  let port := match fget s.cmds id with
    | some c => c.port
    | none => 0
  let ok := fun (c : Cmd) => cKIND c.words == kCOLL && cCOP c.words == cop
  match s.blendOf port with
  | none => s.fabStep id ok .moved fun _ _ => .fails cMEMBERDEAD
  | some (n, b, self) =>
    if b.st self = eLIVE then s.fabStep id ok .contributed fun s c => s.runColl c n b self
    else if b.st self = eJOINING then s.fabStep id ok .moved fun s c => s.replayColl c n b self
    else s.fabStep id ok .moved fun _ _ => .fails cMEMBERDEAD

def execCollAllred (cmd : Nat) (s : State) : Out := happens s (s.collStart cmd 0)
def execCollGather (cmd : Nat) (s : State) : Out := happens s (s.collStart cmd 1)
def execCollBcast (cmd : Nat) (s : State) : Out := happens s (s.collStart cmd 2)
def execCollMark (cmd : Nat) (s : State) : Out := happens s (s.collStart cmd 3)

/-- COLL_CONTRIBUTION_ARRIVE: at the leader. -/
def execCollContributionArrive (c : Contribution) (s : State) : Out :=
  let own := match s.selfIn c.blend with
    | some (_, m) => m == c.member
    | none => false
  event s (s.leads' c.blend && !own &&
      (fget s.blends c.blend).any (fun b => b.st c.member == eLIVE) &&
      !s.colls.any fun k => k.blend == c.blend && k.seq == c.seq && k.cs.any fun x => x.member == c.member)
    (s.contribute c)

/-- The own command that waits for a result. -/
def State.collWaiting (s : State) (blend seq : Nat) : Option (Nat × Cmd) :=
  s.cmds.find? fun (_, (c : Cmd)) =>
    cKIND c.words == kCOLL && c.stage == .contributed && cmdFld c.words 0x20 31 0 == seq &&
      match s.blendOf c.port with
        | some (n, _, _) => n == blend
        | none => false

/-- COLL_RESULT_ARRIVE: a result this package decided, or one from a leader elsewhere, which also brings the log entry. -/
def execCollResultArrive (r : CollResult) (s : State) : Out :=
  let mine := s.decided.contains r
  if !mine && (s.leads' r.blend || (s.selfIn r.blend).isNone) then .next s
  else
    let s1 : State := { s with
      decided := s.decided.filter (· ≠ r)
      outbox := s.outbox.filter fun c => !(c.blend == r.blend && c.seq == r.seq) }
    let s2 := if mine || r.status == 2 then s1 else s1.appendLog r.blend (collEntry r)
    match s.collWaiting r.blend r.seq with
    | none => .next s2
    | some (id, c) =>
      match s.recordCheck c, s.destCheck c with
      | some e, _ | none, some e =>
        if e = cNOTPRESENT then .next s
        else .next { s2 with cmds := fmod s2.cmds id fun c => { c with stage := .moved, fault := some e } }
      | none, none =>
        let s3 := s2.writeResult c r
        .next { s3 with cmds := fmod s3.cmds id fun c => { c with stage := .moved, flags := r.flags } }

/-! ### Membership (R377, R401, R403) -/

/-- An entry's state changed: the generation rises, and the change is logged. -/
def State.setMember (s : State) (blend m st : Nat) (pkg : Option Nat) : State :=
  match fget s.blends blend with
  | none => s
  | some b =>
    let gen := (b.gen + 1) % 2 ^ 32
    let old := rget b.ents m
    let e := entryOf st (pkg.getD (bfld old 27 16)) gen
    let s1 : State := { s with blends := fset s.blends blend { b with gen := gen, ents := rset b.ents m e } }
    s1.appendLog blend (.member gen m st)

/-- The wave belongs to a function of the blend. -/
def State.inBlend (s : State) (u blend : Nat) : Bool :=
  (s.anyWave u).any fun w => match s.blendOf w.port with
    | some (n, _, _) => n == blend
    | none => false

/-- The `shipp` requests that open regions hold back: they are not sent yet (R239, R277). -/
def State.withheld (s : State) : List Req :=
  let of := fun (r : Option Region) => match r with
    | some r => r.escapes.flatMap fun b => b.reqs
    | none => []
  (s.waves.flatMap fun (_, (w : Wave)) => of w.reg) ++ (s.saved.flatMap fun (_, (w : Wave)) => of w.reg) ++
    s.blocks.flatMap fun (_, (b : Block)) => of b.reg

/-- Requests to homes of a member that is gone return with HOME_LOST (R275); those of waves that have exited are discarded. -/
def State.loseRequests (s : State) (blend m : Nat) : State :=
  let bs := s.bundles.filter fun b => b.remote == some m && s.inBlend b.wave blend
  let s1 : State := { s with bundles := s.bundles.filter fun b => !bs.any fun x => x.id == b.id }
  let rs : List (Nat × Nat × RSlot) := s.cores.flatMap fun (n, (c : Core)) =>
    c.slots.filterMap fun (k, (r : RSlot)) =>
      if r.st = .waiting ∧ r.remote = some m ∧ s.inBlend r.wave blend ∧ !s.withheld.any (fun q =>
          q.core == n && q.slot == k && q.wave == r.wave && q.op == r.op && q.lane == r.lane) then some (n, k, r) else none
  let gone : List (Nat × Nat × Nat) := (s.waves ++ s.saved).flatMap fun (u, (w : Wave)) =>
    if s.inBlend u blend then w.abroad.filterMap fun (o, l, x) => if x = m then some (u, o, l) else none else []
  let s2 := gone.foldl (fun s (u, o, l) => s.endPart u o l) s1
  rs.foldl (fun s (core, n, r) =>
    let q : Req := ⟨0, 0, Cap.nil, Cap.nil, [], [], r.na, r.mode, r.cc, core, 0, r.lane, r.wave, n, r.op, none, 0, 0, 0⟩
    let s1 := if r.mode = 1 && !r.answered then s.answer q (some s.clk) else s
    s1.shipReply ⟨q, cHOMELOST, 0, 0, [], [], 0⟩) s2

/-- The own member is gone: requests at its global homes return with HOME_LOST (R275). -/
def State.loseHomes (s : State) (blend m : Nat) : State :=
  let lost := fun (q : Req) => q.lockCap.global && (s.port q.port).blend == some (blend, m)
  if s.ports.any fun (_, (p : Port)) => p.blend == some (blend, m) then
    (List.range Config.lCores).foldl (fun s l => s.vacate l lost) s
  else s

/-- Packets to a member that is gone fail: where this package was their destination they complete there, and no flag of theirs
is applied any more (R392). -/
def State.losePackets (s : State) (blend m : Nat) : State :=
  let mine := fun (p : ForeignPacket) => (s.port p.port).blend == some (blend, m)
  let ps := s.packets.filter fun (_, (p : Packet)) => p.blend == blend && p.member == m
  let here := ps.filterMap fun (_, (p : Packet)) => if s.toSelf p && p.res.isNone then some p.pkt else none
  let flags := s.heldFlags.filterMap fun (_, (f : HeldFlag)) => if f.own.isNone && mine f.pkt then some f.pkt else none
  let stood := s.stalled.filterMap fun x => match x with
    | .foreign p => if mine p then some p else none
    | .own _ => none
  let s1 : State := { s with
    heldFlags := s.heldFlags.filter fun (_, (f : HeldFlag)) => match f.own with
      | some id => !ps.any fun x => x.1 == id
      | none => !mine f.pkt
    stalled := s.stalled.filter fun x => match x with
      | .own id => !ps.any fun y => y.1 == id
      | .foreign p => !mine p }
  ps.foldl (fun s (id, p) => s.acknowledge id p (.failed cMEMBERDEAD)) ((here ++ flags ++ stood).foldl State.countArrival s1)

/-- Leadership that falls to this package brings its own undecided contributions; then every undecided collective is
looked at again. -/
def State.takeOver (s : State) (blend : Nat) : State :=
  if !s.leads' blend then s
  else
    let own := s.outbox.filter fun c => c.blend == blend
    let s1 := own.foldl State.addColl { s with outbox := s.outbox.filter fun c => c.blend != blend }
    (s1.colls.map fun k => (k.blend, k.seq)).foldl (fun s (b, q) => if b = blend then s.tryDecide b q else s) s1

/-- Outstanding FPUTs to a member that is gone fail, sent or not (R401). -/
def State.losePuts (s : State) (blend m : Nat) : State :=
  let mine := fun (c : Cmd) => cKIND c.words == kFPUT && c.dcap.member == m &&
    (match s.blendOf c.port with
      | some (n, _, _) => n == blend
      | none => false) && (c.stage == .held || c.stage == .queued || c.stage == .sending || c.stage == .moved && s.putting c)
  { s with cmds := s.cmds.map fun (id, (c : Cmd)) =>
      (id, if mine c then { c with
        fault := some cMEMBERDEAD, unsent := [], stage := if c.stage = .sending then .moved else c.stage } else c) }

/-- MEMBER_DECLARE_DEAD. -/
def execMemberDeclareDead (blend member : Nat) (s : State) : Out :=
  let s1 := ((s.setMember blend member eDEAD none).losePuts blend member).losePackets blend member
  event s
    ((fget s.blends blend).any fun b => decide (member < b.size) && (b.st member == eLIVE || b.st member == eJOINING))
    (((s1.loseRequests blend member).loseHomes blend member).takeOver blend)

/-- SPARE_JOIN: a spare that is this package gets the log of the lowest LIVE member where that is this package's too; from
another package its collectives arrive as results do, its membership entries by firmware's hand (`RegName.memberEntry`). A
function whose slot went to another package is in no blend any more (R377). -/
def execSpareJoin (blend slot pkg : Nat) (s : State) : Out :=
  let s1 := s.setMember blend slot eJOINING (some pkg)
  let log := match (fget s.blends blend).bind Blend.leader with
    | some m => (s1.ports.findSome? fun (_, (p : Port)) => if p.blend = some (blend, m) then some p.log else none).getD []
    | none => []
  event s
    ((fget s.blends blend).any fun b => decide (slot < b.size) && (b.st slot == 0 || b.st slot == eDEAD))
    (({ s1 with ports := s1.ports.map fun (n, (p : Port)) =>
        (n, if p.blend ≠ some (blend, slot) then p
          else if pkg % 2 ^ 12 = s.package then { p with log := log, replay := log }
          else { p with blend := none }) } : State).settleJoining blend)

/-- SPARE_LIVE: the spare has replayed every decided collective. -/
def execSpareLive (blend slot : Nat) (s : State) : Out :=
  let caught := s.ports.all fun (_, (p : Port)) => p.blend != some (blend, slot) || p.replay.all fun e => match e with
    | .coll _ => false
    | _ => true
  event s (caught && (fget s.blends blend).any fun b => decide (slot < b.size) && b.st slot == eJOINING)
    (s.setMember blend slot eLIVE none)

end Sys2Proof.Machine
end

