-- ==== Sys2Proof/Machine/Verdict.lean ====
section
/-!
DEFINITION. Verdict accumulations and the bound monitor (spec/15_verdicts.md, R355 to R376).
-/
namespace Sys2Proof.Machine

/-! ### The threshold (R356) -/

/-- TUSE after a value read. -/
def tuseNext (tuse x : Word) : Word :=
  if (Fmt.value .f32 x.toNat).isNaN then tuse
  else if (Fmt.value .f32 tuse.toNat).isNaN then x
  else BitVec.ofNat 32 (fMinMax .f32 true false tuse.toNat x.toNat).1

/-! ### The arithmetic (R359 to R363) -/

/-- ulp(x) / 2 of R360 as an f32 operand of the sum: 2^-150 for all that lies in no binade, infinities and NaN among them. -/
def halfUlp (x : Nat) : Dy :=
  let e := x / 2 ^ 23 % 256
  ⟨1, (if e = 255 then 1 else max e 1 : Nat) - 151⟩

/-- M as the monitor reads it (R359). -/
def tailMass (m : Nat) : Nat :=
  match Fmt.value .f32 m with
  | .nan _ => Fmt.infBits .f32 false
  | v => if v.isZero then 0 else if v.negative then Fmt.infBits .f32 false else m

/-- The verdict at a boundary with tail mass `m` (R363); none: undecided. -/
def VLane.verdict (v : VLane) (keep : Bool) (qmax tuse : Word) (m : Nat) : Option Bool :=
  if v.u then none
  else
    let mm := tailMass m
    let r := if (Fmt.value .f32 mm).isZero || (Fmt.value .f32 qmax.toNat).isZero then 0
      else (fMul .f32 .rup mm qmax.toNat).1
    let lb := (fSub .f32 .rdn (fSub .f32 .rdn v.s.toNat v.e.toNat).1 r).1
    let ub := (fAdd .f32 .rup (fAdd .f32 .rup v.s.toNat v.e.toNat).1 r).1
    if (fCmp .f32 4 lb tuse.toNat).1 && !keep then some true
    else if (fCmp .f32 3 ub tuse.toNat).1 then some false
    else none

/-- The format of the query elements and their width (R357). -/
def qFmt (q : Nat) : Fmt :=
  match q with
  | 0 => .f32 | 1 => .f16 | _ => .bf16
def qBytes (q : Nat) : Nat := (qFmt q).width / 8

/-- The query element exceeds QMAX, or is no number (R362). -/
def unsafeQ (qmax : Word) (q : FV) : Bool :=
  q.isNaN || q.isInf || (Dy.lt (Fmt.value .f32 qmax.toNat).dy q.dy.abs)

/-- A chunk consumed (R361, R362), with the flags of the sum. -/
def VLane.consume (v : VLane) (qmax : Word) (ps : List (FV × FV)) : VLane × Nat :=
  let r := groupAcc v.s.toNat ps (some 0)
  let sv := Fmt.value .f32 r.1
  let bad := sv.isNaN || sv.isInf
  let ev := Fmt.value .f32 v.e.toNat
  let e := if ev.isNaN || ev.isInf then v.e.toNat
    else (Fmt.roundDy .f32 .rup false (ev.dy.add (halfUlp r.1))).1
  let nv := Fmt.value .f32 e
  ({ v with
      s := BitVec.ofNat 32 r.1
      e := BitVec.ofNat 32 e
      n := v.n + 1
      u := v.u || bad || nv.isNaN || nv.isInf || ps.any fun (_, q) => unsafeQ qmax q }, r.2)

/-- The abandoned encoding of R63. -/
def abandonedWord (v : Bool) (n : Nat) : Word :=
  BitVec.ofNat 32 ((if v then 2 ^ 31 else 0) + 0x7F8D0000 + n % 2 ^ 16)

/-! ### vdopen (R357, R367) -/

/-- The capabilities and fields that `vdopen` copies. -/
structure VDesc where
  w0   : Nat
  qoff : DWord
  qmax : Word
  toff : DWord
  top  : Nat
deriving DecidableEq, Repr

/-- The descriptor in the uniform registers (Table 15.2). -/
def Wave.verdictDesc (w : Wave) (a : Nat) : VDesc :=
  ⟨(w.getS a).toNat, w.getS2 (a + 1), w.getS (a + 3), w.getS2 (a + 4), (w.getS2 (a + 6)).toNat⟩

/-- A descriptor that R357 rejects. -/
def VDesc.illegal (d : VDesc) (mem : Bool) : Bool :=
  let q := Fmt.value .f32 d.qmax.toNat
  bitsOf d.w0 31 28 != 0 || bitsOf d.w0 23 21 != 0 || bitsOf d.w0 15 13 != 0 || bitsOf d.w0 7 5 != 0 || d.top != 0 ||
    decide (2 < bitsOf d.w0 27 24) || q.isNaN || q.isInf || d.qmax.msb ||
    (!mem && (bitsOf d.w0 20 16 != 0 || d.toff != 0))

/-- The first fault of a copied capability (R367). -/
def copiedFault : List Cap → Option Nat
  | [] => none
  | c :: t => if !c.tag then some cTAG else if !c.has pLOAD || c.space != 0 then some cPERM else copiedFault t

/-- The threshold source of a `vdopen` word. -/
def vdSource (u : UOps) : VSource :=
  match bfld u.mod 2 0 with
  | 0 => .sign
  | 1 => .imm
  | 2 => .reg u.bc.numB
  | _ => .mem

/-- TUSE as `vdopen` leaves it. -/
def vdFirst (u : UOps) : Word :=
  match bfld u.mod 2 0 with
  | 0 => 0
  | 1 => immUf u.imm
  | _ => Config.qnan32

/-- `vdopen`. -/
def execVdopen (u : UOps) (s : State) : Out :=
  word' (.vdopen u) s fun s c =>
    let mem := vdSource u == .mem
    let d := c.w.verdictDesc u.a.toNat
    let ccap := c.w.getC (bitsOf d.w0 4 0)
    let qcap := c.w.getC (bitsOf d.w0 12 8)
    let tcap := c.w.getC (bitsOf d.w0 20 16)
    let addr := BitVec.ofNat 64 tcap.base + d.toff
    if mem && s.inRegion c.w then s.groupFault c cIRREVOCABLE
    else if d.illegal mem then s.groupFault c cILLEGAL
    else match copiedFault ([ccap, qcap] ++ if mem then [tcap] else []) with
      | some e => s.groupFault c e
      | none =>
        match (if mem then capCheck tcap addr.toNat 4 pLOAD 0 else none) with
        | some e => s.groupFault c e addr
        | none =>
          if mem && addr.toNat % 4 != 0 then s.groupFault c cMISALIGNED addr
          else s.modWave c.u fun w =>
            { w with vd :=
                { opn := true
                  src := vdSource u
                  keep := bfld u.mod 3 3 == 1
                  qfmt := bitsOf d.w0 27 24
                  ccap := ccap
                  qcap := qcap
                  tcap := tcap
                  qoff := d.qoff
                  toff := d.toff
                  qmax := d.qmax
                  tuse := vdFirst u
                  lanes := (List.range 32).map fun l => (l, ⟨if inMask c.mask l then .live else .idle, 0, 0, 0, false⟩) } }

/-! ### vdacc (R358, R364, R368) -/

/-- A word of the monitor's reads: its value, and where it lies. -/
structure VRead where
  val : Nat
  hit : Hit
  n   : Nat

/-- One read with its checks. -/
def State.vdRead (s : State) (c : Ctx) (l : Nat) (t : Thread) (cap : Cap) (va : DWord) (n : Nat) : Except (Nat × DWord) VRead :=
  match s.checkAt c.w t cap va n pLOAD 0 with
  | .error e => .error (e, va)
  | .ok e => .ok ⟨s.loadNum c.w (e.die c.w) (e.key va.toNat) n, ⟨l, t, va, e⟩, n⟩

/-- Reads one after another, up to the first that fails: what has been read, and the failure. -/
def State.vdReads (s : State) (c : Ctx) (l : Nat) (t : Thread) : List (Cap × DWord × Nat) → List VRead × Option (Nat × DWord)
  | [] => ([], none)
  | (cap, va, n) :: rest => match s.vdRead c l t cap va n with
    | .error e => ([], some e)
    | .ok r =>
      let t := s.vdReads c l t rest
      (r :: t.1, t.2)

/-- What a lane's part of the word comes to before T1. -/
inductive VPlan where
  /-- settled before its first chunk -/
  | settled (v : Bool)
  /-- its chunk consumed, with its flags; with the tail mass of the next chunk unless it was the last -/
  | used (v : VLane) (fl : Nat) (next : Option Nat)
deriving DecidableEq, Repr

/-- A lane's plan, or the fault it meets, and the reads it made. -/
def State.vdPlan (s : State) (c : Ctx) (vd : Verdict) (tuse : Word) (off : DWord) (l : Nat) (t : Thread) (v : VLane) :
    Except (Nat × DWord) VPlan × List VRead :=
  let base := BitVec.ofNat 64 vd.ccap.base + off + BitVec.ofNat 64 (136 * v.n)
  match s.vdRead c l t vd.ccap base 8 with
  | .error e => (.error e, [])
  | .ok h =>
    match (if v.n = 0 then v.verdict vd.keep vd.qmax tuse (h.val % 2 ^ 32) else none) with
    | some b => (.ok (.settled b), [h])
    | none =>
      let count := min 32 (bitsOf h.val 39 32)
      let last := bitsOf h.val 40 40 == 1 || decide (65534 ≤ v.n)
      match s.vdReads c l t ((List.range count).map fun e => (vd.ccap, base + BitVec.ofNat 64 (8 + 4 * e), 4)) with
      | (es, some e) => (.error e, [h] ++ es)
      | (es, none) =>
        let qs := es.map fun e =>
          (vd.qcap, BitVec.ofNat 64 vd.qcap.base + vd.qoff + BitVec.ofNat 64 (e.val / 2 ^ 16 * qBytes vd.qfmt), qBytes vd.qfmt)
        match s.vdReads c l t qs with
        | (gs, some e) => (.error e, [h] ++ es ++ gs)
        | (gs, none) =>
          let ps := (es.zip gs).map fun (e, g) => (Fmt.value .bf16 (e.val % 2 ^ 16), Fmt.value (qFmt vd.qfmt) g.val)
          let (v1, fl) := v.consume vd.qmax ps
          if last then (.ok (.used v1 fl none), [h] ++ es ++ gs)
          else match s.vdRead c l t vd.ccap (base + 136) 8 with
            | .error e => (.error e, [h] ++ es ++ gs)
            | .ok nx => (.ok (.used v1 fl (some (nx.val % 2 ^ 32))), [h] ++ es ++ gs ++ [nx])

/-- A threshold read (R364), through the lowest lane that takes part. -/
def State.vdThreshold (s : State) (c : Ctx) (vd : Verdict) (ls : List (Nat × Thread)) : Except (Nat × DWord) (Option VRead) :=
  match ls with
  | [] => .ok none
  | (l, t) :: _ => match s.vdRead c l t vd.tcap (BitVec.ofNat 64 vd.tcap.base + vd.toff) 4 with
    | .error e => .error e
    | .ok r => .ok (some r)

/-- TUSE after an optional read. -/
def tuseRead (tuse : Word) (r : Option VRead) : Word :=
  match r with
  | some r => tuseNext tuse (BitVec.ofNat 32 r.val)
  | none => tuse

/-- An access in flight that the reads of the word may not pass: an earlier acquire of the lane, or an access of it to the
same bytes (R209, R368). -/
def State.vdHeld (s : State) (u : Nat) (rs : List VRead) (mask : Word) : Bool :=
  s.inflight.any fun a => a.wave == u && (a.lanesMask &&& mask) != 0 &&
    match a.op with
    | .fence acq _ => acq
    | .mon _ _ => true
    | _ => rs.any fun r => inMask a.lanesMask r.hit.lane &&
        a.keys.any fun k => decide (k < r.hit.e.key r.hit.va.toNat + r.n) && decide (r.hit.e.key r.hit.va.toNat < k + a.op.size)

/-- The acquire of T0 orders the earlier loads and atomics of its lanes before the chunk and query reads of the word (R364,
R199). -/
def State.vdAcquires (s : State) (u : Nat) (mask : Word) : Bool :=
  s.inflight.any fun a => a.wave == u && (a.lanesMask &&& mask) != 0 && a.op.acquired

/-- A threshold register that an earlier operation has still to write (R85, R356). -/
def State.thresholdPending (s : State) (c : Ctx) : Bool :=
  match c.w.vd.src with
  | .reg sb => c.w.vd.opn && (c.w.pendingS [(sb, 1)] ||
      s.cmds.any fun (_, (k : Cmd)) => k.wave == c.u && k.stage == .sent && spansMeet (k.dst, 2) (sb, 1))
  | _ => false

/-- A lane after its plan, with TUSE of T1. -/
def Wave.vdDone (w : Wave) (d p l : Nat) (keep : Bool) (qmax tuse : Word) (pl : VPlan) : Wave :=
  let lane := fun (w : Wave) (g : VLane → VLane) => { w with vd := { w.vd with lanes := fmod w.vd.lanes l g } }
  let out := fun (w : Wave) (x : Word) (b : Bool) (fl : Nat) => w.modTh l fun t => ((t.setV d x).setP p b).flag fl
  match pl with
  | .settled b => out (lane w fun v => { v with st := if b then .tru else .fls }) (abandonedWord b 0) false 0
  | .used v fl none => out (lane w fun _ => { v with st := .done }) v.s false fl
  | .used v fl (some m) => match v.verdict keep qmax tuse m with
    | some b => out (lane w fun _ => { v with st := if b then .tru else .fls }) (abandonedWord b v.n) false fl
    | none => out (lane w fun _ => v) v.s true fl

/-- A read of a core lay on a line whose cork does not match (R410). -/
def State.readBad (s : State) (coreNo : Nat) (r : VRead) : Bool :=
  s.badAt (if r.hit.e.swm then some (dieOf coreNo) else none) (r.hit.e.key r.hit.va.toNat) r.n

/-- A lane read such a line. -/
def State.vdBad (s : State) (coreNo : Nat) (rs : List VRead) : Bool := rs.any (s.readBad coreNo)

/-- `vdacc`. -/
def execVdacc (f : FOps) (s : State) : Out :=
  word (.vdacc f) s fun s c =>
    let d := f.d.toNat
    let p := f.bc.numC % 8
    let act := c.w.active c.mask
    let vd := c.w.vd
    if s.thresholdPending c then none
    else if !vd.opn then some (s.modWave c.u fun w => w.mapMask c.mask fun _ t => t.setP p false)
    else
      let laneOf := fun (l : Nat) => (fget vd.lanes l).getD ⟨.idle, 0, 0, 0, false⟩
      let ls := act.filter fun (l, _) => (laneOf l).st == .live
      let mem := vd.src == .mem && !s.inRegion c.w
      let reg := match vd.src with
        | .reg sb => tuseNext vd.tuse (c.w.getS sb)
        | _ => vd.tuse
      let all := fun (e : Nat × DWord) (ls : List (Nat × Thread)) => ls.map fun (l, _) => (l, e.1, e.2)
      match (if mem && ls.any fun (l, _) => (laneOf l).n == 0 then s.vdThreshold c vd ls else .ok none) with
      | .error e => some (s.laneFaults c 0 (all e ls))
      | .ok t0 =>
        let tuse0 := tuseRead reg t0
        let plans := ls.map fun (l, t) => (l, t, s.vdPlan c vd tuse0 (t.getV2 f.a.num) l t (laneOf l))
        let core := c.w.coreNo
        let good : List (Nat × Thread × VPlan × List VRead) := plans.filterMap fun (l, t, r, rs) => match r with
          | .ok pl => if s.vdBad core rs then none else some (l, t, pl, rs)
          | .error _ => none
        let fs : List (Nat × Nat × DWord) := plans.filterMap fun (l, _, r, rs) => match r with
          | .ok _ => none
          | .error (e, va) => if s.vdBad core rs then none else some (l, e, va)
        let bad : List (Nat × List VRead) := plans.filterMap fun (l, _, _, rs) => if s.vdBad core rs then some (l, rs) else none
        let later := good.any fun (_, _, pl, _) => match pl with
          | .used v _ (some _) => !v.u
          | _ => false
        let share := maskOf (ls.map (·.1))
        if s.vdHeld c.u (plans.flatMap (fun (_, _, _, rs) => rs) ++ t0.toList) c.mask ||
            t0.isSome && s.vdAcquires c.u share then none
        else match (if mem && later then s.vdThreshold c vd ls else .ok none) with
        | .error e =>
          some (s.laneFaults c 0 (fs ++ all e (ls.filter fun (l, _) => !fs.any fun x => x.1 == l)))
        | .ok t1 =>
          let reads := good.flatMap (fun (_, _, _, rs) => rs) ++ t0.toList ++ t1.toList
          if s.vdHeld c.u t1.toList c.mask then none
          else match (t0.toList ++ t1.toList).find? (s.readBad core) with
          | some r => some (s.consume ⟨c.w.coreNo, c.u, false, 6, share, r.hit.va⟩ c.pc)
          | none =>
            let s1 := s.touchReads c (reads.map VRead.hit)
            let tuse1 := tuseRead tuse0 t1
            let off := maskOf (act.filterMap fun (l, _) => if ls.any fun x => x.1 == l then none else some l)
            let s2 := s1.modWave c.u fun w =>
              let w1 : Wave := { (w.mapMask off fun _ t => t.setP p false) with vd := { w.vd with tuse := tuse1 } }
              good.foldl (fun w (l, _, pl, _) => w.vdDone d p l vd.keep vd.qmax tuse1 pl) w1
            let s3 := match bad with
              | [] => s2
              | (_, rs) :: _ =>
                let va := match rs.find? (s.readBad core) with
                  | some r => r.hit.va
                  | none => 0
                s2.consume ⟨c.w.coreNo, c.u, false, 6, maskOf (bad.map Prod.fst), va⟩ c.pc
            -- the acquire after a threshold read (R364)
            let s4 := if t0.isSome || t1.isSome then s3.launchAccess c (.fence true false) share 2 false [] else s3
            some (s4.laneFaults c 0 fs)

/-! ### vdend, vdtest, thmax, vdstat (R369 to R372) -/

/-- `vdend`. -/
def execVdend (u : UOps) (s : State) : Out :=
  word' (.vdend u) s fun s c => s.modWave c.u fun w =>
    { (w.setS u.d.toNat (if (Fmt.value .f32 w.vd.tuse.toNat).isNaN then Config.qnan32 else w.vd.tuse)) with
      vd := { w.vd with opn := false } }

/-- The kinds of `vdtest`. -/
def vdKind (k : Nat) (x : Word) : Bool :=
  match k with
  | 0 => isAbandoned x
  | 1 => isAbandoned x && x.msb
  | 2 => isAbandoned x && !x.msb
  | _ => !isAbandoned x

/-- `vdtest`. -/
def execVdtest (f : FOps) (s : State) : Out :=
  word' (.vdtest f) s fun s c => s.modWave c.u fun w => w.mapMask c.mask fun l t =>
    match c.w.th l with
    | some t0 => t.setP f.d.toNat (vdKind (bfld f.mod 2 0) (t0.src f.a))
    | none => t

/-- `thmax`: a release at its scope of the earlier accesses of its thread, then an atomic (R371). -/
def execThmax (m : MOps) (s : State) : Out :=
  word' (.thmax m) s fun s c =>
    let s1 := if scOf m ≥ 2 ∧ !s.inRegion c.w then s.releaseBy c.w else s
    s1.grouped c m (.thmax m.data.toNat) false (pLOAD ||| pSTORE ||| pATOMIC) 2 true

/-- Lanes in a state. -/
def Verdict.count (v : Verdict) (st : VState) : Nat := (v.lanes.filter fun (_, x) => x.st == st).length

/-- The value of Table 15.5. -/
def Verdict.stat (v : Verdict) : Word :=
  BitVec.ofNat 32 ((if v.opn then 2 ^ 31 else 0) + (if v.lanes.any fun (_, x) => x.u then 2 ^ 30 else 0) +
    v.count .live * 2 ^ 24 + v.count .tru * 2 ^ 18 + v.count .fls * 2 ^ 12 + v.count .done * 2 ^ 6 + v.count .idle)

/-- `vdstat`. -/
def execVdstat (u : UOps) (s : State) : Out :=
  word' (.vdstat u) s fun s c => s.modWave c.u fun w => w.setS u.d.toNat w.vd.stat

end Sys2Proof.Machine
end

