-- ==== Sys2Proof/Machine/Patterns.lean ====
section
/-!
DEFINITION. Computed sparsity patterns and generator contexts (spec/14_patterns_and_streams.md, R329 to R347).
-/
namespace Sys2Proof.Machine

/-! ### Pattern programs (R329 to R331) -/

/-- A term with its dimensions; a band is the dilated term of R332. -/
inductive PTerm where
  | dil (r c s n : Nat) (o : Int)
  | blk (r c b : Nat)
  | hash (r c k seed : Nat) (inv : Option Nat)
  /-- the second factor has hb rows and wb columns -/
  | kron (hb wb : Nat) (a b : PTerm)
deriving DecidableEq, Repr

/-- A program: dimensions, term, clip. -/
structure Pat where
  r    : Nat
  c    : Nat
  term : PTerm
  clip : Option (Nat × Nat)
deriving DecidableEq, Repr

/-- Code of a pattern word. -/
def pwCode (w : DWord) : Nat := bfld w 63 56
/-- A signed field of 28 bits. -/
def pwInt (x : Nat) : Int := signExt x 28

/-- One term of r rows and c columns; `depth` is how many `pat.kron` words enclose it, at most 3 levels. -/
def parseTerm : Nat → Nat → Nat → Nat → List DWord → Option (PTerm × List DWord)
  | 0, _, _, _, _ => none
  | _, _, _, _, [] => none
  | fuel + 1, depth, r, c, w :: t =>
    match pwCode w with
    | 2 =>
      let lo := pwInt (bfld w 55 28)
      let hi := pwInt (bfld w 27 0)
      if lo ≤ hi then some (.dil r c 1 (hi - lo + 1).toNat lo, t) else none
    | 3 =>
      let s := bfld w 55 40
      let n := bfld w 39 28
      if s = 0 ∨ n = 0 then none else some (.dil r c s n (pwInt (bfld w 27 0)), t)
    | 4 => if bfld w 55 28 ≠ 0 ∨ bfld w 27 0 = 0 then none else some (.blk r c (bfld w 27 0), t)
    | 6 =>
      let k := bfld w 55 40
      if bfld w 39 32 ≠ 0 ∨ k = 0 ∨ c < k then none
      else match t with
        | v :: t' =>
          if pwCode v = 7 then
            (if bfld v 55 0 % 8 = 0 then some (.hash r c k (bfld w 31 0) (some (bfld v 55 0)), t') else none)
          else some (.hash r c k (bfld w 31 0) none, t)
        | [] => none
    | 5 =>
      let ha := bfld w 55 28 + 1
      let wa := bfld w 27 0 + 1
      if depth > 2 ∨ r % ha ≠ 0 ∨ c % wa ≠ 0 then none
      else match parseTerm fuel (depth + 1) ha wa t with
        | none => none
        | some (a, t1) => match parseTerm fuel (depth + 1) (r / ha) (c / wa) t1 with
          | none => none
          | some (b, t2) => some (.kron (r / ha) (c / wa) a b, t2)
    | _ => none

/-- The end of a program after its term: an optional clip and `pat.end`. -/
def parseTail (r c : Nat) (a : PTerm) : List DWord → Option Pat
  | [e] => if e = 0x0900000000000000 then some ⟨r, c, a, none⟩ else none
  | [k, e] =>
    let lo := bfld k 55 28
    let hi := bfld k 27 0
    if pwCode k = 8 ∧ lo ≤ hi ∧ hi < r ∧ e = 0x0900000000000000 then some ⟨r, c, a, some (lo, hi)⟩ else none
  | _ => none

/-- A program of R330, but for its count. -/
def parseProgram : List DWord → Option Pat
  | [] => none
  | d :: t =>
    if pwCode d ≠ 1 then none
    else
      let r := bfld d 55 28 + 1
      let c := bfld d 27 0 + 1
      match parseTerm 32 0 r c t with
      | none => none
      | some (a, rest) => parseTail r c a rest

/-! ### Closed forms (R333, Table 14.3) -/

/-- g of R333. -/
def pG (c : Nat) (y : Int) : Int := min (max y 0) c
/-- Floor and ceiling of a quotient by a positive number. -/
def floorDiv (x : Int) (s : Nat) : Int := x / (s : Int)
def ceilDiv (x : Int) (s : Nat) : Int := -(-x / (s : Int))

/-- RS of R333. -/
def pRS (c : Nat) (x : Int) (s n : Nat) : Int :=
  let t1 := min (n : Int) (max 0 (floorDiv (-x) s + 1))
  let t2 := min (n : Int) (max 0 (ceilDiv (c - x) s))
  (t2 - t1) * x + s * (t2 * (t2 - 1) - t1 * (t1 - 1)) / 2 + c * (n - t2)

/-- The first free column from h on (R334). -/
def probe (chosen : List Nat) (c : Nat) : Nat → Nat → Nat
  | 0, h => h
  | f + 1, h => if chosen.contains h then probe chosen c f ((h + 1) % c) else h

/-- The number drawn for a row and a step (R334). -/
def hashDraw (seed i t c : Nat) : Nat :=
  let x0 := (seed * 0x8F3A6C51D2B74E29 + i * 0xC5D13B97E06A2F4B + t) % 2 ^ 64
  let x1 := x0 ^^^ (x0 / 2 ^ 29)
  let x2 := x1 * 0x9B6E2D47A5C381F7 % 2 ^ 64
  let x3 := x2 ^^^ (x2 / 2 ^ 32)
  x3 % 2 ^ 32 * c / 2 ^ 32

/-- HashRow of R334, in ascending order. -/
def hashRow (i k seed c : Nat) : List Nat :=
  (List.range k).foldl (fun l t => sinsert l (probe l c k (hashDraw seed i t c))) []

/-- S(i) and N. -/
def PTerm.s : PTerm → Nat → Nat
  | .dil _ c s n o, i => (pRS c (i + o) s n - pRS c o s n).toNat
  | .blk _ c b, i =>
    let q := i / b * b
    (b * pG c q + (i - q : Nat) * (pG c (q + b : Nat) - pG c q)).toNat
  | .hash _ _ k _ _, i => i * k
  | .kron hb _ a b, i =>
    let ia := i / hb
    let ib := i % hb
    a.s ia * b.s hb + (a.s (ia + 1) - a.s ia) * b.s ib

/-- Count of a row. -/
def PTerm.n (t : PTerm) (i : Nat) : Nat := t.s (i + 1) - t.s i

/-- The column of the m-th nonzero of row i. -/
def PTerm.col : PTerm → Nat → Nat → Nat
  | .dil _ _ s n o, i, m =>
    let t0 := min (n : Int) (max 0 (ceilDiv (-(i + o)) s))
    (i + o + s * (t0 + m)).toNat
  | .blk _ _ b, i, m => i / b * b + m
  | .hash _ c k seed _, i, m => (hashRow i k seed c).getD m 0
  | .kron hb wb a b, i, m =>
    let nb := b.n (i % hb)
    a.col (i / hb) (m / nb) * wb + b.col (i % hb) (m % nb)

/-- A program's row count of nonzeros before row i, its clip aside; of a whole program. -/
def Pat.count (p : Pat) : Nat :=
  match p.clip with
  | some (lo, hi) => p.term.s (hi + 1) - p.term.s lo
  | none => p.term.s p.r

/-- A whole program; none: malformed (R331). -/
def parsePat (ws : List DWord) : Option Pat := (parseProgram ws).filter fun p => decide (p.count < 2 ^ 32)

/-- Row i lies in the clip. -/
def Pat.inClip (p : Pat) (i : Nat) : Bool :=
  match p.clip with
  | some (lo, hi) => decide (lo ≤ i) && decide (i ≤ hi)
  | none => decide (i < p.r)

/-- V of R333 for a nonzero of row i at position m of its row. -/
def Pat.v (p : Pat) (i m : Nat) : Nat :=
  p.term.s i + m - match p.clip with
    | some (lo, _) => p.term.s lo
    | none => 0

/-- Every hash term has an inverse table (R336). -/
def PTerm.invertible : PTerm → Bool
  | .hash _ _ _ _ inv => inv.isSome
  | .kron _ _ a b => a.invertible && b.invertible
  | _ => true

/-- The term holds no hash term. -/
def PTerm.closed : PTerm → Bool
  | .hash _ _ _ _ _ => false
  | .kron _ _ a b => a.closed && b.closed
  | _ => true

/-! ### Columns (R336, R337), with reads of inverse tables -/

/-- Reads of so many bytes at an address; what fails is a fault code with its address. -/
abbrev Reader := DWord → Nat → Except (Nat × DWord) VRead
/-- A computation that reads memory and keeps what it read. -/
abbrev Gen := StateT (List VRead) (Except (Nat × DWord))

def rdAt (rd : Reader) (va : DWord) (n : Nat) : Gen Nat := fun rs =>
  match rd va n with
  | .error e => .error e
  | .ok r => .ok (r.val, rs ++ [r])
/-- PATTERN_MALFORMED. -/
def malformed {α : Type} : Gen α := fun _ => .error (cPATTERN, 0)

/-- COLPTR[j] of an inverse table at `base`. -/
def invPtr (rd : Reader) (base : DWord) (r c k j : Nat) : Gen Nat := do
  let v ← rdAt rd (base + BitVec.ofNat 64 (4 * j)) 4
  if (j = 0 ∧ v ≠ 0) ∨ (j = c ∧ v ≠ r * k) then malformed else pure v

/-- First entry of a column, and how many. -/
def invCol (rd : Reader) (base : DWord) (r c k j : Nat) : Gen (Nat × Nat) := do
  let a ← invPtr rd base r c k j
  let b ← invPtr rd base r c k (j + 1)
  if b < a then malformed else pure (a, b - a)

/-- Entry n: its row and the rank of the nonzero in that row. -/
def invEntry (rd : Reader) (base : DWord) (r c k n : Nat) : Gen (Nat × Nat) := do
  let x ← rdAt rd (base + BitVec.ofNat 64 (8 * ((c + 2) / 2) + 8 * n)) 8
  let row := x % 2 ^ 32
  let ofs := x / 2 ^ 32
  if r ≤ row ∨ ofs < row * k ∨ row * k + k ≤ ofs then malformed else pure (row, ofs - row * k)

/-- Nonzeros of column j. -/
def PTerm.colCount (rd : Reader) (base : DWord) : PTerm → Nat → Gen Nat
  | .dil r _ s n o, j => pure
      (min ((n : Int) - 1) (floorDiv (j - o) s) - max 0 (ceilDiv (j - o - r + 1) s) + 1).toNat
  | .blk r _ b, j => pure (min r (j / b * b + b) - j / b * b)
  | .hash r c k _ inv, j => do
    let (_, n) ← invCol rd (base + BitVec.ofNat 64 (inv.getD 0)) r c k j
    pure n
  | .kron _ wb a b, j => do
    let na ← a.colCount rd base (j / wb)
    if na = 0 then pure 0
    else
      let nb ← b.colCount rd base (j % wb)
      pure (na * nb)

/-- Row and position in its row of the m-th nonzero of column j, in ascending rows. -/
def PTerm.colAt (rd : Reader) (base : DWord) : PTerm → Nat → Nat → Gen (Nat × Nat)
  | .dil _ _ s n o, j, m =>
    let t := min ((n : Int) - 1) (floorDiv (j - o) s) - m
    let i := (j - o - s * t).toNat
    pure (i, (t - min (n : Int) (max 0 (ceilDiv (-(i + o)) s))).toNat)
  | .blk _ _ b, j, m => pure (j / b * b + m, j - j / b * b)
  | .hash r c k _ inv, j, m => do
    let at_ := base + BitVec.ofNat 64 (inv.getD 0)
    let (a, _) ← invCol rd at_ r c k j
    let x ← invEntry rd at_ r c k (a + m)
    if m = 0 then pure x
    else
      let y ← invEntry rd at_ r c k (a + m - 1)
      if x.1 ≤ y.1 then malformed else pure x
  | .kron hb wb a b, j, m => do
    let nb ← b.colCount rd base (j % wb)
    let (ia, pa) ← a.colAt rd base (j / wb) (m / nb)
    let (ib, pb) ← b.colAt rd base (j % wb) (m % nb)
    pure (ia * hb + ib, pa * b.n ib + pb)

/-! ### Walks (R335) -/

/-- A nonzero with its value offset. -/
structure Elem where
  i : Nat
  j : Nat
  v : Nat
deriving DecidableEq, Repr

/-- Nonzeros of a line: of a row, or with `tr` of a column. -/
def Pat.line (p : Pat) (rd : Reader) (base : DWord) (tr : Bool) (maj : Nat) : Gen Nat :=
  if tr then p.term.colCount rd base maj else pure (p.term.n maj)

/-- The nonzero at a place of a walk. -/
def Pat.elem (p : Pat) (rd : Reader) (base : DWord) (tr : Bool) (maj min : Nat) : Gen Elem :=
  if tr then do
    let (i, m) ← p.term.colAt rd base maj min
    pure ⟨i, maj, p.v i m⟩
  else pure ⟨maj, p.term.col maj min, p.v maj min⟩

/-- Lines of a walk. -/
def Pat.lines (p : Pat) (tr : Bool) : Nat := if tr then p.c else p.r

/-- The next element of a walk at or after a place, outside the clip nothing. -/
def Pat.seek (p : Pat) (rd : Reader) (base : DWord) (tr : Bool) : Nat → Nat → Nat → Gen (Option (Nat × Nat × Elem))
  | 0, _, _ => pure none
  | f + 1, maj, min =>
    if p.lines tr ≤ maj then pure none
    else if !tr && !p.inClip maj then p.seek rd base tr f (maj + 1) 0
    else do
      let n ← p.line rd base tr maj
      if n ≤ min then p.seek rd base tr f (maj + 1) 0
      else
        let e ← p.elem rd base tr maj min
        if p.inClip e.i then pure (some (maj, min, e)) else p.seek rd base tr f maj (min + 1)

/-- Enough steps for any walk. -/
def Pat.fuel (p : Pat) : Nat := (p.r + 1) * (p.c + 1)

/-- Position of a walk: its place, or its end. -/
structure PPos where
  maj  : Nat
  min  : Nat
  done : Bool
deriving DecidableEq, Repr

/-- The next n elements, one after another. -/
def Pat.take (p : Pat) (rd : Reader) (base : DWord) (tr : Bool) : Nat → PPos → Gen (List Elem × PPos)
  | 0, q => pure ([], q)
  | n + 1, q => do
    if q.done then pure ([], q)
    else
      let x ← p.seek rd base tr p.fuel q.maj q.min
      match x with
      | none => pure ([], { q with done := true })
      | some (maj, min, e) =>
        let (es, q') ← p.take rd base tr n ⟨maj, min + 1, false⟩
        pure (e :: es, q')

/-- The position after a word names the next element; a transposed walk of a hash term looks no further than the words it
has read (R337). -/
def Pat.settle (p : Pat) (rd : Reader) (base : DWord) (tr : Bool) (q : PPos) : Gen PPos := do
  if q.done then pure q
  else if !tr || p.term.closed then
    let x ← p.seek rd base tr p.fuel q.maj q.min
    match x with
    | none => pure { q with done := true }
    | some (maj, min, _) => pure ⟨maj, min, false⟩
  else if q.maj < p.c then
    let n ← p.line rd base tr q.maj
    pure (if q.min < n then q else ⟨q.maj + 1, 0, decide (p.c ≤ q.maj + 1)⟩)
  else pure { q with done := true }

/-- The place of nonzero (i, j), if it is one: its position in its row; with `tr` found through its column. -/
def PTerm.find (rd : Reader) (base : DWord) (tr : Bool) : PTerm → Nat → Nat → Gen (Option Nat)
  | .dil _ _ s n o, i, j =>
    let d : Int := j - i - o
    pure (if d < 0 ∨ d % s ≠ 0 ∨ (n : Int) ≤ d / s then none
      else some (d / s - min (n : Int) (max 0 (ceilDiv (-(i + o)) s))).toNat)
  | .blk _ _ b, i, j => pure (if i / b = j / b then some (j - j / b * b) else none)
  | .hash r c k seed inv, i, j =>
    if tr then do
      let at_ := base + BitVec.ofNat 64 (inv.getD 0)
      let (a, n) ← invCol rd at_ r c k j
      let go := fun (found : Option Nat × Option Nat) (m : Nat) => do
        match found with
        | (some x, l) => pure (some x, l)
        | (none, l) =>
          if l.any fun y => decide (i < y) then pure (none, l)
          else
            let x ← invEntry rd at_ r c k (a + m)
            if l.any fun y => decide (x.1 ≤ y) then malformed
            else pure (if x.1 = i then some x.2 else none, some x.1)
      let (x, _) ← (List.range n).foldlM go ((none, none) : Option Nat × Option Nat)
      pure x
    else pure ((hashRow i k seed c).findIdx? (· == j))
  | .kron hb wb a b, i, j => do
    let x ← a.find rd base tr (i / hb) (j / wb)
    match x with
    | none => pure none
    | some pa =>
      let y ← b.find rd base tr (i % hb) (j % wb)
      pure (y.map fun pb => pa * b.n (i % hb) + pb)

/-- The value offset of pattern element (i, j), if it is a nonzero of the program (R340). -/
def Pat.at (p : Pat) (rd : Reader) (base : DWord) (tr : Bool) (i j : Int) : Gen (Option Nat) :=
  if i < 0 ∨ j < 0 ∨ (p.r : Int) ≤ i ∨ (p.c : Int) ≤ j ∨ !p.inClip i.toNat then pure none
  else do
    let x ← p.term.find rd base tr i.toNat j.toNat
    pure (x.map fun m => p.v i.toNat m)

/-! ### Reads of a generator (R345, R352) -/

/-- Reads through a capability as `.dev` loads of a lane's thread. -/
def State.readerOf (s : State) (c : Ctx) (l : Nat) (t : Thread) (cap : Cap) : Reader := fun va n => s.vdRead c l t cap va n

/-- The words of a program up to `pat.end`, at most 32 (R330). -/
def readProgram (rd : Reader) : Nat → DWord → Gen (List DWord)
  | 0, _ => pure []
  | f + 1, va => do
    let x ← rdAt rd va 8
    let w := BitVec.ofNat 64 x
    if pwCode w = 9 then pure [w]
    else
      let ws ← readProgram rd f (va + 8)
      pure (w :: ws)

/-- A program read and validated (R345). -/
def readPat (rd : Reader) (va : DWord) : Gen (List DWord × Pat) := do
  let ws ← readProgram rd 32 va
  match parsePat ws with
  | none => malformed
  | some p => pure (ws, p)

/-- A word of the class that acts once: its reads, then its effect; a fault is raised in every thread of the group, with
no effect (R353). -/
def State.generated {α : Type} (s : State) (c : Ctx) (g : Gen α) (k : State → α → State) : Option State :=
  match g [] with
  | .error (e, va) => some (s.laneFaults c 0 ((lanesOf c.mask).map fun l => (l, e, va)))
  | .ok (x, rs) =>
    if s.vdHeld c.u rs c.mask then none
    else match rs.find? fun r => s.readBad c.w.coreNo r with
      | some r => some (s.consume ⟨c.w.coreNo, c.u, false, 6, c.mask, r.hit.va⟩ c.pc)
      | none => some (k (s.touchReads c (rs.map VRead.hit)) x)

/-- The lowest thread of the group reads through a capability. -/
def State.leadReader (s : State) (c : Ctx) (cap : Cap) : Reader :=
  match c.lead with
  | some (l, t) => s.readerOf c l t cap
  | none => fun va _ => .error (cTAG, va)

/-- A context of the wave. -/
def State.setGen (s : State) (c : Ctx) (k : Nat) (z : GenCtx) : State := s.modWave c.u fun w => { w with z := fset w.z k z }

/-- `pgbind`. -/
def execPgbind (u : UOps) (s : State) : Out :=
  word (.pgbind u) s fun s c =>
    let cap := c.w.getC u.a.toNat
    let addr := BitVec.ofNat 64 cap.base + (c.w.getS u.bc.numB).setWidth 64
    s.generated c (readPat (s.leadReader c cap) addr) fun s (ws, _) =>
      s.setGen c u.d.toNat ⟨cap, addr, ws, false, false, false, 0, 0⟩

/-! ### pgnext and pgnextt (R346) -/

/-- Three registers of a lane written. -/
def Thread.setElem (t : Thread) (d : Nat) (e : Option Elem) : Thread :=
  match e with
  | some e => ((t.setV d (BitVec.ofNat 32 e.i)).setV (d + 1) (BitVec.ofNat 32 e.j)).setV (d + 2) (BitVec.ofNat 32 e.v)
  | none => ((t.setV d (BitVec.allOnes 32)).setV (d + 1) (BitVec.allOnes 32)).setV (d + 2) (BitVec.allOnes 32)

/-- Elements given to the lanes in ascending order, the past-the-end element to the rest. -/
def Wave.giveElems (w : Wave) (d : Nat) : List Nat → List Elem → Wave
  | [], _ => w
  | l :: ls, [] => (w.modTh l fun t => t.setElem d none).giveElems d ls []
  | l :: ls, e :: es => (w.modTh l fun t => t.setElem d (some e)).giveElems d ls es

/-- The common part. -/
def State.pgNext (s : State) (c : Ctx) (d k : Nat) (tr : Bool) : Option State :=
  let lanes := (c.w.active c.mask).map (·.1)
  match fget c.w.z k with
  | none => some (s.modWave c.u fun w => w.giveElems d lanes [])
  | some z => match parsePat z.words with
    | none => some (s.groupFault c cPATTERN)
    | some p =>
      if tr && !p.term.invertible then some (s.groupFault c cNONINV)
      else
        let pos : PPos := if z.dset && z.t != tr then ⟨0, 0, false⟩ else ⟨z.major, z.minor, z.done⟩
        let base := BitVec.ofNat 64 z.cap.base
        let rd := s.leadReader c z.cap
        let g : Gen (List Elem × PPos) := do
          let (es, q) ← p.take rd base tr lanes.length pos
          let q' ← p.settle rd base tr q
          pure (es, q')
        s.generated c g fun s (es, q) =>
          (s.modWave c.u fun w => w.giveElems d lanes es).setGen c k
            { z with dset := true, t := tr, done := q.done, major := q.maj, minor := q.min }

/-- `pgnext`. -/
def execPgnext (f : FOps) (s : State) : Out := word (.pgnext f) s fun s c => s.pgNext c f.d.toNat f.a.num false
/-- `pgnextt`. -/
def execPgnextt (f : FOps) (s : State) : Out := word (.pgnextt f) s fun s c => s.pgNext c f.d.toNat f.a.num true

/-! ### pgsave and pgrest (R339, R347) -/

/-- The 64 bytes of Table 14.5 but for the capability, from offset 0x10 on. -/
def GenCtx.image (z : GenCtx) (major minor : Word) : BitVec 384 :=
  BitVec.ofNat 384 (z.addr.toNat + major.toNat * 2 ^ 64 + minor.toNat * 2 ^ 96 +
    (1 + (if z.dset then 2 else 0) + (if z.t then 4 else 0) + (if z.done then 8 else 0)) * 2 ^ 128)

/-- The image of a context; an ended walk has no next element, and its MAJOR and MINOR are open. -/
def State.genImage (s : State) (z : Option GenCtx) : State × Cap × BitVec 384 :=
  match z with
  | none => (s, Cap.nil, 0)
  | some z =>
    if z.done then
      let (a, s1) := s.open_
      let (b, s2) := s1.open_
      (s2, z.cap, z.image a b)
    else (s, z.cap, z.image (BitVec.ofNat 32 z.major) (BitVec.ofNat 32 z.minor))

/-- A context with its position at the next element, as an image names it (Table 14.5): that of a transposed walk with a hash
term is looked for in the inverse table. Where a word of it cannot be read the position stays as the walk left it. -/
def State.ahead (s : State) (c : Ctx) (z : GenCtx) : GenCtx :=
  match parsePat z.words with
  | none => z
  | some p =>
    if !z.dset || !z.t || z.done || p.term.closed then z
    else match (p.seek (s.leadReader c z.cap) (BitVec.ofNat 64 z.cap.base) true p.fuel z.major z.minor) [] with
      | .ok (some (maj, min, _), _) => { z with major := maj, minor := min }
      | .ok (none, _) => { z with done := true }
      | .error _ => z

/-- `pgsave`. -/
def execPgsave (u : UOps) (s : State) : Out :=
  word (.pgsave u) s fun s c =>
    let ca := c.w.getC u.a.toNat
    let addr := BitVec.ofNat 64 ca.base + (c.w.getS u.bc.numB).setWidth 64
    let z := (fget c.w.z u.d.toNat).map (s.ahead c)
    let tagged := z.any fun z => z.cap.tag
    match c.lead with
    | none => some s
    | some (l, t) =>
      match s.checkAt c.w t ca addr 64 (pSTORE ||| if tagged then pSTCAP else 0) 4 with
      | .error e => some (s.laneFaults c 4 ((lanesOf c.mask).map fun l => (l, e, addr)))
      | .ok e =>
        let h : Hit := ⟨l, t, addr, e⟩
        let s1 := s.touchAll c 4 true [h]
        let (s2, cap, img) := s1.genImage z
        let parts : List (Nat × QWord × Bool) :=
          [(0, cap.bits, cap.tag), (16, img.setWidth 128, false), (32, (img >>> 128).setWidth 128, false),
            (48, (img >>> 256).setWidth 128, false)]
        let key := e.key addr.toNat
        if s2.inRegion c.w then
          s2.inBuffers c 4 [] (eachLane (fun s (o, x, tg) =>
            s.bufWrite c.u e.swm (addr + BitVec.ofNat 64 o) (key + o) (bytesOf x.toNat 16) tg) parts)
        else
          some (s2.launchAccess c .stc c.mask 2 e.swm (parts.map fun (o, x, tg) =>
            ⟨l, addr + BitVec.ofNat 64 o, key + o, 0, 0, x, tg⟩))

/-- A position that an image may name: that of an element of the walk, or the start of one that has not begun. The columns of a
hash term without an inverse table cannot be counted. -/
def Pat.isPos (p : Pat) (rd : Reader) (base : DWord) (dset tr done : Bool) (maj min : Nat) : Gen Bool := do
  if !dset then pure (maj == 0 && min == 0 && !done)
  else if done then pure true
  else if p.lines tr ≤ maj then pure false
  else
    if tr && !p.term.invertible then pure (decide (min < p.r))
    else
    let n ← p.line rd base tr maj
    if n ≤ min then pure false
    else
      let e ← p.elem rd base tr maj min
      pure (p.inClip e.i)

/-- The context an image gives, or none for an unbound one; its checks (R347). -/
def restGen (rdOf : Cap → Reader) (cap : Cap) (img : Nat) : Gen (Option GenCtx) := do
  let addr := BitVec.ofNat 64 (bitsOf img 191 128)
  let maj := bitsOf img 223 192
  let min := bitsOf img 255 224
  let fl := bitsOf img 287 256
  let bit := fun (k : Nat) => bitsOf fl k k == 1
  let zero := bitsOf fl 31 4 == 0 && bitsOf img 511 288 == 0
  if !bit 0 then
    if zero then pure none else malformed
  else if !cap.tag then fun _ => .error (cTAG, 0)
  else
    let rd := rdOf cap
    let (ws, p) ← readPat rd addr
    let ok ← p.isPos rd (BitVec.ofNat 64 cap.base) (bit 1) (bit 2) (bit 3) maj min
    if !zero || !ok then malformed
    else if bit 2 && !p.term.invertible then fun _ => .error (cNONINV, 0)
    else pure (some ⟨cap, addr, ws, bit 1, bit 2, bit 3, maj, min⟩)

/-- `pgrest`. -/
def execPgrest (u : UOps) (s : State) : Out :=
  word (.pgrest u) s fun s c =>
    let ca := c.w.getC u.a.toNat
    let addr := BitVec.ofNat 64 ca.base + (c.w.getS u.bc.numB).setWidth 64
    let g : Gen (Option GenCtx) := fun rs => (do
      let (x, rs1) ← (rdAt (s.leadReader c ca) addr 64) rs
      let tag := rs1.getLast?.any fun r => s.memoryTag c.w (r.hit.e.die c.w) (r.hit.e.key addr.toNat)
      let raw : Cap := ⟨BitVec.ofNat 128 x, false⟩
      restGen (s.leadReader c) ⟨raw.bits, tag && ca.has pLDCAP && raw.wellFormed⟩ x rs1)
    s.generated c g fun s z => match z with
      | some z => s.setGen c u.d.toNat z
      | none => s.modWave c.u fun w => { w with z := fdel w.z u.d.toNat }

end Sys2Proof.Machine
end

