-- ==== Sys2Proof/Machine/Matrix.lean ====
section
/-!
DEFINITION. The matrix stream: the block sequencer, its tiles and the matrix unit (spec/13_matrix.md, R302 to R328).
-/
namespace Sys2Proof.Machine

/-! ### A word of the sequencer (R303, R305, R327) -/

/-- The sequencer whose turn it is: its block's number, the block, the sequencer itself. -/
structure SeqCtx where
  b : Nat
  k : Block
  q : Seq

/-- A sequencer changed. -/
def State.modSeq (s : State) (b : Nat) (g : Seq → Seq) : State := s.modBlock b fun k => { k with seq := k.seq.map g }

/-- The sequencer that issues, if it does. -/
def State.sequencing (s : State) : Option SeqCtx :=
  match s.turn with
  | .wave _ => none
  | .seq b => match fget s.blocks b with
    | none => none
    | some k => match k.seq with
      | none => none
      | some q => if q.ended || q.wait != .none then none else some ⟨b, k, q⟩

/-- Tiles of the block's allocation; a spawned block has none (R138). -/
def State.tilesOf (s : State) (k : Block) : Nat :=
  match fget s.launches k.lid with
  | some l => if k.spawned.isSome then 0 else l.rc.tiles
  | none => 0

/-- Past the word. -/
def State.seqNext (s : State) (b : Nat) : State := s.modSeq b fun q => { q with pc := pc56 (q.pc + 8) }

/-- The state in which the sequencer's word acts: what an access of its block has passed is performed (R198). -/
def State.seqSettled (s : State) : State :=
  match s.issuing, s.sequencing with
  | none, some c => s.settleOwed none c.b
  | _, _ => s

/-- A word of the matrix stream: in a wave it is WRONG_STREAM (R46); REG_RANGE for a tile beyond the allocation (check 9 of
R48); held while an operation in flight names one of its tiles, or where it cannot go on. -/
def seqWord (tiles : List Nat) (s0 : State) (k : State → SeqCtx → Option State) : Out :=
  let s := s0.seqSettled
  match s.issuing, s.sequencing with
  | some c, _ => .next (s.wordFault c false cSTREAM c.mask true)
  | none, none => .fault .noAgent
  | none, some c =>
    if tiles.any fun t => decide (s.tilesOf c.k ≤ t) then .next (s.seqFault c.b cRANGE)
    else if c.q.ops.any fun o => o.tiles.any tiles.contains then .next s
    else match k s c with
      | some s' => .next s'
      | none => .next s

/-- A word that is never held but by its tiles. -/
def seqWord' (tiles : List Nat) (s : State) (k : State → SeqCtx → State) : Out := seqWord tiles s fun s c => some (k s c)

/-- Register m. -/
def Seq.getM (q : Seq) (r : Nat) : DWord := rget q.m r
def Seq.setM (q : Seq) (r : Nat) (x : DWord) : Seq := { q with m := rset q.m r x }
/-- Capability mc. -/
def Seq.getMc (q : Seq) (r : Nat) : Cap := (fget q.mc r).getD Cap.nil

/-- Flags of the matrix stream (R304). -/
def Seq.flag (q : Seq) (fl : Nat) : Seq :=
  let x := BitVec.ofNat 32 fl &&& fflagsMask
  { q with mflags := q.mflags ||| x, fresh := q.fresh ||| x }

/-! ### Scalar words (R315) -/

/-- A scalar word: its effect on the sequencer, then the next word. -/
def seqScalar (s : State) (g : State → Seq → Seq) : Out := seqWord' [] s fun s c => (s.modSeq c.b (g s)).seqNext c.b

/-- `madd` and its kin. -/
def maddOp (op : Nat) (a b : DWord) : DWord :=
  match op with
  | 0 => a + b
  | 1 => a - b
  | 2 => a * b
  | 3 => a <<< (b.toNat % 64)
  | 4 => a >>> (b.toNat % 64)
  | 5 => a &&& b
  | 6 => a ||| b
  | _ => if a < b then a else b

def execMadd (x : XOps) (s : State) : Out :=
  seqScalar s fun _ q =>
    let b := if bfld x.mod 3 3 = 1 then x.imm.signExtend 64 else q.getM x.tb.toNat
    q.setM x.td.toNat (maddOp (bfld x.mod 2 0) (q.getM x.ta.toNat) b)

def execMmovi (x : MMovi) (s : State) : Out :=
  seqScalar s fun _ q =>
    let old := q.getM x.td.toNat
    q.setM x.td.toNat (match bfld x.mod 1 0 with
      | 0 => x.imm.setWidth 64
      | 1 => x.imm.signExtend 64
      | _ => x.imm ++ old.setWidth 32)

/-- Target of a sequencer branch. -/
def seqTarget (pc : DWord) (k : BitVec 15) : DWord := pc56 (pc + (k.signExtend 64 <<< 3))

/-- The condition of `mbr`. -/
def mbrTaken (cc : Nat) (a : DWord) : Bool :=
  match cc with
  | 0 => true
  | 1 => a == 0
  | 2 => a != 0
  | 3 => a.msb
  | _ => !a.msb

def execMbr (x : XOps) (s : State) : Out :=
  seqWord' [] s fun s c => s.modSeq c.b fun q =>
    { q with pc := if mbrTaken (bfld x.mod 2 0) (q.getM x.ta.toNat) then seqTarget q.pc x.imm else pc56 (q.pc + 8) }

def execMloop (x : XOps) (s : State) : Out :=
  seqWord' [] s fun s c => s.modSeq c.b fun q =>
    let n := q.getM x.ta.toNat - 1
    { (q.setM x.ta.toNat n) with pc := if n ≠ 0 then seqTarget q.pc x.imm else pc56 (q.pc + 8) }

/-- `mend`: once every accepted operation is done, the stream has ended, and R205 counts it so. -/
def execMend (_ : XOps) (s : State) : Out :=
  seqWord [] s fun s c =>
    if !c.q.ops.isEmpty then none
    else some (((s.seqNext c.b).modSeq c.b fun q => { q with ended := true }).evalBars c.b)

/-- The wave of the block with a number, if the noted set holds it (R309). -/
def State.notedWave (s : State) (c : SeqCtx) (w : Nat) : Option Wave :=
  match (s.blockWaves c.b).find? fun (_, (v : Wave)) => v.wid == w with
  | some (u, v) => if c.q.noted.contains u then some v else none
  | none => none

/-- `mfrom` and `mfrom.clk`. -/
def execMfrom (x : XOps) (s : State) : Out :=
  seqWord' [] s fun s c =>
    if bfld x.mod 0 0 = 1 then (s.modSeq c.b fun q => q.setM x.td.toNat s.clk).seqNext c.b
    else if (fget s.launches c.k.lid).any fun l => decide (l.rc.sregs ≤ x.imm.toNat) then s.seqFault c.b cRANGE
    else match s.notedWave c (bfld x.mod 8 4) with
      | some w => (s.modSeq c.b fun q => q.setM x.td.toNat (w.getS2 x.imm.toNat)).seqNext c.b
      | none => s.seqFault c.b cTILE

/-! ### mbar (R308, R316) -/

/-- The sequencer's arrival in count mode; false where it raises BARRIER_STARVED. It carries the flags set since the
arrival before. -/
def State.seqArrive (s : State) (b k n : Nat) : State × Bool :=
  match fget s.blocks b with
  | none => (s, true)
  | some x =>
    let bar := x.bar k
    if n = 0 ∨ 1025 < n ∨ bar.mode.any (fun m => m != .count n) then (s, false)
    else
      let fresh := match x.seq with
        | some q => q.fresh
        | none => 0
      let bar1 := { bar with
        mode := some (.count n)
        arrivals := bar.arrivals + 1
        seqIn := true
        seqFlags := bar.seqFlags ||| fresh }
      let s1 := s.modBlock b fun x => x.setBar k bar1
      let s2 := s1.modSeq b fun q => { q with fresh := 0, barPhase := fset q.barPhase k bar.phase }
      (s2.evalBar b k, true)

/-- The sequencer's wait; false where it raises BARRIER_STARVED. A return replaces the noted set. -/
def State.seqBarWait (s : State) (b k : Nat) : State × Bool :=
  match fget s.blocks b with
  | none => (s, true)
  | some x => match x.seq with
    | none => (s, true)
    | some q =>
      let bar := x.bar k
      if q.starved.getLsbD k then
        (s.modSeq b fun q => { q with starved := q.starved &&& ~~~(BitVec.ofNat 16 (2 ^ k)) }, false)
      else match fget q.barPhase k with
        | none => (s.modSeq b fun q => { q with noted := [] }, true)
        | some p =>
          if p < bar.phase then (s.modSeq b fun q => { q with noted := (fget bar.noted p).getD [] }, true)
          else ((s.modSeq b fun q => { q with wait := .bar k p }).evalBar b k, true)

/-- `mbar`: an arrival waits for the sequencer's earlier accesses. The sequencer stands past the word while it waits. -/
def execMbar (x : XOps) (s : State) : Out :=
  seqWord [] s fun s c =>
    let kind := bfld x.mod 1 0
    let k := bfld x.mod 7 4
    let n := if bfld x.mod 3 3 = 1 then (c.q.getM x.mr.toNat).toNat else x.imm.toNat
    if kind ≠ 2 ∧ c.q.ops.any fun o => o.path != 0 then none
    else
      let s1 := s.seqNext c.b
      let (s2, ok) := if kind = 2 then (s1, true) else s1.seqArrive c.b k n
      if !ok then some (s.seqFault c.b cSTARVED)
      else if kind = 1 ∨ !(fget s2.blocks c.b).any Block.streamLive then some s2
      else
        let (s3, ok) := s2.seqBarWait c.b k
        if ok then some s3
        else
          let s4 := s3.modSeq c.b fun q => { q with pc := c.q.pc }
          some (s4.seqFault c.b cSTARVED)

/-! ### Tiles (R310 to R312) -/

def tcRows (tc : Word) : Nat := bfld tc 27 22 + 1
def tcCols (tc : Word) : Nat := bfld tc 21 12 + 1
/-- The format of a code; lq8 is code 7. -/
def tileFmt (code : Nat) : Fmt :=
  match code with
  | 0 => .f32 | 1 => .f16 | 2 => .bf16 | 3 => .e5m2 | 4 => .e4m3 | 5 => .e3m2 | _ => .e2m1
def isLq8 (code : Nat) : Bool := code == 7
/-- Bits an element takes: 8 for e3m2, 2 for an lq8 weight. -/
def tileWidth (code : Nat) : Nat :=
  match code with
  | 0 => 32 | 1 | 2 => 16 | 3 | 4 | 5 => 8 | 6 => 4 | _ => 2
/-- Width class of Table 13.3. -/
def tileClass (code : Nat) : Nat :=
  match code with
  | 0 => 32 | 1 | 2 => 16 | 3 | 4 | 5 => 8 | _ => 4
/-- Column capacity. -/
def tileCap (code : Nat) : Nat := 2048 / tileClass code

/-- A legal tile control value. -/
def tcLegal (tc : Word) : Bool :=
  decide (tcFmt tc < 8) && decide (tcCols tc ≤ tileCap (tcFmt tc)) && bfld tc 11 0 == 0 &&
    (tcFmt tc != 6 || tcCols tc % 2 == 0) && (tcFmt tc != 7 || tcCols tc % 8 == 0)

/-- `w` bits of row m of a tile from bit `lo` on; w is 4 or a number of bytes. -/
def Block.bitsAt (k : Block) (t m lo w : Nat) : Nat :=
  let a := 16384 * t + 256 * m + lo / 8
  if w < 8 then (rget k.tiles a).toNat / 2 ^ (lo % 8) % 2 ^ w
  else numOf ((List.range (w / 8)).map fun i => rget k.tiles (a + i))

/-- The same written. -/
def Block.setBits (k : Block) (t m lo w x : Nat) : Block :=
  let a := 16384 * t + 256 * m + lo / 8
  if w < 8 then
    let old := (rget k.tiles a).toNat
    let y := old - old / 2 ^ (lo % 8) % 2 ^ w * 2 ^ (lo % 8) + x % 2 ^ w * 2 ^ (lo % 8)
    { k with tiles := rset k.tiles a (BitVec.ofNat 8 y) }
  else { k with tiles := ((bytesOf x (w / 8)).zip (List.range (w / 8))).foldl (fun m (b, i) => rset m (a + i) b) k.tiles }

/-- The stored bits of element (m, n), zero beyond the columns (R312); of lq8 the code of eight weights. -/
def Block.raw (k : Block) (t m n : Nat) : Nat :=
  let tc := k.tcOf t
  if tcCols tc ≤ n then 0
  else if isLq8 (tcFmt tc) then k.bitsAt t m (16 * (n / 8)) 16
  else k.bitsAt t m (tileWidth (tcFmt tc) * n) (tileWidth (tcFmt tc))

/-- The value of element (m, n). -/
def Block.val (k : Block) (t m n : Nat) : FV :=
  let tc := k.tcOf t
  if tcCols tc ≤ n then .fin false 0 0
  else if isLq8 (tcFmt tc) then
    let w := (lq8Decode (k.raw t m n)).getD (n % 8) 0
    .fin (decide (w < 0)) w.natAbs (-1)
  else (tileFmt (tcFmt tc)).value (k.raw t m n)

/-- The bits of a value that an element of a tile takes: of e3m2, bits 7:6 are written as zero (R57). -/
def tileBits (code x : Nat) : Nat := if code = 5 then x % 64 else x

/-- Element (m, n) written with its bits; not for lq8. -/
def Block.put (k : Block) (t m n x : Nat) : Block :=
  let f := tcFmt (k.tcOf t)
  k.setBits t m (tileWidth f * n) (tileWidth f) (tileBits f x)

/-- Row and column indices below two bounds. -/
def cells (rows cols : Nat) : List (Nat × Nat) := (List.range rows).flatMap fun m => (List.range cols).map fun n => (m, n)

/-! ### Operations of the matrix unit -/

/-- At most four operations in flight (R327). -/
def Seq.full (q : Seq) : Bool := decide (4 ≤ q.ops.length)

/-- An operation of the matrix unit accepted: its tiles hold the result, and no word can name them until it completes; its
flags come then. -/
def State.unitOp (s : State) (c : SeqCtx) (tiles : List Nat) (k : Block) (flags : Nat) : State :=
  (((s.modBlock c.b fun x => { x with tiles := k.tiles, tc := k.tc }).modSeq c.b fun q =>
    { q with ops := q.ops ++ [⟨c.q.pc, tiles, 0, flags, []⟩] }).seqNext c.b)

/-- A word of the matrix unit: the faults in their order (R326), or the block with the result and the flags. -/
def tileWord (tiles : List Nat) (s : State) (g : State → SeqCtx → Except Nat (Block × Nat)) : Out :=
  seqWord tiles s fun s c =>
    if c.q.full then none
    else match g s c with
      | .error e => some (s.seqFault c.b e)
      | .ok (k, fl) => some (s.unitOp c tiles k fl)

/-- `tctl`: TILE_SHAPE for an illegal value. -/
def execTctl (x : XOps) (s : State) : Out :=
  seqWord' [x.td.toNat] s fun s c =>
    let v : Word := (c.q.getM x.mr.toNat).setWidth 32
    if tcLegal v then (s.modBlock c.b fun k => { k with tc := rset k.tc x.td.toNat v }).seqNext c.b
    else s.seqFault c.b cTILE

/-- `tctl.r`. -/
def execTctlR (x : XOps) (s : State) : Out :=
  seqWord' [x.td.toNat] s fun s c =>
    (s.modSeq c.b fun q => q.setM x.mr.toNat ((c.k.tcOf x.td.toNat).setWidth 64)).seqNext c.b

/-- `tzero`. -/
def execTzero (x : XOps) (s : State) : Out :=
  let t := x.td.toNat
  tileWord [t] s fun _ c =>
    .ok ({ c.k with tiles := c.k.tiles.filter fun (a, _) => !(decide (16384 * t ≤ a) && decide (a < 16384 * (t + 1))) }, 0)

/-- `tmov` and `tmov.t`. -/
def execTmov (x : XOps) (s : State) : Out :=
  let d := x.td.toNat
  let a := x.ta.toNat
  tileWord [d, a] s fun _ c =>
    let k := c.k
    let fd := tcFmt (k.tcOf d)
    let rd := tcRows (k.tcOf d)
    let cd := tcCols (k.tcOf d)
    let ra := tcRows (k.tcOf a)
    let ca := tcCols (k.tcOf a)
    let tr := bfld x.mod 0 0 == 1
    if fd ≠ tcFmt (k.tcOf a) ∨ (tr ∧ tileWidth fd < 8) then .error cTILE
    else if tr then
      .ok ((cells rd cd).foldl (fun y (i, j) => y.put d i j (if j < ra ∧ i < ca then k.raw a j i else 0)) k, 0)
    else if isLq8 fd then
      .ok ((cells (min rd ra) (cd / 8)).foldl (fun y (m, j) => y.setBits d m (16 * j) 16 (k.raw a m (8 * j))) k, 0)
    else .ok ((cells (min rd ra) cd).foldl (fun y (m, n) => y.put d m n (k.raw a m n)) k, 0)

/-- An element read as an f32 is abandoned. -/
def Block.abandoned (k : Block) (t : Nat) (ps : List (Nat × Nat)) : Bool :=
  tcFmt (k.tcOf t) == 0 && ps.any fun (m, n) => isAbandoned (BitVec.ofNat 32 (k.raw t m n))

/-- An exact value converted (R65) without its first line. -/
def convertFV (v : FV) (tgt : Fmt) (mode : RMode) : Res :=
  match v with
  | .nan sig => (if tgt.hasNaN then tgt.qnan else 0, flagIf (sig || !tgt.hasNaN) fNV)
  | .inf neg => if tgt.hasInf then (tgt.infBits neg, 0) else (tgt.signed neg tgt.maxBits, fNV)
  | .fin neg m e => tgt.roundSat mode neg m e

/-- `tcvt`. -/
def execTcvt (x : XOps) (s : State) : Out :=
  let d := x.td.toNat
  let a := x.ta.toNat
  tileWord [d, a] s fun _ c =>
    let k := c.k
    let fd := tcFmt (k.tcOf d)
    let fa := tcFmt (k.tcOf a)
    let rm := bfld x.mod 2 0
    let rows := min (tcRows (k.tcOf d)) (tcRows (k.tcOf a))
    let cd := tcCols (k.tcOf d)
    if isLq8 fd ∧ ((fa ≠ 1 ∧ fa ≠ 2) ∨ rm ≠ 0) then .error cTILE
    else if k.abandoned a (cells rows cd) then .error cABANDONED
    else if isLq8 fd then
      .ok ((cells rows (cd / 8)).foldl (fun (y, fl) (m, j) =>
        let r := cbEncode (tileFmt fa) ((List.range 8).map fun i => k.raw a m (8 * j + i)) 127
        (y.setBits d m (16 * j) 16 r.1, fl ||| r.2)) (k, 0))
    else
      .ok ((cells rows cd).foldl (fun (y, fl) (m, n) =>
        let r := convertFV (k.val a m n) (tileFmt fd) (RMode.ofCode rm)
        (y.put d m n r.1, fl ||| r.2)) (k, 0))

/-- One element of `tew` (R325). -/
def tewOp (op : Nat) (mode : RMode) (a b : Nat) : Res :=
  match op with
  | 0 => fAdd .f32 mode a b
  | 1 => fSub .f32 mode a b
  | 3 => fMinMax .f32 true false a b
  | 4 => fMinMax .f32 false false a b
  | _ => fMul .f32 mode a b

/-- `tew`. -/
def execTew (x : XOps) (s : State) : Out :=
  let d := x.td.toNat
  let a := x.ta.toNat
  let b := x.tb.toNat
  let op := bfld x.mod 2 0
  let scl := op == 5
  tileWord (if scl then [d, a] else [d, a, b]) s fun _ c =>
    let k := c.k
    let f32 := fun (t : Nat) => tcFmt (k.tcOf t) == 0
    if !(f32 d && f32 a && (scl || f32 b)) then .error cTILE
    else
      let ra := min (tcRows (k.tcOf d)) (tcRows (k.tcOf a))
      let rows := if scl then ra else min ra (tcRows (k.tcOf b))
      let ps := cells rows (tcCols (k.tcOf d))
      let y : Word := (c.q.getM x.mr.toNat).setWidth 32
      if k.abandoned a ps || (if scl then isAbandoned y else k.abandoned b ps) then .error cABANDONED
      else
        .ok (ps.foldl (fun (z, fl) (m, n) =>
          let r := tewOp op (RMode.ofCode (bfld x.mod 7 5)) (k.raw a m n) (if scl then y.toNat else k.raw b m n)
          (z.put d m n r.1, fl ||| r.2)) (k, 0))

/-! ### Multiplies (R313, R321 to R323) -/

/-- Accepted pairs of formats (R321, R323). -/
def pairOk (cb : Bool) (fa fb : Nat) : Bool :=
  if cb then fa == 7 && (fb == 6 || fb == 7)
  else
    let known := fun (f : Nat) => decide (1 ≤ f) && decide (f ≤ 6)
    known fa && known fb && tileClass fa == tileClass fb &&
      (tileClass fa != 8 || fa == fb || [fa, fb] == [3, 4] || [fa, fb] == [4, 3] || [fa, fb] == [4, 5] || [fa, fb] == [5, 4])

/-- The checks of R321: the elements of C to be written. -/
def Block.mulCheck (k : Block) (cb : Bool) (d a b : Nat) : Except Nat (List (Nat × Nat)) :=
  let ps := cells (min (tcRows (k.tcOf d)) (tcRows (k.tcOf a))) (min (tcCols (k.tcOf d)) (tcRows (k.tcOf b)))
  if tcFmt (k.tcOf d) ≠ 0 ∨ d = a ∨ d = b then .error cTILE
  else if !pairOk cb (tcFmt (k.tcOf a)) (tcFmt (k.tcOf b)) then .error cTILE
  else if k.abandoned d ps then .error cABANDONED
  else .ok ps

/-- The products of group g of row m of A and row n of B. -/
def Block.products (k : Block) (a b m n g : Nat) : List (FV × FV) :=
  (List.range 32).map fun i => (k.val a m (32 * g + i), k.val b n (32 * g + i))

/-- One element of C over a list of groups, with the exponent of the scales of each. -/
def Block.accumulate (k : Block) (d a b m n : Nat) (gs : List Nat) (scale : Nat → Option Int) : Res :=
  gs.foldl (fun (acc, fl) g =>
    let r := groupAcc acc (k.products a b m n g) (scale g)
    (r.1, fl ||| r.2)) (k.raw d m n, 0)

/-- All written elements of C. -/
def Block.multiply (k : Block) (d a b : Nat) (ps : List (Nat × Nat)) (gs : List Nat)
    (scale : Nat → Nat → Nat → Option Int) : Block × Nat :=
  ps.foldl (fun (y, fl) (m, n) =>
    let r := k.accumulate d a b m n gs (scale m n)
    (y.put d m n r.1, fl ||| r.2)) (k, 0)

/-- Groups of a multiply: those of the width class. -/
def Block.groups (k : Block) (a : Nat) : List Nat := List.range (tileCap (tcFmt (k.tcOf a)) / 32)

/-- `tmma`. -/
def execTmma (x : XOps) (s : State) : Out :=
  let d := x.td.toNat
  let a := x.ta.toNat
  let b := x.tb.toNat
  tileWord [d, a, b] s fun _ c =>
    match c.k.mulCheck false d a b with
    | .error e => .error e
    | .ok ps => .ok (c.k.multiply d a b ps (c.k.groups a) fun _ _ _ => some 0)

/-- Registers in the span of a scale map (Table 13.5). -/
def scaleSpan (map g : Nat) : Nat :=
  match map with
  | 0 | 1 | 7 => g
  | 6 => 1
  | _ => g / 2

/-- A byte of the scale registers: register, lane, byte. -/
def byteAddr (b : Nat) : Nat × Nat × Nat := (b / 128, b % 128 / 4, b % 4)

/-- Where the A scale of (m, g) lies; none: unit. -/
def scaleA (map gg m g : Nat) : Option (Nat × Nat × Nat) :=
  match map with
  | 0 | 2 => some (byteAddr (m * gg + g))
  | 1 | 3 => some (byteAddr (64 * g + m))
  | 4 | 5 => none
  | 6 => some (byteAddr g)
  | _ => some (2 * (g / 4) + m / 32, m % 32, g % 4)

/-- Where the B scale of (n, g) lies. -/
def scaleB (map gg n g : Nat) : Option (Nat × Nat × Nat) :=
  match map with
  | 0 => some (byteAddr (64 * gg + n * gg + g))
  | 1 => some (byteAddr (64 * gg + 64 * g + n))
  | 2 | 3 => none
  | 4 => some (byteAddr (n * gg + g))
  | 5 => some (byteAddr (64 * g + n))
  | 6 => some (byteAddr (gg + g))
  | _ => some (gg / 2 + 2 * (g / 4) + n / 32, n % 32, g % 4)

/-- A scale read from a wave. -/
def Wave.scaleByte (w : Wave) (vb : Nat) (a : Option (Nat × Nat × Nat)) : Nat :=
  match a with
  | none => 127
  | some (r, l, i) => match w.th l with
    | some t => elem (t.getV (vb + r)).toNat 8 i
    | none => 0

/-- The exponent of two scales; none where one is 0xFF. -/
def scaleExp (ka kb : Nat) : Option Int := if ka = 255 ∨ kb = 255 then none else some ((ka : Int) + kb - 254)

/-- A multiply with scales. -/
def scaledMul (x : XOps) (cb : Bool) (s : State) (c : SeqCtx) : Except Nat (Block × Nat) :=
  let d := x.td.toNat
  let a := x.ta.toNat
  let b := x.tb.toNat
  let map := bfld x.mod 2 0
  let vb := bfld x.imm 7 0
  let gg := tileCap (tcFmt (c.k.tcOf a)) / 32
  match c.k.mulCheck cb d a b with
  | .error e =>
    -- the noted set and the span are shape checks too, before the abandoned ones
    if e = cABANDONED then
      (match s.notedWave c (bfld x.mod 8 4) with
        | some w => if min w.vlim 256 < vb + scaleSpan map gg then .error cTILE else .error e
        | none => .error cTILE)
    else .error e
  | .ok ps =>
    match s.notedWave c (bfld x.mod 8 4) with
    | some w =>
      if min w.vlim 256 < vb + scaleSpan map gg then .error cTILE
      else .ok (c.k.multiply d a b ps (c.k.groups a) fun m n g =>
        scaleExp (w.scaleByte vb (scaleA map gg m g)) (w.scaleByte vb (scaleB map gg n g)))
    | none => .error cTILE

/-- `tmmas`. -/
def execTmmas (x : XOps) (s : State) : Out :=
  tileWord [x.td.toNat, x.ta.toNat, x.tb.toNat] s fun s c => scaledMul x false s c

/-- `tmmacb` and `tmmacb.s`. -/
def execTmmacb (x : XOps) (s : State) : Out :=
  let d := x.td.toNat
  let a := x.ta.toNat
  let b := x.tb.toNat
  tileWord [d, a, b] s fun s c =>
    if bfld x.mod 3 3 = 1 then scaledMul x true s c
    else match c.k.mulCheck true d a b with
      | .error e => .error e
      | .ok ps => .ok (c.k.multiply d a b ps (c.k.groups a) fun _ _ _ => some 0)

/-! ### Memory accesses of the sequencer (R303, R318, R320) -/

/-- Translation of a data access: its last-page entry first. -/
def State.seqTranslate (s : State) (c : SeqCtx) (va kind : Nat) : Except Nat TlbEntry :=
  let found : Except Nat TlbEntry := match c.q.lastPage with
    | some e => if e.covers (s.portOf c.k) va && (permitted true kind e.pte).isNone then .ok e
      else s.lookup c.k.core (s.portOf c.k) va
    | none => s.lookup c.k.core (s.portOf c.k) va
  match found with
  | .error e => .error e
  | .ok e => match permitted true kind e.pte with
    | some x => .error x
    | none => .ok e

/-- What an access leaves behind (R163, R170). -/
def State.seqTouch (s : State) (c : SeqCtx) (writes : Bool) (va : Nat) (e : TlbEntry) : State :=
  let s1 := if c.q.lastPage = some e then s
    else (s.fillTlb c.k.core e).modSeq c.b fun q => { q with lastPage := some e }
  s1.claim c.k.core va writes e

/-- The pieces of row r, each checked; the first failure with its address. -/
def State.rowPieces (s : State) (c : SeqCtx) (kind : Nat) (va : DWord) (off rb : Nat) : Nat → Except (Nat × DWord) (List (Piece × TlbEntry))
  | 0 => .ok []
  | n + 1 => match s.rowPieces c kind va off rb n with
    | .error e => .error e
    | .ok ps =>
      let a := va + BitVec.ofNat 64 (16 * n)
      match s.seqTranslate c a.toNat kind with
      | .error e => .error (e, a)
      | .ok e => .ok (ps ++ [(⟨a, e.key a.toNat, off + 16 * n, min 16 (rb - 16 * n), e.swm⟩, e)])

/-- All rows of a tile (R318), in ascending order. -/
def State.tileRows (s : State) (c : SeqCtx) (x : XOps) (perms kind : Nat) : Nat → Except (Nat × DWord) (List (Piece × TlbEntry))
  | 0 => .ok []
  | r + 1 => match s.tileRows c x perms kind r with
    | .error e => .error e
    | .ok ps =>
      let t := x.td.toNat
      let tc := c.k.tcOf t
      let cap := c.q.getMc (bfld x.mod 2 0)
      let rb := tcCols tc * tileWidth (tcFmt tc) / 8
      let va := BitVec.ofNat 64 cap.base + c.q.getM x.mr.toNat + x.imm.signExtend 64 +
        BitVec.ofNat 64 r * c.q.getM (x.mr.toNat + 1)
      match capCheck cap va.toNat rb perms 0 with
      | some e => .error (e, va)
      | none =>
        if va.toNat % 16 ≠ 0 then .error (cMISALIGNED, va)
        else match s.rowPieces c kind va (16384 * t + 256 * r) rb ((rb + 15) / 16) with
          | .error e => .error e
          | .ok qs => .ok (ps ++ qs)

/-- A failure of a data access: an absent page makes the sequencer wait at its word, any other is a fault (R305). -/
def State.seqFails (s : State) (c : SeqCtx) (e : Nat) (va : DWord) (kind : Nat) : State :=
  if e = cNOTPRESENT then s.seqPark c.b c.k.core va kind else s.seqFault c.b e

/-- `tld` and `tst`: every row checked, then the operation is on the load path. -/
def loadPath (x : XOps) (s : State) (path perms kind : Nat) : Out :=
  seqWord [x.td.toNat] s fun s c =>
    if c.q.full then none
    else match s.tileRows c x perms kind (tcRows (c.k.tcOf x.td.toNat)) with
      | .error (e, va) => some (s.seqFails c e va kind)
      | .ok ps =>
        let s1 := ps.foldl (fun s (p, e) => s.seqTouch c (kind == 1) p.va.toNat e) s
        some ((s1.modSeq c.b fun q =>
          { q with ops := q.ops ++ [⟨c.q.pc, [x.td.toNat], path, 0, ps.map (·.1)⟩] }).seqNext c.b)

def execTld (x : XOps) (s : State) : Out := loadPath x s 1 pLOAD 0
def execTst (x : XOps) (s : State) : Out := loadPath x s 2 pSTORE 1

/-! ### tmmasp (R324, R340) -/

/-- The reader of the sequencer. -/
def State.seqReader (s : State) (c : SeqCtx) (cap : Cap) : Reader := fun va n =>
  match capCheck cap va.toNat n pLOAD 0 with
  | some e => .error (e, va)
  | none =>
    if va.toNat % n ≠ 0 then .error (cMISALIGNED, va)
    else match s.seqTranslate c va.toNat 0 with
      | .error e => .error (e, va)
      | .ok e => .ok ⟨numOf ((List.range n).map fun i =>
          (c.q.storing c.k e.swm (e.key va.toNat + i)).getD (s.seqByte c.k c.b e.swm (e.key va.toNat + i))),
          ⟨0, Thread.init 0 0, va, e⟩, n⟩

/-- One nonzero of a step: where it lies in the tile, and its bits. -/
structure SpElem where
  m : Nat
  k : Nat
  x : Nat

/-- The nonzeros of row m in K block b, in ascending k: column and offset. -/
def spRow (p : Pat) (rd : Reader) (base : DWord) (tr : Bool) (row0 col0 m b cols : Nat) : Gen (List (Nat × Nat)) :=
  (List.range 32).foldlM (fun (l : List (Nat × Nat)) i => do
    let k := 32 * b + i
    if cols ≤ k then pure l
    else
      let v ← (if tr then p.at rd base true ((col0 : Int) + k) ((row0 : Int) + m)
        else p.at rd base false ((row0 : Int) + m) ((col0 : Int) + k))
      match v with
      | some o => pure (l ++ [(k, o)])
      | none => pure l) []

/-- The step's nonzeros with their values: rows first, then the reads (R324). -/
def spStep (p : Pat) (rd : Reader) (base vals : DWord) (tr : Bool) (row0 col0 rows cols b w : Nat) : Gen (List SpElem) := do
  let zs ← (List.range rows).foldlM (fun (l : List (Nat × Nat × Nat)) m => do
    let r ← spRow p rd base tr row0 col0 m b cols
    pure (l ++ r.map fun (k, o) => (m, k, o))) []
  zs.foldlM (fun (l : List SpElem) (m, k, o) => do
    let x ← rdAt rd (vals + BitVec.ofNat 64 (o * w / 8)) ((w + 7) / 8)
    pure (l ++ [⟨m, k, if w < 8 then x / 2 ^ (o % 2 * 4) % 16 else x⟩])) []

/-- Reads of the sequencer done: the pages' traces, or a line whose cork does not match. -/
def State.seqReads (s : State) (c : SeqCtx) (rs : List VRead) (k : State → State) : State :=
  match rs.find? (s.readBad c.k.core) with
  | some r => s.consume ⟨c.k.core, c.b, true, 6, 0, r.hit.va⟩ c.q.pc
  | none => k (rs.foldl (fun s r => (s.seqTouch c false r.hit.va.toNat r.hit.e).hold
      (if r.hit.e.swm then some (dieOf c.k.core) else none) (r.hit.e.key r.hit.va.toNat)) s)

/-- The context of the word, bound at step 0. -/
def State.spBind (s : State) (c : SeqCtx) (x : XOps) (tr : Bool) : Gen (GenCtx × Pat) := do
  let cap := c.q.getMc (bfld x.mod 3 1)
  let addr := BitVec.ofNat 64 cap.base + c.q.getM (x.mr.toNat + 2)
  let (ws, p) ← readPat (s.seqReader c cap) addr
  if tr && !p.term.invertible then fun _ => .error (cNONINV, 0)
  else pure (⟨cap, addr, ws, true, tr, false, 0, 0⟩, p)

/-- One K block, or the start: the tile with the block's values, multiplied where it has a nonzero. -/
def Block.spBlock (k : Block) (d a b blk rows cols : Nat) (es : List SpElem) : Block × Nat :=
  if es.isEmpty then (k, 0)
  else
    let zero := (cells rows 32).foldl (fun (y : Block) (m, i) => if 32 * blk + i < cols then y.put a m (32 * blk + i) 0 else y) k
    let full := es.foldl (fun (y : Block) e => y.put a e.m e.k e.x) zero
    let ps := cells (min (tcRows (k.tcOf d)) (tcRows (k.tcOf a))) (min (tcCols (k.tcOf d)) (tcRows (k.tcOf b)))
    full.multiply d a b ps [blk] fun _ _ _ => some 0

/-- A step of a bound `tmmasp`. -/
def State.spRun (s : State) (c : SeqCtx) (x : XOps) (z : GenCtx) (p : Pat) : State :=
  let d := x.td.toNat
  let a := x.ta.toNat
  let b := x.tb.toNat
  let tc := c.k.tcOf a
  let rows := tcRows tc
  let cols := tcCols tc
  let w := tileWidth (tcFmt tc)
  let cap := c.q.getMc (bfld x.mod 3 1)
  let m0 := (c.q.getM x.mr.toNat).toNat
  let vals := BitVec.ofNat 64 cap.base + c.q.getM (x.mr.toNat + 1)
  let g := spStep p (s.seqReader c cap) (BitVec.ofNat 64 z.cap.base) vals z.t (m0 % 2 ^ 32) (m0 / 2 ^ 32)
    rows cols c.q.step w
  match g [] with
  | .error (e, va) => s.seqFails c e va 0
  | .ok (es, rs) =>
    s.seqReads c rs fun s =>
      let (k, fl) := c.k.spBlock d a b c.q.step rows cols es
      let last := decide ((cols + 31) / 32 ≤ c.q.step + 1)
      let s1 := (s.modBlock c.b fun y => { y with tiles := k.tiles }).modSeq c.b fun q =>
        { (q.flag fl) with
          step := if last then 0 else q.step + 1
          dsteps := if es.isEmpty then q.dsteps else min 65535 (q.dsteps + 1) }
      if last then s1.seqNext c.b else s1

/-- `tmmasp` and `tmmasp.t`: the checks and the binding at step 0, then one K block at a time, each as an operation of the matrix
unit after the earlier ones (R327); the word stays until its last block. -/
def execTmmasp (x : XOps) (s : State) : Out :=
  let d := x.td.toNat
  let a := x.ta.toNat
  let b := x.tb.toNat
  let zk := bfld x.mod 5 4
  let tr := bfld x.mod 0 0 == 1
  seqWord [d, a, b] s fun s c =>
    if c.q.full || c.q.ops.any (fun o => o.path == 0) then none
    else if c.q.step ≠ 0 then
      match fget c.q.z zk with
      | some z => match parsePat z.words with
        | some p => some (s.spRun c x z p)
        | none => some (s.seqFault c.b cPATTERN)
      | none => some (s.seqFault c.b cPATTERN)
    else match c.k.mulCheck false d a b with
      | .error e => some (s.seqFault c.b e)
      | .ok _ => match s.spBind c x tr [] with
        | .error (e, va) => some (s.seqFails c e va 0)
        | .ok ((z, p), rs) =>
          some (s.seqReads c rs fun s =>
            let s1 := s.modSeq c.b fun q => { q with z := fset q.z zk z, dsteps := 0 }
            match fget s1.blocks c.b with
            | some k => match k.seq with
              | some q => s1.spRun ⟨c.b, k, q⟩ x z p
              | none => s1
            | none => s1)

/-! ### Completion (R327) -/

/-- A piece loaded into its tile; the die keeps a copy of the line of an SWM page (R171). -/
def State.loadPiece (s0 : State) (b : Nat) (p : Piece) : State :=
  let s := match fget s0.blocks b with
    | some k => s0.hold (if p.swm then some (dieOf k.core) else none) p.key
    | none => s0
  s.modBlock b fun k =>
    { k with tiles := (List.range p.len).foldl (fun m i => rset m (p.off + i) (k.tileByte (p.off + i) (s.seqByte k b p.swm (p.key + i)))) k.tiles }

/-- A piece stored: queued stores of the block to the same bytes leave first; no signature is tested (Table 9.1). -/
def State.storePiece (s : State) (b : Nat) (p : Piece) : State :=
  match fget s.blocks b with
  | none => s
  | some k =>
    let s1 := s.drainSq k.core fun e => e.blk == b && decide (e.key < p.key + p.len) && decide (p.key < e.key + e.bytes.length)
    s1.write none false (if p.swm then some (dieOf k.core) else none) p.key
      ((List.range p.len).map fun i => k.tileOut (p.off + i))

/-- An operation completes; with the last one a block that is being saved may leave its core (R328). An error that it consumes is older
than any that the sequencer meets at the word where it stands (R415). -/
def State.finishTile (s : State) (b : Nat) (k : Block) (o : TileOp) : State :=
  let gone := fun (s : State) => s.modSeq b fun q => { q with ops := q.ops.erase o }
  let bad := fun (p : Piece) => s.badAt (if p.swm then some (dieOf k.core) else none) p.key p.len
  match o.path with
  | 0 => (gone (s.modSeq b fun q => q.flag o.flags)).lastGone b
  | 1 => match o.rows.find? bad with
    | some p => (gone s).consume ⟨k.core, b, true, 6, 0, p.va⟩ o.pc 0
    | none => (gone (o.rows.foldl (fun s p => s.loadPiece b p) s)).lastGone b
  | _ => match o.rows.find? fun p => bad p && !(p.key % 64 == 0 && p.len % 64 == 0) with
    | some p => (gone s).consume ⟨k.core, b, true, 6, 0, p.va⟩ o.pc 0
    | none => (gone (o.rows.foldl (fun s p => s.storePiece b p) s)).lastGone b

/-- TILE_OP_COMPLETE: the matrix unit and the load path each complete their oldest operation of the block; where both have
one, either may be first. -/
def execTileOpComplete (b : Nat) (s0 : State) : Out :=
  let s := s0.settleOwed none b
  match (fget s.blocks b).bind fun k => k.seq.map fun q => (k, q) with
  | none => .next s0
  | some (k, q) =>
    match q.ops.find? (fun o => o.path == 0), q.ops.find? (fun o => o.path != 0) with
    | none, none => .next s0
    | some o, none => .next (s.finishTile b k o)
    | none, some o => .next (s.finishTile b k o)
    | some o, some p =>
      let s1 : State := { s with ctr := s.ctr + 1 }
      .next (s1.finishTile b k (if Config.freeBit s.ctr then o else p))

end Sys2Proof.Machine
end

