-- ==== Sys2Proof/Machine/Errors.lean ====
section
/-!
DEFINITION. Uncorrectable errors that reach an agent and firmware's decisions (spec/17_traps_errors_context.md, R413 to
R416; spec/09_regions.md, R241).
-/
namespace Sys2Proof.Machine

/-! ### An error is consumed (R413, R416) -/

/-- Sources of Table 17.5 that are a line of memory or of a region buffer. -/
def memorySource (src : Nat) : Bool := (decide (1 ≤ src) && decide (src ≤ 4)) || src == 6

/-- The error names an agent that exists and runs where it says, and lanes of it. -/
def State.errorOk (s : State) (e : ErrorReport) : Bool :=
  decide (1 ≤ e.src) && decide (e.src ≤ 9) &&
    if e.seq then
      e.lanes == 0 && (fget s.blocks e.wave).any fun b => b.core == e.core && b.streamLive && decide (e.core < 0x100)
    else (s.wave e.wave).any fun w =>
      w.coreNo == e.core && e.lanes != 0 && e.lanes &&& ~~~w.live == 0

/-- A line of a region buffer poisoned (R241). -/
def Region.poisonLine (r : Region) (line : Nat) : Region :=
  { r with lines := fmod r.lines line fun l => { l with poison := true } }

/-- The region buffers of a wave that hold the line. -/
def State.buffersHold (s : State) (w : Wave) (line : Nat) : Bool :=
  let has := fun (r : Option Region) => r.any fun r => (fget r.lines line).isSome
  has w.reg || has (s.blockRegion w)

/-- The damage: an error of the core's SRAM or of a cork poisons the buffer line that holds the address; else the line in
memory, or on an SWM page the die's copy of it, no longer matches its cork. -/
def State.damage (s : State) (e : ErrorReport) (swm : Bool) (key : Nat) : State :=
  let line := key / 64
  let at_ := s.lineRead (if swm then some (dieOf e.core) else none) line
  match (if e.seq then none else s.wave e.wave) with
  | none => { s with bad := sinsert s.bad at_ }
  | some w =>
    if (e.src = 1 ∨ e.src = 6) ∧ s.buffersHold w line then
      (s.modWave e.wave fun w => { w with reg := w.reg.map fun r => r.poisonLine line }).modBlock w.blk fun b =>
        { b with reg := b.reg.map fun r => r.poisonLine line }
    else { s with bad := sinsert s.bad at_ }

/-- The port whose tables translate for the agent. -/
def State.errorPort (s : State) (e : ErrorReport) : Nat :=
  if e.seq then match fget s.blocks e.wave with
    | some b => s.portOf b
    | none => 0
  else match s.wave e.wave with
    | some w => w.port
    | none => 0

/-- The access in flight that reads the line for one of the lanes. -/
def State.consuming (s : State) (e : ErrorReport) (line : Nat) : Option Access :=
  if e.seq then none
  else s.inflight.find? fun a => a.wave == e.wave && a.lanes.any fun l =>
    inMask e.lanes l.lane && (l.key / 64 == line || (a.op.two && l.key2 / 64 == line))

/-- The access in flight of one of the lanes whose address lies in the line that the report names. -/
def State.consumingAt (s : State) (e : ErrorReport) : Option Access :=
  if e.seq then none
  else s.inflight.find? fun a => a.wave == e.wave && a.lanes.any fun l =>
    inMask e.lanes l.lane && (l.va.toNat / 64 == e.addr.toNat / 64 || (a.op.two && l.va2.toNat / 64 == e.addr.toNat / 64))

/-- The fabric load or atomic of one of the lanes that has been performed and brings data to the address. -/
def State.consumingPacket (s : State) (e : ErrorReport) : Option (Nat × Packet) :=
  if e.seq then none
  else s.packets.find? fun (_, (p : Packet)) => p.wave == e.wave && (p.pkt.kind == 1 || p.pkt.kind == 2) &&
    (p.res.isSome || !s.ports.any fun (_, (q : Port)) => q.blend == some (p.blend, p.member)) &&
    p.pkt.lanes.any fun (l, va, _) => inMask e.lanes l && va.toNat / 64 == e.addr.toNat / 64

/-- The lanes of a packet that consumed the error are dropped from it: they write no register. -/
def State.dropPacketLanes (s : State) (id : Nat) (lanes : Word) : State :=
  { s with packets := fmod s.packets id fun p =>
      { p with pkt := { p.pkt with lanes := p.pkt.lanes.filter fun (l, _, _) => !inMask lanes l } } }

/-- The lanes of an access that consumed the error are dropped from it: they write no register. -/
def State.dropLanes (s : State) (a : Access) (lanes : Word) : State :=
  let rest := a.lanes.filter fun l => !inMask lanes l.lane
  { s with inflight := if rest.isEmpty then s.inflight.filter fun x => x.id != a.id
      else s.inflight.map fun x => if x.id = a.id then { x with lanes := rest } else x }

/-- The address of the consuming word where no access in flight shows it: the word the lowest concerned lane, or the
sequencer, stands at. -/
def State.standsAt (s : State) (e : ErrorReport) : DWord :=
  if e.seq then match (fget s.blocks e.wave).bind fun b => b.seq with
    | some q => q.pc
    | none => 0
  else match (s.wave e.wave).bind fun w => (w.active e.lanes).head? with
    | some (_, t) => t.pc
    | none => 0

/-- The report as it is kept: an error of a register file, of a tile or of timing has no address (Table 17.5). -/
def keptReport (e : ErrorReport) : ErrorReport := if e.src = 5 ∨ e.src = 8 ∨ e.src = 9 then { e with addr := 0 } else e

/-- UNCORRECTABLE_ERROR (R413). -/
def execUncorrectableError (e0 : ErrorReport) (s : State) : Out :=
  let e := keptReport e0
  if !s.errorOk e then .next s
  else if memorySource e.src then
    match s.walkVa (s.errorPort e) e.addr.toNat with
    | .error _ => .next s
    | .ok t =>
      let key := t.key e.addr.toNat
      let s1 := s.damage e t.swm key
      match s1.consuming e (key / 64) with
      | some a => .next (((s1.dropLanes a e.lanes).consume e a.pc a.id).noteDrain e.wave)
      | none => .next (s1.consume e (s1.standsAt e))
  -- poisoned ingress: the consumer is a fabric load or atomic, or an access of the line that came in poisoned
  else if e.src = 7 then
    match s.consumingPacket e, s.consumingAt e with
    | some (id, p), _ => .next ((s.dropPacketLanes id e.lanes).consume e p.pc id)
    | none, some a => .next (((s.dropLanes a e.lanes).consume e a.pc a.id).noteDrain e.wave)
    | none, none => .next (s.consume e (s.standsAt e))
  else .next (s.consume e (s.standsAt e))

/-! ### Decisions (R415, Table 17.6) -/

/-- A decision byte: bits 1:0, and D. -/
structure Decision where
  verb : Nat
  d    : Bool
deriving DecidableEq, Repr

def Decision.ofByte (b : Byte) : Decision := ⟨bfld b 1 0, bfld b 2 2 == 1⟩

/-- The errors that a wave consumed. -/
def Freeze.of (f : Freeze) (u : Nat) : List Consumed := f.errs.filter fun e => !e.rep.seq && e.rep.wave == u

/-- A concerned lane set back to the consuming word. -/
def Thread.repeatAt (t : Thread) (pc : DWord) : Thread :=
  if t.exited || t.pc == pc then t else { t with pc := pc, wait := .none, lat := [], latv := 0 }

/-- The word at an address is register arithmetic. -/
def State.arithAt (s : State) (w : Wave) (pc : DWord) : Bool :=
  match s.translateX w.coreNo w.port pc.toNat with
  | .error _ => false
  | .ok e => match decodeRaw (s.wordAt w.coreNo e pc) with
    | .ok i => i.arith
    | .error _ => false

/-- The error that decides where a lane resumes: of those it consumed, the oldest word's. -/
def firstError (es : List Consumed) (lane : Nat) : Option Consumed :=
  (es.filter fun e => inMask e.rep.lanes lane).foldl (fun b e => match b with
    | some x => if e.age < x.age then some e else some x
    | none => some e) none

/-- Each error with the lanes that it decides for. -/
def shareErrors (es : List Consumed) : List Consumed :=
  (es.foldl (fun l e => if l.contains e then l else l ++ [e]) []).filterMap fun e =>
    let m := maskOf ((lanesOf e.rep.lanes).filter fun l => firstError es l == some e)
    if m = 0 then none else some { e with rep := { e.rep with lanes := m } }

/-- RESUME with D = 0: each concerned lane repeats the consuming word. -/
def State.repeatWord (s : State) (u : Nat) (e : Consumed) : State :=
  s.modWave u fun w =>
    let moves := (w.active e.rep.lanes).any fun (_, t) => !t.exited && t.pc != e.pc
    let w1 := if moves then w.closeRun else w
    w1.mapMask e.rep.lanes fun _ t => t.repeatAt e.pc

/-- RESUME with D = 1: each concerned lane takes ERROR_CONSUMED at that word, with the source and the address. -/
def State.deliverError (s : State) (u : Nat) (e : Consumed) : State :=
  match s.wave u with
  | none => s
  | some w =>
    let ls := (w.active e.rep.lanes).filter fun (_, t) => !t.exited
    let fs : List LaneFault := ls.map fun (l, _) => ⟨l, cERROR, e.rep.addr, e.rep.src, e.pc⟩
    let inRun := w.run.isSome && s.arithAt w e.pc && ls.all fun (l, t) => t.pc == e.pc && w.run.any fun m => inMask m l
    if inRun then s.takeFaults u fs w.run false
    else ((s.modWave u Wave.closeRun).takeFaults u fs none false).boundary u

/-- RESUME of a wave: a lane that consumed several errors resumes once, at the oldest word. -/
def State.resumeWave (s : State) (u : Nat) (d : Bool) (es : List Consumed) : State :=
  (shareErrors es).foldl (fun s e => if d then s.deliverError u e else s.repeatWord u e) s

/-- KILL_WAVE: every thread exits, the slots of its requests are freed (R278), the launch will end KILLED with KCODE 0x48. -/
def State.killWave (s : State) (u : Nat) : State :=
  match s.wave u with
  | none => s
  | some w =>
    let s1 := ((s.modWave u Wave.closeRun).exitThreads u w.live).forsake u fun _ => true
    s1.modLaunch w.lid fun l => { l with kcode := cERROR, karg := 0 }

/-- ABORT_REGION at the innermost region that is still open (R241). -/
def State.abortRegion (s : State) (u : Nat) : State :=
  match s.wave u with
  | none => s
  | some w =>
    if w.reg.isSome then s.abortWave u 6 cERROR
    else if (s.blockRegion w).isSome then s.abortBlock w.blk (some u) 6 cERROR
    else s

/-- The waves with their decisions; ABORT_REGION without an open region is KILL_WAVE. -/
def State.verdicts (s : State) (c : Nat) (ds : List (Nat × Byte)) : List (Nat × Decision) :=
  (s.clusterWaves c).map fun (u, (w : Wave)) =>
    let d := Decision.ofByte (((ds.find? fun x => x.1 == u).map fun x => x.2).getD 0)
    (u, if d.verb = 1 ∧ !s.inRegion w then ⟨2, d.d⟩ else d)

/-- A sequencer that consumed an error: it repeats its word when its block's waves are all RESUME with D = 0, else it
faults there (R305). -/
def State.decideSeq (s : State) (ds : List (Nat × Decision)) (e : Consumed) : State :=
  let b := e.rep.wave
  let calm := (s.blockWaves b).all fun (u, _) => (ds.find? fun x => x.1 == u).all fun x => x.2.verb == 0 && !x.2.d
  let s1 := s.modBlock b fun k => { k with seq := k.seq.map fun q =>
    if q.ended then q else { q with pc := e.pc, wait := .none } }
  if calm || !(fget s.blocks b).any Block.streamLive then s1 else s1.seqFault b cERROR

/-- Of each block's sequencer errors the oldest: it repeats the word that met it (R415). -/
def oldestSeq (es : List Consumed) : List Consumed :=
  let mine := es.filter fun e => e.rep.seq
  (mine.foldl (fun l e => sinsert l e.rep.wave) []).filterMap fun b =>
    (mine.filter fun e => e.rep.wave == b).foldl (fun (m : Option Consumed) e => match m with
      | some x => if e.age < x.age then some e else some x
      | none => some e) none

/-- What the freeze held back in a block goes on: a commit (R230), the departure of a block that is being saved (R328). -/
def State.goOn (s : State) (b : Nat) : State := (s.retryCommits b).lastGone b

/-- The cluster released: a freeze of R436 or R437 goes on. -/
def Cluster.decided (c : Cluster) : Cluster :=
  { c with
    frozen := match c.frozen with
      | some f => if f.why = .error then none else some { f with errs := [] }
      | none => none
    snaps := [] }

/-- Every decision of the cluster applied at once, and the cluster unfrozen. -/
def State.decide_ (s : State) (c : Nat) (f : Freeze) (ds : List (Nat × Byte)) : State :=
  let vs := s.verdicts c ds
  let each := fun (verb : Nat) (g : State → Nat → Bool → State) (s : State) =>
    vs.foldl (fun s v => if v.2.verb = verb then g s v.1 v.2.d else s) s
  let s1 := each 0 (fun s u d => s.resumeWave u d (f.of u)) s
  let s2 := (oldestSeq f.errs).foldl (fun s e => s.decideSeq vs e) s1
  let s3 := each 1 (fun s u _ => s.abortRegion u) s2
  let s4 := each 2 (fun s u _ => s.killWave u) s3
  let s5 := each 3 (fun s u _ => match s.wave u with
    | some w => s.killLaunch w.lid cERROR 0
    | none => s) s4
  let s6 := s5.modCluster c Cluster.decided
  if (s6.cluster c).frozen.isSome then s6
  else ((s6.blocks.filter fun (_, (b : Block)) => clusterOf b.core == c).map (·.1)).foldl State.goOn s6

/-- Clk from detection to the default (R415). -/
def decisionDeadline : Nat := 72000

/-- The freeze of a cluster that waits for decisions. -/
def State.undecided (s : State) (c : Nat) : Option Freeze := (s.cluster c).frozen.filter fun f => !f.errs.isEmpty

/-- FIRMWARE_DECISION: one byte for each snapshot entry. -/
def execFirmwareDecision (cluster : Nat) (ds : List (Nat × Byte)) (s : State) : Out :=
  match s.undecided cluster with
  | none => .next s
  | some f =>
    let ok := ((s.cluster cluster).snaps.all fun n => ds.any fun d => d.1 == n.wave) &&
      decide ((s.clk - f.since).toNat < decisionDeadline)
    event s ok (s.decide_ cluster f ds)

/-- The default decisions: a concerned wave aborts its region, or is killed without one; every other resumes. -/
def State.defaults (s : State) (c : Nat) (f : Freeze) : List (Nat × Byte) :=
  (s.clusterWaves c).map fun (u, (w : Wave)) =>
    (u, if (f.of u).isEmpty then 0 else if s.inRegion w then 1 else 2)

/-- DECISION_DEFAULT. -/
def execDecisionDefault (cluster : Nat) (s : State) : Out :=
  match s.undecided cluster with
  | none => .next s
  | some f =>
    event s (decide ((s.clk - f.since).toNat ≥ decisionDeadline))
      (s.decide_ cluster f (s.defaults cluster f))

end Sys2Proof.Machine
end

