-- ==== Sys2Proof/Machine/Agenda.lean ====
section
/-!
DEFINITION. What happens next (log entry 1): what has to happen by now (spec/12_engines_and_promises.md, R289, R290, R294;
spec/10_shipped_sections.md, R255, R272; spec/17_traps_errors_context.md, R415), the head of the agenda, an access, the next agent.
-/
namespace Sys2Proof.Machine

/-- The transfer of a queued command of a copy engine. -/
def State.copyStep (s : State) (id : Nat) (c : Cmd) : Option State := s.copied id (cKIND c.words)

/-- The step of a queued command of a fabric engine. -/
def State.fabricStep (s : State) (id : Nat) (c : Cmd) : Option State :=
  if cKIND c.words = kFPUT then s.putStep id else s.collStart id (cCOP c.words)

/-- What brings an accepted command nearer to its end, where it can happen now: a step that finds a page absent waits, and so does
a collective for its other members, a put for what is unacknowledged. -/
def State.advance (s : State) (id : Nat) (c : Cmd) : Option State :=
  match c.stage with
  | .queued => match c.eng with
    | .copy _ => s.copyStep id c
    | .fab _ => s.fabricStep id c
  | .sending => s.putStep id
  | .moved => s.completed id
  | _ => none

/-- The clk has come by which an accepted command completes (R290); while an error is being handled it may take longer. -/
def State.pressed (s : State) (c : Cmd) : Bool :=
  decide (c.promise ≤ s.clk) && (s.cluster (clusterOf c.core)).frozen.isNone

/-- The first command whose clk has come and that can go on. -/
def State.promised (s : State) : Option State :=
  s.cmds.findSome? fun (id, (c : Cmd)) => if s.pressed c then s.advance id c else none

/-- What an engine learns by now: a record that reaches it, a slot that resolved (R289). -/
def State.learned (s : State) : Option State := (s.nextKnown none s.clk.toNat).map fun x => s.know x.1 x.2

/-- LATE of the first thread that waits past a deadline (R272, R294). -/
def State.late (s : State) : Option State :=
  s.waves.findSome? fun (u, (w : Wave)) =>
    if s.frozen w then none
    else w.threads.findSome? fun (l, (t : Thread)) => match t.exited, t.wait with
      | false, .counter _ _ false _ => s.lateAt u l
      | false, .shwait _ false => s.shwaitLate u l
      | _, _ => none

/-- The first section that passes four times its budget without its record (R255). -/
def State.overran (s : State) : Option State := s.waves.findSome? fun (u, _) => s.overrun u

/-- The first frozen cluster whose decision has not come in time (R415). -/
def State.defaulted (s : State) : Option State :=
  s.clusters.findSome? fun (n, _) => (s.undecided n).bind fun f =>
    if (s.clk - f.since).toNat ≥ decisionDeadline then some (s.decide_ n f (s.defaults n f)) else none

/-- The first request on its way to a home whose member has died: it returns with HOME_LOST (R275). -/
def State.stranded (s : State) : Option State :=
  s.bundles.findSome? fun b => match b.remote, (s.anyWave b.wave).bind fun w => s.blendOf w.port with
    | some m, some (n, k, _) => if k.st m = eDEAD then some (s.loseRequests n m) else none
    | _, _ => none

/-- What has to happen before anything else does: a killed launch's end, what engines learn, a command whose promise has come, LATE,
an overrun's record, a decision's default, a lost request. -/
def State.due (s : State) : Option State :=
  [s.reap, s.learned, s.promised, s.late, s.overran, s.defaulted, s.stranded].findSome? id

/-- What happens next: what has to happen by now, with the agenda kept; else the head of the agenda, where an entry that is no event
row passes without effect; with nothing on it, the oldest access that can be performed, else the agent whose turn it is. Without
power there is only the reset (R437; log entry 142). -/
def State.choose (s : State) : Fetched :=
  match s.agenda with
  | ⟨dt, .event i⟩ :: t =>
    if s.shutdown && i != .packageReset then .done (.fault .poweredOff)
    else if i.opcode != 0x400 then .done (.next { s with agenda := t })
    else
      let s1 := ({ s with agenda := t } : State).tick dt
      match (if s.shutdown then none else s1.due) with
      | some s' => .done (.next { s' with agenda := ⟨0, .event i⟩ :: t })
      | none => .run i s1
  | ⟨dt, .issue a⟩ :: t =>
    if s.shutdown then .done (.fault .poweredOff)
    else
      let s1 := (({ s with agenda := t, turn := a } : State).tick dt).ordered
      match s1.due with
      | some s' => .done (.next { s' with agenda := ⟨0, .issue a⟩ :: t })
      | none => s1.agentMoves
  | [] =>
    if s.shutdown then .done (.fault .poweredOff)
    else
      let s1 := s.tick 1
      match s1.due with
      | some s' => .done (.next s')
      | none => match s1.nextAccess with
        | some id => .run (.accessPerformed id) s1
        | none => s1.ordered.agentMoves

end Sys2Proof.Machine
end

