-- ==== Sys2Proof/Machine/Firmware.lean ====
section
/-!
DEFINITION. What firmware does to the machine besides decisions: absent pages (spec/07_memory_access.md, R165, R166, R173;
R265, R305), sampling (R172), the block window (R440), its path to memory by physical address
(spec/18_host_and_bringup.md, R438), and the retirement of a unit (spec/01_machine.md, R20).
-/
namespace Sys2Proof.Machine

/-! ### Absent pages -/

/-- The two addresses lie in one page of 4 KiB, the unit in which an absent page is reported. -/
def samePage (a b : DWord) : Bool := a.toNat / 4096 == b.toNat / 4096

/-- The thread is parked on the page. -/
def Thread.parkedOn (t : Thread) (va : DWord) : Bool :=
  match t.wait with
  | .parked a _ => samePage a va
  | _ => false

/-- The wave waits for firmware inside a region, for the page (R166). -/
def Wave.waitsOn (w : Wave) (va : DWord) : Bool := w.faultAbort.any fun (a, _) => samePage a va

/-- The sequencer waits for the page (R305). -/
def Seq.waitsOn (q : Seq) (va : DWord) : Bool :=
  match q.wait with
  | .page a _ => samePage a va
  | _ => false

/-- Somebody of the function waits for the page. -/
def State.awaited (s : State) (port : Nat) (va : DWord) : Bool :=
  ((s.waves ++ s.saved).any fun (_, (w : Wave)) =>
    w.port == port && (w.waitsOn va || w.threads.any fun (_, t) => t.parkedOn va)) ||
  s.blocks.any fun (_, (b : Block)) => s.portOf b == port && b.seq.any fun q => q.waitsOn va

/-- The address of the table entry with V = 0 at which the walk of an address ends. -/
def State.absentEntry (s : State) (va : Nat) : Nat → List Level → Option Nat
  | _, [] => none
  | table, l :: rest =>
    let idx := va / 2 ^ l.shift % 2 ^ l.bits
    let own : DWord := BitVec.ofNat 64 (s.mem.num (table + 8 * idx) 8)
    if !s.external table (8 * 2 ^ l.bits) then none
    else if !pV own then some (table + 8 * idx)
    else if pLEAF own then none
    else s.absentEntry va (pFRAME own) rest

/-- Firmware writes the leaf where the walk found none. -/
def State.writeLeaf (s : State) (port : Nat) (va : DWord) (leaf : Option DWord) : State :=
  match leaf, s.absentEntry va.toNat (s.port port).root.toNat walkLevels with
  | some e, some k => s.write none true none k (bytesOf e.toNat 8)
  | _, _ => s

/-- The walk of the address no longer ends at an absent page. -/
def State.present (s : State) (port : Nat) (va : DWord) : Bool :=
  match s.walkVa port va.toNat with
  | .error c => c != cNOTPRESENT
  | .ok _ => true

/-- A wave that waited inside a region unwinds: its innermost region aborts with reason FAULT (R166). -/
def State.abortFault (s : State) (u : Nat) : State :=
  match s.wave u with
  | none => s
  | some w =>
    let s1 := s.modWave u fun w => { w with faultAbort := none }
    if w.reg.isSome then s1.abortWave u 7 cNOTPRESENT
    else if (s.blockRegion w).isSome then s1.abortBlock w.blk (some u) 7 cNOTPRESENT
    else s1

/-- Whom firmware means: all that wait for the page, or the lanes that one wave parked at one word (R165). -/
def meant (who : Option (Nat × DWord)) (u : Nat) (pc : DWord) : Bool := who.all fun x => x.1 == u && x.2 == pc

/-- The waves of a function that wait for the page inside a region. -/
def State.inRegionOn (s : State) (port : Nat) (va : DWord) (who : Option (Nat × DWord)) : List Nat :=
  (s.waves.filter fun (u, (w : Wave)) => w.port == port && w.waitsOn va && who.all fun x => x.1 == u).map fun x => x.1

/-- Parked lanes of a wave resumed: they issue their word again. A suspended section becomes ready (R265). -/
def Wave.wakePage (w : Wave) (port : Nat) (va clk : DWord) (at_ : DWord → Bool) : Wave :=
  if w.port ≠ port then w
  else
    match w.sect with
    | some c =>
      if (w.th 0).any fun t => t.parkedOn va && at_ t.pc then
        if c.suspended then { w with sect := some { c with ready := true } }
        else w.wakeBy clk fun w => w.modTh 0 fun t => { t with wait := .none }
      else w
    | none =>
      if w.threads.any fun (_, t) => t.parkedOn va && at_ t.pc then
        w.wakeBy clk fun w => { w with
          threads := w.threads.map fun (l, (t : Thread)) => (l, if t.parkedOn va && at_ t.pc then { t with wait := .none } else t) }
      else w

/-- FIRMWARE_PAGE_RESUME (R165): the leaf written, if firmware has not written it before, and those that firmware means go on. -/
def execFirmwarePageResume (port : Nat) (page : Absence) (leaf : Option DWord) (s : State) : Out :=
  let ⟨va, who⟩ := page
  let s1 := s.writeLeaf port va leaf
  let f := fun (m : FMap Wave) => m.map fun (u, (w : Wave)) => (u, w.wakePage port va s.clk (meant who u))
  let sq := fun (b : Block) => if s.portOf b = port ∧ who = none then
      { b with seq := b.seq.map fun q => if q.waitsOn va then { q with wait := .none } else q }
    else b
  let s2 : State := { s1 with
    waves := f s1.waves
    saved := f s1.saved
    blocks := s1.blocks.map fun (n, (b : Block)) => (n, sq b) }
  event s (s.awaited port va && s1.present port va)
    ((s.inRegionOn port va who).foldl State.abortFault s2)

/-- PAGE_NOT_PRESENT delivered to the parked lanes of a wave (R165, R404), or to a section. Table 10.5 has no such end of a section,
and R265 knows only the page being made present: the model ends it with SECTION_FAULT and DET 0x16 (log entry 139). -/
def State.deliverTo (s : State) (u : Nat) (w : Wave) (va : DWord) (at_ : DWord → Bool) : State :=
  let fs : List LaneFault := w.threads.filterMap fun (l, (t : Thread)) => match t.wait with
    | .parked a _ => if samePage a va && at_ t.pc then some ⟨l, cNOTPRESENT, a, 0, t.pc⟩ else none
    | _ => none
  s.takeFaults u fs none false true

/-- FIRMWARE_DELIVER_FAULT. -/
def execFirmwareDeliverFault (port : Nat) (page : Absence) (s : State) : Out :=
  let ⟨va, who⟩ := page
  let ws := s.waves.filter fun (u, (w : Wave)) =>
    w.port == port && w.threads.any fun (_, t) => t.parkedOn va && meant who u t.pc
  let bs : List Nat := (s.blocks.filter fun (_, (b : Block)) =>
    s.portOf b == port && who.isNone && b.seq.any fun q => q.waitsOn va).map fun x => x.1
  let s1 := ws.foldl (fun s (u, w) => s.deliverTo u w va (meant who u)) s
  let s2 := (s.inRegionOn port va who).foldl State.abortFault s1
  event s (s.awaited port va) (bs.foldl (fun s b => s.seqFault b cNOTPRESENT) s2)

/-! ### Settings of a core -/

/-- SET_SAMPLING_EXPONENT (R172): the exponent, or none to disable sampling; the counter starts at zero. -/
def execSetSamplingExponent (core : Nat) (k : Option Nat) (s : State) : Out :=
  event s (decide (core < Config.tCores) && k.all fun k => decide (8 ≤ k) && decide (k ≤ 20))
    (s.modCore core fun c => { c with samp := k, sampCnt := 0 })

/-- SET_BLOCK_WINDOW (R440): only while no block with an allocation is resident on the core. -/
def execSetBlockWindow (core win : Nat) (s : State) : Out :=
  let busy := s.blocks.any fun (_, (b : Block)) => b.placed && !b.ended && (b.core == core || b.sramCore == core) && b.sramLen != 0
  event s (decide (core < Config.tCores) && decide (win ≤ Config.coreSram) && win % 4096 == 0 && !busy)
    (s.modCore core fun c => { c with win := win })

/-- UNIT_RETIREMENT (R20): units cleared from the feature mask of one core. -/
def execUnitRetirement (core : Nat) (mask : Word) (s : State) : Out :=
  event s (decide (core < Config.tCores)) (s.modCore core fun c => { c with fmask := c.fmask &&& ~~~mask })

/-! ### Memory by physical address (R438) -/

/-- The bytes lie in memory: external memory, a core's SRAM region or a die's slice store, each at its storage key. -/
def State.physical (s : State) (a n : Nat) : Bool :=
  s.external a n ||
    (decide (2 ^ 52 ≤ a) && decide (a + n ≤ 2 ^ 52 + 2 ^ 27 * Config.tCores)) ||
    (decide (2 ^ 53 ≤ a) && decide (a + n ≤ 2 ^ 53 + 2 ^ 32 * 4))

/-- PHYSICAL_ACCESS: page presence and permissions play no part. A read of a line whose cork does not match brings no
data (R410); a write clears the tags of its granules, which `tag` then sets; `readTag` reads the tag of a granule. -/
def execPhysicalAccess (a : PhysAccess) (s : State) : Out :=
  match a with
  | .read k n =>
    if !s.physical k n then .fault (.noSuchAddress k)
    else .next { s with hostOut := if s.badAt none k (max 1 n) then .poisoned else .data (s.mem.bytes k n) }
  | .write k bs =>
    if !s.physical k bs.length then .fault (.noSuchAddress k) else .next (s.write none false none k bs)
  | .tag k b => if !s.physical (k / 16 * 16) 16 then .fault (.noSuchAddress k) else .next (s.setTag none k b)
  | .readTag k =>
    if !s.physical (k / 16 * 16) 16 then .fault (.noSuchAddress k)
    else .next { s with hostOut := .data [if s.tagAt none k then 1 else 0] }

end Sys2Proof.Machine
end

