-- ==== Sys2Proof/Machine/Host.lean ====
section
/-!
DEFINITION. The host attachment (spec/18_host_and_bringup.md, R429 to R432): the register window, the aperture, the
function-level reset, debug stops; and firmware's settings that have no row of their own (R5, Table 18.5).
-/
namespace Sys2Proof.Machine

/-! ### The register window (Table 18.1) -/

/-- STATUS (Table 18.2). -/
def State.status (s : State) : Nat := (if s.fail then 2 ^ 31 else 0) + s.fcode.toNat * 256 + s.phase.toNat

/-- BRKSTAT (Table 18.3): the oldest report. -/
def Port.brkstat (p : Port) : Nat :=
  match p.brks with
  | r :: _ => 2 ^ 31 + r.k % 128 * 2 ^ 24 + r.ctx % 2 ^ 15 * 2 ^ 9 + r.core % 512
  | [] => 0

/-- A register of a launch slot (Tables 6.3 to 6.5). -/
def LSlot.read (x : LSlot) (off : Nat) : Nat :=
  match off with
  | 0 => x.addr.toNat
  | 12 => x.lsres
  | 16 => x.lid.toNat
  | _ => 0

/-- What a read of the register at an offset returns; before phase 6 only IDENT, CONFIG and STATUS answer (R431). The read
of LSRES also clears OVR: it has its own row. -/
def State.bar0 (s : State) (port off : Nat) : Nat :=
  let p := s.port port
  if off = 0x00 then s.ident.toNat
  else if off = 0x04 then s.config.toNat
  else if off = 0x08 then s.status
  else if s.phase ≠ 6 then 0
  else if 0x10000 ≤ off ∧ off < 0x10800 then (p.slot ((off - 0x10000) / 32)).read (off % 32)
  else match off with
    | 0x10 => p.partBase.toNat
    | 0x18 => p.partSize.toNat
    | 0x20 => p.htBase.toNat
    | 0x28 => p.htCount.toNat
    | 0x30 => p.brkstat
    | _ => 0

/-- The oldest debug stop released (R432); without one the write is ignored. -/
def State.release (s : State) (port : Nat) : State :=
  match (s.port port).brks with
  | [] => s
  | r :: rest => (s.modAny r.wave fun w => { w with brk := none, since := s.clk }).modPort port fun p => { p with brks := rest }

/-- BRKREL. -/
def execBrkrel (port : Nat) (s : State) : Out :=
  event s (decide (port < 2)) (if s.phase = 6 then s.release port else s)

/-- A host write to the register window; read-only registers, reserved bits and every register before phase 6 ignore it
(R5, R431). -/
def State.writeBar0 (s : State) (port off : Nat) (v : DWord) : State :=
  if s.phase ≠ 6 then s
  else if 0x10000 ≤ off ∧ off < 0x10800 then
    s.modSlot port ((off - 0x10000) / 32) fun x =>
      match off % 32 with
      | 0 => if x.busy then x else { x with addr := v &&& 0x00FFFFFFFFFFFF80 }
      | 8 => if v.getLsbD 31 then x.go (v.setWidth 3) s.clk else x
      | _ => x
  else match off with
    | 0x20 => s.modPort port fun p => { p with htBase := v }
    | 0x28 => s.modPort port fun p => { p with htCount := v.setWidth 32 }
    | 0x34 => if v.getLsbD 0 then s.release port else s
    | _ => s

/-! ### Settings of firmware -/

/-- A membership entry as firmware first fills a table or clears a dead slot; other changes are rows of their own (R377,
R401, R403). Where the state of the slot changes the generation rises, and the change is logged (R402). -/
def State.enterMember (s : State) (blend slot : Nat) (v : DWord) : Option State :=
  (fget s.blends blend).bind fun b =>
    let old := b.st slot
    let new := bfld v 31 30
    if slot < b.size ∧ (old = 0 ∨ (old = 2 ∧ new = 0)) then
      some (if old = new then
          { s with blends := fset s.blends blend { b with ents := rset b.ents slot (v.setWidth 32 &&& 0xCFFFFFFF) } }
        else s.setMember blend slot new (some (bfld v 27 16)))
    else none

/-- A member's entry names this package: an EMPTY one names none (R377, Table 16.1). -/
def State.namesUs (s : State) (blend m : Nat) : Bool :=
  (fget s.blends blend).any fun b => decide (m < b.size) && b.st m != 0 && bfld (rget b.ents m) 27 16 == s.package

/-- A function is in a blend as the member whose entry names its package: one whose entry does so no more is in none (R377). -/
def State.expel (s : State) : State :=
  { s with ports := s.ports.map fun (n, (p : Port)) =>
      (n, if p.blend.all fun (b, m) => s.namesUs b m then p else { p with blend := none }) }

/-- A function joins a blend as the member whose entry names this package, with an empty log (R377). -/
def State.joinAs (s : State) (port blend self : Nat) : Option State :=
  if s.namesUs blend self then
    some (s.modPort port fun p => { p with blend := some (blend, self), log := [], replay := [] })
  else none

/-- A membership entry that firmware copies into the log of a joining member (R403). -/
def State.copyEntry (s : State) (blend : Nat) (e : LogEntry) : Option State :=
  if s.ports.any fun (_, (p : Port)) => s.joins p blend then
    some (({ s with ports := s.ports.map fun (n, (p : Port)) => (n, if s.joins p blend then p.append true e else p) } : State).settleJoining blend)
  else none

/-- A setting written; none where the value is not one the spec allows. -/
def State.setting (s : State) (r : RegName) (v : DWord) : Option State :=
  let n := v.toNat
  let when_ := fun (ok : Bool) (t : State) => if ok then some t else none
  let clks := decide (1 ≤ n) && decide (n ≤ 2 ^ 24)
  match r with
  | .bar0 port off => when_ (decide (port < 2)) (s.writeBar0 port off v)
  | .root port => when_ (decide (port < 2)) (s.modPort port fun p => { p with root := v })
  | .partBase port => when_ (decide (port < 2)) (s.modPort port fun p => { p with partBase := v })
  | .partSize port => when_ (decide (port < 2)) (s.modPort port fun p => { p with partSize := v })
  | .copyHorizon core => when_ (decide (core < 256) && clks)
      (s.modCore core fun c => { c with eng := { c.eng with horizon := n } })
  | .copyDrain core => when_ (decide (core < 256)) (s.modCore core fun c => { c with eng := { c.eng with drain := n } })
  | .fabHorizon die => when_ (decide (die < 4) && clks) (s.modDie die fun d => { d with eng := { d.eng with horizon := n } })
  | .fabDrain die => when_ (decide (die < 4)) (s.modDie die fun d => { d with eng := { d.eng with drain := n } })
  | .shipHorizon l => when_ (decide (l < 64) && clks) (s.modLCore l fun c => { c with horizon := n })
  | .powerLimit => some { s with limit := n }
  | .paths blend m =>
    when_ (decide (m < 4096) && decide (1 ≤ n) && decide (n ≤ 4)) { s with paths := fset s.paths (memberKey blend m) n }
  | .rateWindow blend m path => when_ (decide (m < 4096) && decide (path < 4) && decide (4096 ≤ n))
      { s with windows := fset s.windows (4 * memberKey blend m + path) n }
  | .package => when_ (decide (n < 4096)) ({ s with package := n } : State).expel
  | .joinBlend port blend self =>
    if n = 0 then when_ (decide (port < 2)) (s.modPort port fun p => { p with blend := none })
    else if port < 2 then s.joinAs port blend self else none
  | .poison blend => when_ (decide (n < 2 ^ 32)) { s with poisons := (blend, n) :: s.poisons }
  | .memberEntry blend => s.copyEntry blend (.member (bfld v 31 0) (bfld v 43 32) (bfld v 45 44))
  | .blendSize blend => when_ (decide (1 ≤ n) && decide (n ≤ 4096)) ({ s with
      blends := fset s.blends blend { ((fget s.blends blend).getD ⟨0, 0, []⟩) with size := n } } : State).expel
  | .blendGen blend => if n < 2 ^ 32 ∧ (s.selfIn blend).isNone then
        (fget s.blends blend).map fun b => { s with blends := fset s.blends blend { b with gen := n } }
      else none
  | .blendEntry blend slot => (s.enterMember blend slot v).map State.expel
  | .hotRing => some ((List.range 32).foldl (fun s c => s.modCluster c fun k => { k with hot := { k.hot with cap := n } }) s)
  | .faultRing =>
    some ((List.range 32).foldl (fun s c => s.modCluster c fun k => { k with faults := { k.faults with cap := n } }) s)
  | .eventRing => some ((List.range 4).foldl (fun s d => s.modDie d fun k => { k with events := { k.events with cap := n } }) s)
  | .drainHot c => when_ (decide (c < 32)) (s.modCluster c fun k => { k with hot := { k.hot with recs := k.hot.recs.drop n } })
  | .drainFault c =>
    when_ (decide (c < 32)) (s.modCluster c fun k => { k with faults := { k.faults with recs := k.faults.recs.drop n } })
  | .drainEvents d => when_ (decide (d < 4)) (s.modDie d fun k => { k with events := { k.events with recs := k.events.recs.drop n } })

/-- REGISTER_WRITE: a setting that the spec does not allow is not made. -/
def execRegisterWrite (r : RegName) (value : DWord) (s : State) : Out := happens s (s.setting r value)

/-! ### The aperture (R429, R431) -/

/-- The translation of each byte of a host access; none where the access is an unsupported request. -/
def State.hostMap (s : State) (port off n : Nat) : Option (List (Nat × TlbEntry)) :=
  let p := s.port port
  if s.phase ≠ 6 ∨ off + n > p.partSize.toNat ∨ off + n > 2 ^ 36 then none
  else (List.range n).mapM fun i =>
    let va := p.partBase.toNat + off + i
    match s.walkVa port va with
    | .error _ => none
    | .ok e => if pRD e.pte && pWR e.pte then some (va, e) else none

/-- The die whose copies of an SWM page a port reads and writes: the one it stands on, 0 or 2 (R171, Table 1.2). -/
def portDie (port : Nat) (e : TlbEntry) : Option Nat := if e.swm then some (2 * port) else none

/-- HOST_APERTURE_READ. -/
def execHostApertureRead (port off n : Nat) (s : State) : Out :=
  event s (decide (port < 2))
    (match s.hostMap port off n with
    | none => { s with hostOut := .unsupported }
    | some m =>
      if m.any fun (va, e) => s.badAt (portDie port e) (e.key va) 1 then { s with hostOut := .poisoned }
      else { s with hostOut := .data (m.map fun (va, e) => s.byteAt (portDie port e) (e.key va)) })

/-- One byte of a host write. -/
def State.hostByte (s : State) (port va : Nat) (b : Byte) : State :=
  match s.walkVa port va with
  | .error _ => s
  | .ok e => (s.claimOut va e).write none false (portDie port e) (e.key va) [b]

/-- HOST_APERTURE_WRITE: an access that is not mapped is an unsupported request, and its data are discarded. -/
def execHostApertureWrite (port off : Nat) (bytes : List Byte) (s : State) : Out :=
  event s (decide (port < 2))
    (match s.hostMap port off bytes.length with
    | none => { s with hostOut := .unsupported }
    | some m =>
      let s1 := (m.zip bytes).foldl (fun s x => s.hostByte port x.1.1 x.2) s
      -- a line written whole carries a new cork (R410)
      let whole := fun (l : Nat) => (List.range 64).all fun i => m.any fun (va, e) =>
        s1.lineRead (portDie port e) (e.key va / 64) == l && e.key va % 64 == i
      { s1 with bad := s1.bad.filter fun l => !whole l, hostOut := .none })

/-! ### Function-level reset (R430) -/

/-- FUNCTION_LEVEL_RESET: the launches of the function killed, with their child grids; no record of theirs is written. -/
def execFunctionLevelReset (port : Nat) (s : State) : Out :=
  let ls : List Nat := (s.launches.filter fun (_, (l : Launch)) => l.port == port && !l.status.final).map fun x => x.1
  let s1 := ls.foldl (fun s l => State.kill false 0 0 11 l s) s
  event s (decide (port < 2)) (s1.cancelAll s1.launches.length)

end Sys2Proof.Machine
end

