-- ==== Sys2Proof/Machine/Lanes.lean ====
section
/-!
DEFINITION. Lanes and predicates (spec/04_arithmetic_and_lanes.md, R100 to R103, Table 4.7). Every order is ascending
lane order over the active lanes; the sources of all lanes are read before any lane writes.
-/
namespace Sys2Proof.Machine

/-- An effect on the active lanes that reads all of them: `g` gets the active threads as they were. -/
def crossEff (g : List (Nat × Thread) → Nat → Thread → Thread) (w : Wave) (mask : Word) : Except Word Wave :=
  .ok (w.mapMask mask (g (w.active mask)))

/-- The value a source has in a lane of a list. -/
def laneVal (ts : List (Nat × Thread)) (l : Nat) (src : VSrc) : Option Word := (fget ts l).map fun t => t.src src

/-- shfl: .up and .dn take b unsigned (log entry 16). -/
def execShfl (f : FOps) (s : State) : Out :=
  arith (.shfl f) f.e s (crossEff fun ts l t =>
    let b := (t.srcB f.bc).toNat
    let j : Option Nat := match lnSub f with
      | 0 => some (b % 32)
      | 1 => if b ≤ l then some (l - b) else none
      | 2 => if l + b ≤ 31 then some (l + b) else none
      | _ => some (l ^^^ (b % 32))
    t.result f (((j.bind fun j => laneVal ts j f.a)).getD (t.src f.a)))

/-- vote.all, .any and .uni. -/
def execVote (f : FOps) (s : State) : Out :=
  arith (.vote f) f.e s (crossEff fun ts _ t =>
    let ps := ts.map fun (_, u) => u.getP f.a.num
    let all := ps.all id
    let any := ps.any id
    t.setP f.d.toNat (match lnSub f with
      | 0 => all
      | 1 => any
      | _ => all || !any))

/-- vote.ballot. -/
def execVoteBallot (f : FOps) (s : State) : Out :=
  arith (.voteBallot f) f.e s (crossEff fun ts _ t =>
    t.result f (maskOf ((ts.filter fun (_, u) => u.getP f.a.num).map (·.1))))

/-- One step of a reduction or scan with operator op (R102). -/
def redStep (float : Bool) (op : Nat) (x y : Word) : Word × Nat :=
  if float then
    match op with
    | 0 => resWord (fAdd .f32 .rne x.toNat y.toNat)
    | 1 => resWord (fMinMax .f32 false false x.toNat y.toNat)
    | _ => resWord (fMinMax .f32 true false x.toNat y.toNat)
  else
    (match op with
      | 0 => x + y
      | 1 => if x.toInt ≤ y.toInt then x else y
      | 2 => if x.toInt ≤ y.toInt then y else x
      | 3 => x &&& y
      | 4 => x ||| y
      | 5 => x ^^^ y
      | 6 => if x.toNat ≤ y.toNat then x else y
      | _ => if x.toNat ≤ y.toNat then y else x, 0)

/-- The identity an exclusive scan gives to its first active lane (R102). -/
def redIdentity (float : Bool) (op : Nat) : Word :=
  match op with
  | 1 => if float then 0x7F800000 else 0x7FFFFFFF
  | 2 => if float then 0xFF800000 else 0x80000000
  | 3 => 0xFFFFFFFF
  | 6 => 0xFFFFFFFF
  | _ => 0

/-- The accumulated values after each lane but the first, and the flags of all steps. -/
def scanFrom (float : Bool) (op : Nat) : Word → List Word → List Word × Nat
  | _, [] => ([], 0)
  | acc, x :: xs =>
    let r := redStep float op acc x
    let rest := scanFrom float op r.1 xs
    (r.1 :: rest.1, r.2 ||| rest.2)

/-- The inclusive scan of the active values, in lane order, and the flags; a single active lane still shows NV for a
signalling NaN only where a step is performed. -/
def scanAll (float : Bool) (op : Nat) : List Word → List Word × Nat
  | [] => ([], 0)
  | x :: xs => let r := scanFrom float op x xs; (x :: r.1, r.2)

/-- A reduction or scan: `pickV` chooses a lane's value from the inclusive scan and the lane's place in it. -/
def redEff (f : FOps) (pickV : List Word → Nat → Word) (w : Wave) (mask : Word) : Except Word Wave :=
  let float := lnTy f == 0
  let ts := w.active mask
  let xs := ts.map fun (_, t) => t.src f.a
  let bad := if float then maskOf ((ts.filter fun (_, t) => isAbandoned (t.src f.a)).map (·.1)) else 0
  if bad = 0 then
    let sc := scanAll float (lnSub f % 8) xs
    .ok (w.mapMask mask fun l t =>
      (t.result f (pickV sc.1 ((ts.filter fun (k, _) => decide (k < l)).length))).flag sc.2)
  else .error bad

def execLred (f : FOps) (s : State) : Out :=
  arith (.lred f) f.e s (redEff f fun sc _ => sc.getLastD 0)

def execLscan (f : FOps) (s : State) : Out :=
  arith (.lscan f) f.e s (redEff f fun sc i =>
    if lnSub f / 8 = 1 then (if i = 0 then redIdentity (lnTy f == 0) (lnSub f % 8) else sc.getD (i - 1) 0)
    else sc.getD i 0)

def execBcast (f : FOps) (s : State) : Out :=
  arith (.bcast f) f.e s (crossEff fun ts _ t =>
    match ts with
    | [] => t
    | (_, u) :: _ =>
      let j := (u.srcB f.bc).toNat % 32
      t.result f ((laneVal ts j f.a).getD (u.src f.a)))

/-- v2s writes the uniform register once per issue (R98, R103). -/
def execV2s (f : FOps) (s : State) : Out :=
  arith (.v2s f) f.e s fun w mask =>
    match w.active mask with
    | [] => .ok w
    | (_, u) :: _ => .ok (w.setS f.d.toNat (u.src f.a))

def execS2v (f : FOps) (s : State) : Out :=
  arith (.s2v f) f.e s fun w mask => .ok (w.mapMask mask fun _ t => t.result f (w.getS f.a.num))

def execAmask (f : FOps) (s : State) : Out :=
  arith (.amask f) f.e s (crossEff fun ts _ t => t.result f (maskOf (ts.map (·.1))))

/-- A predicate of two predicates. -/
def predEff (f : FOps) (g : Bool → Bool → Bool) : Wave → Word → Except Word Wave :=
  laneEff' fun _ t => t.setP f.d.toNat (g (t.getP f.a.num) (t.getP f.bc.numB))

def execPand (f : FOps) (s : State) : Out := arith (.pand f) f.e s (predEff f and)
def execPor (f : FOps) (s : State) : Out := arith (.por f) f.e s (predEff f or)
def execPxor (f : FOps) (s : State) : Out := arith (.pxor f) f.e s (predEff f xor)
def execPnot (f : FOps) (s : State) : Out := arith (.pnot f) f.e s (predEff f fun a _ => !a)

/-- pmov in its three forms (Table 4.7). -/
def execPmov (f : FOps) (s : State) : Out :=
  arith (.pmov f) f.e s (laneEff' fun _ t =>
    match lnSub f with
    | 0 => t.setP f.d.toNat (t.getP f.a.num)
    | 1 => t.setP f.d.toNat (t.src f.a != 0)
    | _ => t.result f (boolWord (t.getP f.a.num)))

end Sys2Proof.Machine
end

