-- ==== Sys2Proof/Machine/VectorInt.lean ====
section
/-!
DEFINITION. The vector integer instructions (spec/04_arithmetic_and_lanes.md, R88 to R91, Table 4.2).
-/
namespace Sys2Proof.Machine

/-! ### Elements (R88) -/

/-- UN of MOD. -/
def viUN (m : BitVec 8) : Bool := bfld m 5 5 == 1
/-- SAT of MOD. -/
def viSAT (m : BitVec 8) : Bool := bfld m 4 4 == 1

/-- An element read as signed or unsigned. -/
def readE (un : Bool) (w x : Nat) : Int := if un then ((x % 2 ^ w : Nat) : Int) else signExt x w

/-- Fit of R88. -/
def fit (un sat : Bool) (w : Nat) (x : Int) : Nat :=
  if sat then
    wrap (if un then clamp x 0 ((2 ^ w : Nat) - 1) else clamp x (-(2 ^ (w - 1) : Nat)) ((2 ^ (w - 1) : Nat) - 1)) w
  else wrap x w

/-- An immediate as operand b: its low w bits in every element (R88). -/
def viImm (m : BitVec 8) (k : BitVec 18) : Word :=
  let w := wdBits m
  BitVec.ofNat 32 (packE w ((List.range (32 / w)).map fun _ => (immF k).toNat % 2 ^ w))

/-- Operand b of a vector integer word. -/
def viB (f : FOps) (t : Thread) : Word :=
  match f.bc with
  | .regs b _ => t.src b
  | .imm k => viImm f.mod k

/-- An operation on every element. -/
def mapElems (m : BitVec 8) (g : Nat → Nat → Nat → Nat → Nat) (a b c : Word) : Word :=
  let w := wdBits m
  BitVec.ofNat 32 (packE w ((List.range (32 / w)).map fun j =>
    g w (elem a.toNat w j) (elem b.toNat w j) (elem c.toNat w j)))

/-- An exact operation on the elements read by UN, fitted by SAT. -/
def fitElems (m : BitVec 8) (g : Int → Int → Int → Int) : Word → Word → Word → Word :=
  let un := viUN m
  mapElems m fun w x y z => fit un (viSAT m) w (g (readE un w x) (readE un w y) (readE un w z))

/-! ### Operations -/

def viAdd (m : BitVec 8) : Word → Word → Word → Word := fitElems m fun a b _ => a + b
def viSub (m : BitVec 8) : Word → Word → Word → Word := fitElems m fun a b _ => a - b
def viMul (m : BitVec 8) : Word → Word → Word → Word := fitElems m fun a b _ => a * b
def viMad (m : BitVec 8) : Word → Word → Word → Word := fitElems m fun a b c => a * b + c
def viAbs (m : BitVec 8) : Word → Word → Word → Word := fitElems m fun a _ _ => a.natAbs
def viMin (m : BitVec 8) : Word → Word → Word → Word := fitElems m fun a b _ => min a b
def viMax (m : BitVec 8) : Word → Word → Word → Word := fitElems m fun a b _ => max a b

/-- Bits 2w - 1 down to w of the exact product. -/
def viMulh (m : BitVec 8) : Word → Word → Word → Word :=
  let un := viUN m
  mapElems m fun w x y _ => wrap (readE un w x * readE un w y / (2 ^ w : Nat)) w

/-- Quotient and remainder of R91 on 32 or 64 bits, exact. -/
def divRem (un sat : Bool) (w : Nat) (x y : Nat) : Nat × Nat :=
  let a := readE un w x
  let b := readE un w y
  if b = 0 then (2 ^ w - 1, x % 2 ^ w)
  else if !un && a == -(2 ^ (w - 1) : Nat) && b == -1 then
    (wrap (if sat then (2 ^ (w - 1) : Nat) - 1 else -(2 ^ (w - 1) : Nat)) w, 0)
  else (wrap (Int.tdiv a b) w, wrap (Int.tmod a b) w)

def viDiv (m : BitVec 8) (a b _c : Word) : Word :=
  BitVec.ofNat 32 (divRem (viUN m) (viSAT m) 32 a.toNat b.toNat).1
def viRem (m : BitVec 8) (a b _c : Word) : Word :=
  BitVec.ofNat 32 (divRem (viUN m) (viSAT m) 32 a.toNat b.toNat).2

def viAnd (_ : BitVec 8) (a b _c : Word) : Word := a &&& b
def viOr (_ : BitVec 8) (a b _c : Word) : Word := a ||| b
def viXor (_ : BitVec 8) (a b _c : Word) : Word := a ^^^ b
def viAndn (_ : BitVec 8) (a b _c : Word) : Word := a &&& ~~~b

def viShl (m : BitVec 8) : Word → Word → Word → Word :=
  mapElems m fun w x n _ => if n ≥ w then 0 else x * 2 ^ n % 2 ^ w
def viShr (m : BitVec 8) : Word → Word → Word → Word :=
  mapElems m fun w x n _ => if n ≥ w then 0 else x / 2 ^ n
def viSra (m : BitVec 8) : Word → Word → Word → Word :=
  mapElems m fun w x n _ => wrap (signExt x w / (2 ^ min n (w - 1) : Nat)) w
def viRot (m : BitVec 8) : Word → Word → Word → Word :=
  mapElems m fun w x n _ => x * 2 ^ (n % w) % 2 ^ w + x / 2 ^ (w - n % w)
def viClz (m : BitVec 8) : Word → Word → Word → Word := mapElems m fun w x _ _ => w - bitLen x

/-- The number of one bits among the low k. -/
def popc (x : Nat) : Nat → Nat
  | 0 => 0
  | k + 1 => popc x k + x / 2 ^ k % 2

def viPopc (m : BitVec 8) : Word → Word → Word → Word := mapElems m fun w x _ _ => popc x w
def viBrev (m : BitVec 8) : Word → Word → Word → Word :=
  mapElems m fun w x _ _ => packE 1 ((List.range w).map fun i => x / 2 ^ (w - 1 - i) % 2)

/-- Offset and width of a bit field (R91). -/
def bitField (b : Word) : Nat × Nat :=
  let off := b.toNat % 32
  (off, min (bitsOf b.toNat 13 8) (32 - off))

def viBfe (m : BitVec 8) (a b _c : Word) : Word :=
  let (off, wid) := bitField b
  if wid = 0 then 0
  else
    let x := a.toNat / 2 ^ off % 2 ^ wid
    if viUN m then BitVec.ofNat 32 x else BitVec.ofInt 32 (signExt x wid)

def viBfi (_ : BitVec 8) (a b c : Word) : Word :=
  let (off, wid) := bitField b
  let mask := BitVec.ofNat 32 ((2 ^ wid - 1) * 2 ^ off)
  (c &&& ~~~mask) ||| (BitVec.ofNat 32 (a.toNat % 2 ^ wid * 2 ^ off) &&& mask)

def viAddc (m : BitVec 8) (a b c : Word) : Word :=
  let sum := a.toNat + b.toNat + c.toNat % 2
  BitVec.ofNat 32 (if bfld m 3 0 = 1 then sum / 2 ^ 32 else sum)

def viDot4 (m : BitVec 8) (a b c : Word) : Word :=
  let un := viUN m
  let sum := (List.range 4).foldl (fun (x : Int) j => x + readE un 8 (elem a.toNat 8 j) * readE un 8 (elem b.toNat 8 j))
    (readE un 32 c.toNat)
  BitVec.ofNat 32 (fit un (viSAT m) 32 sum)

def viLea (m : BitVec 8) (a b _c : Word) : Word := a + (b <<< bfld m 3 0)

/-! ### The instructions -/

/-- A word whose result is one vector register (R88). -/
def vecInt (i : Instr) (f : FOps) (s : State) (op : BitVec 8 → Word → Word → Word → Word) : Out :=
  arith i f.e s (laneEff' fun _ t => t.result f (op f.mod (t.src f.a) (viB f t) (t.srcC f.bc)))

def execVadd (f : FOps) (s : State) : Out := vecInt (.vadd f) f s viAdd
def execVsub (f : FOps) (s : State) : Out := vecInt (.vsub f) f s viSub
def execVmul (f : FOps) (s : State) : Out := vecInt (.vmul f) f s viMul
def execVmulh (f : FOps) (s : State) : Out := vecInt (.vmulh f) f s viMulh
def execVmad (f : FOps) (s : State) : Out := vecInt (.vmad f) f s viMad
def execVdiv (f : FOps) (s : State) : Out := vecInt (.vdiv f) f s viDiv
def execVrem (f : FOps) (s : State) : Out := vecInt (.vrem f) f s viRem
def execVabs (f : FOps) (s : State) : Out := vecInt (.vabs f) f s viAbs
def execVmin (f : FOps) (s : State) : Out := vecInt (.vmin f) f s viMin
def execVmax (f : FOps) (s : State) : Out := vecInt (.vmax f) f s viMax
def execVand (f : FOps) (s : State) : Out := vecInt (.vand f) f s viAnd
def execVor (f : FOps) (s : State) : Out := vecInt (.vor f) f s viOr
def execVxor (f : FOps) (s : State) : Out := vecInt (.vxor f) f s viXor
def execVandn (f : FOps) (s : State) : Out := vecInt (.vandn f) f s viAndn
def execVshl (f : FOps) (s : State) : Out := vecInt (.vshl f) f s viShl
def execVshr (f : FOps) (s : State) : Out := vecInt (.vshr f) f s viShr
def execVsra (f : FOps) (s : State) : Out := vecInt (.vsra f) f s viSra
def execVrot (f : FOps) (s : State) : Out := vecInt (.vrot f) f s viRot
def execVclz (f : FOps) (s : State) : Out := vecInt (.vclz f) f s viClz
def execVpopc (f : FOps) (s : State) : Out := vecInt (.vpopc f) f s viPopc
def execVbrev (f : FOps) (s : State) : Out := vecInt (.vbrev f) f s viBrev
def execVbfe (f : FOps) (s : State) : Out := vecInt (.vbfe f) f s viBfe
def execVbfi (f : FOps) (s : State) : Out := vecInt (.vbfi f) f s viBfi
def execVaddc (f : FOps) (s : State) : Out := vecInt (.vaddc f) f s viAddc
def execVdot4 (f : FOps) (s : State) : Out := vecInt (.vdot4 f) f s viDot4
def execVmov (f : FOps) (s : State) : Out := vecInt (.vmov f) f s fun _ a _ _ => a
def execVlea (f : FOps) (s : State) : Out := vecInt (.vlea f) f s viLea

/-- The 64-bit product and sum; c.d and the product are signed or unsigned as UN says, the result mod 2^64. -/
def viMadw (m : BitVec 8) (a b : Word) (c : DWord) : DWord :=
  let un := viUN m
  BitVec.ofInt 64 (readE un 32 a.toNat * readE un 32 b.toNat + readE un 64 c.toNat)

def execVmadw (f : FOps) (s : State) : Out :=
  arith (.vmadw f) f.e s (laneEff' fun _ t =>
    t.setV2 f.d.toNat (viMadw f.mod (t.src f.a) (viB f t) (t.getV2 f.bc.numC)))

def execVcmp (f : FOps) (s : State) : Out :=
  arith (.vcmp f) f.e s (laneEff' fun _ t =>
    let un := viUN f.mod
    t.setP f.d.toNat (cmpInt (bfld f.mod 3 0) (readE un 32 (t.src f.a).toNat) (readE un 32 (viB f t).toNat)))

def execVsel (f : FOps) (s : State) : Out :=
  arith (.vsel f) f.e s (laneEff' fun _ t => t.result f (if t.guard f.g then t.src f.a else viB f t))

def execVmovi (f : VMovi) (s : State) : Out :=
  arith (.vmovi f) f.e s (laneEff' fun _ t => t.setV f.d.toNat f.imm)

end Sys2Proof.Machine
end

