-- ==== Sys2Proof/Machine/Paired.lean ====
section
/-!
DEFINITION. Paired words (spec/02_instruction_word.md, R38 to R40, Table 2.7).
-/
namespace Sys2Proof.Machine

/-- MOD of the short operations that are .n32: UN set. -/
def modN32 : BitVec 8 := 0x20#8

/-- A float short operation tests its operands for the abandoned pattern (R40). -/
def shortF (xs : List Word) (r : Word × Nat) : Option (Word × Nat) := if xs.any isAbandoned then none else some r

/-- The result of a short operation, with its flags: `d` the destination's old value, `a` the source, `k` IMM7. -/
def shortOp (sop : Nat) (d a : Word) (k : BitVec 7) : Option (Word × Nat) :=
  let two := fun (g : Fmt → RMode → Nat → Nat → Res) => shortF [d, a] (resWord (g .f32 .rne d.toNat a.toNat))
  match sop with
  | 0x01 => some (viAdd 0 d a 0, 0)
  | 0x02 => some (viSub 0 d a 0, 0)
  | 0x03 => some (viMul 0 d a 0, 0)
  | 0x04 => some (viAnd 0 d a 0, 0)
  | 0x05 => some (viOr 0 d a 0, 0)
  | 0x06 => some (viXor 0 d a 0, 0)
  | 0x07 => some (viMin 0 d a 0, 0)
  | 0x08 => some (viMax 0 d a 0, 0)
  | 0x09 => some (viMin modN32 d a 0, 0)
  | 0x0A => some (viMax modN32 d a 0, 0)
  | 0x0B => some (a, 0)
  | 0x10 => some (d + k.signExtend 32, 0)
  | 0x11 => some (viShl 0 d (k.setWidth 32) 0, 0)
  | 0x12 => some (viShr modN32 d (k.setWidth 32) 0, 0)
  | 0x13 => some (viSra 0 d (k.setWidth 32) 0, 0)
  | 0x14 => some (viRot 0 d (k.setWidth 32) 0, 0)
  | 0x15 => some (d &&& k.setWidth 32, 0)
  | 0x20 => two fAdd
  | 0x21 => two fSub
  | 0x22 => two fMul
  | 0x23 => two fun f _ => fMinMax f false false
  | 0x24 => two fun f _ => fMinMax f true false
  | 0x25 => shortF [a] (a &&& 0x7FFFFFFF, 0)
  | 0x26 => shortF [a] (a ^^^ 0x80000000, 0)
  | 0x27 => shortF [d] (resWord (fScale .f32 .rne d.toNat (k.signExtend 32).toInt))
  | _ => none

/-- One slot on a thread: nothing for nop; else the result to be written, from the registers before the word. -/
def slotVal (t : Thread) (p : PSlot) : Option (Word × Nat) :=
  shortOp p.sop.toNat (t.getV p.d.toNat)
    (if p.la then rget t.lat (p.a.toNat % 4) else t.getV p.a.toNat) p.imm

/-- A slot written. -/
def slotPut (p : PSlot) (r : Option (Word × Nat)) (t : Thread) : Thread :=
  match r with
  | some (x, fl) => if p.sop = 0 then t else (t.setV p.d.toNat x).flag fl
  | none => t

/-- Both slots read every source before either writes (R39). -/
def execPairedWord (p : Pair) (s : State) : Out :=
  arith (.pairedWord p) p.e s (laneEff fun _ t =>
    let r0 := slotVal t p.s0
    let r1 := slotVal t p.s1
    if (r0.isNone && p.s0.sop != 0) || (r1.isNone && p.s1.sop != 0) then none
    else some (slotPut p.s1 r1 (slotPut p.s0 r0 t)))

end Sys2Proof.Machine
end

