-- ==== Sys2Proof/Machine/Boot.lean ====
section
/-!
DEFINITION. What the boot ROM computes in phase 4 (spec/18_host_and_bringup.md, R434): SHA-384, and the check of an ECDSA
signature on curve P-384. R434 names both standards without their text: log entry 143 (PRESUMED) says where their constants
come from and how the key and the image are laid out.
-/
namespace Sys2Proof.Machine

/-! ### SHA-384 -/

/-- The greatest number whose k-th power is at most x, of so many bits. -/
def rootOf (k x bits : Nat) : Nat :=
  (List.range bits).reverse.foldl (fun r b => if (r + 2 ^ b) ^ k ≤ x then r + 2 ^ b else r) 0

/-- The first 80 primes: those below 410. -/
def shaPrimes : List Nat := (List.range 410).filter fun n => decide (2 ≤ n) && (List.range n).all fun d => decide (d < 2) || n % d != 0

/-- The first 64 bits of the fraction of the k-th root of p. -/
def rootFraction (k p : Nat) : BitVec 64 := BitVec.ofNat 64 (rootOf k (p * 2 ^ (64 * k)) 72)

/-- The 80 round constants, and the eight words of the start. -/
def shaRounds : List (BitVec 64) := shaPrimes.map (rootFraction 3)
def shaStart : List (BitVec 64) := ((shaPrimes.drop 8).take 8).map (rootFraction 2)

/-- Words of a message schedule: 16 of the block, then each from four earlier ones; the latest first. -/
def shaSchedule (block : List (BitVec 64)) : List (BitVec 64) :=
  ((List.range 64).foldl (fun (w : List (BitVec 64)) _ =>
    let a := w.getD 1 0
    let b := w.getD 14 0
    let s1 := a.rotateRight 19 ^^^ a.rotateRight 61 ^^^ (a >>> 6)
    let s0 := b.rotateRight 1 ^^^ b.rotateRight 8 ^^^ (b >>> 7)
    (s1 + w.getD 6 0 + s0 + w.getD 15 0) :: w) block.reverse).reverse

/-- One round on the eight working words. -/
def shaRound (h : List (BitVec 64)) (kw : BitVec 64) : List (BitVec 64) :=
  match h with
  | [a, b, c, d, e, f, g, z] =>
    let t1 := z + (e.rotateRight 14 ^^^ e.rotateRight 18 ^^^ e.rotateRight 41) + ((e &&& f) ^^^ (~~~e &&& g)) + kw
    let t2 := (a.rotateRight 28 ^^^ a.rotateRight 34 ^^^ a.rotateRight 39) + ((a &&& b) ^^^ (a &&& c) ^^^ (b &&& c))
    [t1 + t2, a, b, c, d + t1, e, f, g]
  | _ => h

/-- Bytes as a number, the first most significant. -/
def bigEndian (bs : List Byte) : Nat := bs.foldl (fun n b => 256 * n + b.toNat) 0

/-- A number in n bytes, the most significant first. -/
def bigBytes (x n : Nat) : List Byte := (List.range n).map fun i => BitVec.ofNat 8 (x / 256 ^ (n - 1 - i))

/-- The message with its padding: a one, zeros, and its length in bits in 16 bytes. -/
def shaPadded (m : List Byte) : List Byte :=
  let z := (256 - (m.length + 17) % 128) % 128
  m ++ [0x80] ++ List.replicate z 0 ++ bigBytes (8 * m.length) 16

/-- SHA-384. -/
def sha384 (m : List Byte) : BitVec 384 :=
  let p := shaPadded m
  let h := (List.range (p.length / 128)).foldl (fun (h : List (BitVec 64)) i =>
    let block := (List.range 16).map fun j => BitVec.ofNat 64 (bigEndian ((p.drop (128 * i + 8 * j)).take 8))
    let g := (shaRounds.zip (shaSchedule block)).foldl (fun g (k, w) => shaRound g (k + w)) h
    (h.zip g).map fun (a, b) => a + b) shaStart
  BitVec.ofNat 384 ((h.take 6).foldl (fun n x => 2 ^ 64 * n + x.toNat) 0)

/-! ### ECDSA on P-384 -/

/-- The field, the order, the constant b and the base point of the curve y² = x³ - 3x + b. -/
def curveP : Nat := 2 ^ 384 - 2 ^ 128 - 2 ^ 96 + 2 ^ 32 - 1
def curveN : Nat := 0xFFFFFFFFFFFFFFFFFFFFFFFFFFFFFFFFFFFFFFFFFFFFFFFFC7634D81F4372DDF581A0DB248B0A77AECEC196ACCC52973
def curveB : Nat := 0xB3312FA7E23EE7E4988E056BE3F82D19181D9C6EFE8141120314088F5013875AC656398D8A2ED19D2A85C8EDD3EC2AEF
def curveG : Nat × Nat :=
  (0xAA87CA22BE8B05378EB1C71EF320AD746E1D3B628BA79B9859F741E082542A385502F25DBF55296C3A545E3872760AB7,
   0x3617DE4A96262C6F5D9E98BF9292DC29F8F41DBD289A147CE9DA3113B5F0B8C00A60B1CE1D7E819D7A431D7C90EA0E5F)

/-- A power modulo m, of an exponent of at most 384 bits. -/
def powMod (b e m : Nat) : Nat :=
  (List.range 384).reverse.foldl (fun r i => let q := r * r % m; if e.testBit i then q * b % m else q) 1

/-- The inverse modulo a prime. -/
def inverseMod (x m : Nat) : Nat := powMod (x % m) (m - 2) m

/-- A line of this slope through a point meets the curve again, mirrored. -/
def chord (k : Nat) (a b : Nat × Nat) : Nat × Nat :=
  let x := (k * k + 2 * curveP - a.1 - b.1) % curveP
  (x, (k * (a.1 + curveP - x) + curveP - a.2) % curveP)

/-- The sum of two points; none is the neutral one. -/
def pointAdd (a b : Option (Nat × Nat)) : Option (Nat × Nat) :=
  match a, b with
  | none, p | p, none => p
  | some a, some b =>
    if a.1 ≠ b.1 then some (chord ((b.2 + curveP - a.2) * inverseMod (b.1 + curveP - a.1) curveP % curveP) a b)
    else if (a.2 + b.2) % curveP = 0 then none
    else some (chord ((3 * (a.1 * a.1) + curveP - 3) * inverseMod (2 * a.2) curveP % curveP) a a)

/-- A multiple of a point. -/
def pointMul (k : Nat) (p : Option (Nat × Nat)) : Option (Nat × Nat) :=
  (List.range 384).reverse.foldl (fun r i => let q := pointAdd r r; if k.testBit i then pointAdd q p else q) none

/-- The point lies on the curve. -/
def onCurve (q : Nat × Nat) : Bool :=
  decide (q.1 < curveP) && decide (q.2 < curveP) && (q.2 * q.2) % curveP == (q.1 * q.1 * q.1 + (curveP - 3) * q.1 + curveB) % curveP

/-- The signature (r, s) of a digest verifies under a public key. -/
def ecdsaVerifies (q : Nat × Nat) (digest r s : Nat) : Bool :=
  onCurve q && decide (0 < r) && decide (r < curveN) && decide (0 < s) && decide (s < curveN) &&
    let w := inverseMod s curveN
    match pointAdd (pointMul (digest * w % curveN) (some curveG)) (pointMul (r * w % curveN) (some q)) with
    | some x => x.1 % curveN == r
    | none => false

/-- The digest of a public key: of its coordinates, 48 bytes each. -/
def keyDigest (q : Nat × Nat) : BitVec 384 := sha384 (bigBytes q.1 48 ++ bigBytes q.2 48)

end Sys2Proof.Machine
end

