-- ==== Sys2Proof/Machine/Power.lean ====
section
/-!
DEFINITION. Bring-up (spec/18_host_and_bringup.md, R433, R434), the power clamp (R436) and the thermal limits (R437).
-/
namespace Sys2Proof.Machine

/-! ### Bring-up (Table 18.4) -/

/-- A phase that may end now: it is the current one and has not failed. -/
def State.inPhase (s : State) (n : Nat) : Bool := s.phase.toNat == n && !s.fail && !s.shutdown

/-- A phase ends: the next one, or FAIL with FCODE, in which the package stays. -/
def State.endPhase (s : State) (ok : Bool) (fcode : Byte) : State :=
  if ok then { s with phase := s.phase + 1 } else { s with fail := true, fcode := fcode }

/-- POWER_GOOD: phase 0 ends, and sr.clk starts at zero (R12). -/
def execPowerGood (s : State) : Out := event s (s.inPhase 0) { (s.endPhase true 0) with clk := 0, windowsDone := 0 }

/-- CONFIG (Table 18.1). -/
def Fuses.config (f : Fuses) : Word := BitVec.ofNat 32 ((if f.cxl then 1 else 0) + f.tier2.toNat * 16)

/-- Fuses a package can have: a second tier of at most 8,192 GB (R17), the ceiling of 3,800 W (Table 1.5). -/
def Fuses.legal (f : Fuses) : Bool := decide (f.tier2.toNat ≤ 1024) && decide (f.ceiling = 3800)

/-- FUSE_READ: identity, repair maps, power ceiling, installed second tier, key hash and least version (R433, R434). -/
def execFuseRead (f : Fuses) (s : State) : Out :=
  event s (s.inPhase 1 && Fuses.legal f)
    ((if f.ok then { s with
        ident := 0x4B4D0800 ||| f.stepping.setWidth 32, config := Fuses.config f, ceiling := f.ceiling
        repair := f.repair, keyHash := f.keyHash, minVersion := f.version }
      else s).endPhase f.ok 1)

/-- A T-core of every die survives. -/
def diesSurvive (dead : List Nat) : Bool := (List.range 4).all fun d => (List.range 64).any fun i => !dead.contains (64 * d + i)

/-- SRAM_REPAIR_TEST: units that failed are cleared from their core's mask (R20); T-cores whose SRAM could not be repaired are out of
service, and a die that has lost all of its own fails the phase (Table 18.4). -/
def execSramRepairTest (failed : List (Nat × Word)) (dead : List Nat) (s : State) : Out :=
  let s1 := failed.foldl (fun s (n, m) => s.modCore n fun c => { c with fmask := c.fmask &&& ~~~m }) s
  event s (s.inPhase 2) (({ s1 with deadCores := dead } : State).endPhase (diesSurvive dead) 2)

/-- MEMORY_TRAINING. -/
def execMemoryTraining (ok : Bool) (s : State) : Out := event s (s.inPhase 3) (s.endPhase ok 3)

/-- The boot ROM accepts an image: its key is the fused one, the signature over its digest verifies, and its security version is no
lower than the fused minimum (R434). -/
def State.accepts (s : State) (f : FlashImage) : Bool :=
  keyDigest f.key == s.keyHash && decide (s.minVersion ≤ f.version) && ecdsaVerifies f.key (sha384 f.image).toNat f.sigR f.sigS

/-- FIRMWARE_AUTHENTICATION: an accepted image is loaded (R434); none is there where the flash does not answer. -/
def execFirmwareAuthentication (flash : Option FlashImage) (s : State) : Out :=
  event s (s.inPhase 4) (match flash with
    | some f => if s.accepts f then ({ s with firmware := some f.image } : State).endPhase true 4 else s.endPhase false 4
    | none => s.endPhase false 4)

/-- FABRIC_LINK_TRAINING: links that do not come up stay down, and fail the phase only where firmware requires one of them. With phase
6 no core samples (R172), and replays are counted from here (R412). -/
def execFabricLinkTraining (linkUp required : List Nat) (s : State) : Out :=
  let ok := required.all linkUp.contains
  let s0 : State := { s with linksDown := (List.range fabricPorts).filter fun k => !linkUp.contains k }
  let s1 : State := if ok then { s0 with cores := s0.cores.map fun (n, (c : Core)) =>
    (n, { c with samp := none, sampCnt := 0, replays := [] }) } else s0
  event s (s.inPhase 5) (s1.endPhase ok 5)

/-- PACKAGE_RESET: the reset state; what the outside still has planned, and the count of open values, stay. -/
def execPackageReset (s : State) : Out := .next { State.reset with agenda := s.agenda, ctr := s.ctr }

/-! ### Power (R436) -/

/-- A step of the main clock, its floor and its ceiling, in MHz. -/
def clockStep : Nat := 100
def clockFloor : Nat := 1200
def clockTop : Nat := 3600

/-- The limit in force: the lesser of the firmware setting and the fused ceiling. -/
def State.powerCap (s : State) : Nat := min s.limit s.ceiling

/-- The clock of the next window. -/
def State.nextClock (s : State) (watts : Nat) : Nat :=
  if watts > s.powerCap then max clockFloor (s.mhz - clockStep)
  else if watts * 100 < s.powerCap * 95 then min clockTop (s.mhz + clockStep)
  else s.mhz

/-- Every cluster frozen for a cause that firmware hears of by an event, in place of snapshots (R436, R437). -/
def State.freezeAll (s : State) (why : FreezeWhy) : State :=
  (List.range 32).foldl (fun s c => s.modCluster c fun k => { k with frozen := match k.frozen with
    | some f => some { f with why := why }
    | none => some ⟨why, s.clk, []⟩ }) s

/-- A further window of 4,096 clk has ended since the last one that was measured. -/
def State.windowEnded (s : State) : Bool := decide (4096 * (s.windowsDone + 1) ≤ s.clk.toNat)

/-- POWER_WINDOW: the clamp at the end of a window of 4,096 clk. -/
def execPowerWindow (watts : Nat) (s : State) : Out :=
  let atFloor := s.mhz == clockFloor
  let held := if atFloor && decide (watts > s.ceiling) then s.overBudget + 1 else 0
  let tell := atFloor && decide (watts > s.powerCap)
  let s1 : State := { s with
    windowsDone := s.windowsDone + 1
    mhz := s.nextClock watts, overBudget := held, powerEvents := if tell then s.powerEvents + 1 else s.powerEvents }
  event s (s.phase != 0 && s.windowEnded) (if held ≥ 16 then s1.freezeAll .power else s1)

/-! ### Temperature (R437) -/

/-- THERMAL_TRIP. -/
def execThermalTrip (s : State) : Out := .next (({ s with thermalEvents := s.thermalEvents + 1 } : State).freezeAll .thermal)

/-- THERMAL_SHUTDOWN: without core power only a full reset goes on. -/
def execThermalShutdown (s : State) : Out := .next { s with shutdown := true }

/-- FIRMWARE_UNFREEZE: the limit lowered, and the clusters unfrozen that a thermal or power event froze; a cluster that
still waits for decisions stays frozen for them. -/
def execFirmwareUnfreeze (limit : Nat) (s : State) : Out :=
  let heat := fun (c : Cluster) => c.frozen.any fun f => f.why != .error
  let thaw := fun (c : Cluster) => match c.frozen with
    | some f => if f.why = .error then c
        else if f.errs.isEmpty then { c with frozen := none }
        else { c with frozen := some { f with why := .error } }
    | none => c
  event s (decide (limit ≤ s.limit) && s.clusters.any fun (_, c) => heat c)
    { s with limit := limit, clusters := s.clusters.map fun (n, c) => (n, thaw c) }

end Sys2Proof.Machine
end

