-- ==== Sys2Proof/Machine/Streams.lean ====
section
/-!
DEFINITION. Sorted lists, stream registers and the stream unit (spec/14_patterns_and_streams.md, R341 to R352).
-/
namespace Sys2Proof.Machine

/-! ### Lists (R341, R342) -/

/-- A register that is not bound: an empty list. -/
def StreamReg.nil : StreamReg := ⟨Cap.nil, 0, 0, 0, 0⟩
/-- Stream register q of a wave. -/
def Wave.getQ (w : Wave) (q : Nat) : StreamReg := (fget w.q q).getD StreamReg.nil

/-- Address of a key and of a value. -/
def StreamReg.keyVa (r : StreamReg) (i : Nat) : Nat := (r.addr.toNat + 16 + 4 * i) % 2 ^ 64
def StreamReg.valVa (r : StreamReg) (i : Nat) : Nat := (r.addr.toNat + 16 + 4 * ((r.capy + 3) / 4 * 4) + 4 * i) % 2 ^ 64

/-- An operation in flight names the register. -/
def Wave.streamBusy (w : Wave) (q : Nat) : Bool :=
  w.sops.any fun o => decide (o.kind < 4) && (o.qa == q || o.qb == q || o.qc == q)

/-! ### sopen, sopen.rd, sclose (R348, R351) -/

/-- The thread whose address the word uses: any of the active lanes, where their addresses differ (R98). -/
def State.pickLane (s : State) (c : Ctx) (addr : Thread → DWord) : Option (Nat × Thread) × State :=
  match c.lead with
  | none => (none, s)
  | some (l, t) =>
    let ls := c.w.active c.mask
    if ls.all fun (_, u) => addr u == addr t then (some (l, t), s)
    else
      let (x, s1) := s.open_
      (ls[x.toNat % ls.length]?, s1)

/-- The header of a list, checked and read, then the check of the whole list. -/
def sopenGen (rd : Reader) (cap : Cap) (addr : DWord) : Gen StreamReg := do
  let h ← rdAt rd addr 16
  let count := bitsOf h 31 0
  let capy := bitsOf h 63 32
  let r : StreamReg := ⟨cap, addr, count, capy, 0⟩
  match capCheck cap addr.toNat (16 + 4 * ((capy + 3) / 4 * 4) + 4 * capy) pLOAD 0 with
  | some e => fun _ => .error (e, addr)
  | none => if capy < count ∨ bitsOf h 127 64 ≠ 0 then malformed else pure r

/-- `sopen`. -/
def execSopen (m : MOps) (s : State) : Out :=
  word (.sopen m) s fun s c =>
    let q := m.data.toNat
    if c.w.streamBusy q then none
    else
      let (x, s1) := s.pickLane c fun t => addrOf m c.w t
      match x with
      | none => some s1
      | some (l, t) =>
        let cap := capOf m c.w t
        s1.generated c (sopenGen (s1.readerOf c l t cap) cap (addrOf m c.w t)) fun s r =>
          s.modWave c.u fun w => { w with q := fset w.q q r }

/-- Pops for lanes in ascending order: key and value, or the past-the-end element. -/
def popGen (rd : Nat → Thread → Reader) (r : StreamReg) : List (Nat × Thread) → Nat → Gen (List (Nat × Nat × Nat) × Nat)
  | [], pos => pure ([], pos)
  | (l, t) :: ls, pos => do
    if pos < r.count then
      let k ← rdAt (rd l t) (BitVec.ofNat 64 (r.keyVa pos)) 4
      let v ← rdAt (rd l t) (BitVec.ofNat 64 (r.valVa pos)) 4
      let (es, p) ← popGen rd r ls (pos + 1)
      pure ((l, k, v) :: es, p)
    else
      let (es, p) ← popGen rd r ls pos
      pure ((l, 0xFFFFFFFF, 0) :: es, p)

/-- `sopen.rd`. -/
def execSopenRd (m : MOps) (s : State) : Out :=
  word (.sopenRd m) s fun s c =>
    let q := m.cap.toNat
    let d := m.data.toNat
    let r := c.w.getQ q
    if c.w.streamBusy q then none
    else s.generated c (popGen (fun l t => s.readerOf c l t r.cap) r (c.w.active c.mask) r.pos) fun s (es, p) =>
      s.modWave c.u fun w =>
        let w1 := es.foldl (fun w (l, k, v) =>
          w.modTh l fun t => (t.setV d (BitVec.ofNat 32 k)).setV (d + 1) (BitVec.ofNat 32 v)) w
        { w1 with q := fmod w1.q q fun r => { r with pos := p } }

/-- `sclose`. -/
def execSclose (u : UOps) (s : State) : Out :=
  word (.sclose u) s fun s c =>
    if c.w.streamBusy u.d.toNat then none
    else some (s.modWave c.u fun w => { w with q := fdel w.q u.d.toNat })

/-! ### The issue of an operation (R343, R349, R350) -/

/-- The first fault of a range of pages that are present (R353). -/
def State.rangeFault (s : State) (c : Ctx) (kind va : Nat) : Nat → Option (Nat × DWord)
  | 0 => none
  | n + 1 =>
    let a := if n = 0 then va else (va / 4096 + n) * 4096
    match s.rangeFault c kind va n with
    | some e => some e
    | none => match s.lookup c.w.coreNo c.w.port a with
      | .error e => if e = cNOTPRESENT then none else some (e, BitVec.ofNat 64 a)
      | .ok e => (permitted c.w.sect.isNone kind e.pte).map fun x => (x, BitVec.ofNat 64 a)

/-- Pages of a range. -/
def pagesOf (va n : Nat) : Nat := if n = 0 then 0 else (va + n - 1) / 4096 + 1 - va / 4096

/-- A range checked at issue: its capability, its alignment, then its pages. -/
def State.issueCheck (s : State) (c : Ctx) (cap : Cap) (va n align perms kind : Nat) : Option (Nat × DWord) :=
  match capCheck cap va n perms 0 with
  | some e => some (e, BitVec.ofNat 64 va)
  | none =>
    if va % align ≠ 0 then some (cMISALIGNED, BitVec.ofNat 64 va)
    else s.rangeFault c kind va (pagesOf va n)

/-- An operation begun: a `.dev` release, and a count. -/
def State.streamBegin (s : State) (c : Ctx) (o : Nat → StreamOp) : State :=
  let (id, s1) := (s.releaseBy c.w).fresh
  s1.modWave c.u fun w => { (w.opBegin id 3 1) with sops := w.sops ++ [o id] }

/-- A word of the stream unit: refused in a region, held at a full counter or behind what it releases. -/
def State.streamWord (s : State) (c : Ctx) (fs : List (Option (Nat × DWord))) (o : Nat → StreamOp) : Option State :=
  if s.inRegion c.w then some (s.groupFault c cIRREVOCABLE)
  else match fs.findSome? id with
    | some (e, va) => some (s.groupFault c e va)
    | none => if c.w.oc 3 ≥ 1023 || !s.quiet c.u c.mask then none else some (s.streamBegin c o)

/-- A list operation. The range of qc may be empty, at its CAPY or beyond: R349 does not say whether an empty range is checked, and
the model checks it as it stands (log entry 136, DESIGN CHOICE). -/
def State.listWord (s : State) (c : Ctx) (u : UOps) (kind : Nat) : Option State :=
  let qc := u.bc.numC
  let r := c.w.getQ qc
  let n := 4 * (r.capy - r.pos)
  let fs := if (fget c.w.q qc).isNone then [] else
    [s.issueCheck c r.cap (r.keyVa r.pos) n 1 pSTORE 1, s.issueCheck c r.cap (r.valVa r.pos) n 1 pSTORE 1]
  s.streamWord c fs fun id => ⟨id, c.pc, kind, u.d.toNat, u.a.toNat, u.bc.numB, qc, [], 0, 0, c.mask⟩

def execSisect (u : UOps) (s : State) : Out := word (.sisect u) s fun s c => s.listWord c u 0
def execSunion (u : UOps) (s : State) : Out := word (.sunion u) s fun s c => s.listWord c u 1
def execSdiff (u : UOps) (s : State) : Out := word (.sdiff u) s fun s c => s.listWord c u 2
def execSmerge (u : UOps) (s : State) : Out := word (.smerge u) s fun s c => s.listWord c u 3

/-- `spart`. -/
def execSpart (u : UOps) (s : State) : Out :=
  word (.spart u) s fun s c =>
    let n := (c.w.getS u.bc.numB).toNat
    let p := (c.w.getS (u.bc.numB + 1)).toNat
    let ca := c.w.getC u.a.toNat
    let cd := c.w.getC u.d.toNat
    if s.inRegion c.w then some (s.groupFault c cIRREVOCABLE)
    else if n = 0 ∨ 2 ^ 28 - 1 < n ∨ p = 0 ∨ 65536 < p then some (s.groupFault c cILLEGAL)
    else
      s.streamWord c
        [s.issueCheck c ca ca.base (4 * (n + 1)) 4 pLOAD 0, s.issueCheck c cd cd.base (8 * (p + 1)) 8 pSTORE 1]
        fun id => ⟨id, c.pc, 4, 0, 0, 0, 0, [ca, cd], n, p, c.mask⟩

/-! ### The unit at work -/

/-- Every page of a range admits the access. -/
def State.rangeOk (s : State) (core port kind va n : Nat) : Bool :=
  (List.range (pagesOf va n)).all fun i =>
    match s.lookup core port (if i = 0 then va else (va / 4096 + i) * 4096) with
    | .ok e => (permitted true kind e.pte).isNone
    | .error _ => false

/-- A line of a range whose cork does not match. -/
def State.rangeBad (s : State) (core port va n : Nat) : Bool :=
  if n = 0 then false
  else (List.range ((va + n - 1) / 64 + 1 - va / 64)).any fun i =>
    let a := if i = 0 then va else (va / 64 + i) * 64
    match s.lookup core port a with
    | .ok e => s.badAt (if e.swm then some (dieOf core) else none) (e.key a) 1
    | .error _ => false

/-- A line of a range that would be written in part and whose old cork does not match (R410). -/
def State.rangeMerges (s : State) (core port va n : Nat) : Bool :=
  if n = 0 then false
  else (List.range ((va + n - 1) / 64 + 1 - va / 64)).any fun i =>
    let a := (va / 64 + i) * 64
    !(decide (va ≤ a) && decide (a + 64 ≤ va + n)) && match s.lookup core port (max va a) with
      | .ok e => s.badAt (if e.swm then some (dieOf core) else none) (e.key (max va a)) 1
      | .error _ => false

/-- The classes of a range's pages (R170). -/
def State.rangeClaim (s : State) (core port : Nat) (writes : Bool) (va n : Nat) : State :=
  (List.range (pagesOf va n)).foldl (fun s i =>
    let a := if i = 0 then va else (va / 4096 + i) * 4096
    match s.lookup core port a with
    | .ok e => s.claim core a writes e
    | .error _ => s) s

/-- Four bytes at an address. -/
def State.get4 (s : State) (core port va : Nat) : Nat := numOf ((List.range 4).map fun i => s.engGet core port (va + i))

/-- A word of an input that may overlap the output: its old contents, or what has been written there (R349). -/
def State.inWord (s : State) (old : State) (core port va : Nat) (out : List (Nat × Nat)) : Nat × State :=
  if out.any fun (b, n) => decide (va < b + n) && decide (b < va + 4) then
    let (x, s1) := s.open_
    (if x.getLsbD 0 then s.get4 core port va else old.get4 core port va, s1)
  else (old.get4 core port va, s)

/-- Where a list operation stands. -/
structure Merge where
  i : Nat
  j : Nat
  o : Nat
  flags : Nat

/-- What a pair of equal keys gives, with its flags. -/
def pairValue (kind va vb : Nat) : Option Res :=
  match kind with
  | 0 => some (fMul .f32 .rne va vb)
  | 1 => some (va, 0)
  | 2 => none
  | _ => some (fAdd .f32 .rne va vb)

/-- An element emitted. -/
def State.emit (s : State) (core port : Nat) (bound : Bool) (r : StreamReg) (m : Merge) (k v : Nat) : State × Merge :=
  let s1 := if bound && decide (m.o < r.capy) then
      (s.engPuts core port (r.keyVa m.o) (bytesOf k 4)).engPuts core port (r.valVa m.o) (bytesOf v 4)
    else s
  (s1, { m with o := m.o + 1 })

/-- The merge of R349. -/
def State.mergeLists (old : State) (core port kind : Nat) (ra rb rc : StreamReg) (bound : Bool) (out : List (Nat × Nat)) :
    Nat → Merge → State → State × Merge
  | 0, m, s => (s, m)
  | f + 1, m, s =>
    if ra.count ≤ m.i ∧ rb.count ≤ m.j then (s, m)
    else
      let rd := fun (s : State) (va : Nat) => s.inWord old core port va out
      let (ka, s1) := if m.i < ra.count then rd s (ra.keyVa m.i) else (2 ^ 32, s)
      let (kb, s2) := if m.j < rb.count then rd s1 (rb.keyVa m.j) else (2 ^ 32, s1)
      let go := State.mergeLists old core port kind ra rb rc bound out f
      if ka < kb then
        let (v, s3) := rd s2 (ra.valVa m.i)
        let (s4, m1) := if kind = 0 then (s3, m) else s3.emit core port bound rc m ka v
        go { m1 with i := m.i + 1 } s4
      else if kb < ka then
        let (v, s3) := rd s2 (rb.valVa m.j)
        let (s4, m1) := if kind = 0 ∨ kind = 2 then (s3, m) else s3.emit core port bound rc m kb v
        go { m1 with j := m.j + 1 } s4
      else
        let (va, s3) := rd s2 (ra.valVa m.i)
        let (vb, s4) := rd s3 (rb.valVa m.j)
        match pairValue kind va vb with
        | none => go { m with i := m.i + 1, j := m.j + 1 } s4
        | some r =>
          let (s5, m1) := s4.emit core port bound rc m ka r.1
          go { m1 with i := m.i + 1, j := m.j + 1, flags := m1.flags ||| r.2 } s5

/-- The operation is over: out of the unit, its count down (R343). -/
def State.streamEnd (s : State) (u op : Nat) : State :=
  (s.modAny u fun w => { w with sops := w.sops.filter fun o => o.op != op }).partDone u op

/-- A list operation as a whole; none: it waits for a page. -/
def State.runList (s : State) (u : Nat) (w : Wave) (o : StreamOp) : Option State :=
  let ra := w.getQ o.qa
  let rb := w.getQ o.qb
  let rc := w.getQ o.qc
  let bound := (fget w.q o.qc).isSome
  let span := fun (r : StreamReg) (n : Nat) => [(r.keyVa r.pos, 4 * (n - r.pos)), (r.valVa r.pos, 4 * (n - r.pos))]
  let ins := span ra ra.count ++ span rb rb.count
  let total := (ra.count - ra.pos) + (rb.count - rb.pos)
  let out := if bound then span rc (min rc.capy (rc.pos + total)) ++ [(rc.addr.toNat, 4)] else []
  if !ins.all fun (va, n) => s.rangeOk w.core w.port 0 va n then none
  else match ins.find? fun (va, n) => s.rangeBad w.core w.port va n with
    | some (va, _) =>
      some ((s.streamEnd u o.op).consume ⟨w.core, u, false, 6, o.lanes, BitVec.ofNat 64 va⟩ o.pc)
    | none =>
      let s1 := ins.foldl (fun s (va, n) => s.rangeClaim w.core w.port false va n) s
      let (s2, m) := State.mergeLists s1 w.core w.port o.kind ra rb rc bound out (total + 1) ⟨ra.pos, rb.pos, rc.pos, 0⟩ s1
      let wrote := if bound then span rc (min rc.capy m.o) ++ [(rc.addr.toNat, 4)] else []
      if !wrote.all fun (va, n) => s.rangeOk w.core w.port 1 va n then none
      else match wrote.find? fun (va, n) => s.rangeMerges w.core w.port va n with
      | some (va, _) => some ((s.streamEnd u o.op).consume ⟨w.core, u, false, 6, o.lanes, BitVec.ofNat 64 va⟩ o.pc)
      | none =>
        let s3 := wrote.foldl (fun s (va, n) => s.rangeClaim w.core w.port true va n) s2
        let s4 := if bound then s3.engPuts w.core w.port rc.addr.toNat (bytesOf (min m.o rc.capy) 4) else s3
        let s5 := s4.modAny u fun w =>
          let w1 := (w.mapMask o.lanes fun _ t => t.flag m.flags).setS o.dst (BitVec.ofNat 32 (m.o - rc.pos))
          let q1 := fmod w1.q o.qa fun r => { r with pos := r.count }
          let q2 := fmod q1 o.qb fun r => { r with pos := r.count }
          { w1 with q := fmod q2 o.qc fun r => { r with pos := m.o } }
        some (s5.streamEnd u o.op)

/-- The entries of `spart` (R350), from the pointers. -/
def spartEntries (ptr : Nat → Nat) (n p : Nat) : List (Nat × Nat) :=
  let nt : Int := (ptr n : Int) - ptr 0
  (List.range (p + 1)).map fun (k : Nat) =>
    let a : Int := ptr 0 + floorDiv (k * nt) p
    (if k = 0 then 0 else ((List.range n).filter fun i => decide ((ptr (i + 1) : Int) ≤ a)).length, wrap a 32)

/-- `spart` as a whole. -/
def State.runSpart (s : State) (u : Nat) (w : Wave) (o : StreamOp) : Option State :=
  let ca := o.caps.getD 0 Cap.nil
  let cd := o.caps.getD 1 Cap.nil
  let n := 4 * (o.n + 1)
  let k := 8 * (o.p + 1)
  if !s.rangeOk w.core w.port 0 ca.base n || !s.rangeOk w.core w.port 1 cd.base k then none
  else if s.rangeBad w.core w.port ca.base n then
    some ((s.streamEnd u o.op).consume ⟨w.core, u, false, 6, o.lanes, BitVec.ofNat 64 ca.base⟩ o.pc)
  else if s.rangeMerges w.core w.port cd.base k then
    some ((s.streamEnd u o.op).consume ⟨w.core, u, false, 6, o.lanes, BitVec.ofNat 64 cd.base⟩ o.pc)
  else
    let s1 := s.rangeClaim w.core w.port false ca.base n
    let at_ := fun (i : Nat) => ca.base + 4 * i
    let put := fun (s : State) (ptr : Nat → Nat) => s.engPuts w.core w.port cd.base
      ((spartEntries ptr o.n o.p).flatMap fun (r, z) => bytesOf r 4 ++ bytesOf z 4)
    let (ptrs, s2) := (List.range (o.n + 1)).foldl (fun (l, s) i =>
      let (x, s') := State.inWord s s1 w.core w.port (at_ i) [(cd.base, k)]
      (l ++ [x], s')) (([], put s1 fun i => s1.get4 w.core w.port (at_ i)) : List Nat × State)
    let s3 := ({ s1 with ctr := s2.ctr } : State).rangeClaim w.core w.port true cd.base k
    some ((put s3 fun i => ptrs.getD i 0).streamEnd u o.op)

/-- STREAM_OP_COMPLETE: the oldest operation of the wave. It does not complete while a page is absent, and the waiting itself
leaves no record: R349 names none (log entry 137). -/
def execStreamOpComplete (u : Nat) (s : State) : Out :=
  match (s.anyWave u).bind fun w => w.sops.head?.map fun o => (w, o) with
  | none => .next s
  | some (w, o) => happens s (if o.kind < 4 then s.runList u w o else s.runSpart u w o)

end Sys2Proof.Machine
end

