-- ==== Sys2Proof/Machine/System.lean ====
section
/-!
DEFINITION. The system instructions (spec/17_traps_errors_context.md, R408, R409, R419 to R427; spec/05_control_flow.md,
R105; spec/06_work_creation_and_scheduling.md, R132; spec/13_matrix.md, R307; spec/07_memory_access.md, R171).
-/
namespace Sys2Proof.Machine

/-! ### System registers (Table 17.4) -/

/-- sr.flow (Table 5.2). -/
def Thread.flow (t : Thread) : Nat :=
  (if t.yd then 2 ^ 21 else 0) + (if t.tm then 2 ^ 20 else 0) + t.meet.length * 2 ^ 16 + t.cd.toNat

/-- sr.mstat (Table 13.1). -/
def Seq.mstat (q : Seq) : Nat :=
  (if q.ended then 2 ^ 31 else 0) + (if q.flt then 2 ^ 30 else 0) + (if q.orph then 2 ^ 29 else 0) +
    (if q.flt then q.code * 2 ^ 16 else 0) + min 65535 q.dsteps

/-- Block coordinate k (0 x, 1 y, 2 z); 0xFFFF_FFFF in a spawned block and in a section. -/
def State.blockCoord (s : State) (w : Wave) (k : Nat) : Nat :=
  match fget s.blocks w.blk, fget s.launches w.lid with
  | some b, some l =>
    if w.sect.isSome || b.spawned.isSome then 0xFFFFFFFF
    else match k with
      | 0 => b.lin % l.rc.gx
      | 1 => b.lin / l.rc.gx % l.rc.gy
      | _ => b.lin / (l.rc.gx * l.rc.gy)
  | _, _ => 0xFFFFFFFF

/-- The value of a register in a lane. -/
def State.srValue (s : State) (w : Wave) (l : Nat) (t : Thread) (n : Nat) : Nat :=
  let q : Seq := ((fget s.blocks w.blk).bind fun b => if w.sect.isSome then none else b.seq).getD Seq.init
  match n with
  | 0x00 => s.clk.toNat
  | 0x01 => s.clk.toNat / 128
  | 0x02 => w.coreNo
  | 0x03 => dieOf w.coreNo
  | 0x04 => if w.sect.isSome then 0 else (s.core w.core).fmask.toNat
  | 0x05 => if w.sect.isSome then (Config.freeWord s.ctr).toNat else (rget (s.core w.core).replays (w.ctx / 128)).toNat
  | 0x08 => t.tid
  | 0x09 => l
  | 0x0A => w.wid
  | 0x0B => if w.sect.isSome then 0 else s.blockOrder w
  | 0x0C => s.blockCoord w 0
  | 0x0D => s.blockCoord w 1
  | 0x0E => s.blockCoord w 2
  | 0x0F => if w.sect.isSome then 0 else w.lid
  | 0x10 => if w.sect.isSome then 0 else (match fget s.launches w.lid with | some k => k.depth | none => 0)
  | 0x18 => t.fflags.toNat
  | 0x19 => t.flow
  | 0x1A => w.rstat.toNat
  | 0x1B => w.estat.toNat
  | 0x20 => t.tcause.toNat
  | 0x21 => t.tpc.toNat
  | 0x22 => t.taddr.toNat
  | 0x23 => t.tdet.toNat
  | 0x24 => t.tlatv.toNat
  | 0x25 => (rget t.tlat 1).toNat
  | 0x26 => (rget t.tlat 2).toNat
  | 0x27 => (rget t.tlat 3).toNat
  | 0x28 => q.mstat
  | 0x29 => q.pc.toNat
  | 0x2A => q.mflags.toNat
  | 0x30 => (s.port w.port).htBase.toNat
  | 0x31 => (s.port w.port).htCount.toNat
  | _ => 0

/-- `rdsr` (R421). An L-core has no quadrants: what sr.replays reads as in a section is open (log entry 20). -/
def execRdsr (u : UOps) (s : State) : Out :=
  word' (.rdsr u) s fun s c =>
    let n := srNum u
    let d := u.d.toNat
    let s1 := if n = 5 ∧ c.w.sect.isSome then { s with ctr := s.ctr + 1 } else s
    if u.mod = 1 then
      (c.w.active c.mask).foldl (fun s0 (l, t) =>
        let x := s.srValue c.w l t n
        s0.setLane c.u l fun t => if srWide n then t.setV2 d (BitVec.ofNat 64 x) else t.setV d (BitVec.ofNat 32 x)) s1
    else match c.lead with
      | none => s1
      | some (l, t) =>
        let x := s.srValue c.w l t n
        s1.modWave c.u fun w => if srWide n then w.setS2 d (BitVec.ofNat 64 x) else w.setS d (BitVec.ofNat 32 x)

/-- A writable register written in a thread; reserved bits are ignored (R409, Tables 17.1, 2.5). -/
def Thread.setSr (t : Thread) (n : Nat) (x : DWord) : Thread :=
  match n with
  | 0x18 => { t with fflags := x.setWidth 32 &&& fflagsMask }
  | 0x21 => { t with tpc := x &&& 0x00FFFFFFFFFFFFF8 }
  | 0x24 => { t with tlatv := x.setWidth 32 &&& 7 }
  | 0x25 => { t with tlat := rset t.tlat 1 (x.setWidth 32) }
  | 0x26 => { t with tlat := rset t.tlat 2 (x.setWidth 32) }
  | 0x27 => { t with tlat := rset t.tlat 3 (x.setWidth 32) }
  | _ => t

/-- `wrsr` (R421). -/
def execWrsr (u : UOps) (s : State) : Out :=
  word' (.wrsr u) s fun s c =>
    let n := srNum u
    let a := u.a.toNat
    let val := fun (t : Thread) =>
      if u.mod = 1 then (if srWide n then t.getV2 a else (t.getV a).setWidth 64)
      else if srWide n then c.w.getS2 a else (c.w.getS a).setWidth 64
    s.modWave c.u fun w => w.mapMask c.mask fun _ t => t.setSr n (val t)

/-! ### tret (R422, R419) -/

/-- `tret`. -/
def execTret (u : UOps) (s : State) : Out :=
  word' (.tret u) s fun s c => s.modWave c.u fun w => (w.mapMask c.mask fun _ t => t.tret).afterTret c.mask

/-- The feature group of the word whose FEATURE_ABSENT the thread took, as a mask. -/
def Thread.needed (t : Thread) : Word :=
  match t.tneed with
  | some b => BitVec.ofNat 32 (2 ^ b)
  | none => 0

/-- `tret.mig`: after FEATURE_ABSENT the block is to be saved and placed where the word's group is present. -/
def execTretMig (u : UOps) (s : State) : Out :=
  word' (.tretMig u) s fun s c =>
    let ls := (c.w.active c.mask).filter fun (_, t) => t.tcause.toNat % 256 == cFEATURE
    let s1 := s.modWave c.u fun w => (w.mapMask c.mask fun _ t => t.tret).afterTret c.mask
    match ls with
    | [] => s1
    | _ =>
      let need := ls.foldl (fun m (_, t) => m ||| t.needed) 0
      let s2 := s1.modWave c.u fun w => { w with
        threads := w.threads.map fun (l, (t : Thread)) => (l, if t.tm && !t.exited then t.tret else t) }
      (s2.modBlock c.w.blk fun b => { b with needs := b.needs ||| need }).beginSave c.w.blk

/-! ### Translations (R423) -/

/-- The cores a `tlbinv` names. -/
def invTargets (x : Word) (core : Nat) : Bool := bfld x 8 0 == 0x1FF || bfld x 8 0 == core

/-- The lines that the open regions of the machine may still commit, each with the core and the function of its wave or block: those
of a region that is doomed, or whose wave waits for an abort, are never written (R229, R166). -/
def State.toCommit (s : State) : List (Nat × Nat × Nat × Line) :=
  let of := fun (r : Option Region) (core port : Nat) => match r with
    | some r => if r.doomed then [] else r.lines.map fun (n, l) => (core, port, n, l)
    | none => []
  (s.waves.flatMap fun (_, (w : Wave)) => if w.faultAbort.isSome then [] else of w.reg w.coreNo w.port) ++
    s.blocks.flatMap fun (n, (b : Block)) =>
      if (s.wavesOf n).any fun (_, w) => w.faultAbort.isSome && w.reg.isNone then [] else of b.reg b.core (s.portOf b)

/-- No access of these cores in this address space is in flight, of a thread or of a sequencer, and no store that a commit would still
write (R164). -/
def State.settledOn (s : State) (on : Nat → Bool) (port : Nat) : Bool :=
  (!s.inflight.any fun a => (s.wave a.wave).any fun w => on w.coreNo && w.port == port) &&
    (!s.toCommit.any fun (core, p, _, _) => on core && p == port) &&
    !s.blocks.any fun (_, (b : Block)) => on b.core && s.portOf b == port && b.seq.any fun q => q.ops.any fun o => !o.rows.isEmpty

/-- The store queues of the named cores emptied. -/
def State.drainCores (s : State) (on : Nat → Bool) : State :=
  (fkeys s.cores).foldl (fun s n => if on n then s.drainSq n fun _ => true else s) s

/-- The translations of a page, or of the whole address space, dropped on the named cores, after every access translated
with them there has been performed (R164); a .dev release, and a .dev acquire as it completes. -/
def State.invalidate (s : State) (c : Ctx) (x : Word) (page : TlbEntry → Bool) : Option State :=
  let port := bfld x 16 16
  if s.inRegion c.w then some (s.groupFault c cIRREVOCABLE)
  else if !s.quiet c.u c.mask || !s.settledOn (invTargets x) port then none
  else
    some ((((s.releaseBy c.w).drainCores (invTargets x)).dropPage (invTargets x) fun e => e.port == port && page e).fenceBy c true false 2)

/-- `tlbinv`. -/
def execTlbinv (u : UOps) (s : State) : Out :=
  word (.tlbinv u) s fun s c =>
    let va := (c.w.getS2 u.a.toNat).toNat
    s.invalidate c (c.w.getS u.bc.numB) fun e => decide (e.base ≤ va) && decide (va < e.base + e.size)

/-- `tlbinv.all`. -/
def execTlbinvAll (u : UOps) (s : State) : Out :=
  word (.tlbinvAll u) s fun s c => s.invalidate c (c.w.getS u.bc.numB) fun _ => true

/-! ### SWM pages (R171, R424, R425) -/

/-- The cork of a copy, or of the line of memory that it would be merged into, does not match (R410). -/
def State.copyBad (s : State) (die line : Nat) (l : SwmLine) : Bool :=
  l.mask != 0 && (s.bad.contains (lineId (some die) (64 * line)) || (l.mask != BitVec.allOnes 64 && s.bad.contains line))

/-- The masked bytes of one die's copy written to memory. A granule written whole, which a `stc` tagged in the copy, keeps
that tag; any other granule written loses its own (R153, log entry 118). -/
def State.mergeCopy (s : State) (die line : Nat) (l : SwmLine) : State :=
  let part := fun (g : Nat) => bitsOf l.mask.toNat (16 * g + 15) (16 * g)
  let s1 : State := { s with mem := (maskOffsets l.mask).foldl (fun m i => m.put (64 * line + i) (rget l.data i)) s.mem }
  let s2 := (List.range 4).foldl (fun (s : State) g =>
    if part g = 0 then s
    else s.setTag none (64 * line + 16 * g) (part g == 0xFFFF && s.tags.contains (granule (some die) (64 * line + 16 * g)))) s1
  if l.mask = 0 then s2
  else ({ s2 with bad := if l.mask = BitVec.allOnes 64 then serase s2.bad line else s2.bad } : State).noteWrite none false line

/-- The copies of lines from a to b - 1, of one die or of all, in ascending line and then die order. -/
def State.copies (s : State) (a b : Nat) (die : Option Nat) : List (Nat × Nat × SwmLine) :=
  let all := s.swm.filterMap fun (k, (l : SwmLine)) =>
    let line := k % 2 ^ 60
    let d := k / 2 ^ 60
    if a ≤ line ∧ line < b ∧ die.all (· == d) then some (line, d, l) else none
  let lines := all.foldl (fun m x => sinsert m x.1) []
  lines.flatMap fun n => [0, 1, 2, 3].filterMap fun d => all.find? fun x => x.1 == n && x.2.1 == d

/-- Copies written back; each stays valid with a clear mask (R425). -/
def State.writeBack (s : State) (cs : List (Nat × Nat × SwmLine)) : State :=
  let s1 := cs.foldl (fun s (n, d, l) => s.mergeCopy d n l) s
  { s1 with swm := s1.swm.map fun (k, l) => (k, if cs.any fun (n, d, _) => k == 2 ^ 60 * d + n then { l with mask := 0 } else l) }

/-- Copies discarded (R424), with their tags and corks. -/
def State.discard (s : State) (cs : List (Nat × Nat × SwmLine)) : State :=
  { s with
    swm := s.swm.filter fun (k, _) => !cs.any fun (n, d, _) => k == 2 ^ 60 * d + n
    tags := cs.foldl (fun ts (n, d, _) => clearTags ts (some d) (64 * n) 64) s.tags
    bad := cs.foldl (fun l (n, d, _) => serase l (lineId (some d) (64 * n))) s.bad }

/-- Bytes that more than one of the copies of one line holds. -/
def overlapCount (cs : List (Nat × Nat × SwmLine)) : Nat :=
  let lines := cs.foldl (fun m x => sinsert m x.1) []
  (lines.map fun n =>
    let ms := (cs.filter fun x => x.1 == n).map fun x => x.2.2.mask
    ((List.range 64).filter fun i => decide (1 < (ms.filter fun m => m.getLsbD i).length)).length).foldl (· + ·) 0

/-- The lines of a page. -/
def TlbEntry.lines (e : TlbEntry) : Nat × Nat := (e.key e.base / 64, (e.key e.base + e.size) / 64)

/-- An access to a page as SWM is in flight, of a thread or of a sequencer, or stands in the buffer of a region that may commit. -/
def State.swmBusy (s : State) (e : TlbEntry) : Bool :=
  let in_ := fun (k : Nat) => decide (e.lines.1 ≤ k / 64) && decide (k / 64 < e.lines.2)
  (s.inflight.any fun a => (a.swm || a.swm2) && a.lanes.any fun l => in_ l.key || (a.op.two && in_ l.key2)) ||
    (s.toCommit.any fun (_, _, n, l) => l.swm && in_ (64 * n)) ||
    s.blocks.any fun (_, (b : Block)) => b.seq.any fun q => q.ops.any fun o => o.rows.any fun p => p.swm && in_ p.key

/-- `pgclass`. -/
def execPgclass (m : MOps) (s : State) : Out :=
  word (.pgclass m) s fun s c =>
    let put := fun (s : State) (x : Nat) =>
      s.modWave c.u fun w => w.mapMask c.mask fun _ t => t.setV m.data.toNat (BitVec.ofNat 32 x)
    if s.inRegion c.w then some (s.groupFault c cIRREVOCABLE)
    else match c.lead with
      | none => some s
      | some (l, t) =>
        let va := addrOf m c.w t
        match s.checkAt c.w t (capOf m c.w t) va 1 (pLOAD ||| pSTORE) 1 with
        | .error e => some (s.laneFaults c 1 ((lanesOf c.mask).map fun l => (l, e, va)))
        | .ok e =>
          if pCLASS (s.pteOf e) ≠ 3 then some (put (s.cacheEntry c ⟨l, t, va, e⟩) 0)
          else if s.swmBusy e then none
          else
            let s1 := (s.setPte e (putFld (s.pteOf e) 11 10 2)).dropPage (fun _ => true) fun x => x.pteAddr == e.pteAddr
            let cs := s1.copies e.lines.1 e.lines.2 none
            if cs.any fun (n, d, x) => s.copyBad d n x then some (s.consume ⟨c.w.coreNo, c.u, false, 6, c.mask, va⟩ c.pc)
            else some (put ((s1.writeBack cs).discard cs) (overlapCount cs))

/-- `cachewb` and `cachewb.pg`: the issuing die's copies, of a line or of a page. A lane is only checked: lines of other pages, and their
class, stay as they are (R425). -/
def State.cachewb (s : State) (c : Ctx) (m : MOps) (page : Bool) : Option State :=
  if s.inRegion c.w then some (s.groupFault c cIRREVOCABLE)
  else if !s.quiet c.u c.mask then none
  else
    let (hs, fs) := s.checkLanes c m 1 pLOAD 0
    -- the copies of the issuing die that a lane names
    let named := fun (s : State) (h : Hit) =>
      let n := h.e.key h.va.toNat / 64
      let (a, b) := if page then h.e.lines else (n, n + 1)
      if h.e.swm then s.copies a b (some (dieOf c.w.coreNo)) else []
    let bad : List Hit := hs.filter fun h => (named s h).any fun (n, d, l) => s.copyBad d n l
    let s1 := hs.foldl (fun s h => s.cacheEntry c h) (s.releaseBy c.w)
    let s2 := hs.foldl (fun s h => s.writeBack ((named s h).filter fun (n, d, l) => !s.copyBad d n l)) s1
    let s3 := match bad with
      | [] => s2
      | h :: _ => s2.consume ⟨c.w.coreNo, c.u, false, 6, maskOf (bad.map Hit.lane), h.va⟩ c.pc
    some (s3.laneFaults c 0 fs)

/-- `cachewb`. -/
def execCachewb (m : MOps) (s : State) : Out := word (.cachewb m) s fun s c => s.cachewb c m false
/-- `cachewb.pg`. -/
def execCachewbPg (m : MOps) (s : State) : Out := word (.cachewbPg m) s fun s c => s.cachewb c m true

/-- `halt` (R426). -/
def execHalt (u : UOps) (s : State) : Out :=
  word' (.halt u) s fun s c =>
    if c.w.sect.isSome then s.endSection c.u cSECTFAULT 0x7F 0 [] []
    else
      let s1 := if (s.blockRegion c.w).isSome then s.abortBlock c.w.blk (some c.u) 1 0
        else if c.w.reg.isSome then s.abortWave c.u 1 0
        else s
      s1.killLaunch c.w.lid 0x7F u.imm.toNat

end Sys2Proof.Machine
end

