-- ==== Sys2Proof/Machine/Uniform.lean ====
section
/-!
DEFINITION. The uniform instructions (spec/04_arithmetic_and_lanes.md, R98 and R99, Table 4.6). A word takes effect once
per issue; its flags and faults are those of every thread of the issue group.
-/
namespace Sys2Proof.Machine

/-- A register, or with DB a pair, as a number. -/
def Wave.getU (w : Wave) (u : UOps) (r : Nat) : Nat := if uDB u then (w.getS2 r).toNat else (w.getS r).toNat

/-- The width of the operands. -/
def uW (u : UOps) : Nat := if uDB u then 64 else 32

/-- Source b: a register or pair, or the immediate. -/
def Wave.srcUB (w : Wave) (u : UOps) : Nat :=
  match u.bc with
  | .regs b _ => w.getU u b.toNat
  | .imm k => (immU k).toNat % 2 ^ uW u

/-- The destination: a register, or with DB a pair. -/
def Wave.setU (w : Wave) (u : UOps) (x : Nat) : Wave :=
  if uDB u then w.setS2 u.d.toNat (BitVec.ofNat 64 x) else w.setS u.d.toNat (BitVec.ofNat 32 x)

/-- A uniform integer word: the result from width and operands a, b, c. -/
def uniInt (i : Instr) (u : UOps) (s : State) (g : Nat → Nat → Nat → Nat → Nat) : Out :=
  arith i u.e s fun w _ =>
    .ok (w.setU u (g (uW u) (w.getU u u.a.toNat) (w.srcUB u) (w.getU u u.bc.numC) % 2 ^ uW u))

def execSadd (u : UOps) (s : State) : Out := uniInt (.sadd u) u s fun _ a b _ => a + b
def execSsub (u : UOps) (s : State) : Out := uniInt (.ssub u) u s fun w a b _ => a + (2 ^ w - b)
def execSmul (u : UOps) (s : State) : Out := uniInt (.smul u) u s fun _ a b _ => a * b
def execSmulh (u : UOps) (s : State) : Out :=
  uniInt (.smulh u) u s fun w a b _ => wrap (readE (uUN u) w a * readE (uUN u) w b / (2 ^ w : Nat)) w
def execSmad (u : UOps) (s : State) : Out := uniInt (.smad u) u s fun _ a b c => a * b + c
def execSdiv (u : UOps) (s : State) : Out :=
  uniInt (.sdiv u) u s fun w a b _ =>
    let r := divRem (uUN u) false w a b
    if uSUB u = 1 then r.2 else r.1
def execSmin (u : UOps) (s : State) : Out :=
  uniInt (.smin u) u s fun w a b _ => if readE (uUN u) w a ≤ readE (uUN u) w b then a else b
def execSmax (u : UOps) (s : State) : Out :=
  uniInt (.smax u) u s fun w a b _ => if readE (uUN u) w a ≤ readE (uUN u) w b then b else a
def execSand (u : UOps) (s : State) : Out := uniInt (.sand u) u s fun _ a b _ => a &&& b
def execSor (u : UOps) (s : State) : Out := uniInt (.sor u) u s fun _ a b _ => a ||| b
def execSxor (u : UOps) (s : State) : Out := uniInt (.sxor u) u s fun _ a b _ => a ^^^ b
def execSshl (u : UOps) (s : State) : Out := uniInt (.sshl u) u s fun w a b _ => if b ≥ w then 0 else a * 2 ^ b
def execSshr (u : UOps) (s : State) : Out := uniInt (.sshr u) u s fun w a b _ => if b ≥ w then 0 else a / 2 ^ b
def execSsra (u : UOps) (s : State) : Out :=
  uniInt (.ssra u) u s fun w a b _ => wrap (signExt a w / (2 ^ min b (w - 1) : Nat)) w
def execSclz (u : UOps) (s : State) : Out := uniInt (.sclz u) u s fun w a _ _ => w - bitLen a
def execSpopc (u : UOps) (s : State) : Out := uniInt (.spopc u) u s fun w a _ _ => popc a w
def execScmp (u : UOps) (s : State) : Out :=
  uniInt (.scmp u) u s fun w a b _ => if cmpInt (uSUB u) (readE (uUN u) w a) (readE (uUN u) w b) then 1 else 0
def execSmov (u : UOps) (s : State) : Out := uniInt (.smov u) u s fun _ a _ _ => a

/-- ssel reads c as a single register in either width (R99). -/
def execSsel (u : UOps) (s : State) : Out :=
  arith (.ssel u) u.e s fun w _ =>
    .ok (w.setU u (if w.getS u.bc.numC ≠ 0 then w.getU u u.a.toNat else w.srcUB u))

/-- slea reads b as a single register, extended by UN in the wide form (R99). -/
def execSlea (u : UOps) (s : State) : Out :=
  arith (.slea u) u.e s fun w _ =>
    let b : Nat := match u.bc with
      | .regs b _ => if uUN u then (w.getS b.toNat).toNat else ((w.getS b.toNat).signExtend 64).toNat
      | .imm k => (immU k).toNat
    .ok (w.setU u ((w.getU u u.a.toNat + b * 2 ^ uSUB u) % 2 ^ uW u))

def execSmovi (u : SMovi) (s : State) : Out :=
  arith (.smovi u) u.e s fun w _ => .ok (w.setS u.d.toNat u.imm)

/-- Source b of a uniform float word. -/
def Wave.srcUf (w : Wave) (u : UOps) : Word :=
  match u.bc with
  | .regs b _ => w.getS b.toNat
  | .imm k => immUf k

/-- A uniform float word that `put` writes: abandoned operands raise ABANDONED_OPERAND in every thread of the group (R98,
R99). -/
def uniFloatW (i : Instr) (u : UOps) (s : State) (ops : Wave → List Word) (put : Wave → Word → Wave)
    (g : RMode → List Word → Word × Nat) : Out :=
  arith i u.e s fun w mask =>
    let xs := ops w
    if xs.any isAbandoned then .error mask
    else
      let r := g (RMode.ofCode (uRM u)) xs
      .ok ((put w r.1).mapMask mask fun _ t => t.flag r.2)

/-- A uniform float word with a single destination register. -/
def uniFloat (i : Instr) (u : UOps) (s : State) (ops : Wave → List Word) (g : RMode → List Word → Word × Nat) : Out :=
  uniFloatW i u s ops (fun w x => w.setS u.d.toNat x) g

/-- The n-th operand as an encoding. -/
def opN (xs : List Word) (n : Nat) : Nat := (xs.getD n 0).toNat

def execSfadd (u : UOps) (s : State) : Out :=
  uniFloat (.sfadd u) u s (fun w => [w.getS u.a.toNat, w.srcUf u]) fun m xs => resWord (fAdd .f32 m (opN xs 0) (opN xs 1))
def execSfmul (u : UOps) (s : State) : Out :=
  uniFloat (.sfmul u) u s (fun w => [w.getS u.a.toNat, w.srcUf u]) fun m xs => resWord (fMul .f32 m (opN xs 0) (opN xs 1))
def execSffma (u : UOps) (s : State) : Out :=
  uniFloat (.sffma u) u s (fun w => [w.getS u.a.toNat, w.srcUf u, w.getS u.bc.numC]) fun m xs =>
    resWord (fFma .f32 m (opN xs 0) (opN xs 1) (opN xs 2))
/-- sfcmp writes a pair: 0 or 1 in the low word, 0 in the high word (R99, log entry 63). -/
def execSfcmp (u : UOps) (s : State) : Out :=
  uniFloatW (.sfcmp u) u s (fun w => [w.getS u.a.toNat, w.srcUf u]) (fun w x => (w.setS u.d.toNat x).setS (u.d.toNat + 1) 0)
    fun _ xs =>
      let r := fCmp .f32 (uSUB u) (opN xs 0) (opN xs 1)
      (boolWord r.1, r.2)

/-- The integer side of scvt. -/
def scvtInt (u : UOps) : Fmt :=
  if uDB u then (if uUN u then .n64 else .i64) else if uUN u then .n32 else .i32

/-- scvt between f32 and a 32- or 64-bit integer (R99). -/
def execScvt (u : UOps) (s : State) : Out :=
  arith (.scvt u) u.e s fun w mask =>
    let m := RMode.ofCode (uRM u)
    if uSUB u = 0 then
      let a := w.getS u.a.toNat
      if isAbandoned a then .error mask
      else
        let r := convert a.toNat .f32 (scvtInt u) m
        .ok ((w.setU u r.1).mapMask mask fun _ t => t.flag r.2)
    else
      let r := convert (w.getU u u.a.toNat) (scvtInt u) .f32 m
      .ok ((w.setS u.d.toNat (BitVec.ofNat 32 r.1)).mapMask mask fun _ t => t.flag r.2)

end Sys2Proof.Machine
end

