-- ==== Sys2Proof/Machine/Dispatch.lean ====
section
/-!
DEFINITION. The dispatch: one arm for every row of spec/opcode_table.json, each a direct call of that row's meaning.
-/
namespace Sys2Proof.Machine

/-- What a step of the machine does, by its row of the table. -/
def exec (i : Instr) (s : State) : Host.Outcome State Fault Refusal :=
  match i with
  | .vadd f => Sys2Proof.Machine.execVadd f s
  | .vsub f => Sys2Proof.Machine.execVsub f s
  | .vmul f => Sys2Proof.Machine.execVmul f s
  | .vmulh f => Sys2Proof.Machine.execVmulh f s
  | .vmad f => Sys2Proof.Machine.execVmad f s
  | .vmadw f => Sys2Proof.Machine.execVmadw f s
  | .vdiv f => Sys2Proof.Machine.execVdiv f s
  | .vrem f => Sys2Proof.Machine.execVrem f s
  | .vabs f => Sys2Proof.Machine.execVabs f s
  | .vmin f => Sys2Proof.Machine.execVmin f s
  | .vmax f => Sys2Proof.Machine.execVmax f s
  | .vand f => Sys2Proof.Machine.execVand f s
  | .vor f => Sys2Proof.Machine.execVor f s
  | .vxor f => Sys2Proof.Machine.execVxor f s
  | .vandn f => Sys2Proof.Machine.execVandn f s
  | .vshl f => Sys2Proof.Machine.execVshl f s
  | .vshr f => Sys2Proof.Machine.execVshr f s
  | .vsra f => Sys2Proof.Machine.execVsra f s
  | .vrot f => Sys2Proof.Machine.execVrot f s
  | .vclz f => Sys2Proof.Machine.execVclz f s
  | .vpopc f => Sys2Proof.Machine.execVpopc f s
  | .vbrev f => Sys2Proof.Machine.execVbrev f s
  | .vbfe f => Sys2Proof.Machine.execVbfe f s
  | .vbfi f => Sys2Proof.Machine.execVbfi f s
  | .vaddc f => Sys2Proof.Machine.execVaddc f s
  | .vdot4 f => Sys2Proof.Machine.execVdot4 f s
  | .vcmp f => Sys2Proof.Machine.execVcmp f s
  | .vsel f => Sys2Proof.Machine.execVsel f s
  | .vmov f => Sys2Proof.Machine.execVmov f s
  | .vmovi f => Sys2Proof.Machine.execVmovi f s
  | .vlea f => Sys2Proof.Machine.execVlea f s
  | .fadd f => Sys2Proof.Machine.execFadd f s
  | .fsub f => Sys2Proof.Machine.execFsub f s
  | .fmul f => Sys2Proof.Machine.execFmul f s
  | .ffma f => Sys2Proof.Machine.execFfma f s
  | .fmin f => Sys2Proof.Machine.execFmin f s
  | .fmax f => Sys2Proof.Machine.execFmax f s
  | .fcmp f => Sys2Proof.Machine.execFcmp f s
  | .frcp f => Sys2Proof.Machine.execFrcp f s
  | .frsq f => Sys2Proof.Machine.execFrsq f s
  | .fsqrt f => Sys2Proof.Machine.execFsqrt f s
  | .fdiv f => Sys2Proof.Machine.execFdiv f s
  | .fexp2 f => Sys2Proof.Machine.execFexp2 f s
  | .flog2 f => Sys2Proof.Machine.execFlog2 f s
  | .fsin f => Sys2Proof.Machine.execFsin f s
  | .fcos f => Sys2Proof.Machine.execFcos f s
  | .fclass f => Sys2Proof.Machine.execFclass f s
  | .fdot2 f => Sys2Proof.Machine.execFdot2 f s
  | .fscale f => Sys2Proof.Machine.execFscale f s
  | .cvt f => Sys2Proof.Machine.execCvt f s
  | .cvtef f => Sys2Proof.Machine.execCvtef f s
  | .frnd f => Sys2Proof.Machine.execFrnd f s
  | .pack f => Sys2Proof.Machine.execPack f s
  | .unpack f => Sys2Proof.Machine.execUnpack f s
  | .cbdec f => Sys2Proof.Machine.execCbdec f s
  | .cbenc f => Sys2Proof.Machine.execCbenc f s
  | .scget f => Sys2Proof.Machine.execScget f s
  | .scapply f => Sys2Proof.Machine.execScapply f s
  | .leesrd f => Sys2Proof.Machine.execLeesrd f s
  | .leeswr f => Sys2Proof.Machine.execLeeswr f s
  | .shfl f => Sys2Proof.Machine.execShfl f s
  | .vote f => Sys2Proof.Machine.execVote f s
  | .voteBallot f => Sys2Proof.Machine.execVoteBallot f s
  | .lred f => Sys2Proof.Machine.execLred f s
  | .lscan f => Sys2Proof.Machine.execLscan f s
  | .bcast f => Sys2Proof.Machine.execBcast f s
  | .v2s f => Sys2Proof.Machine.execV2s f s
  | .s2v f => Sys2Proof.Machine.execS2v f s
  | .amask f => Sys2Proof.Machine.execAmask f s
  | .pand f => Sys2Proof.Machine.execPand f s
  | .por f => Sys2Proof.Machine.execPor f s
  | .pxor f => Sys2Proof.Machine.execPxor f s
  | .pnot f => Sys2Proof.Machine.execPnot f s
  | .pmov f => Sys2Proof.Machine.execPmov f s
  | .sadd u => Sys2Proof.Machine.execSadd u s
  | .ssub u => Sys2Proof.Machine.execSsub u s
  | .smul u => Sys2Proof.Machine.execSmul u s
  | .smulh u => Sys2Proof.Machine.execSmulh u s
  | .smad u => Sys2Proof.Machine.execSmad u s
  | .sdiv u => Sys2Proof.Machine.execSdiv u s
  | .smin u => Sys2Proof.Machine.execSmin u s
  | .smax u => Sys2Proof.Machine.execSmax u s
  | .sand u => Sys2Proof.Machine.execSand u s
  | .sor u => Sys2Proof.Machine.execSor u s
  | .sxor u => Sys2Proof.Machine.execSxor u s
  | .sshl u => Sys2Proof.Machine.execSshl u s
  | .sshr u => Sys2Proof.Machine.execSshr u s
  | .ssra u => Sys2Proof.Machine.execSsra u s
  | .sclz u => Sys2Proof.Machine.execSclz u s
  | .spopc u => Sys2Proof.Machine.execSpopc u s
  | .scmp u => Sys2Proof.Machine.execScmp u s
  | .ssel u => Sys2Proof.Machine.execSsel u s
  | .smov u => Sys2Proof.Machine.execSmov u s
  | .smovi u => Sys2Proof.Machine.execSmovi u s
  | .sfadd u => Sys2Proof.Machine.execSfadd u s
  | .sfmul u => Sys2Proof.Machine.execSfmul u s
  | .sffma u => Sys2Proof.Machine.execSffma u s
  | .sfcmp u => Sys2Proof.Machine.execSfcmp u s
  | .scvt u => Sys2Proof.Machine.execScvt u s
  | .slea u => Sys2Proof.Machine.execSlea u s
  | .pairedWord p => Sys2Proof.Machine.execPairedWord p s
  | .bra f => Sys2Proof.Machine.execBra f s
  | .sbra f => Sys2Proof.Machine.execSbra f s
  | .brx f => Sys2Proof.Machine.execBrx f s
  | .call f => Sys2Proof.Machine.execCall f s
  | .callx f => Sys2Proof.Machine.execCallx f s
  | .ret f => Sys2Proof.Machine.execRet f s
  | .meet f => Sys2Proof.Machine.execMeet f s
  | .meetPop f => Sys2Proof.Machine.execMeetPop f s
  | .land f => Sys2Proof.Machine.execLand f s
  | .exit f => Sys2Proof.Machine.execExit f s
  | .nop f => Sys2Proof.Machine.execNop f s
  | .yield f => Sys2Proof.Machine.execYield f s
  | .trap f => Sys2Proof.Machine.execTrap f s
  | .brk f => Sys2Proof.Machine.execBrk f s
  | .sleep f => Sys2Proof.Machine.execSleep f s
  | .sleepUntil f => Sys2Proof.Machine.execSleepUntil f s
  | .spawn f => Sys2Proof.Machine.execSpawn f s
  | .binflush u => Sys2Proof.Machine.execBinflush u s
  | .binflushLabel u => Sys2Proof.Machine.execBinflushLabel u s
  | .launch u => Sys2Proof.Machine.execLaunch u s
  | .lwait u => Sys2Proof.Machine.execLwait u s
  | .fetchw u => Sys2Proof.Machine.execFetchw u s
  | .prio u => Sys2Proof.Machine.execPrio u s
  | .ld m => Sys2Proof.Machine.execLd m s
  | .st m => Sys2Proof.Machine.execSt m s
  | .ldc m => Sys2Proof.Machine.execLdc m s
  | .stc m => Sys2Proof.Machine.execStc m s
  | .pf m => Sys2Proof.Machine.execPf m s
  | .cbnd f => Sys2Proof.Machine.execCbnd f s
  | .cperm f => Sys2Proof.Machine.execCperm f s
  | .ctest f => Sys2Proof.Machine.execCtest f s
  | .cmov f => Sys2Proof.Machine.execCmov f s
  | .cfromh f => Sys2Proof.Machine.execCfromh f s
  | .atom m => Sys2Proof.Machine.execAtom m s
  | .red m => Sys2Proof.Machine.execRed m s
  | .cas m => Sys2Proof.Machine.execCas m s
  | .dcas m => Sys2Proof.Machine.execDcas m s
  | .atom2 m => Sys2Proof.Machine.execAtom2 m s
  | .amov2 m => Sys2Proof.Machine.execAmov2 m s
  | .lres m => Sys2Proof.Machine.execLres m s
  | .scond m => Sys2Proof.Machine.execScond m s
  | .fence u => Sys2Proof.Machine.execFence u s
  | .fenceSc u => Sys2Proof.Machine.execFenceSc u s
  | .acqr u => Sys2Proof.Machine.execAcqr u s
  | .barSync u => Sys2Proof.Machine.execBarSync u s
  | .barArrive u => Sys2Proof.Machine.execBarArrive u s
  | .barWait u => Sys2Proof.Machine.execBarWait u s
  | .mon m => Sys2Proof.Machine.execMon m s
  | .mwait u => Sys2Proof.Machine.execMwait u s
  | .ropenWave u => Sys2Proof.Machine.execRopenWave u s
  | .ropenBlk u => Sys2Proof.Machine.execRopenBlk u s
  | .rcommitWave u => Sys2Proof.Machine.execRcommitWave u s
  | .rcommitBlk u => Sys2Proof.Machine.execRcommitBlk u s
  | .rabortWave u => Sys2Proof.Machine.execRabortWave u s
  | .rabortBlk u => Sys2Proof.Machine.execRabortBlk u s
  | .rstat u => Sys2Proof.Machine.execRstat u s
  | .ship m => Sys2Proof.Machine.execShip m s
  | .shipt m => Sys2Proof.Machine.execShipt m s
  | .shipp m => Sys2Proof.Machine.execShipp m s
  | .shwait u => Sys2Proof.Machine.execShwait u s
  | .shtest u => Sys2Proof.Machine.execShtest u s
  | .shret f => Sys2Proof.Machine.execShret f s
  | .homeof m => Sys2Proof.Machine.execHomeof m s
  | .pushCopy u => Sys2Proof.Machine.execPushCopy u s
  | .pushFab u => Sys2Proof.Machine.execPushFab u s
  | .wait u => Sys2Proof.Machine.execWait u s
  | .gset u => Sys2Proof.Machine.execGset u s
  | .gbind u => Sys2Proof.Machine.execGbind u s
  | .rfence u => Sys2Proof.Machine.execRfence u s
  | .ocrd u => Sys2Proof.Machine.execOcrd u s
  | .vdopen u => Sys2Proof.Machine.execVdopen u s
  | .vdacc f => Sys2Proof.Machine.execVdacc f s
  | .vdend u => Sys2Proof.Machine.execVdend u s
  | .vdtest f => Sys2Proof.Machine.execVdtest f s
  | .thmax m => Sys2Proof.Machine.execThmax m s
  | .vdstat u => Sys2Proof.Machine.execVdstat u s
  | .pgbind u => Sys2Proof.Machine.execPgbind u s
  | .pgnext f => Sys2Proof.Machine.execPgnext f s
  | .pgnextt f => Sys2Proof.Machine.execPgnextt f s
  | .pgsave u => Sys2Proof.Machine.execPgsave u s
  | .pgrest u => Sys2Proof.Machine.execPgrest u s
  | .sopen m => Sys2Proof.Machine.execSopen m s
  | .sopenRd m => Sys2Proof.Machine.execSopenRd m s
  | .sisect u => Sys2Proof.Machine.execSisect u s
  | .sunion u => Sys2Proof.Machine.execSunion u s
  | .sdiff u => Sys2Proof.Machine.execSdiff u s
  | .smerge u => Sys2Proof.Machine.execSmerge u s
  | .spart u => Sys2Proof.Machine.execSpart u s
  | .sclose u => Sys2Proof.Machine.execSclose u s
  | .tctl x => Sys2Proof.Machine.execTctl x s
  | .tctlR x => Sys2Proof.Machine.execTctlR x s
  | .tld x => Sys2Proof.Machine.execTld x s
  | .tst x => Sys2Proof.Machine.execTst x s
  | .tzero x => Sys2Proof.Machine.execTzero x s
  | .tmma x => Sys2Proof.Machine.execTmma x s
  | .tmmas x => Sys2Proof.Machine.execTmmas x s
  | .tmmacb x => Sys2Proof.Machine.execTmmacb x s
  | .tmmasp x => Sys2Proof.Machine.execTmmasp x s
  | .tcvt x => Sys2Proof.Machine.execTcvt x s
  | .tmov x => Sys2Proof.Machine.execTmov x s
  | .tew x => Sys2Proof.Machine.execTew x s
  | .mbar x => Sys2Proof.Machine.execMbar x s
  | .madd x => Sys2Proof.Machine.execMadd x s
  | .mmovi x => Sys2Proof.Machine.execMmovi x s
  | .mbr x => Sys2Proof.Machine.execMbr x s
  | .mloop x => Sys2Proof.Machine.execMloop x s
  | .mend x => Sys2Proof.Machine.execMend x s
  | .mfrom x => Sys2Proof.Machine.execMfrom x s
  | .fst m => Sys2Proof.Machine.execFst m s
  | .fld m => Sys2Proof.Machine.execFld m s
  | .fatom m => Sys2Proof.Machine.execFatom m s
  | .fflag m => Sys2Proof.Machine.execFflag m s
  | .ffence u => Sys2Proof.Machine.execFfence u s
  | .blstat u => Sys2Proof.Machine.execBlstat u s
  | .rdsr u => Sys2Proof.Machine.execRdsr u s
  | .wrsr u => Sys2Proof.Machine.execWrsr u s
  | .tret u => Sys2Proof.Machine.execTret u s
  | .tretMig u => Sys2Proof.Machine.execTretMig u s
  | .tlbinv u => Sys2Proof.Machine.execTlbinv u s
  | .tlbinvAll u => Sys2Proof.Machine.execTlbinvAll u s
  | .pgclass m => Sys2Proof.Machine.execPgclass m s
  | .cachewb m => Sys2Proof.Machine.execCachewb m s
  | .cachewbPg m => Sys2Proof.Machine.execCachewbPg m s
  | .halt u => Sys2Proof.Machine.execHalt u s
  | .pageWalkDone core port va => Sys2Proof.Machine.execPageWalkDone core port va s
  | .accessPerformed id => Sys2Proof.Machine.execAccessPerformed id s
  | .storeQueueDrain core idx => Sys2Proof.Machine.execStoreQueueDrain core idx s
  | .mwaitWake w lane => Sys2Proof.Machine.execMwaitWake w lane s
  | .mwaitTimeout w lane => Sys2Proof.Machine.execMwaitTimeout w lane s
  | .fenceScTick w => Sys2Proof.Machine.execFenceScTick w s
  | .sleepDeadline w lane => Sys2Proof.Machine.execSleepDeadline w lane s
  | .runStart core quad => Sys2Proof.Machine.execRunStart core quad s
  | .parentUnwind w => Sys2Proof.Machine.execParentUnwind w s
  | .launchSlotGo port slot prio => Sys2Proof.Machine.execLaunchSlotGo port slot prio s
  | .lsresRead port slot => Sys2Proof.Machine.execLsresRead port slot s
  | .launchAccept port slot => Sys2Proof.Machine.execLaunchAccept port slot s
  | .launchComplete lid => Sys2Proof.Machine.execLaunchComplete lid s
  | .lwaitRelease w lane => Sys2Proof.Machine.execLwaitRelease w lane s
  | .blockPlace => Sys2Proof.Machine.execBlockPlace s
  | .launchReserving lid => Sys2Proof.Machine.execLaunchReserving lid s
  | .blockStart b => Sys2Proof.Machine.execBlockStart b s
  | .waveContextFree w => Sys2Proof.Machine.execWaveContextFree w s
  | .blockEnd b => Sys2Proof.Machine.execBlockEnd b s
  | .blockRetire b => Sys2Proof.Machine.execBlockRetire b s
  | .waveSave w => Sys2Proof.Machine.execWaveSave w s
  | .waveResume w core => Sys2Proof.Machine.execWaveResume w core s
  | .binTimerSeal core bin => Sys2Proof.Machine.execBinTimerSeal core bin s
  | .binStart core bin => Sys2Proof.Machine.execBinStart core bin s
  | .binOffer core bin => Sys2Proof.Machine.execBinOffer core bin s
  | .fetchwAnswer core => Sys2Proof.Machine.execFetchwAnswer core s
  | .heldCommandSchedule cmd => Sys2Proof.Machine.execHeldCommandSchedule cmd s
  | .tcopy cmd => Sys2Proof.Machine.execTcopy cmd s
  | .fill cmd => Sys2Proof.Machine.execFill cmd s
  | .ccopy cmd => Sys2Proof.Machine.execCcopy cmd s
  | .rgather cmd => Sys2Proof.Machine.execRgather cmd s
  | .fput cmd => Sys2Proof.Machine.execFput cmd s
  | .collAllred cmd => Sys2Proof.Machine.execCollAllred cmd s
  | .collGather cmd => Sys2Proof.Machine.execCollGather cmd s
  | .collBcast cmd => Sys2Proof.Machine.execCollBcast cmd s
  | .collMark cmd => Sys2Proof.Machine.execCollMark cmd s
  | .commandComplete cmd => Sys2Proof.Machine.execCommandComplete cmd s
  | .waitDeadlineLate w lane => Sys2Proof.Machine.execWaitDeadlineLate w lane s
  | .tileOpComplete b => Sys2Proof.Machine.execTileOpComplete b s
  | .streamOpComplete w => Sys2Proof.Machine.execStreamOpComplete w s
  | .homeAcceptBundle src => Sys2Proof.Machine.execHomeAcceptBundle src s
  | .bundleReoffer id => Sys2Proof.Machine.execBundleReoffer id s
  | .sectionStart lcore => Sys2Proof.Machine.execSectionStart lcore s
  | .sectionResume lcore w => Sys2Proof.Machine.execSectionResume lcore w s
  | .sectionOverrun w => Sys2Proof.Machine.execSectionOverrun w s
  | .replyArrive src => Sys2Proof.Machine.execReplyArrive src s
  | .shwaitLate w lane => Sys2Proof.Machine.execShwaitLate w lane s
  | .homeLoss lcore => Sys2Proof.Machine.execHomeLoss lcore s
  | .homeTableWrite global idx entry => Sys2Proof.Machine.execHomeTableWrite global idx entry s
  | .fabricPacketArrive src => Sys2Proof.Machine.execFabricPacketArrive src s
  | .fabricAck id res => Sys2Proof.Machine.execFabricAck id res s
  | .orderedFlagApply idx => Sys2Proof.Machine.execOrderedFlagApply idx s
  | .flitCrcFail flit => Sys2Proof.Machine.execFlitCrcFail flit s
  | .linkFail link => Sys2Proof.Machine.execLinkFail link s
  | .collContributionArrive c => Sys2Proof.Machine.execCollContributionArrive c s
  | .collResultArrive r => Sys2Proof.Machine.execCollResultArrive r s
  | .memberDeclareDead blend member => Sys2Proof.Machine.execMemberDeclareDead blend member s
  | .spareJoin blend slot pkg => Sys2Proof.Machine.execSpareJoin blend slot pkg s
  | .spareLive blend slot => Sys2Proof.Machine.execSpareLive blend slot s
  | .uncorrectableError e => Sys2Proof.Machine.execUncorrectableError e s
  | .firmwareDecision cluster ds => Sys2Proof.Machine.execFirmwareDecision cluster ds s
  | .decisionDefault cluster => Sys2Proof.Machine.execDecisionDefault cluster s
  | .timingReplay core quad => Sys2Proof.Machine.execTimingReplay core quad s
  | .firmwarePageResume port page leaf => Sys2Proof.Machine.execFirmwarePageResume port page leaf s
  | .firmwareDeliverFault port page => Sys2Proof.Machine.execFirmwareDeliverFault port page s
  | .setSamplingExponent core k => Sys2Proof.Machine.execSetSamplingExponent core k s
  | .setBlockWindow core win => Sys2Proof.Machine.execSetBlockWindow core win s
  | .physicalAccess a => Sys2Proof.Machine.execPhysicalAccess a s
  | .hostApertureRead port off n => Sys2Proof.Machine.execHostApertureRead port off n s
  | .hostApertureWrite port off bytes => Sys2Proof.Machine.execHostApertureWrite port off bytes s
  | .functionLevelReset port => Sys2Proof.Machine.execFunctionLevelReset port s
  | .brkrel port => Sys2Proof.Machine.execBrkrel port s
  | .registerWrite r value => Sys2Proof.Machine.execRegisterWrite r value s
  | .powerWindow watts => Sys2Proof.Machine.execPowerWindow watts s
  | .thermalTrip => Sys2Proof.Machine.execThermalTrip s
  | .thermalShutdown => Sys2Proof.Machine.execThermalShutdown s
  | .powerGood => Sys2Proof.Machine.execPowerGood s
  | .fuseRead f => Sys2Proof.Machine.execFuseRead f s
  | .sramRepairTest failed dead => Sys2Proof.Machine.execSramRepairTest failed dead s
  | .memoryTraining ok => Sys2Proof.Machine.execMemoryTraining ok s
  | .firmwareAuthentication flash => Sys2Proof.Machine.execFirmwareAuthentication flash s
  | .fabricLinkTraining linkUp required => Sys2Proof.Machine.execFabricLinkTraining linkUp required s
  | .wakeUpNoStatedCause w lane => Sys2Proof.Machine.execWakeUpNoStatedCause w lane s
  | .reservationHeld1024Clk w lane => Sys2Proof.Machine.execReservationHeld1024Clk w lane s
  | .firmwareUnfreeze limit => Sys2Proof.Machine.execFirmwareUnfreeze limit s
  | .packageReset => Sys2Proof.Machine.execPackageReset s
  | .unitRetirement core mask => Sys2Proof.Machine.execUnitRetirement core mask s
  | .privilegedLaunchSubmit port addr prio => Sys2Proof.Machine.execPrivilegedLaunchSubmit port addr prio s

end Sys2Proof.Machine
end

