-- ==== Sys2Proof/Machine/Step.lean ====
section
/-!
DEFINITION. One step: the agent that moves next (log entry 1) issues the word it fetches, or an event row happens.
-/
namespace Sys2Proof.Machine

/-- One step of the package. -/
def step (s : State) : Host.Outcome State Fault Refusal :=
  match s.choose with
  | .run i s' => exec i s'
  | .done o => o

/-- The state with an instruction loaded where the next step fetches (log entry 2). -/
def State.withFetchWord (s : State) (nbits w : Nat) : State := s.loaded (BitVec.ofNat 64 (w % 2 ^ nbits))

end Sys2Proof.Machine
end

