-- ==== Sys2Proof/WellFormed.lean ====
section
/-!
DEFINITION. Which terms of `Instr` stand for a step of the spec: an instruction row with fields its table accepts (R29,
R30, R36, R39, R41 to R44), an event row with units that exist (R11).
-/
namespace Sys2Proof

/-- The units an event row names exist (Table 1.2). -/
def Instr.unitsOk : Instr → Bool
  | .pageWalkDone core port _ => decide (core < 0x140) && decide (port < 2)
  | .storeQueueDrain core _ | .binTimerSeal core _ | .binStart core _ | .binOffer core _ | .fetchwAnswer core
  | .setSamplingExponent core _ | .setBlockWindow core _ | .unitRetirement core _ | .waveResume _ core =>
    decide (core < 256)
  | .runStart core _ | .timingReplay core _ => decide (core < 0x140)
  | .launchSlotGo port slot _ | .lsresRead port slot | .launchAccept port slot => decide (port < 2) && decide (slot < 64)
  | .sectionStart lcore | .sectionResume lcore _ | .homeLoss lcore => decide (lcore < 64)
  | .homeTableWrite global idx _ => decide (idx < if global then 4096 else 64)
  | .firmwareDecision cluster _ | .decisionDefault cluster => decide (cluster < 32)
  | .firmwarePageResume port _ _ | .firmwareDeliverFault port _ | .hostApertureRead port _ _ | .hostApertureWrite port _ _
  | .functionLevelReset port | .brkrel port | .privilegedLaunchSubmit port _ _ => decide (port < 2)
  | .linkFail link | .flitCrcFail ⟨link, _⟩ => decide (link < 36)
  | _ => true

/-- The term is a step of the spec. -/
def Instr.wellFormed (i : Instr) : Bool :=
  i.shape.legal && i.shape.guard && i.unitsOk &&
    match i with
    | .pairedWord p => pairOk p
    | _ => true

/-- A row that is a word of the instruction set, not an event. -/
def Instr.isWord (i : Instr) : Bool := i.opcode != 0x400

end Sys2Proof
end

