-- ==== Sys2Proof/Safety.lean ====
section
/-!
DEFINITION. The terms the claims are stated in: when a word issues, what a register arithmetic word leaves as it was, and
what every state of a run keeps.
-/
namespace Sys2Proof.Machine

/-! ### A word that issues -/

/-- No access in flight has been passed by a later one across a narrow fence (R198). -/
def State.unpassed (s : State) : Bool := s.inflight.all fun a => a.passed == 0

/-- The word issues for the group of `c` (R48, R54, R29, R33, R85): it is that wave's turn, its run is open, the word's
feature is present, its privilege held, its registers declared, its latches live and none of its registers the
destination of an operation in flight; no `push` of the group waits for its answer (R288); no abort of the block's region waits
for the end of the run (R237), and no access is owed to the block (R198). -/
def State.issues (s : State) (i : Instr) (c : Ctx) : Bool :=
  decide (s.turn = .wave c.u) && decide (s.wave c.u = some c.w) && decide (c.w.run = some c.mask) && !s.lacks c.w i &&
    !i.privileged ((fget s.launches c.w.lid).any fun l => l.priv && c.w.sect.isNone) (c.lead.any fun (_, t) => t.tm) &&
    !(c.w.sect.isNone && (outOfRange c.w.vlim i.shape.vr || outOfRange c.w.slim i.shape.sr)) && decide (c.stale i.shape.lat = 0) &&
    !(s.pendingReg c i.shape.vr || c.w.pendingS i.shape.sr || s.awaits c i) && c.w.unwind.isNone && s.unpassed

/-- A thread of a resident wave. -/
def State.lane (s : State) (u l : Nat) : Option Thread := (s.wave u).bind fun w => w.th l

/-- The thread `th` is lane `l` of the issue group. -/
def Ctx.has (c : Ctx) (l : Nat) (th : Thread) : Prop := inMask c.mask l = true ∧ c.w.th l = some th

/-- Every thread of the group stands past its word and has entered no handler. -/
def Ctx.past (c : Ctx) (t : State) : Prop :=
  ∀ l th, c.has l th → ∃ th', t.lane c.u l = some th' ∧ th'.pc = pc56 (th.pc + 8) ∧ th'.tm = th.tm

/-! ### What register arithmetic leaves as it was -/

/-- A thread without what a register arithmetic word may write: its registers, its latches, its flags, its place. -/
def Thread.rest (t : Thread) : Thread :=
  { t with pc := 0, v := [], qtag := [], p := 0, e := [], lat := [], latv := 0, fflags := 0, yd := false, resume := 0 }

/-- A wave without what a register arithmetic word may write. -/
def Wave.rest (w : Wave) : Wave := { w with threads := [], s := [], run := none, since := 0, yielded := false, late := (0, 0) }

/-- The registers a word writes: vector registers, predicates, uniform registers, lees registers, whether it may set flags, and
the latch. -/
structure Dest where
  v : List Nat
  p : List Nat
  s : List Nat
  e : List Nat
  flags : Bool
  l : List (BitVec 2)

/-- Nothing. -/
def Dest.none : Dest := ⟨[], [], [], [], false, []⟩
/-- The vector destination and the latch of a form F word (R32). -/
def Dest.vec (f : FOps) (flags : Bool) : Dest :=
  { Dest.none with v := if f.w then [] else [f.d.toNat], flags := flags, l := if f.l = 0 then [] else [f.l] }
/-- So many vector registers from the one field D names. -/
def Dest.span (f : FOps) (n : Nat) (flags : Bool) : Dest :=
  if n ≤ 1 then Dest.vec f flags else { Dest.none with v := (List.range n).map fun i => f.d.toNat + i, flags := flags }
/-- A predicate. -/
def Dest.pred (f : FOps) (flags : Bool) : Dest := { Dest.none with p := [f.d.toNat], flags := flags }
/-- A uniform register or pair. -/
def Dest.uni (d n : Nat) (flags : Bool) : Dest := { Dest.none with s := (List.range n).map fun i => d + i, flags := flags }

/-- What a thread keeps: every register but the destinations, and its flags where the word sets none. -/
def Thread.keeps (a b : Thread) (d : Dest) : Prop :=
  b.rest = a.rest ∧ (∀ r, r ∉ d.v → b.getV r = a.getV r ∧ (r % 4 = 0 → (∀ k, k < 4 → r + k ∉ d.v) → b.quadTag r = a.quadTag r)) ∧
    (∀ k, k ∉ d.p → b.getP k = a.getP k) ∧ (∀ k, k ∉ d.e → rget b.e k = rget a.e k) ∧ (d.flags = false → b.fflags = a.fflags)

/-- The latches as a run carries them on (R32, R33): the one written is live, every other one keeps its value, live or not. -/
def Thread.carries (a b : Thread) (d : Dest) : Prop :=
  (∀ k : BitVec 2, k ∉ d.l → b.latLive k = a.latLive k ∧ rget b.lat k.toNat = rget a.lat k.toNat) ∧
    ∀ k ∈ d.l, b.latLive k = true

/-- A register arithmetic word has run: from `s`, `t` differs in the issuing wave alone; there the threads outside the
group are as they were, those of the group stand past the word, keep what the word does not write and satisfy `val`
(before, after); the run goes on with the latches it carries, or ended and dropped them (R31, R33). -/
def Ran (s t : State) (c : Ctx) (d : Dest) (val : Nat → Thread → Thread → Prop) : Prop :=
  ({ t with waves := [] } : State) = { s with waves := [] } ∧ (∀ v, v ≠ c.u → t.wave v = s.wave v) ∧
    ∃ w, t.wave c.u = some w ∧ w.rest = c.w.rest ∧ (∀ r, r ∉ d.s → w.getS r = c.w.getS r) ∧
      (∀ l, inMask c.mask l = false → w.th l = c.w.th l) ∧
      ∀ l th, c.has l th → ∃ th', w.th l = some th' ∧ th'.pc = pc56 (th.pc + 8) ∧ th.keeps th' d ∧ val l th th' ∧
        ((w.run = some c.mask ∧ th.carries th' d) ∨ (w.run = none ∧ th'.latv = 0))

/-- The word's result in a thread: in its vector register unless W = 1, and in the latch L names, which is live while the run goes
on (R32; `Ran`). -/
def gives (f : FOps) (x : Word) (th' : Thread) : Prop :=
  (f.w = false → th'.getV f.d.toNat = x) ∧ (f.l ≠ 0 → th'.latLive f.l = true → rget th'.lat f.l.toNat = x)

/-! ### A word that ends its run (R31) -/

/-- A thread past a word that ended its run: no longer deferred, without latches (R33). -/
def Thread.done (th : Thread) : Thread :=
  { th with pc := pc56 (th.pc + 8), yd := false, resume := 0, lat := [], latv := 0 }

/-- The issuing wave between its runs. -/
def Ctx.ended (c : Ctx) (clk : DWord) : Wave := { c.w with run := none, since := clk, yielded := false, late := (0, 0) }

/-- Everything but the waves. -/
def State.besides (s : State) : State := { s with waves := [] }
/-- Everything of a wave but its threads. -/
def Wave.besides (w : Wave) : Wave := { w with threads := [] }

/-- A word that ends its run has had its effect: the package outside its waves is as `f` says, the issuing wave outside
its threads as `gw` says, the threads of the group as `g` says; all other waves and threads are as they were. -/
def Ends (s t : State) (c : Ctx) (f : State → State) (gw : Wave → Wave) (g : Nat → Thread → Thread) : Prop :=
  t.besides = (f s).besides ∧ (∀ v, v ≠ c.u → t.wave v = s.wave v) ∧
    ∃ w, t.wave c.u = some w ∧ w.besides = (gw (c.ended s.clk)).besides ∧
      (∀ l, inMask c.mask l = false → w.th l = c.w.th l) ∧ ∀ l th, c.has l th → w.th l = some (g l th.done)

/-- A word with its condition on the state and the operands, and its effect outside the waves, on its wave, and on each
thread of its group (which stands past the word already). -/
structure EndRow where
  i : Instr
  ok : State → Ctx → Prop := fun _ _ => True
  f : Ctx → State → State := fun _ s => s
  gw : State → Ctx → Wave → Wave := fun _ _ w => w
  g : State → Ctx → Nat → Thread → Thread := fun _ _ _ th => th

/-- Wherever the word issues and its condition holds, it answers a next state with its effect, and with nothing else. -/
def EndRow.completes (r : EndRow) : Prop :=
  ∀ s c, s.issues r.i c = true → r.ok s c → ∃ t, exec r.i s = .next t ∧ Ends s t c (r.f c) (r.gw s c) (r.g s c)

/-- Faults of the group's threads enter the launch's handler (R404, R405): it has one, no thread is in it already, the
wave runs no shipped section and stands in no doomed region. -/
def State.traps (s : State) (c : Ctx) : Prop :=
  c.w.sect = none ∧ s.trapHandler c.w ≠ 0 ∧ (∀ l th, c.has l th → th.tm = false) ∧
    (c.w.reg.any fun r => r.doomed) = false ∧ ((s.blockRegion c.w).any fun r => r.doomed) = false

/-- A thread in the handler (R404): the registers of the trap, TM, and PC at the handler. `th` stands past the word. -/
def Thread.entered (th : Thread) (traph : DWord) (code : Nat) (addr : DWord) (det : Nat) (ret : DWord) : Thread :=
  { th with
    tcause := BitVec.ofNat 32 (code % 256), tpc := ret, taddr := addr, tdet := BitVec.ofNat 32 (det % 256), tlatv := 0
    tneed := none, tm := true, pc := traph, wait := .none }

/-! ### Invariants -/

/-- Memory is in its canonical form. -/
def State.memOk (s : State) : Prop := Memory.wf s.mem = true

end Sys2Proof.Machine
end

