-- ==== Sys2Proof/Certificates/Slice0/Arithmetic.lean ====
section
/-!
DEFINITION. Register arithmetic as the claims state it: the rows of Tables 3.6, 4.2, 4.3, 4.6 and 4.7, each with the
value it gives.
-/
namespace Sys2Proof.Claims
open Sys2Proof.Machine

/-- A row of register arithmetic completes: wherever the word issues and the operands meet `ok`, it answers a next state
in which only `d` has changed and every thread satisfies `val`. -/
def Completes (i : Instr) (d : Dest) (ok : Ctx → Prop) (val : Ctx → Nat → Thread → Thread → Prop) : Prop :=
  ∀ s c, s.issues i c = true → ok c → ∃ t, exec i s = .next t ∧ Ran s t c d (val c)

/-- Any operands. -/
def anyOps (_ : Ctx) : Prop := True

/-- No thread of the group has an abandoned f32 operand (R63). -/
def noneAbandoned (g : Thread → List Word) (c : Ctx) : Prop := ∀ x ∈ c.w.active c.mask, (g x.2).any isAbandoned = false

/-! ### Table 4.2 -/

/-- The rows that act on every element: element j of the result, from those of a, b and c. -/
def elementRows (f : FOps) : List (Instr × (Nat → Nat → Nat → Nat)) :=
  let w := wdBits f.mod
  let un := viUN f.mod
  let sat := viSAT f.mod
  let i := readE un w
  [(.vadd f, fun a b _ => fit un sat w (i a + i b)),
   (.vsub f, fun a b _ => fit un sat w (i a - i b)),
   (.vmul f, fun a b _ => fit un sat w (i a * i b)),
   (.vmad f, fun a b c => fit un sat w (i a * i b + i c)),
   (.vmulh f, fun a b _ => wrap (i a * i b / (2 ^ w : Nat)) w),
   (.vabs f, fun a _ _ => fit un sat w (if i a < 0 then -i a else i a)),
   (.vmin f, fun a b _ => fit un sat w (if i a ≤ i b then i a else i b)),
   (.vmax f, fun a b _ => fit un sat w (if i a ≤ i b then i b else i a)),
   (.vshl f, fun a n _ => if w ≤ n then 0 else a * 2 ^ n % 2 ^ w),
   (.vshr f, fun a n _ => if w ≤ n then 0 else a / 2 ^ n),
   (.vsra f, fun a n _ => wrap (signExt a w / (2 ^ min n (w - 1) : Nat)) w),
   (.vrot f, fun a n _ => (a * 2 ^ (n % w) + a / 2 ^ (w - n % w)) % 2 ^ w),
   (.vclz f, fun a _ _ => w - bitLen a),
   (.vpopc f, fun a _ _ => ((List.range w).filter fun k => a.testBit k).length),
   (.vbrev f, fun a _ _ => ((List.range w).map fun k => if a.testBit (w - 1 - k) then 2 ^ k else 0).sum)]

/-- The rows that act on whole registers. -/
def wordRows (f : FOps) : List (Instr × (Word → Word → Word → Word)) :=
  let un := viUN f.mod
  [(.vand f, fun a b _ => a &&& b),
   (.vor f, fun a b _ => a ||| b),
   (.vxor f, fun a b _ => a ^^^ b),
   (.vandn f, fun a b _ => a &&& ~~~b),
   (.vmov f, fun a _ _ => a),
   (.vlea f, fun a b _ => a + b * BitVec.ofNat 32 (2 ^ bfld f.mod 3 0)),
   (.vdiv f, fun a b _ =>
     if b = 0 then BitVec.allOnes 32 else if un then a / b
     else if viSAT f.mod ∧ a = BitVec.intMin 32 ∧ b = BitVec.allOnes 32 then BitVec.intMax 32 else a.sdiv b),
   (.vrem f, fun a b _ => if b = 0 then a else if un then a % b else a.srem b),
   (.vaddc f, fun a b c =>
     let sum := a.toNat + b.toNat + c.toNat % 2
     BitVec.ofNat 32 (if bfld f.mod 3 0 = 1 then sum / 2 ^ 32 else sum)),
   (.vdot4 f, viDot4 f.mod),
   (.vbfe f, viBfe f.mod),
   (.vbfi f, viBfi f.mod)]

/-- Operands a, b and c of a vector integer word in a thread (R24, R88). -/
def opA (f : FOps) (t : Thread) : Word := t.src f.a
def opB (f : FOps) (t : Thread) : Word := viB f t
def opC (f : FOps) (t : Thread) : Word := t.srcC f.bc

/-! ### Tables 4.3 and 3.6: the result and flags of a thread, and the operands tested for the abandoned pattern -/

/-- Float rows: the f32 operands tested, and the result with its flags. -/
def floatRows (f : FOps) : List (Instr × (Thread → List Word) × (Thread → Word × Nat)) :=
  let ft := ftFmt f.mod
  let m := vfMode f.mod
  let a := fun (t : Thread) => t.src f.a
  let b := fun (t : Thread) => t.srcBf f.bc
  let c := fun (t : Thread) => t.srcC f.bc
  let two := fun (g : Nat → Nat → Res) => ((fun (t : Thread) => f32Ops ft [a t, b t]),
    fun (t : Thread) => mapFloat ft (fun x y _ => g x y) (a t) (b t) 0)
  let one := fun (g : Word → Word × Nat) => ((fun (t : Thread) => [a t]), fun (t : Thread) => g (a t))
  [(.fadd f, two (fAdd ft m)), (.fsub f, two (fSub ft m)), (.fmul f, two (fMul ft m)), (.fdiv f, two (fDiv ft m)),
   (.fmin f, two (fMinMax ft false (bfld f.mod 2 0 == 1))), (.fmax f, two (fMinMax ft true (bfld f.mod 2 0 == 1))),
   (.ffma f, (fun t => f32Ops ft [a t, b t, c t]), fun t => mapFloat ft (fFma ft m) (a t) (b t) (c t)),
   (.fsqrt f, one fun x => resWord (fSqrt .f32 m x.toNat)),
   (.frcp f, one fun x => resWord (fRcp (Config.specialRaw 0 x) x.toNat)),
   (.frsq f, one fun x => resWord (fRsq (Config.specialRaw 1 x) x.toNat)),
   (.fexp2 f, one fun x => resWord (fExp2 (Config.specialRaw 2 x) x.toNat)),
   (.flog2 f, one fun x => resWord (fLog2 (Config.specialRaw 3 x) x.toNat)),
   (.fsin f, one fun x => resWord (fTrig false (Config.specialRaw 4 x) x.toNat)),
   (.fcos f, one fun x => resWord (fTrig true (Config.specialRaw 5 x) x.toNat)),
   (.fclass f, one fun x => (BitVec.ofNat 32 (fClass .f32 x.toNat), 0)),
   (.fscale f, (fun t => [a t]), fun t => resWord (fScale .f32 m (a t).toNat (t.srcB f.bc).toInt)),
   (.fdot2 f, (fun t => [c t]), fun t => resWord (fDot2 ft m (elem (a t).toNat 16 0) (elem (t.srcB f.bc).toNat 16 0)
     (elem (a t).toNat 16 1) (elem (t.srcB f.bc).toNat 16 1) (c t).toNat))]

/-- Conversion rows with a result of one register. -/
def conversionRows (f : FOps) : List (Instr × (Thread → List Word) × (Thread → Word × Nat)) :=
  let fr := cvFr f
  let tgt := cvTo f
  let m := cvMode f
  let a := fun (t : Thread) => t.src f.a
  let none_ := fun (_ : Thread) => ([] : List Word)
  [(.cvt f, (fun t => if fr = .f32 then [BitVec.ofNat 32 (elem (a t).toNat fr.width (cvLow f))] else []), fun t =>
     let r := convert (elem (a t).toNat fr.width (cvLow f)) fr tgt m
     (place tgt r.1, r.2)),
   (.frnd f, (fun t => f32Ops fr [a t]), fun t => mapFloat fr (fun x _ _ => fRnd fr m (cvLow f == 1) x) (a t) 0 0),
   (.scget f, (fun t => [a t]), fun t => resWord (scaleOf tgt (cvLow f == 1) (a t).toNat)),
   (.scapply f, (fun t => [a t]), fun t =>
     resWord (scaleBy m (cvLow f % 2 == 1) (a t).toNat (elem (t.srcB f.bc).toNat 8 (cvLow f / 2)))),
   (.leesrd f, none_, fun t => (rget t.e (cvLow f), 0)),
   (.cbenc f, none_, fun t =>
     let r := cbEncode fr ((List.range 8).map fun j => elem (spanVal t f.a 4) 16 j) (elem (t.srcB f.bc).toNat 8 (cvLow f / 2))
     (BitVec.ofNat 32 r.1, r.2))]

/-! ### Table 4.6 -/

/-- Uniform integer rows: the result modulo 2^w, from w and the operands a, b, c. -/
def uniformRows (u : UOps) : List (Instr × (Nat → Nat → Nat → Nat → Int)) :=
  let un := uUN u
  let i := fun (w x : Nat) => readE un w x
  [(.sadd u, fun _ a b _ => a + b), (.ssub u, fun _ a b _ => a - b), (.smul u, fun _ a b _ => a * b),
   (.smad u, fun _ a b c => a * b + c),
   (.smulh u, fun w a b _ => i w a * i w b / (2 ^ w : Nat)),
   (.sdiv u, fun w a b _ =>
     if b = 0 then (if uSUB u = 1 then (a : Int) else -1)
     else if uSUB u = 1 then Int.tmod (i w a) (i w b) else Int.tdiv (i w a) (i w b)),
   (.smin u, fun w a b _ => if i w a ≤ i w b then a else b), (.smax u, fun w a b _ => if i w a ≤ i w b then b else a),
   (.sand u, fun _ a b _ => ((a &&& b : Nat) : Int)), (.sor u, fun _ a b _ => ((a ||| b : Nat) : Int)),
   (.sxor u, fun _ a b _ => ((a ^^^ b : Nat) : Int)),
   (.sshl u, fun w a b _ => if w ≤ b then 0 else ((a * 2 ^ b : Nat) : Int)),
   (.sshr u, fun w a b _ => if w ≤ b then 0 else ((a / 2 ^ b : Nat) : Int)),
   (.ssra u, fun w a b _ => signExt a w / (2 ^ min b (w - 1) : Nat)),
   (.sclz u, fun w a _ _ => ((w - bitLen a : Nat) : Int)),
   (.spopc u, fun w a _ _ => ((((List.range w).filter fun k => a.testBit k).length : Nat) : Int)),
   (.scmp u, fun w a b _ => if cmpInt (uSUB u) (i w a) (i w b) then 1 else 0),
   (.smov u, fun _ a _ _ => (a : Int))]

/-- Uniform float rows: the operands, all tested for the abandoned pattern, and the result with its flags. -/
def uniformFloatRows (u : UOps) : List (Instr × (Wave → List Word) × (List Word → Word × Nat)) :=
  let m := RMode.ofCode (uRM u)
  let a := fun (w : Wave) => w.getS u.a.toNat
  let n := fun (xs : List Word) (k : Nat) => (xs.getD k 0).toNat
  [(.sfadd u, (fun w => [a w, w.srcUf u]), fun xs => resWord (fAdd .f32 m (n xs 0) (n xs 1))),
   (.sfmul u, (fun w => [a w, w.srcUf u]), fun xs => resWord (fMul .f32 m (n xs 0) (n xs 1))),
   (.sffma u, (fun w => [a w, w.srcUf u, w.getS u.bc.numC]), fun xs => resWord (fFma .f32 m (n xs 0) (n xs 1) (n xs 2)))]

/-! ### Table 4.7 -/

/-- The lane a `shfl` reads (R100): none where its own value stays. -/
def shuffleFrom (f : FOps) (l b : Nat) : Option Nat :=
  match lnSub f with
  | 0 => some (b % 32)
  | 1 => if b ≤ l then some (l - b) else none
  | 2 => if l + b ≤ 31 then some (l + b) else none
  | _ => some (l ^^^ (b % 32))

/-- The threads of the group, as they were before the word. -/
def group (c : Ctx) : List (Nat × Thread) := c.w.active c.mask

/-- Rows whose result in a lane depends on the whole group. -/
def laneRows (f : FOps) : List (Instr × (Ctx → Nat → Thread → Word)) :=
  [(.shfl f, fun c l th => match shuffleFrom f l (th.srcB f.bc).toNat with
     | some j => if inMask c.mask j then (match c.w.th j with
         | some u => u.src f.a
         | none => th.src f.a) else th.src f.a
     | none => th.src f.a),
   (.voteBallot f, fun c _ _ => maskOf (((group c).filter fun x => x.2.getP f.a.num).map fun x => x.1)),
   (.amask f, fun c _ _ => maskOf ((group c).map fun x => x.1)),
   (.s2v f, fun c _ _ => c.w.getS f.a.num)]

/-- Rows that write a predicate. -/
def predicateRows (f : FOps) : List (Instr × (Ctx → Thread → Bool)) :=
  let a := fun (t : Thread) => t.getP f.a.num
  let b := fun (t : Thread) => t.getP f.bc.numB
  let ps := fun (c : Ctx) => (group c).map fun x => a x.2
  [(.pand f, fun _ t => a t && b t), (.por f, fun _ t => a t || b t), (.pxor f, fun _ t => a t != b t), (.pnot f, fun _ t => !a t),
   (.vote f, fun c _ => match lnSub f with
     | 0 => (ps c).all id
     | 1 => (ps c).any id
     | _ => (ps c).all id || (ps c).all not),
   (.vcmp f, fun _ t => cmpInt (bfld f.mod 3 0) (readE (viUN f.mod) 32 (opA f t).toNat) (readE (viUN f.mod) 32 (opB f t).toNat))]

/-- The predicate, one of eight, holds the value; p0 stays true (R6, R90). -/
def setsP (f : FOps) (b : Bool) (th' : Thread) : Prop := f.d.toNat < 8 → th'.getP f.d.toNat = (f.d == 0 || b)

end Sys2Proof.Claims
end

