-- ==== Sys2Proof/Certificates/Slice0/Control.lean ====
section
/-!
DEFINITION. The control words as the claims state them: the rows of spec/05_control_flow.md, each with its condition and
its effect.
-/
namespace Sys2Proof.Claims
open Sys2Proof.Machine

/-- Every thread of the group whose guard holds meets `p` (R37). -/
def Guarded (f : FOps) (c : Ctx) (p : Thread → Prop) : Prop := ∀ l th, c.has l th → th.guard f.g = true → p th

/-- A thread at an address where its guard holds. -/
def branches (f : FOps) (tgt : Thread → DWord) (th : Thread) : Thread := if th.guard f.g then { th with pc := tgt th } else th

/-- The link pair, the depth and the place of a taken call (R114): `th` stands past the call. -/
def calls (f : FOps) (tgt : Thread → DWord) (th : Thread) : Thread :=
  if th.guard f.g then { (th.setV2 f.d.toNat th.pc) with cd := th.cd + 1, pc := tgt th } else th

/-- R113, R117 to R119, R108: words that move their threads, or defer them. -/
def branchRows (f : FOps) : List EndRow :=
  [{ i := .bra f, g := fun _ c l th => branches f (fun _ => match c.w.th l with | some t0 => target t0.pc f.imm | none => 0) th },
   { i := .sbra f, g := fun _ c l th =>
       if sbraTaken f.mod.toNat (c.w.getS f.a.num)
       then { th with pc := match c.w.th l with | some t0 => target t0.pc f.imm | none => 0 } else th },
   { i := .meet f, g := fun _ c _ th =>
       { th with meet := (⟨target c.pc f.imm, th.cd.toNat, th.ser + 1⟩ :: th.meet).take 8, ser := th.ser + 1 } },
   { i := .meetPop f, g := fun _ _ _ th => { th with meet := th.meet.drop 1 } },
   { i := .sleep f, g := fun s _ _ th => { th with wait := .asleep, deadline := s.clk + f.imm.setWidth 64 } },
   { i := .sleepUntil f, g := fun _ c _ th => { th with wait := .asleep, deadline := c.w.getS2 f.a.num } },
   { i := .yield f, ok := fun _ c => c.w.sect = none, gw := fun _ _ w => { w with yielded := true },
     g := fun _ _ _ th => { th with yd := true } },
   { i := .yield f, ok := fun _ c => c.w.sect.isSome = true },
   { i := .brk f, ok := fun s c => c.w.sect = none ∧ (fget s.launches c.w.lid).any (fun l => l.rc.dbg) = true
     f := fun c s => s.modPort c.w.port fun p => { p with brks := reported ⟨f.imm.toNat, c.u, c.w.ctx, c.w.core, s.clk⟩ p.brks }
     gw := fun _ _ w => { w with brk := some f.imm.toNat } },
   { i := .brk f, ok := fun s c => (fget s.launches c.w.lid).any (fun l => l.rc.dbg) = false }]

/-- R111, R114, R116: transfers through a register, calls and returns that fault in no thread. -/
def transferRows (f : FOps) : List EndRow :=
  let tgt := fun (t : Thread) => t.getV2 f.a.num
  [{ i := .call f, ok := fun _ c => Guarded f c fun th => th.cd ≠ 0xFFFF
     g := fun _ c l th => calls f (fun _ => match c.w.th l with | some t0 => target t0.pc f.imm | none => 0) th },
   { i := .brx f, ok := fun s c => Guarded f c fun th => s.targetFault c.w (tgt th) true = none
     g := fun _ _ _ th => branches f tgt th },
   { i := .callx f, ok := fun s c => Guarded f c fun th => th.cd ≠ 0xFFFF ∧ s.targetFault c.w (tgt th) true = none
     g := fun _ _ _ th => calls f tgt th },
   { i := .ret f, ok := fun s c => Guarded f c fun th => th.cd ≠ 0 ∧ s.targetFault c.w (tgt th) false = none
     g := fun _ _ _ th => if th.guard f.g then
       { th with cd := th.cd - 1, meet := th.meet.filter (fun m => decide (m.depth ≤ (th.cd - 1).toNat)), pc := tgt th }
       else th }]

/-- A thread that has exited (R115). -/
def Thread.left (th : Thread) : Thread := { th with exited := true, wait := .none, mon := none, tm := false }

/-- R115: an exit that leaves a live thread in its wave, in a block none of whose barriers is in use; and the exit of a
thread at depth 0 by `ret` (R114). Loads in flight of the leaving lanes are discarded. -/
def exitRows (f : FOps) : List EndRow :=
  let stays := fun (s : State) (c : Ctx) =>
    c.w.sect = none ∧ (∃ l th, c.w.th l = some th ∧ l < 32 ∧ inMask c.mask l = false ∧ th.exited = false) ∧
      (∀ b, fget s.blocks c.w.blk = some b → b.bars = [])
  let g := fun (_ : State) (_ : Ctx) (_ : Nat) (th : Thread) => Thread.left th
  let gw := fun (_ : State) (c : Ctx) (w : Wave) => { w with
    intr := w.intr.map fun i => { i with held := i.held &&& ~~~c.mask, trapped := i.trapped &&& ~~~c.mask }
    vd := { w.vd with lanes := w.vd.lanes.map fun (l, v) => (l, if inMask c.mask l then { v with st := .idle } else v) } }
  let drop := fun (c : Ctx) (s : State) => ({ s with inflight := (s.exitLanes c.u c.mask).inflight } : State)
  [{ i := .exit f, ok := fun s c => c.mask ≠ 0 ∧ stays s c, f := drop, gw := gw, g := g },
   { i := .ret f, ok := fun s c => c.mask ≠ 0 ∧ stays s c ∧ (∀ l, inMask c.mask l = true → ∃ th, c.has l th) ∧
       ∀ l th, c.has l th → th.guard f.g = true ∧ th.cd = 0 ∧ s.targetFault c.w (th.getV2 f.a.num) false = none
     f := drop, gw := gw, g := g }]

end Sys2Proof.Claims
end

