-- ==== Sys2Proof/Certificates/Slice0/Memory.lean ====
section
/-!
DEFINITION. The memory words as the claims state them (spec/07_memory_access.md; spec/08_atomics_sync_consistency.md):
what their issue puts in flight, and what an access does when it is performed.
-/
namespace Sys2Proof.Claims
open Sys2Proof.Machine

/-! ### Issue -/

/-- The access of a core finds its page in a class that it does not change (R169, R170). -/
def settled (s : State) (coreNo : Nat) (writes : Bool) (e : TlbEntry) : Bool :=
  let pte := s.pteOf e
  e.pteAddr == 0 || !pV pte || match pCLASS pte with
    | 0 => if pOV pte then decide (coreNo < 0x100) && pOWNER pte == coreNo else decide (0x100 ≤ coreNo)
    | 1 => !(writes && pWR pte)
    | _ => true

/-- Every lane whose guard holds passes the checks of R156 at `at_`, in a page it does not reclassify. -/
def Passing (s : State) (c : Ctx) (g : Guard) (cap : Thread → Cap) (at_ : Thread → DWord) (size : Nat) (perms : Thread → Nat)
    (kind : Nat) (writes : Bool) : Prop :=
  ∀ l th, c.has l th → th.guard g = true →
    ∃ e, s.checkAt c.w th (cap th) (at_ th) size (perms th) kind = .ok e ∧ settled s c.w.coreNo writes e = true

/-- Of the cores, L-cores and clusters only the translations, the sampling counters and the hotness records differ. -/
def onlyTraces (s t : State) : Prop :=
  (∀ n, { t.core n with tlb := [], sampCnt := 0, sq := [] } = { s.core n with tlb := [], sampCnt := 0, sq := [] }) ∧
    (∀ n, { t.lcore n with tlb := [] } = { s.lcore n with tlb := [] }) ∧
    ∀ n, { t.cluster n with hot := (s.cluster n).hot } = s.cluster n

/-- The word leaves everything but the accesses in flight, the translation hardware and the sampling counters as it was:
memory, tags, registers; its group stands past it. -/
def OnlyIssues (s t : State) (c : Ctx) : Prop :=
  t.besides = { s.besides with
    cores := t.cores, lcores := t.lcores, clusters := t.clusters, inflight := t.inflight, nextId := t.nextId } ∧
  onlyTraces s t ∧
  (∀ v, v ≠ c.u → t.wave v = s.wave v) ∧
  ∃ w, t.wave c.u = some w ∧ w.besides = (c.ended s.clk).besides ∧ (∀ l, inMask c.mask l = false → w.th l = c.w.th l) ∧
    ∀ l th, c.has l th → ∃ th', w.th l = some th' ∧ { th' with lastPage := none } = { th.done with lastPage := none }

/-- An access issued by the word holds the lane's part. -/
def Launched (s t : State) (c : Ctx) (op : AccOp) (scope : Nat) (x : LaneAcc) : Prop :=
  ∃ a ∈ t.inflight, s.nextId ≤ a.id ∧ a.wave = c.u ∧ a.pc = c.pc ∧ a.op = op ∧ a.scope = scope ∧ x ∈ a.lanes

/-- Accesses are added at the end, and for lanes of the group alone whose guard holds, in ascending lane order (R188). -/
def OnlyAdds (s t : State) (c : Ctx) (g : Guard) : Prop :=
  s.inflight <+: t.inflight ∧ ∀ a ∈ t.inflight, a ∈ s.inflight ∨
    (a.wave = c.u ∧ a.pc = c.pc ∧ (∀ x ∈ a.lanes, ∃ th, c.has x.lane th ∧ th.guard g = true) ∧
      (a.lanes.map fun x => x.lane).Pairwise (· < ·))

/-- An M-form word with one address: size, permissions, kind of translation, whether it writes, its operation and the
value and tag of a lane, and what else has to hold. -/
structure AccRow where
  i : Instr
  m : MOps
  size : Nat
  perms : Thread → Nat
  kind : Nat
  writes : Bool
  op : Wave → Thread → AccOp
  val : Wave → Thread → QWord × Bool := fun _ _ => (0, false)
  ok : State → Ctx → Prop := fun _ _ => True

/-- Outside regions, where every acting lane passes its checks, the word puts one part of an access in flight for each
acting lane, at the address of R155, and does nothing else. -/
def AccRow.completes (r : AccRow) : Prop :=
  ∀ s c, s.issues r.i c = true → s.inRegion c.w = false → r.ok s c →
    Passing s c r.m.g (capOf r.m c.w) (addrOf r.m c.w) r.size r.perms r.kind r.writes →
    ∃ t, exec r.i s = .next t ∧ OnlyIssues s t c ∧ (∀ n, (t.core n).sq = (s.core n).sq) ∧ OnlyAdds s t c r.m.g ∧
      ∀ l th e, c.has l th → th.guard r.m.g = true →
        s.checkAt c.w th (capOf r.m c.w th) (addrOf r.m c.w th) r.size (r.perms th) r.kind = .ok e →
        Launched s t c (r.op c.w th) (scOf r.m)
          ⟨l, addrOf r.m c.w th, e.key (addrOf r.m c.w th).toNat, 0, 0, (r.val c.w th).1, (r.val c.w th).2⟩

/-- No acting lane holds an abandoned f32 operand in a float operation (R63). -/
def clean (m : MOps) (two : Bool) (c : Ctx) : Prop :=
  ∀ l th, c.has l th → th.guard m.g = true → opkFloat (opkA m) = true →
    isAbandoned (th.getV m.data.toNat) = false ∧ (two = true → isAbandoned (th.getV (m.data.toNat + 1)) = false)

/-- The acting lanes name one line (R196). -/
def oneLine (m : MOps) (_ : State) (c : Ctx) : Prop :=
  ∀ l l' th th', c.has l th → c.has l' th' → th.guard m.g = true → th'.guard m.g = true →
    (addrOf m c.w th).toNat / 64 = (addrOf m c.w th').toNat / 64

/-- R178, R179, R194 to R196, R207. A store of scope .wave or .blk on a T-core rests in the store queue instead (below),
unless its pages are SWM. -/
def accessRows (m : MOps) : List AccRow :=
  let n := szBytes (szM m)
  let k := aBytes m
  let d := m.data.toNat
  let rmw := fun (_ : Thread) => pLOAD ||| pSTORE ||| pATOMIC
  [{ i := .ld m, m := m, size := n, perms := fun _ => pLOAD, kind := 0, writes := false
     op := fun _ _ => .load n (szSigned (szM m)) d },
   { i := .st m, m := m, size := n, perms := fun _ => pSTORE, kind := 1, writes := true
     op := fun _ _ => .store n, val := fun _ th => (th.dataOf d n, false)
     ok := fun s c => 2 ≤ scOf m ∨ c.w.sect.isSome = true ∨ ∀ l th e, c.has l th → th.guard m.g = true →
       s.checkAt c.w th (capOf m c.w th) (addrOf m c.w th) n pSTORE 1 = .ok e → e.swm = true },
   { i := .ldc m, m := m, size := 16, perms := fun _ => pLOAD, kind := 3, writes := false
     op := fun _ _ => .ldc d, val := fun w th => (0, (capOf m w th).has pLDCAP) },
   { i := .stc m, m := m, size := 16, perms := fun th => pSTORE ||| (if th.quadTag d then pSTCAP else 0), kind := 4, writes := true
     op := fun _ _ => .stc, val := fun _ th => (th.getV4 d, th.quadTag d) },
   { i := .atom m, m := m, size := k, perms := rmw, kind := 2, writes := true
     op := fun _ _ => .atom (opkA m) k true d, val := fun _ th => (th.dataOf d k, false), ok := fun _ c => clean m false c },
   { i := .red m, m := m, size := k, perms := fun _ => pSTORE ||| pATOMIC, kind := 2, writes := true
     op := fun _ _ => .atom (opkA m) k false d, val := fun _ th => (th.dataOf d k, false), ok := fun _ c => clean m false c },
   { i := .cas m, m := m, size := k, perms := rmw, kind := 2, writes := true
     op := fun _ _ => .cas k d, val := fun _ th => (th.dataOf d (2 * k), false) },
   { i := .lres m, m := m, size := k, perms := fun _ => pLOAD ||| pATOMIC, kind := 0, writes := false
     op := fun _ _ => .lres k d, val := fun _ th => (th.dataOf d k, false), ok := oneLine m },
   { i := .scond m, m := m, size := k, perms := fun _ => pSTORE ||| pATOMIC, kind := 1, writes := true
     op := fun _ _ => .scond k d, val := fun _ th => (th.dataOf d k, false), ok := oneLine m },
   { i := .mon m, m := m, size := k, perms := fun _ => pLOAD, kind := 0, writes := false
     op := fun _ _ => .mon k d, val := fun _ th => (th.dataOf d k, false) }]

/-- R207, R211: the acquire of a `mon` whose lanes have all passed their checks is in flight behind their accesses. -/
def MonitorsAcquire (m : MOps) : Prop :=
  ∀ s c, s.issues (.mon m) c = true → s.inRegion c.w = false → (∃ l th, c.has l th ∧ l < 32 ∧ th.guard m.g = true) →
    Passing s c m.g (capOf m c.w) (addrOf m c.w) (aBytes m) (fun _ => pLOAD) 0 false →
    ∃ t a, exec (.mon m) s = .next t ∧ t.inflight.getLast? = some a ∧ a.wave = c.u ∧ a.op = .fence true false ∧
      a.scope = scOf m ∧ a.lanes = [] ∧
      ∀ l th, c.has l th → l < 32 → th.guard m.g = true → inMask a.mask l = true

/-- A word with two addresses (R193, R195). -/
structure PairRow where
  i : Instr
  size : Nat
  op : AccOp
  val : Thread → QWord
  ok : Ctx → Prop := fun _ => True

/-- As for one address; the first address is checked, then the second. -/
def PairRow.completes (m : MOps) (r : PairRow) : Prop :=
  let perms := pLOAD ||| pSTORE ||| pATOMIC
  let va := fun (c : Ctx) (k : Nat) (th : Thread) => addrAt m c.w th (m.ofs.toNat + k)
  let cap := fun (c : Ctx) (_ : Thread) => c.w.getC m.cap.toNat
  ∀ s c, s.issues r.i c = true → s.inRegion c.w = false → r.ok c →
    Passing s c m.g (cap c) (va c 0) r.size (fun _ => perms) 2 true →
    Passing s c m.g (cap c) (va c 1) r.size (fun _ => perms) 2 true →
    ∃ t, exec r.i s = .next t ∧ OnlyIssues s t c ∧ (∀ n, (t.core n).sq = (s.core n).sq) ∧ OnlyAdds s t c m.g ∧
      ∀ l th e1 e2, c.has l th → th.guard m.g = true →
        s.checkAt c.w th (cap c th) (va c 0 th) r.size perms 2 = .ok e1 →
        s.checkAt c.w th (cap c th) (va c 1 th) r.size perms 2 = .ok e2 →
        Launched s t c r.op (scOf m)
          ⟨l, va c 0 th, e1.key (va c 0 th).toNat, va c 1 th, e2.key (va c 1 th).toNat, r.val th, false⟩

def pairRows (m : MOps) : List PairRow :=
  let k := aBytes m
  let d := m.data.toNat
  [{ i := .dcas m, size := 4, op := .dcas d, val := fun th => th.getV4 d },
   { i := .atom2 m, size := k, op := .atom2 (opkA m) k d, val := fun th => th.dataOf d (2 * k), ok := clean m true },
   { i := .amov2 m, size := k, op := .amov2 k d, val := fun th => th.dataOf d k }]

/-- The store of a lane as it rests in the queue of the wave's core (R202). -/
def queuedStore (m : MOps) (c : Ctx) (l : Nat) (th : Thread) (e : TlbEntry) : SqEntry :=
  let va := addrOf m c.w th
  ⟨c.u, c.w.lid, c.w.blk, vanOf va.toNat, e.key va.toNat,
    bytesOf (th.dataOf m.data.toNat (szBytes (szM m))).toNat (szBytes (szM m)), c.w.core, c.pc, l, va⟩

/-- A store of scope .wave or .blk on a T-core outside regions (R175, R202): with nothing of its lanes in flight, the
lanes' stores join the queue of the core, in pages that are not SWM, of lanes that name one place the highest one's (R174);
memory keeps what it held. -/
def QueuedStores (m : MOps) : Prop :=
  let n := szBytes (szM m)
  ∀ s c, s.issues (.st m) c = true → s.inRegion c.w = false → scOf m < 2 → c.w.sect = none → s.quiet c.u c.mask = true →
    Passing s c m.g (capOf m c.w) (addrOf m c.w) n (fun _ => pSTORE) 1 true →
    (∀ l th e, c.has l th → s.checkAt c.w th (capOf m c.w th) (addrOf m c.w th) n pSTORE 1 = .ok e → e.swm = false) →
    ∃ t, exec (.st m) s = .next t ∧ OnlyIssues s t c ∧ t.inflight = s.inflight ∧
      (∀ n, n ≠ c.w.core → (t.core n).sq = (s.core n).sq) ∧ (s.core c.w.core).sq <+: (t.core c.w.core).sq ∧
      ∀ l th e, c.has l th → th.guard m.g = true →
        s.checkAt c.w th (capOf m c.w th) (addrOf m c.w th) n pSTORE 1 = .ok e →
        (∀ l' th' e', c.has l' th' → th'.guard m.g = true → l < l' →
          s.checkAt c.w th' (capOf m c.w th') (addrOf m c.w th') n pSTORE 1 = .ok e' →
          e'.key (addrOf m c.w th').toNat ≠ e.key (addrOf m c.w th).toNat) →
        queuedStore m c l th e ∈ (t.core c.w.core).sq

/-- A prefetch (R180) faults in no lane and changes no register and no memory. -/
def Prefetches (m : MOps) : Prop :=
  ∀ s c, s.issues (.pf m) c = true →
    ∃ t, exec (.pf m) s = .next t ∧ OnlyIssues s t c ∧ t.inflight = s.inflight ∧ t.nextId = s.nextId ∧
      ∀ n, (t.core n).sq = (s.core n).sq

/-- The first lane check that fails decides a lane's fault (R156): with one failing code in every lane of the group, a
word with one address takes that exception in every thread, with its address (R157, R404). -/
def AccRow.checksTrap (r : AccRow) : Prop :=
  ∀ s c code, s.issues r.i c = true → r.ok s c → s.inRegion c.w = false → s.traps c → c.mask ≠ 0 → code ≠ cNOTPRESENT →
    (∀ l th, c.has l th → th.guard r.m.g = true ∧
      s.checkAt c.w th (capOf r.m c.w th) (addrOf r.m c.w th) r.size (r.perms th) r.kind = .error code) →
    ∃ t, exec r.i s = .next t ∧ Ends s t c (fun s => s) (fun w => w)
      (fun _ th => th.entered (s.trapHandler c.w) code (addrOf r.m c.w th) 0 c.pc)

/-- A word some of whose lanes fail (R157): outside regions each acting lane passes its checks, or fails with a code. Those that
pass have their part in flight and stand past the word; those whose page is absent are parked at the word, with the address and
the kind of their access (R165); the others stand in the handler with their own fault. Nothing is written, and no register of a
lane changes. -/
def AccRow.splits (r : AccRow) : Prop :=
  let at_ := fun (s : State) (c : Ctx) (th : Thread) =>
    s.checkAt c.w th (capOf r.m c.w th) (addrOf r.m c.w th) r.size (r.perms th) r.kind
  ∀ s c, s.issues r.i c = true → r.ok s c → s.inRegion c.w = false → s.traps c →
    (∀ l th e, c.has l th → th.guard r.m.g = true → at_ s c th = .ok e → settled s c.w.coreNo r.writes e = true) →
    ∃ t w', exec r.i s = .next t ∧ t.mem = s.mem ∧ t.tags = s.tags ∧ t.blocks = s.blocks ∧ t.launches = s.launches ∧
      (∀ n, (t.core n).sq = (s.core n).sq) ∧ (∀ v, v ≠ c.u → t.wave v = s.wave v) ∧ OnlyAdds s t c r.m.g ∧
      t.wave c.u = some w' ∧ w'.besides = (c.ended s.clk).besides ∧ (∀ l, inMask c.mask l = false → w'.th l = c.w.th l) ∧
      ∀ l th, c.has l th →
        (∀ e, th.guard r.m.g = true → at_ s c th = .ok e →
          Launched s t c (r.op c.w th) (scOf r.m)
            ⟨l, addrOf r.m c.w th, e.key (addrOf r.m c.w th).toNat, 0, 0, (r.val c.w th).1, (r.val c.w th).2⟩) ∧
        ∃ th', w'.th l = some th' ∧ { th' with lastPage := none } =
          { (if th.guard r.m.g = false then th.done else match at_ s c th with
            | .ok _ => th.done
            | .error code =>
              if code = cNOTPRESENT then { th.done with pc := c.pc, wait := .parked (addrOf r.m c.w th) r.kind }
              else th.done.entered (s.trapHandler c.w) code (addrOf r.m c.w th) 0 c.pc) with lastPage := none }

/-- R165: for the pages absent in some lanes of a word the cluster's fault ring gets records, one for each, in ascending order of
the lowest lane on it, as long as the ring has room: here of one page, with all its lanes. -/
def AccRow.records (r : AccRow) : Prop :=
  ∀ s c l0 th0, s.issues r.i c = true → r.ok s c → s.inRegion c.w = false → c.w.sect = none → c.lead = some (l0, th0) →
    (∀ l th, c.has l th → th.guard r.m.g = true ∧ (addrOf r.m c.w th).toNat / 4096 = (addrOf r.m c.w th0).toNat / 4096 ∧
      s.checkAt c.w th (capOf r.m c.w th) (addrOf r.m c.w th) r.size (r.perms th) r.kind = .error cNOTPRESENT) →
    let va := (addrOf r.m c.w th0).toNat
    let lanes := maskOf ((c.w.active c.mask).map fun x => x.1)
    ∃ t, exec r.i s = .next t ∧ (t.cluster (clusterOf c.w.core)).faults =
      (s.cluster (clusterOf c.w.core)).faults.put (BitVec.ofNat 256 (va + s.clk.toNat * 2 ^ 64 + lanes.toNat * 2 ^ 128 +
        c.w.core * 2 ^ 160 + c.w.ctx * 2 ^ 176 + r.kind * 2 ^ 192 + 0x16 * 2 ^ 200))

/-! ### Accesses performed -/

/-- The access may be performed and nothing earlier holds it, no other access has been passed (R198), it touches no line
whose cork does not match, its wave is there, and no release of an sc fence waits for it with stores in the queue (R211). -/
def Performable (s : State) (id : Nat) (a : Access) (w : Wave) : Prop :=
  s.readyAccess id = some a ∧ ready a s.inflight = true ∧ s.unpassed = true ∧ s.wave a.wave = some w ∧ s.badLanes a = [] ∧
    s.loadsAbroad a = false ∧ ((s.core w.core).sq = [] ∨ ∀ x ∈ w.threads, ∀ sys n, x.2.wait ≠ .fenceSc sys n none)

/-- The lane has one part in the access. -/
def once (a : Access) (x : LaneAcc) : Prop := x ∈ a.lanes ∧ ∀ y ∈ a.lanes, y.lane = x.lane → y = x

/-- R439, R178: a load performed writes its value into each lane's destination and leaves memory as it was. -/
def LoadsPerformed : Prop :=
  ∀ s id a w size sext dst, Performable s id a w → a.op = .load size sext dst →
    ∃ t, exec (.accessPerformed id) s = .next t ∧ t.mem = s.mem ∧ (a.swm = false → t.tags = s.tags) ∧
      t.inflight = s.inflight.filter (fun b => b.id != id) ∧
      ∀ x, once a x → ∀ th, w.th x.lane = some th → ∃ th', t.lane a.wave x.lane = some th' ∧
        th'.v = (th.setSized dst size sext (s.loadNum w (a.die w) x.key size)).v ∧ th'.pc = th.pc ∧ th'.p = th.p

/-- No store of the wave's block that rests in the queue of its core touches the bytes (R209). -/
def unqueued (s : State) (w : Wave) (key n : Nat) : Prop :=
  ∀ e ∈ (s.core w.core).sq, e.blk = w.blk → e.key + e.bytes.length ≤ key ∨ key + n ≤ e.key

/-- A byte after stores of so many bytes by lanes one after another: the last one that covers it leaves its value (R174). -/
def storedByte (size : Nat) (ls : List LaneAcc) (k : Nat) (old : Byte) : Byte :=
  ls.foldl (fun b x => if x.key ≤ k ∧ k < x.key + size then BitVec.ofNat 8 (x.val.toNat / 256 ^ (k - x.key)) else b) old

/-- R439, R178, R174: a store performed writes the bytes of its lanes in ascending order, so that of lanes that name one byte the
highest stays, the least significant byte at the lowest address (R4), and no other byte of memory; no register changes. -/
def StoresPerformed : Prop :=
  ∀ s id a w size, Performable s id a w → a.op = .store size → a.swm = false → (∀ x ∈ a.lanes, unqueued s w x.key size) →
    ∃ t, exec (.accessPerformed id) s = .next t ∧ t.inflight = s.inflight.filter (fun b => b.id != id) ∧
      (∀ k, t.mem.byte k = storedByte size a.lanes k (s.mem.byte k)) ∧
      ∀ l th, w.th l = some th → ∃ th', t.lane a.wave l = some th' ∧ th'.v = th.v ∧ th'.pc = th.pc ∧ th'.p = th.p

/-- What a lane finds after those before it have done `f` to the value of `size` bytes, in ascending order (R188). -/
def valueAt (f : Nat → LaneAcc → Nat) (m : Nat) (ls : List LaneAcc) (i : Nat) : Nat := (ls.take i).foldl f m

/-- The bytes of a value at a key, and no other byte changed. -/
def holdsAt (s t : State) (key size x : Nat) : Prop :=
  (∀ k, k < size → t.mem.byte (key + k) = BitVec.ofNat 8 (x / 256 ^ k)) ∧
    ∀ k, k < key ∨ key + size ≤ k → t.mem.byte k = s.mem.byte k

/-- R188, R194: the lanes of an atomic that name one address perform Op(m, b) one after another in ascending order, each on what
the one before it left; nothing else of memory changes, and with `atom` each lane's destination takes the value it found. -/
def AtomicsPerformed : Prop :=
  ∀ s id a w opk size ret dst key, Performable s id a w → a.op = .atom opk size ret dst → a.swm = false →
    (∀ x ∈ a.lanes, x.key = key) → unqueued s w key size →
    let b := fun (x : LaneAcc) => x.val.toNat % 2 ^ (8 * size)
    let m := valueAt (fun m x => (atomOp opk size m (b x)).1 % 2 ^ (8 * size)) (s.mem.num key size) a.lanes
    ∃ t, exec (.accessPerformed id) s = .next t ∧ t.inflight = s.inflight.filter (fun b => b.id != id) ∧
      holdsAt s t key size (m a.lanes.length) ∧
      ∀ i x th, a.lanes[i]? = some x → once a x → w.th x.lane = some th → ∃ th', t.lane a.wave x.lane = some th' ∧
        th'.pc = th.pc ∧ th'.p = th.p ∧ th'.fflags = (th.flag (atomOp opk size (m i) (b x)).2).fflags ∧
        th'.v = (if ret then (th.setSized dst size false (m i)).v else th.v)

/-- R188, R195: compare-and-swaps of lanes at one address, one after another: each writes its new value exactly where it finds the
compared one, and its destination takes what it found. -/
def SwapsPerformed : Prop :=
  ∀ s id a w size dst key, Performable s id a w → a.op = .cas size dst → a.swm = false →
    (∀ x ∈ a.lanes, x.key = key) → unqueued s w key size →
    let part := fun (x : LaneAcc) (i : Nat) => x.val.toNat / 2 ^ (8 * size * i) % 2 ^ (8 * size)
    let m := valueAt (fun m x => if m = part x 0 then part x 1 else m) (s.mem.num key size) a.lanes
    ∃ t, exec (.accessPerformed id) s = .next t ∧ t.inflight = s.inflight.filter (fun b => b.id != id) ∧
      holdsAt s t key size (m a.lanes.length) ∧
      ∀ i x th, a.lanes[i]? = some x → once a x → w.th x.lane = some th →
        ∃ th', t.lane a.wave x.lane = some th' ∧ th'.v = (th.setSized dst size false (m i)).v

/-- R196, R197: a load-reserve holds the reservation of its lanes' line, where its home has room, and each lane gets what it
read. -/
def ReservesPerformed : Prop :=
  ∀ s id a w size dst x rest, Performable s id a w → a.op = .lres size dst → a.lanes = x :: rest →
    ((s.reservedAt (homeId (lineId (a.die w) x.key))).filter (fun r => r.1 != a.wave)).length < 256 →
    ∃ t w', exec (.accessPerformed id) s = .next t ∧ t.mem = s.mem ∧ t.wave a.wave = some w' ∧
      w'.resv = some (lineId (a.die w) x.key, s.clk) ∧
      ∀ y, once a y → ∀ th, w.th y.lane = some th → ∃ th', w'.th y.lane = some th' ∧
        th'.v = (th.setSized dst size false (s.loadNum w (a.die w) y.key size)).v

/-- R196: a store-conditional writes its lanes' bytes in ascending order and answers 0 where the wave still holds its line's
reservation; else it writes nothing and answers 1. The reservation is gone. -/
def ConditionalsPerformed : Prop :=
  ∀ s id a w size dst x rest, Performable s id a w → a.op = .scond size dst → a.swm = false → a.lanes = x :: rest →
    (∀ y ∈ a.lanes, unqueued s w y.key size) →
    let held := w.resv.any fun r => r.1 == x.key / 64
    ∃ t w', exec (.accessPerformed id) s = .next t ∧ t.wave a.wave = some w' ∧ w'.resv = none ∧
      (held = false → t.mem = s.mem) ∧
      (held = true → ∀ k, t.mem.byte k = storedByte size a.lanes k (s.mem.byte k)) ∧
      ∀ y, once a y → ∀ th, w.th y.lane = some th → ∃ th', w'.th y.lane = some th' ∧
        th'.v = (th.setSized dst size false (if held then 0 else 1)).v

end Sys2Proof.Claims
end

