-- ==== Sys2Proof/Certificates/Slice0/Events.lean ====
section
/-!
DEFINITION. The events of waves, translations, launches and blocks as the claims state them
(spec/05_control_flow.md; spec/06_work_creation_and_scheduling.md; spec/07_memory_access.md;
spec/08_atomics_sync_consistency.md; spec/17_traps_errors_context.md).
-/
namespace Sys2Proof.Claims
open Sys2Proof.Machine

/-- An event with the condition under which it happens, and what it leaves. -/
structure EventRow where
  i : Instr
  ok : State → Prop
  post : State → State → Prop

/-- Wherever its condition holds, the event answers a next state as the row says. -/
def EventRow.completes (r : EventRow) : Prop := ∀ s, r.ok s → ∃ t, exec r.i s = .next t ∧ r.post s t

/-! ### What else has not changed -/

/-- Only one thread has changed, its wave ready since some clk. -/
def laneOnly (s t : State) (u l : Nat) (th' : Thread) : Prop :=
  t.besides = s.besides ∧ (∀ v, v ≠ u → t.wave v = s.wave v) ∧ ∃ w w', s.wave u = some w ∧ t.wave u = some w' ∧
    { w'.besides with since := 0 } = { w.besides with since := 0 } ∧ (∀ k, k ≠ l → w'.th k = w.th k) ∧ w'.th l = some th'

/-- Only one T-core has changed. -/
def coreOnly (s t : State) (n : Nat) (c : Core) : Prop :=
  ({ t with cores := [] } : State) = { s with cores := [] } ∧ t.core n = c ∧ ∀ m, m ≠ n → t.core m = s.core m

/-- Only one port function has changed. -/
def portOnly (s t : State) (n : Nat) (p : Port) : Prop :=
  ({ t with ports := [] } : State) = { s with ports := [] } ∧ t.port n = p ∧ ∀ m, m ≠ n → t.port m = s.port m

/-- Only one launch has changed. -/
def launchOnly (s t : State) (n : Nat) (l : Launch) : Prop :=
  ({ t with launches := [] } : State) = { s with launches := [] } ∧ fget t.launches n = some l ∧
    ∀ m, m ≠ n → fget t.launches m = fget s.launches m

/-- Only one block has changed. -/
def blockOnly (s t : State) (n : Nat) (b : Block) : Prop :=
  ({ t with blocks := [] } : State) = { s with blocks := [] } ∧ fget t.blocks n = some b ∧
    ∀ m, m ≠ n → fget t.blocks m = fget s.blocks m

/-! ### Waves between their words -/

/-- R135, R117: in a quadrant without an open run, the ready wave that stands before every other one opens a run, and issues
next; no `yield` of it holds any longer. -/
def RunsStart (core quad : Nat) : Prop :=
  ∀ s u w, (fkeys s.waves).Nodup → s.running core quad = false → (u, w) ∈ s.quadWaves core quad → s.readyWave w = true →
    (∀ v x, (v, x) ∈ s.quadWaves core quad → s.readyWave x = true → v ≠ u →
      (s.rank u w).before (s.rank v x) = true ∧ (s.rank v x).before (s.rank u w) = false) →
    ∃ t w1 m, exec (.runStart core quad) s = .next t ∧ t.besides = { s with turn := .wave u }.besides ∧
      (∀ v, v ≠ u → t.wave v = s.wave v) ∧ (s.atBoundary w).group = some (w1, m) ∧
      t.wave u = some { w1 with run := some m, yielded := false }

/-- R106: the group of a wave is a set of live threads that wait for nothing and stand at one address at one call depth, in
the trap handler all or none. -/
def GroupsAreOne : Prop :=
  ∀ (w w1 : Wave) m, (fkeys w.threads).Nodup → (∀ l ∈ fkeys w.threads, l < 32) → w.group = some (w1, m) → m ≠ 0 ∧
    ∀ l l', inMask m l = true → inMask m l' = true → ∃ t t', w.th l = some t ∧ w.th l' = some t' ∧ t.pc = t'.pc ∧
      t.cd = t'.cd ∧ t.tm = t'.tm ∧ t.exited = false ∧ t.wait = .none

/-- R119, R208: threads that wake by their deadline, their monitored line, or for no stated cause. -/
noncomputable def wakeRows (u lane : Nat) : List EventRow :=
  let at_ := fun (s : State) (th : Thread) => s.lane u lane = some th
  [{ i := .sleepDeadline u lane
     ok := fun s => ∃ w th, s.wave u = some w ∧ w.run = none ∧ w.th lane = some th ∧ th.wait = .asleep ∧ th.deadline ≤ s.clk
     post := fun s t => ∀ th, at_ s th → laneOnly s t u lane { th with wait := .none } },
   { i := .mwaitWake u lane
     ok := fun s => ∃ th, at_ s th ∧ th.wait = .mwait ∧ ∀ m, th.mon = some m → m.hit = true
     post := fun s t => ∀ th, at_ s th → laneOnly s t u lane { th with wait := .none, mon := none } },
   { i := .mwaitTimeout u lane
     ok := fun s => ∃ th, at_ s th ∧ th.wait = .mwait ∧ th.deadline ≤ s.clk
     post := fun s t => ∀ th, at_ s th → laneOnly s t u lane { th with wait := .none, mon := none } },
   { i := .wakeUpNoStatedCause u lane
     ok := fun s => ∃ th, at_ s th ∧ th.wait = .mwait
     post := fun s t => ∀ th, at_ s th → laneOnly s t u lane { th with wait := .none, mon := none } }]

/-- R237, R239: a wave between its runs, whose block region another wave's cause aborted, unwinds: its threads stand at the
handlers of the block's region, and the cause is recorded; of the commands at the engines only the wave's own can change. -/
noncomputable def unwindRow (u : Nat) : EventRow :=
  { i := .parentUnwind u
    ok := fun s => fget s.saved u = none ∧ ∃ w p, s.wave u = some w ∧ w.unwind = some p ∧ p.blk = true ∧ w.escapes = []
    post := fun s t => { t.besides with cmds := [] } = { s.besides with cmds := [] } ∧
      (∀ id c, fget s.cmds id = some c → c.wave ≠ u → fget t.cmds id = some c) ∧
      (∀ v, v ≠ u → t.wave v = s.wave v) ∧ ∀ w p, s.wave u = some w →
      w.unwind = some p → ∃ w', t.wave u = some w' ∧ w'.reg = none ∧ w'.run = none ∧ w'.unwind = none ∧
        w'.rstat = rstatNext w.rstat p.code true p.reason ∧ w'.s = w.s ∧ w'.c = w.c ∧
        ∀ l th, w.th l = some th → ∃ th', w'.th l = some th' ∧ th'.v = th.v ∧ th'.p = th.p ∧ th'.hWave = none ∧
          th'.hBlk = none ∧ (th.exited = false → ∀ h, th.hBlk = some h →
            th'.pc = h.pc ∧ th'.cd.toNat = h.cd % 65536 ∧ th'.wait = .none) }

/-- The first clk after `d` at which the heartbeat of an sc fence comes: every 128, of .sys scope every 3,600. -/
def scBeat (sys : Bool) (d : DWord) : DWord :=
  let n := if sys then 3600 else 128
  BitVec.ofNat 64 ((d.toNat / n + 1) * n)

/-- R200: an sc fence whose drain is complete ends at the first heartbeat of its scope that follows. -/
noncomputable def scFenceRow (u : Nat) : EventRow :=
  { i := .fenceScTick u
    ok := fun s => ∃ w l th sys since d, s.wave u = some w ∧ w.th l = some th ∧ th.wait = .fenceSc sys since (some d) ∧
      scBeat sys d ≤ s.clk
    post := fun s t => t.besides = s.besides ∧ (∀ v, v ≠ u → t.wave v = s.wave v) ∧ ∀ l th, s.lane u l = some th →
      (∀ sys since d, th.wait = .fenceSc sys since (some d) → scBeat sys d ≤ s.clk →
        t.lane u l = some { th with wait := .none }) ∧
      ((∀ sys since d, th.wait = .fenceSc sys since (some d) → s.clk < scBeat sys d) → t.lane u l = some th) }

/-- R411, R412: a replay changes nothing but the counts of replays: the quadrant's, and that of the word of its run, which begins
again at another word. -/
noncomputable def replayRow (core quad : Nat) : EventRow :=
  { i := .timingReplay core quad
    ok := fun s => core < 256 ∧ quad < 4 ∧ ∃ u w m pc, s.atWord core quad = some (u, w, m, pc) ∧ (w.late.1 = pc → w.late.2 < 3)
    post := fun s t =>
      ({ t with cores := [], waves := [] } : State) = { s with cores := [], waves := [] } ∧
      (∀ n, t.core n = if n = core then { s.core core with
        replays := rset (s.core core).replays quad (rget (s.core core).replays quad + 1) } else s.core n) ∧
      ∀ u w m pc, s.atWord core quad = some (u, w, m, pc) → (∀ v, v ≠ u → t.wave v = s.wave v) ∧
        t.wave u = (s.wave u).map fun x => { x with late := (pc, if w.late.1 = pc then w.late.2 + 1 else 1) } }

/-- R411: the fourth late transition on one word is an uncorrectable error of source TIMING, consumed by the lanes of its run. -/
def FourthReplayFreezes (core quad : Nat) : Prop :=
  ∀ s u w m pc, core < 256 → quad < 4 → s.atWord core quad = some (u, w, m, pc) → w.late.1 = pc → 3 ≤ w.late.2 → w.sect = none →
    w.core = core → (s.cluster (core / 8)).frozen = none →
    ∃ t age, exec (.timingReplay core quad) s = .next t ∧ ({ t with clusters := [] } : State) = { s with clusters := [] } ∧
      (t.cluster (core / 8)).frozen = some ⟨.error, s.clk, [⟨⟨core, u, false, 8, m, 0⟩, pc, age⟩]⟩

/-! ### Translations, queued stores, reservations -/

/-- R163: a finished walk puts its entry into the core's TLB; a walk that fails caches nothing. That a full TLB drops its oldest
entry is the model's choice (log entry 7). -/
noncomputable def walkRow (core port : Nat) (va : DWord) : EventRow :=
  { i := .pageWalkDone core port va
    ok := fun s => core < 0x140 ∧ port < 2 ∧ ∀ e ∈ s.tlbOf core, e.covers port va.toNat = false
    post := fun s t =>
      (∀ c, s.walkVa port va.toNat = .error c → t = s) ∧
      ∀ e, s.walkVa port va.toNat = .ok e → t.tlbOf core = (e :: (s.tlbOf core).filter (· ≠ e)).take 4096 ∧
        (∀ n, n ≠ core → t.tlbOf n = s.tlbOf n) ∧ t.mem = s.mem ∧ t.waves = s.waves ∧ t.blocks = s.blocks }

/-- R202: an entry of a store queue that no older entry overlaps leaves the queue; its bytes are in memory, and no other
byte has changed. -/
def StoresDrain (core idx : Nat) : Prop :=
  ∀ s e, (s.core core).sq[idx]? = some e → e.bytes ≠ [] → s.badAt none e.key e.bytes.length = false →
    (∀ (j : Nat) (x : SqEntry), j < idx → (s.core core).sq[j]? = some x →
      x.key + x.bytes.length ≤ e.key ∨ e.key + e.bytes.length ≤ x.key) →
    ∃ t, exec (.storeQueueDrain core idx) s = .next t ∧ (t.core core).sq = (s.core core).sq.eraseIdx idx ∧
      (∀ i, i < e.bytes.length → t.mem.byte (e.key + i) = e.bytes.getD i 0) ∧
      ∀ k, (k < e.key ∨ e.key + e.bytes.length ≤ k) → t.mem.byte k = s.mem.byte k

/-- R197: a load-reserve at a home whose 256 reservations are taken displaces the one held longest, once that is 1,024 clk
old. -/
def ReservationsDisplaced (u lane : Nat) : Prop :=
  ∀ s a rest w x size dst v c, s.inflight = a :: rest → a.wave = u → a.op = .lres size dst → a.lanes = [x] → x.lane = lane →
    s.wave u = some w → s.badLanes a = [] →
    ((s.core w.core).sq = [] ∨ ∀ x ∈ w.threads, ∀ sys n, x.2.wait ≠ .fenceSc sys n none) →
    let rs := (s.reservedAt (homeId (lineId (a.die w) x.key))).filter fun r => r.1 != u
    256 ≤ rs.length → oldestResv rs = some (v, c) → 1024 ≤ (s.clk - c).toNat →
    ∃ t w', exec (.reservationHeld1024Clk u lane) s = .next t ∧ t.mem = s.mem ∧ t.wave u = some w' ∧
      w'.resv = some (lineId (a.die w) x.key, s.clk) ∧ (v ≠ u → ∀ y, t.wave v = some y → y.resv = none) ∧
      ∀ th, w.th lane = some th → ∃ th', w'.th lane = some th' ∧
        th'.v = (th.setSized dst size false (s.loadNum w (a.die w) x.key size)).v

/-! ### Launch slots and the launch scheduler (R123 to R130) -/

/-- A launch slot of a port, changed. -/
def slotOnly (s t : State) (port n : Nat) (x : LSlot) : Prop :=
  portOnly s t port { s.port port with slots := fset (s.port port).slots n x }

noncomputable def slotRows (port slot : Nat) (prio : BitVec 3) : List EventRow :=
  let x := fun (s : State) => (s.port port).slot slot
  let here := port < 2 ∧ slot < 64
  [{ i := .launchSlotGo port slot prio
     ok := fun s => here ∧ s.phase = 6
     -- in the next clk where the scheduler has taken a submission of a later place in this one
     post := fun s t =>
       let clk := if s.inPlace unitLaunch (64 * port + slot) then s.clk else s.clk + 1
       slotOnly (({ s with clk := clk } : State).took unitLaunch (64 * port + slot)) t port slot
         (if (x s).busy then { x s with ovr := true } else { x s with busy := true, prio := prio, arrived := clk }) },
   { i := .launchSlotGo port slot prio, ok := fun s => here ∧ s.phase ≠ 6, post := fun s t => t = s },
   { i := .lsresRead port slot
     ok := fun s => here ∧ s.phase = 6
     post := fun s t => slotOnly { s with hostOut := t.hostOut } t port slot { x s with ovr := false } ∧
       t.hostOut = .data (bytesOf
         ((if (x s).busy then 2 ^ 31 else 0) + (if (x s).ovr then 2 ^ 30 else 0) + (x s).res.toNat) 4) },
   { i := .lsresRead port slot, ok := fun s => here ∧ s.phase ≠ 6
     post := fun s t => t = { s with hostOut := .data [0, 0, 0, 0] } }]

/-- The record of a slot or of firmware, as the device reads it, with the capabilities of R124. -/
def recordAt (s : State) (port : Nat) (bs : List Byte) (prio : Nat) : LaunchRec :=
  { LaunchRec.parse bs ((recordCaps bs).map fun x => ⟨x, s.hostTag (s.port port) x⟩) with prio := prio }

/-- A record in the partition, readable, and what `reject` says of it. -/
def submitted (s : State) (port va : Nat) (bs : List Byte) (r : Option Nat) : Prop :=
  (s.port port).holds va 384 = true ∧ s.deviceBytes port va 384 = some bs ∧
    s.reject bs (LaunchRec.parse bs ((recordCaps bs).map fun x => ⟨x, s.hostTag (s.port port) x⟩)) = r

/-- R123, R125 to R127, of the slot that comes next in the order of R127: a valid record gets the next launch id, which the slot
shows with RES 0; a bad one gets the reason, and no launch. -/
def LaunchesAccepted (port slot : Nat) : Prop :=
  let x := fun (s : State) => (s.port port).slot slot
  let free := fun (s : State) => s.phase = 6 ∧ s.nextSlot = some (port, slot)
  (∀ s bs, free s → submitted s port (x s).addr.toNat bs none →
    ∃ t l, exec (.launchAccept port slot) s = .next t ∧ fget t.launches s.nextLid.toNat = some l ∧
      l.rc = recordAt s port bs (x s).prio.toNat ∧ l.va = BitVec.ofNat 64 (x s).addr.toNat ∧ l.port = port ∧
      l.priv = false ∧ (l.status = .pending ∨ l.status = .cancelled) ∧
      t.nextLid = (if s.nextLid + 1 = 0 then 1 else s.nextLid + 1) ∧ t.newestLid = s.nextLid ∧ l.order = s.nextId ∧
      (t.port port).slot slot = { x s with busy := false, res := 0, lid := s.nextLid }) ∧
  ∀ s bs e, free s → submitted s port (x s).addr.toNat bs (some e) →
    ∃ t, exec (.launchAccept port slot) s = .next t ∧
      slotOnly s t port slot { x s with busy := false, res := BitVec.ofNat 3 e }

/-- R420: firmware's submission makes a privileged launch. -/
def PrivilegedSubmitted (port : Nat) (addr : DWord) (prio : BitVec 3) : Prop :=
  ∀ s bs, s.phase = 6 → port < 2 → s.pendingCount < 4096 → submitted s port addr.toNat bs none →
    ∃ t l, exec (.privilegedLaunchSubmit port addr prio) s = .next t ∧ fget t.launches s.nextLid.toNat = some l ∧
      l.rc = recordAt s port bs prio.toNat ∧ l.priv = true ∧ l.port = port ∧ t.newestLid = s.nextLid

/-- R129: a launch of which nothing is left ends COMPLETE, or KILLED after a KILL_WAVE decision. -/
def LaunchesEnd (lid : Nat) : Prop :=
  ∀ s l, fget s.launches lid = some l → s.launchDone lid l = true →
    ∃ t l', exec (.launchComplete lid) s = .next t ∧ fget t.launches lid = some l' ∧
      l'.status = (if l.kcode = 0 then .complete else .killed) ∧ l'.done = s.clk ∧ l'.rc = l.rc ∧
      (l.kcode = 0 → ∀ m, m ≠ lid → fget t.launches m = fget s.launches m)

/-- R146: the threads of an `lwait` get the code once its launch has ended, and go on behind a .dev acquire. -/
def LwaitReleased (u lane : Nat) : Prop :=
  ∀ s id d x w th, lane < 32 → s.wave u = some w → w.th lane = some th → th.wait = .lwait id d → s.lwaitEnd id = some x →
    ∃ t w', exec (.lwaitRelease u lane) s = .next t ∧ t.mem = s.mem ∧ t.wave u = some w' ∧
      w'.getS d = BitVec.ofNat 32 x ∧ w'.th lane = some { th with wait := .none } ∧
      (∀ l x, w.th l = some x → w'.th l = some (if x.wait = .lwait id d then { x with wait := .none } else x)) ∧ (∀ r, r ≠ d → w'.getS r = w.getS r) ∧
      ∃ a, t.inflight = s.inflight ++ [a] ∧ a.op = .fence true false ∧ a.scope = 2 ∧ a.wave = u

/-- R130: the first ready launch whose offer finds a core is placed there, its lowest block that has no place, where the clk has
seen no other placement; it waits and reserves no longer. -/
def BlocksPlaced : Prop :=
  ∀ s lid l rest core lin need needs, s.phase = 6 → s.inPlace unitPlace 0 = true → s.readyOrder = (lid, l) :: rest → fget s.launches lid = some l →
    s.offer lid l = some (.block lin) → s.offerNeed l (.block lin) = (need, needs) →
    s.bestCore l.rc.dies needs need = some core →
    ∃ t b l', exec .blockPlace s = .next t ∧ fget t.blocks s.nextId = some b ∧ b.lid = lid ∧ b.lin = lin ∧ b.core = core ∧
      b.placed = true ∧ b.started = false ∧ b.seq = none ∧ fget t.launches lid = some l' ∧ l'.next = l.next + 1 ∧
      (l.reserving = false → l'.waiting = none ∧ l'.reserving = false) ∧ t.inPlace unitPlace 0 = false ∧
      (l.next + 1 < l.rc.gridBlocks → t.mem = s.mem ∧ t.waves = s.waves ∧
        ∀ k, k ≠ s.nextId → fget t.blocks k = fget s.blocks k)

/-- R130, R433: the core chosen is in service and can hold the block, and no other eligible core would stand at a smaller load after it, nor a lower
one at the same. -/
def LeastLoaded : Prop :=
  ∀ (s : State) dies needs need n, s.bestCore dies needs need = some n →
    ∃ x, s.loadAfter n need = some x ∧ n < Config.tCores ∧ s.inService n = true ∧ covers (s.core n).fmask needs = true ∧
      ∀ m y, m < Config.tCores → s.inService m = true → bitsOf dies (m / 64) (m / 64) = 1 → covers (s.core m).fmask needs = true →
        s.loadAfter m need = some y → x < y ∨ (x = y ∧ n ≤ m)

/-- R130: a launch that has waited 65,536 clk for a place reserves. -/
noncomputable def reservingRow (lid : Nat) : EventRow :=
  { i := .launchReserving lid
    ok := fun s => ∃ l o c, fget s.launches lid = some l ∧ l.reserving = false ∧ l.waiting = some (o, c) ∧
      65536 ≤ (s.clk - c).toNat
    post := fun s t => ∀ l, fget s.launches lid = some l → launchOnly s t lid { l with reserving := true } }

/-- R131, R302: a placed static block starts: its waves with fresh contexts, each thread at ENTRY, the launch's arguments
and capabilities in every wave; its sequencer at MENTRY, if it has one. -/
def BlocksStart (b : Nat) : Prop :=
  ∀ s k l, fget s.blocks b = some k → k.placed = true → k.started = false → k.spawned = none →
    fget s.launches k.lid = some l →
    ∃ t k', exec (.blockStart b) s = .next t ∧ fget t.blocks b = some k' ∧ k'.started = true ∧
      (l.rc.mentry = 0 → k'.seq = none) ∧
      (l.rc.mentry ≠ 0 → ∃ q, k'.seq = some q ∧ q.pc = l.rc.mentry ∧ q.m = [] ∧ q.ended = false ∧ q.mflags = 0) ∧
      t.mem = s.mem ∧ (∀ v, v < s.nextId → t.wave v = s.wave v) ∧
      ∀ i, i < l.rc.blockThreads / 32 → ∃ w, t.wave (s.nextId + i) = some w ∧ w.blk = b ∧ w.wid = i ∧ w.lid = k.lid ∧
        w.core = k.core ∧ w.s = l.rc.args ∧ w.run = none ∧ w.reg = none ∧
        ∀ j, j < 32 → w.th j = some (Thread.init l.rc.entry (32 * i + j))

/-- R139, R140, R302: a spawned block's one wave starts at its entry with the arguments of its threads; the lanes without one
have exited; its sequencer starts at MENTRY, if the launch has one. -/
def SpawnedStart (b : Nat) : Prop :=
  ∀ s k l n, fget s.blocks b = some k → k.placed = true → k.started = false → k.spawned = some n →
    s.inPlace unitSpawn k.core = true → fget s.launches k.lid = some l →
    ∃ t w, exec (.blockStart b) s = .next t ∧ t.wave s.nextId = some w ∧ w.blk = b ∧ w.lid = k.lid ∧ w.core = k.core ∧
      t.mem = s.mem ∧ (∃ k', fget t.blocks b = some k' ∧ k'.spawned = some l.spawnNo ∧ (l.rc.mentry = 0 → k'.seq = none) ∧
        (l.rc.mentry ≠ 0 → ∃ q, k'.seq = some q ∧ q.pc = l.rc.mentry ∧ q.m = [] ∧ q.ended = false ∧ q.mflags = 0)) ∧
      ∀ j, j < 32 → ∃ th, w.th j = some th ∧ th.pc = k.binEntry ∧ th.exited = decide (k.bin.length ≤ j) ∧
        ∀ a, k.bin[j]? = some a → th.v = a

/-! ### Spawn bins (R138) -/

noncomputable def binRows (core bin : Nat) : List EventRow :=
  let at_ := fun (s : State) (b : Bin) (l : Launch) =>
    fget (s.core core).bins bin = some b ∧ fget s.launches b.lid = some l
  [{ i := .binTimerSeal core bin
     ok := fun s => ∃ b l, at_ s b l ∧ b.sealed = false ∧ l.rc.bint ≤ (s.clk - b.start).toNat
     post := fun s t => ∀ b, fget (s.core core).bins bin = some b →
       coreOnly s t core { s.core core with bins := t.core core |>.bins } ∧
         fget (t.core core).bins bin = some { b with sealed := true, sealAt := s.clk } ∧
         ∀ k, k ≠ bin → fget (t.core core).bins k = fget (s.core core).bins k },
   { i := .binOffer core bin
     ok := fun s => ∃ b l, at_ s b l ∧ b.sealed = true ∧ b.offered = false ∧ l.rc.bint ≤ (s.clk - b.sealAt).toNat
     post := fun s t => ∀ b, fget (s.core core).bins bin = some b →
       coreOnly s t core { s.core core with bins := t.core core |>.bins } ∧
         fget (t.core core).bins bin = some { b with offered := true } ∧
         ∀ k, k ≠ bin → fget (t.core core).bins k = fget (s.core core).bins k },
   { i := .binStart core bin
     ok := fun s => ∃ b l, at_ s b l ∧ b.sealed = true ∧ b.offered = false ∧
       (s.loadAfter core (l.rc.needsOf true)).isSome = true ∧ s.inPlace unitSpawn core = true
     post := fun s t => ∀ b, fget (s.core core).bins bin = some b → fget (t.core core).bins bin = none ∧
       ∃ w, t.wave (s.nextId + 1) = some w ∧ w.core = core ∧ w.lid = b.lid ∧ w.blk = s.nextId ∧
         ∀ j, j < 32 → ∃ th, w.th j = some th ∧ th.pc = b.entry ∧ th.exited = decide (b.threads.length ≤ j) ∧
           ∀ a, b.threads[j]? = some a → th.v = a }]

/-! ### Ends, saves and resumptions (R115, R133, R137, R384, R417) -/

/-- The wave holds no reply slot and no store rests in a queue for it. -/
def idleParts (s : State) (u : Nat) : Prop :=
  (∀ a ∈ s.inflight, a.wave ≠ u) ∧ (∀ n c, (n, c) ∈ s.cores → (∀ e ∈ c.sq, e.wave ≠ u) ∧ ∀ k r, (k, r) ∈ c.slots → r.wave ≠ u)

/-- R133: where the wave is the last resident one of the block, others of the block are saved and its sequencer has no tile
operation left, the block has lost its place; where others are resident it has not. -/
def unplaced (s t : State) (b u : Nat) : Prop :=
  ((∀ v x, (v, x) ∈ s.wavesOf b → v = u) → (∃ v x, (v, x) ∈ t.saved ∧ x.blk = b) →
    (∀ k q, fget s.blocks b = some k → k.seq = some q → q.ops = []) →
    ∃ k', fget t.blocks b = some k' ∧ k'.placed = false ∧ k'.leaving = false) ∧
  ((∃ v x, (v, x) ∈ s.wavesOf b ∧ v ≠ u) → ∀ k, fget s.blocks b = some k → ∃ k', fget t.blocks b = some k' ∧ k'.placed = k.placed)

noncomputable def endRows (u b : Nat) : List EventRow :=
  [{ i := .waveContextFree u
     ok := fun s => idleParts s u ∧ s.pushing u = false ∧ ∃ w, s.wave u = some w ∧ w.sect = none ∧ w.live = 0 ∧ w.ops = []
     post := fun s t => t.wave u = none ∧ (∀ v, v ≠ u → t.wave v = s.wave v) ∧ t.mem = s.mem ∧
       (∀ w, s.wave u = some w → (∀ k, fget s.blocks w.blk = some k → k.leaving = false) →
         t.blocks = s.blocks ∧ t.launches = s.launches) ∧
       ∀ w k, s.wave u = some w → fget s.blocks w.blk = some k → k.leaving = true → unplaced s t w.blk u },
   { i := .blockEnd b
     ok := fun s => ∃ k, fget s.blocks b = some k ∧ k.started = true ∧ k.placed = true ∧ k.ended = false ∧
       s.blockWaves b = [] ∧ ∀ q, k.seq = some q → q.ops = []
     post := fun s t => ∀ k, fget s.blocks b = some k → blockOnly s t b { k with ended := true, tiles := [], tc := [] } },
   { i := .blockRetire b
     ok := fun s => ∃ k, fget s.blocks b = some k ∧ k.ended = true ∧
       ∀ c ∈ k.kids, ∀ l, fget s.launches c = some l → l.status.final = true
     post := fun s t => ({ t with blocks := [] } : State) = { s with blocks := [] } ∧ fget t.blocks b = none ∧
       ∀ k, k ≠ b → fget t.blocks k = fget s.blocks k }]

/-- A wave of a block that is being saved, outside regions and with nothing under way: it is resident no more, and what is
saved holds its registers and the places of its threads. -/
def WavesSaved (u : Nat) : Prop :=
  ∀ s w k, s.wave u = some w → w.sect = none → fget s.blocks w.blk = some k → k.leaving = true → k.reg = none →
    s.pushing u = false → (∀ q, k.seq = some q → q.ops = []) → (∀ n p, (n, p) ∈ s.packets → p.wave ≠ u) → idleParts s u → w.reg = none →
    w.run = none →
    ∃ t w', exec (.waveSave u) s = .next t ∧ t.wave u = none ∧ fget t.saved u = some w' ∧ t.mem = s.mem ∧ w'.s = w.s ∧ unplaced s t w.blk u ∧
      w'.c = w.c ∧ w'.resv = none ∧ (∀ v, v ≠ u → t.wave v = s.wave v) ∧
      ∀ l th, w.th l = some th → ∃ th', w'.th l = some th' ∧ th'.v = th.v ∧ th'.p = th.p ∧
        ((∀ sys since d, th.wait ≠ .fenceSc sys since d) → th'.pc = th.pc ∧ th'.wait = th.wait)

/-- A saved wave, the first of its block by wave id, goes on where its block stands again, as a new stream. -/
noncomputable def resumeRow (u core : Nat) : EventRow :=
  { i := .waveResume u core
    ok := fun s => ∃ w k, fget s.saved u = some w ∧ fget s.blocks w.blk = some k ∧ k.placed = true ∧ k.leaving = false ∧
      k.core = core ∧ ∀ v x, (v, x) ∈ s.saved → x.blk ≠ w.blk ∨ w.wid ≤ x.wid
    post := fun s t => ∀ w, fget s.saved u = some w → t.mem = s.mem ∧ t.blocks = s.blocks ∧ fget t.saved u = none ∧
      (∀ v, v ≠ u → t.wave v = s.wave v ∧ fget t.saved v = fget s.saved v) ∧
      ∃ w', t.wave u = some w' ∧ w'.core = core ∧ w'.threads = w.threads ∧ w'.s = w.s ∧ w'.c = w.c ∧ w'.sent = [] ∧
        w'.epoch = s.nextId ∧ w'.ctx = s.newCtx core ∧ w'.since = s.clk }

/-! ### fetchw (R141) -/

/-- The oldest request of a core is answered in its mailbox: the next block's coordinates, then the flag word; or a code. -/
def FetchesAnswered (core : Nat) : Prop :=
  ∀ s q rest e, s.inPlace unitFetch core = true → (s.core core).fetchq = q :: rest → s.walkVa q.port q.addr.toNat = .ok e → e.swm = false →
    let words := fun (t : State) (x y z f : Nat) => t.mem.num (e.key q.addr.toNat) 16 =
      x % 2 ^ 32 + y % 2 ^ 32 * 2 ^ 32 + z % 2 ^ 32 * 2 ^ 64 + f % 2 ^ 32 * 2 ^ 96
    (∀ l, fget s.launches q.lid = some l → l.rc.fetch = true → l.status.final = false → s.readyLaunch l = true →
      l.next < l.rc.gridBlocks → l.next + 1 < l.rc.gridBlocks →
      ∃ t l', exec (.fetchwAnswer core) s = .next t ∧ (t.core core).fetchq = rest ∧ fget t.launches q.lid = some l' ∧
        l'.next = l.next + 1 ∧ words t (l.next % l.rc.gx) (l.next / l.rc.gx % l.rc.gy) (l.next / (l.rc.gx * l.rc.gy)) (2 ^ 31)) ∧
    ∀ code, s.fetchCode q.lid = (code, none) →
      ∃ t, exec (.fetchwAnswer core) s = .next t ∧ (t.core core).fetchq = rest ∧ t.launches = s.launches ∧
        words t 0 0 0 (2 ^ 31 + code)

/-! ### Waits for engines (R294) -/

/-- R294: a `wait` whose deadline has passed raises LATE at the word, in every waiting thread of its group. -/
def WaitsLate (u lane : Nat) : Prop :=
  ∀ s w th cls n g d, s.wave u = some w → w.sect = none → s.trapHandler w ≠ 0 →
    (w.reg.any fun r => r.doomed) = false → ((s.blockRegion w).any fun r => r.doomed) = false →
    w.th lane = some th → th.wait = .counter cls n false g → th.exited = false → inMask g lane = true → th.tm = false →
    n < w.oc cls → s.waitDeadline w cls n = some d → d ≤ s.clk → w.waiting g = BitVec.ofNat 32 (2 ^ lane) →
    ∃ t th', exec (.waitDeadlineLate u lane) s = .next t ∧ t.lane u lane = some th' ∧ t.mem = s.mem ∧
      th'.pc = s.trapHandler w ∧ th'.tm = true ∧ th'.tpc = pc56 (th.pc - 8) ∧ th'.tcause.toNat = cLATE ∧ th'.wait = .none ∧
      th'.v = th.v

end Sys2Proof.Claims
end

