-- ==== Sys2Proof/Certificates/Slice0/Engines.lean ====
section
/-!
DEFINITION. What homes, the copy engine and the stream unit do, as the claims state it
(spec/10_shipped_sections.md, R253 to R275; spec/12_engines_and_promises.md, R285 to R294;
spec/14_patterns_and_streams.md, R343, R349, R350).
-/
namespace Sys2Proof.Claims
open Sys2Proof.Machine

/-! ### Bytes that an engine or the stream unit may move -/

/-- Storage of an address as the core translates it. -/
def keyAt (s : State) (core port va : Nat) : Nat :=
  match s.lookup core port va with
  | .ok e => e.key va
  | .error _ => 0

/-- Every byte may be read or written: its page admits it, is no SWM page and keeps its class, and no line read is bad. -/
def Open (s : State) (core port : Nat) (writes : Bool) (vas : List Nat) : Prop :=
  ∀ va ∈ vas, ∃ e, s.lookup core port va = .ok e ∧ permitted true (if writes then 1 else 0) e.pte = none ∧ e.swm = false ∧
    settled s core writes e = true ∧ s.badAt none (e.key va) 1 = false

/-- The capability admits every byte. -/
def Granted (cap : Cap) (perms : Nat) (vas : List Nat) : Prop := ∀ va ∈ vas, capCheck cap va 1 perms 0 = none

/-- The bytes written hold no translation of the addresses: these read as before in any memory that differs there alone. -/
def Fixed (s : State) (core port : Nat) (dst all : List Nat) : Prop :=
  ∀ m : Memory, (∀ k, (∀ va ∈ dst, k ≠ keyAt s core port va) → m.byte k = s.mem.byte k) →
    ∀ va ∈ all, ({ s with mem := m } : State).lookup core port va = s.lookup core port va

/-- Different addresses written lie in different storage, and none of it is read. -/
def Apart (s : State) (core port : Nat) (dst src : List Nat) : Prop :=
  (∀ a ∈ dst, ∀ b ∈ dst, keyAt s core port a = keyAt s core port b → a = b) ∧
    ∀ a ∈ dst, ∀ b ∈ src, keyAt s core port a ≠ keyAt s core port b

/-- The elements of a tensor do not overlap. -/
def elementsApart (t : Tensor) : Prop :=
  ∀ i j, i < j → j < t.count → t.bit (digits t.ext i) + t.width ≤ t.bit (digits t.ext j) ∨
    t.bit (digits t.ext j) + t.width ≤ t.bit (digits t.ext i)

/-! ### The copy engine (R285 to R287, R291, R293) -/

/-- The command is the next of its wave and class to move its data. -/
def Next (s : State) (id kind : Nat) (c : Cmd) : Prop :=
  fget s.cmds id = some c ∧ cKIND c.words = kind ∧ c.stage = .queued ∧ s.inTurn id c = true

/-- A command that writes `d` from bytes of `src`: what it needs, so that it runs to its end in one turn. -/
def Moves (s : State) (c : Cmd) (d : Tensor) (src : List (Cap × List Nat)) : Prop :=
  c.fault = none ∧ elementsApart d ∧ Granted c.dcap pSTORE d.span ∧ Open s c.core c.port true d.span ∧
    (∀ x ∈ src, Granted x.1 pLOAD x.2 ∧ Open s c.core c.port false x.2) ∧
    Apart s c.core c.port d.span (src.flatMap fun x => x.2) ∧
    Fixed s c.core c.port d.span (d.span ++ src.flatMap fun x => x.2)

/-- The command has moved its data: element n of the destination holds `val n`, no other byte of memory has changed, and
the flags wait for its completion. -/
def Moved (s t : State) (id : Nat) (c : Cmd) (d : Tensor) (val : Nat → Nat) (flags : Word) : Prop :=
  (∀ n, n < d.count → t.engElem c.core c.port d (digits d.ext n) = val n) ∧
    (∀ k, (∀ va ∈ d.span, k ≠ keyAt s c.core c.port va) → t.mem.byte k = s.mem.byte k) ∧
    fget t.cmds id = some { c with stage := .moved, fault := none, flags := flags }

/-- A failure before or in the transfer: nothing is written, and the command's failure is noted (R293). -/
def Failed (s t : State) (id : Nat) (c : Cmd) (code : Nat) : Prop :=
  ({ t with cmds := [] } : State) = { s with cmds := [] } ∧
    fget t.cmds id = some { c with stage := .moved, fault := some code, flags := 0 } ∧
    ∀ k, k ≠ id → fget t.cmds k = fget s.cmds k

/-- R285: TCOPY moves elements in index order, bits unchanged. -/
def Copies (id : Nat) : Prop :=
  ∀ s c a b, Next s id kTCOPY c → Tensor.parse c.srec false = some a → Tensor.parse c.drec false = some b →
    a.code = b.code → a.un = b.un → a.count = b.count → Moves s c b [(c.scap, a.span)] →
    ∃ t, exec (.tcopy id) s = .next t ∧
      Moved s t id c b (fun n => b.stored (s.engElem c.core c.port a (digits a.ext n))) 0

/-- R285: FILL writes the pattern's low bits to every element. -/
def Fills (id : Nat) : Prop :=
  ∀ s c b, Next s id kFILL c → Tensor.parse c.drec false = some b → Moves s c b [] →
    ∃ t, exec (.fill id) s = .next t ∧ Moved s t id c b (fun _ => b.stored (cPAT c.words)) 0

/-- R286: CCOPY without scales converts each element. -/
def Converts (id : Nat) : Prop :=
  ∀ s c a b, Next s id kCCOPY c → Tensor.parse c.srec false = some a → Tensor.parse c.drec false = some b →
    cSCG c.words = false → a.ext = b.ext → Moves s c b [(c.scap, a.span)] →
    let x := fun n => s.engElem c.core c.port a (digits a.ext n)
    (a.code = 0 → ∀ n, n < a.count → isAbandoned (BitVec.ofNat 32 (x n)) = false) →
    ∃ t fl, exec (.ccopy id) s = .next t ∧
      Moved s t id c b (fun n => b.stored (convert (x n) a.fmt b.fmt (RMode.ofCode (cRM c.words))).1) (BitVec.ofNat 32 fl) ∧
      ∀ j, fl.testBit j = true ↔
        ∃ n, n < a.count ∧ (convert (x n) a.fmt b.fmt (RMode.ofCode (cRM c.words))).2.testBit j = true

/-- The scale of a block (R286): `scget` of its element of largest magnitude, a NaN or an infinity before any number. -/
def blockScale (s : State) (c : Cmd) (a b : Tensor) (blk : List Nat) : Nat × Nat :=
  scaleOfV b.fmt (cUP c.words) (((a.all.filter fun i => blockOf i == blk).map fun i =>
    a.fmt.value (s.engElem c.core c.port a i)).foldl maxMag (.fin false 0 0))

/-- R286: CCOPY with scales writes each block's scale and the elements converted with it. -/
def ConvertsScaled (id : Nat) : Prop :=
  ∀ s c a b x, Next s id kCCOPY c → Tensor.parse c.srec false = some a → Tensor.parse c.drec false = some b →
    Tensor.parse c.xrec true = some x → cSCG c.words = true → a.ext = b.ext → 1 ≤ b.code → b.code ≤ 6 → x.code = 14 →
    x.ext = (a.ext.getD 0 0 + 31) / 32 :: a.ext.drop 1 → Moves s c b [(c.scap, a.span)] →
    elementsApart x → Granted c.xcap pSTORE x.span → Open s c.core c.port true x.span →
    Apart s c.core c.port (b.span ++ x.span) a.span → (∀ va ∈ b.span, va ∉ x.span) →
    Fixed s c.core c.port (b.span ++ x.span) (b.span ++ x.span ++ a.span) →
    (a.code = 0 → ∀ i ∈ a.all, isAbandoned (BitVec.ofNat 32 (s.engElem c.core c.port a i)) = false) →
    let conv := fun (i : List Nat) =>
      convScaled b.fmt (RMode.ofCode (cRM c.words)) (blockScale s c a b (blockOf i)).1 (a.fmt.value (s.engElem c.core c.port a i))
    ∃ t fl, exec (.ccopy id) s = .next t ∧
      (∀ i ∈ b.all, t.engElem c.core c.port b i = b.stored (conv i).1) ∧
      (∀ k ∈ x.all, t.engElem c.core c.port x k = x.stored (blockScale s c a b k).1) ∧
      (∀ k, (∀ va ∈ b.span ++ x.span, k ≠ keyAt s c.core c.port va) → t.mem.byte k = s.mem.byte k) ∧
      fget t.cmds id = some { c with stage := .moved, fault := none, flags := BitVec.ofNat 32 fl } ∧
      ∀ j, fl.testBit j = true ↔
        (∃ i ∈ a.all, (conv i).2.testBit j = true) ∨ ∃ k ∈ x.all, (blockScale s c a b k).2.testBit j = true

/-- R285: RGATHER writes row j of the destination from the row that index j names, and zeros where there is none. -/
def Gathers (id : Nat) : Prop :=
  ∀ s c a b x, Next s id kRGATHER c → Tensor.parse c.srec false = some a → Tensor.parse c.drec false = some b →
    Tensor.parse c.xrec false = some x → a.ext.length = 2 → b.ext.length = 2 → x.ext.length = 1 → x.code = 8 →
    a.code = b.code → a.un = b.un → b.ext.getD 0 0 = a.ext.getD 0 0 → b.ext.getD 1 0 = x.ext.getD 0 0 →
    let index := fun (j : Nat) => s.engElem c.core c.port x [j]
    let row := fun (j : Nat) => if x.un then (index j : Int) else signExt (index j) 32
    Moves s c b [(c.xcap, x.span), (c.scap, a.span)] →
    ∃ t, exec (.rgather id) s = .next t ∧
      Moved s t id c b (fun n =>
        let k := n % b.ext.getD 0 0
        let j := n / b.ext.getD 0 0 % b.ext.getD 1 0
        if 0 ≤ row j ∧ row j < (a.ext.getD 1 0 : Int) then b.stored (s.engElem c.core c.port a [k, (row j).toNat]) else 0) 0

/-- R283, R293: a command of mismatched shapes fails with TILE_SHAPE and writes nothing; so does one whose record could not
be read, with that code. -/
def CommandsFail (id : Nat) : Prop :=
  (∀ s c a b, Next s id kTCOPY c → c.fault = none → Tensor.parse c.srec false = some a → Tensor.parse c.drec false = some b →
    a.count ≠ b.count → ∃ t, exec (.tcopy id) s = .next t ∧ Failed s t id c cTILE) ∧
  (∀ s c, Next s id kFILL c → c.fault = none → Tensor.parse c.drec false = none →
    ∃ t, exec (.fill id) s = .next t ∧ Failed s t id c cTILE) ∧
  ∀ s c f, Next s id kCCOPY c → c.fault = some f → ∃ t, exec (.ccopy id) s = .next t ∧ Failed s t id c f

/-- No thread of the wave waits on a counter. -/
def noWaits (w : Wave) : Prop := ∀ x ∈ w.threads, ∀ c n nl g, x.2.wait ≠ .counter c n nl g

/-- R291, R293, R294: a command that has moved its data completes: the flags reach the threads that pushed it, a failure is noted,
and its operation counts no more, unless an earlier one is incomplete; while it counts it stays known. -/
def CommandsComplete (id : Nat) : Prop :=
  ∀ s c w, fget s.cmds id = some c → c.stage = .moved → (∀ n p, (n, p) ∈ s.packets → p.pkt.kind = 4 → p.op ≠ c.op) →
    s.wave c.wave = some w → noWaits w →
    let counted := (w.opDone c.op).ops.any fun o => o.id == c.op
    ∃ t w', exec (.commandComplete id) s = .next t ∧ t.mem = s.mem ∧
      (counted = true → fget t.cmds id = some { c with stage := .complete }) ∧
      (counted = false → (fkeys s.cmds).Nodup → fget t.cmds id = none) ∧
      (∀ k d, k ≠ id → fget s.cmds k = some d → d.stage ≠ .complete → fget t.cmds k = some d) ∧ (∀ v, v ≠ c.wave → t.wave v = s.wave v) ∧ t.wave c.wave = some w' ∧
      w'.ops = (w.opDone c.op).ops ∧ w'.s = w.s ∧
      w'.fails = (match c.fault with
        | some f => w.fails ++ [w.failed c.op c.eng.cls f (cKIND c.words)]
        | none => w.fails) ∧
      ∀ l th, w.th l = some th →
        w'.th l = some { th with fflags := if inMask c.lanes l then th.fflags ||| (c.flags &&& fflagsMask) else th.fflags }

/-- R289, R239: a held command at the head of its wave's queue, whose guard slot has resolved, is scheduled at A′ where it resolved
true, one whose slot its region bound with the records that it reads now, and discarded where it resolved false; those behind it
are scheduled no earlier. -/
def HeldCommandsGo (id : Nat) : Prop :=
  ∀ s c ok, fget s.cmds id = some c → c.stage = .held → c.resolved = some ok → c.learn ≤ s.clk →
    (∀ k d, (k, d) ∈ s.cmdsOf c.wave c.eng.cls → k < id → d.stage ≠ .held) →
    let r := match (if ok && c.deferred then s.anyWave c.wave else none) with
      | some w => s.withRecs c w
      | none => (c, s)
    let start := max c.learn.toNat (r.2.engine c.eng).f.toNat
    ∃ t, exec (.heldCommandSchedule id) s = .next t ∧ (c.deferred = false → t.mem = s.mem ∧ t.waves = s.waves) ∧
      (ok = true → fget t.cmds id = some { r.1 with
          stage := .queued, promise := BitVec.ofNat 64 (start + r.1.o + (r.2.engine c.eng).drain) } ∧
        (c.deferred = false → (t.engine c.eng).f = BitVec.ofNat 64 (start + c.o))) ∧
      (ok = false → fget t.cmds id = some { c with stage := .moved, fault := none, promise := c.learn }) ∧
      (c.deferred = false → ∀ k d, k ≠ id → fget s.cmds k = some d → d.wave = c.wave → d.eng.cls = c.eng.cls →
        d.stage = .held → fget t.cmds k = some (if d.learn < c.learn then { d with learn := c.learn } else d))

/-! ### Homes (R253, R259 to R268, R272, R275) -/

/-- A bundle of requests that are not `shipt`, at a home that homes their locks and has room, first of its wave and in
order: accepted whole; without room it is refused whole, and offered again 64 clk later. -/
def BundlesAccepted (id : Nat) : Prop :=
  ∀ s b rest, s.bundles = b :: rest → b.id = id → (∀ x ∈ rest, x.id ≠ id) → b.remote = none → b.refused = none →
    (∀ q ∈ b.reqs, q.mode ≠ 1 ∧ s.homes b.home q = true) → s.inOrder b.home b.reqs = true →
    ∃ t, exec (.homeAcceptBundle (.own id)) s = .next t ∧ t.waves = s.waves ∧ t.mem = s.mem ∧
      ((s.lcore b.home).queue.length + b.reqs.length ≤ 256 →
        t.bundles = rest ∧ (t.lcore b.home).queue =
          (s.lcore b.home).queue ++ b.reqs.map fun q => { q with accepted := s.clk }) ∧
      (256 < (s.lcore b.home).queue.length + b.reqs.length →
        t.lcores = s.lcores ∧ t.bundles = { b with refused := some s.clk } :: rest)

/-- A `shipt` accepted: its thread gets the token and the slot its promise; refused beyond the home's horizon: zero, and the
slot is free. -/
def TicketsAnswered (id : Nat) : Prop :=
  ∀ s b rest q r th, s.bundles = b :: rest → b.id = id → b.remote = none → b.refused = none → b.reqs = [q] → q.mode = 1 →
    s.homes b.home q = true → (s.lcore b.home).queue.length < 256 → s.inOrder b.home b.reqs = true →
    fget s.saved q.wave = none → s.slotOf q = some r → s.lane q.wave q.lane = some th →
    th.wait = .shipt (slotKey q.core q.slot) → (∀ w, s.wave q.wave = some w → noWaits w) →
    let d := s.promiseSpan b.home q
    ∃ t th', exec (.homeAcceptBundle (.own id)) s = .next t ∧ t.lane q.wave q.lane = some th' ∧ th'.wait = .none ∧
      th'.pc = th.pc ∧
      (d ≤ (s.lcore b.home).horizon → th'.getV r.dst = token r.gen q.slot ∧
        (t.slot q.core q.slot).p = s.clk + BitVec.ofNat 64 d ∧ (t.slot q.core q.slot).answered = true ∧
        (t.lcore b.home).queue.length = (s.lcore b.home).queue.length + 1) ∧
      ((s.lcore b.home).horizon < d → th'.getV r.dst = 0 ∧ (t.slot q.core q.slot).st = .free ∧
        (t.lcore b.home).queue = (s.lcore b.home).queue)

noncomputable def reofferRow (id : Nat) : EventRow :=
  { i := .bundleReoffer id
    ok := fun s => ∃ b c, b ∈ s.bundles ∧ b.id = id ∧ b.refused = some c ∧ 64 ≤ (s.clk - c).toNat
    post := fun s t => ({ t with bundles := [] } : State) = { s with bundles := [] } ∧
      t.bundles = s.bundles.map fun b => if b.id = id then { b with refused := none } else b }

/-- R261, R263: the earliest request whose lock is idle starts on a free context, with the state of Table 10.4. That it takes the
lowest of several is the model's choice (log entry 26). -/
def SectionsStart (lcore : Nat) : Prop :=
  ∀ s q k ks, s.nextStart lcore [] (s.lcore lcore).queue = some q →
    (s.freeContexts lcore).filter (fun k => s.since (fget (s.lcore lcore).ctxEnd k) 8) = k :: ks →
    s.resumable lcore = false → s.since (s.lcore lcore).lastStart 8 = true →
    ∃ t w th, exec (.sectionStart lcore) s = .next t ∧ t.mem = s.mem ∧ t.wave s.nextId = some w ∧
      (∀ v, v ≠ s.nextId → t.wave v = s.wave v) ∧ w.th 0 = some th ∧ (∀ l, l ≠ 0 → w.th l = none) ∧
      th.pc = BitVec.ofNat 64 q.entryCap.base ∧ th.v = q.args ∧ th.p = 0 ∧ th.tm = false ∧ w.getC 0 = q.lockCap ∧
      w.getC 1 = q.entryCap ∧ w.getS 0 = BitVec.ofNat 32 q.na ∧
      w.getS 1 = BitVec.ofNat 32 (match q.member with | some m => 0x8000 + m | none => q.core) ∧
      w.getS 2 = BitVec.ofNat 32 q.ctx ∧ w.getS 3 = BitVec.ofNat 32 q.lane ∧ w.getS 4 = BitVec.ofNat 32 q.mode ∧
      (∃ c, w.sect = some c ∧ c.lcore = lcore ∧ c.ctx = k ∧ c.req = q ∧ c.start = s.clk ∧ c.suspended = false) ∧
      (t.lcore lcore).queue.length + 1 = (s.lcore lcore).queue.length ∧ (t.lcore lcore).lastStart = some s.clk

/-- R261: two requests of one lock are never started while a section of that lock is on the core. -/
def OneSectionPerLock : Prop :=
  ∀ (s : State) lcore q, s.nextStart lcore [] (s.lcore lcore).queue = some q →
    ∀ c ∈ s.sectionsOn lcore, ¬(q.port = c.req.port ∧ q.lock = c.req.lock)

/-- R265: a suspended section that is ready goes on, on the lowest free context (log entry 26); R255: one that has passed four
times its budget gets one record of kind 0. -/
noncomputable def sectionRows (lcore u : Nat) : List EventRow :=
  [{ i := .sectionResume lcore u
     ok := fun s => ∃ w c, s.wave u = some w ∧ w.sect = some c ∧ c.lcore = lcore ∧ c.suspended = true ∧ c.ready = true ∧
       s.freeContexts lcore ≠ []
     post := fun s t => ∀ w c th, s.wave u = some w → w.sect = some c → w.th 0 = some th →
       t.besides = s.besides ∧ (∀ v, v ≠ u → t.wave v = s.wave v) ∧
       ∃ w' k, t.wave u = some w' ∧ (s.freeContexts lcore).head? = some k ∧
         w'.sect = some { c with ctx := k, suspended := false, ready := false } ∧ w'.th 0 = some { th with wait := .none } ∧
         w'.s = w.s ∧ w'.c = w.c },
   { i := .sectionOverrun u
     ok := fun s => ∃ w c, s.wave u = some w ∧ w.sect = some c ∧ c.overrun = false ∧
       4 * budget c.req.cc < (s.clk - c.start).toNat
     post := fun s t => ∀ w c, s.wave u = some w → w.sect = some c → t.mem = s.mem ∧ (∀ v, v ≠ u → t.wave v = s.wave v) ∧
       t.wave u = some { w with sect := some { c with overrun := true } } ∧
       ∃ r, (t.die (c.lcore / 16)).events = (s.die (c.lcore / 16)).events.put r ∧ bitsOf r.toNat 63 0 = c.req.lock.toNat ∧
         bitsOf r.toNat 127 64 = s.clk.toNat }]

/-- R268: the reply to a `ship` that returned brings its results into the waiting thread's registers, and frees the slot. -/
def RepliesDelivered (id : Nat) : Prop :=
  ∀ s x r th, fget s.replies id = some x → x.req.member = none → s.slotOf x.req = some r → r.mode = 0 → x.status = 0 →
    fget s.saved x.req.wave = none → s.lane x.req.wave x.req.lane = some th → th.exited = false →
    (∀ w, s.wave x.req.wave = some w → noWaits w) →
    ∃ t th', exec (.replyArrive (.own id)) s = .next t ∧ t.mem = s.mem ∧ fget t.replies id = none ∧
      (t.slot x.req.core x.req.slot).st = .free ∧ t.lane x.req.wave x.req.lane = some th' ∧ th'.wait = .none ∧
      th'.pc = th.pc ∧ th'.fflags = th.fflags ||| (x.flags &&& fflagsMask) ∧
      (∀ j, j < min x.k r.na → th'.getV (r.dst + j) = rget x.regs j) ∧
      ∀ v, (v < r.dst ∨ r.dst + min x.k r.na ≤ v) → th'.getV v = th.getV v

/-- R267: the reply to a `shipt` fills its slot; a thread in `shwait` for it goes on. -/
def RepliesHeld (id : Nat) : Prop :=
  ∀ s x r, fget s.replies id = some x → x.req.member = none → s.slotOf x.req = some r → r.mode = 1 →
    (∀ w, s.anyWave x.req.wave = some w → noWaits w) →
    ∃ t, exec (.replyArrive (.own id)) s = .next t ∧ t.mem = s.mem ∧ fget t.replies id = none ∧
      t.slot x.req.core x.req.slot = { r with
        st := .replied, status := x.status, det := x.det, k := x.k, regs := x.regs, tags := x.tags, flags := x.flags } ∧
      ∀ th nl, s.lane x.req.wave x.req.lane = some th → fget s.saved x.req.wave = none →
        th.wait = .shwait (slotKey x.req.core x.req.slot) nl →
        t.lane x.req.wave x.req.lane = some { th with wait := .none }

/-- R272: a `shwait` whose promise has passed raises LATE at its word, and the slot's promise is renewed. -/
def ShwaitsLate (u lane : Nat) : Prop :=
  ∀ s w th key, s.wave u = some w → fget s.saved u = none → w.sect = none → s.trapHandler w ≠ 0 → lane < 32 →
    (w.reg.any fun r => r.doomed) = false → ((s.blockRegion w).any fun r => r.doomed) = false →
    w.th lane = some th → th.wait = .shwait key false → th.tm = false → th.exited = false → th.deadline ≤ s.clk →
    ∃ t th', exec (.shwaitLate u lane) s = .next t ∧ t.mem = s.mem ∧ t.lane u lane = some th' ∧
      th'.pc = s.trapHandler w ∧ th'.tm = true ∧ th'.tpc = th.pc ∧ th'.tcause.toNat = cLATE ∧ th'.v = th.v ∧
      (t.slot (key / 4096) (key % 4096)).p =
        s.clk + BitVec.ofNat 64 (budget (s.slot (key / 4096) (key % 4096)).cc)

/-- R275: a retired L-core with nothing queued and no section takes no more requests. -/
noncomputable def homeRows (lcore : Nat) (global : Bool) (idx : Nat) (entry : Word) : List EventRow :=
  [{ i := .homeLoss lcore
     ok := fun s => lcore < 64 ∧ (s.lcore lcore).retired = false ∧ (s.lcore lcore).queue = [] ∧
       ∀ u w, (u, w) ∈ s.waves → ∀ c, w.sect = some c → c.lcore ≠ lcore
     post := fun s t => ({ t with lcores := [] } : State) = { s with lcores := [] } ∧
       t.lcore lcore = { s.lcore lcore with retired := true } ∧ ∀ n, n ≠ lcore → t.lcore n = s.lcore n },
   { i := .homeTableWrite global idx entry
     ok := fun s => idx < (if global then 4096 else 64) ∧ (hV entry = false ∨
       (s.blends = [] ∧ (s.lcore (hLCORE entry)).retired = false))
     post := fun s t =>
       let e := entry &&& (if global then 0x80FFF03F else 0x8000003F)
       ({ t with homeG := [], homeL := [] } : State) = { s with homeG := [], homeL := [] } ∧
         (if global then t.homeL = s.homeL ∧ rget t.homeG idx = e ∧ ∀ k, k ≠ idx → rget t.homeG k = rget s.homeG k
          else t.homeG = s.homeG ∧ rget t.homeL idx = e ∧ ∀ k, k ≠ idx → rget t.homeL k = rget s.homeL k) }]

/-- R275: requests queued at a home that is lost are returned with HOME_LOST. -/
def HomesLost (lcore : Nat) : Prop :=
  ∀ s q, lcore < 64 → (s.lcore lcore).retired = false → (s.lcore lcore).queue = [q] → q.mode ≠ 1 →
    (∀ u w, (u, w) ∈ s.waves → ∀ c, w.sect = some c → c.lcore ≠ lcore) →
    ∃ t x, exec (.homeLoss lcore) s = .next t ∧ (t.lcore lcore).retired = true ∧ (t.lcore lcore).queue = [] ∧
      fget t.replies s.nextId = some x ∧ x.req = q ∧ x.status = cHOMELOST ∧ t.mem = s.mem ∧ t.waves = s.waves

/-! ### The stream unit (R343, R349, R350) -/

/-- The elements that a list operation emits from two lists of keys and values, with their flags (R349). -/
def emitted (kind : Nat) : Nat → List (Nat × Nat) → List (Nat × Nat) → List (Nat × Nat) × Nat
  | 0, _, _ => ([], 0)
  | _ + 1, [], bs => (if kind = 1 ∨ kind = 3 then bs else [], 0)
  | _ + 1, as, [] => (if kind = 0 then [] else as, 0)
  | f + 1, (ka, va) :: as, (kb, vb) :: bs =>
    if ka < kb then
      let r := emitted kind f as ((kb, vb) :: bs)
      (if kind = 0 then r.1 else (ka, va) :: r.1, r.2)
    else if kb < ka then
      let r := emitted kind f ((ka, va) :: as) bs
      (if kind = 0 ∨ kind = 2 then r.1 else (kb, vb) :: r.1, r.2)
    else
      let r := emitted kind f as bs
      match kind with
      | 0 => ((ka, (fMul .f32 .rne va vb).1) :: r.1, (fMul .f32 .rne va vb).2 ||| r.2)
      | 1 => ((ka, va) :: r.1, r.2)
      | 2 => r
      | _ => ((ka, (fAdd .f32 .rne va vb).1) :: r.1, (fAdd .f32 .rne va vb).2 ||| r.2)

/-- The elements of a stream register from its position on. -/
def elements (s : State) (w : Wave) (r : StreamReg) : List (Nat × Nat) :=
  (List.range (r.count - r.pos)).map fun i =>
    (s.get4 w.core w.port (r.keyVa (r.pos + i)), s.get4 w.core w.port (r.valVa (r.pos + i)))

/-- Ranges that the unit may read: every page admits it and keeps its class, and no line is bad. -/
def Readable (s : State) (w : Wave) (rs : List (Nat × Nat)) : Prop :=
  ∀ x ∈ rs, s.rangeOk w.core w.port 0 x.1 x.2 = true ∧ s.rangeBad w.core w.port x.1 x.2 = false ∧
    ∀ k, k < pagesOf x.1 x.2 → ∀ e,
      s.lookup w.core w.port (if k = 0 then x.1 else (x.1 / 4096 + k) * 4096) = .ok e → settled s w.core false e = true

/-- The ranges of the elements left in a stream register. -/
def leftOf (r : StreamReg) : List (Nat × Nat) :=
  [(r.keyVa r.pos, 4 * (r.count - r.pos)), (r.valVa r.pos, 4 * (r.count - r.pos))]

/-- The oldest operation of the wave completes: a list operation without a bound output counts what it emits, and writes
nothing; its inputs stand at their ends. -/
def ListsComplete (u : Nat) : Prop :=
  ∀ s w o rest, s.wave u = some w → fget s.saved u = none → w.sops = o :: rest → o.kind < 4 → noWaits w →
    fget w.q o.qc = none → Readable s w (leftOf (w.getQ o.qa) ++ leftOf (w.getQ o.qb)) →
    let a := elements s w (w.getQ o.qa)
    let b := elements s w (w.getQ o.qb)
    let r := emitted o.kind (a.length + b.length + 1) a b
    ∃ t w', exec (.streamOpComplete u) s = .next t ∧ t.mem = s.mem ∧ t.wave u = some w' ∧
      w'.sops = w.sops.filter (fun x => x.op != o.op) ∧ w'.ops = (w.opDone o.op).ops ∧
      w'.getS o.dst = BitVec.ofNat 32 r.1.length ∧ (∀ k, k ≠ o.dst → w'.getS k = w.getS k) ∧
      (∀ q, fget w.q o.qa = some q → o.qa ≠ o.qb → fget w'.q o.qa = some { q with pos := q.count }) ∧
      ∀ l th, inMask o.lanes l = true → w.th l = some th → ∃ th', w'.th l = some th' ∧ th'.v = th.v ∧
        th'.fflags = th.fflags ||| (BitVec.ofNat 32 r.2 &&& fflagsMask)

/-- R350: `spart` writes P + 1 entries of a row and a nonzero. -/
def SpartCompletes (u : Nat) : Prop :=
  ∀ s w o rest ca cd, s.wave u = some w → fget s.saved u = none → w.sops = o :: rest → o.kind = 4 → o.caps = [ca, cd] →
    0 < o.p → o.n < 2 ^ 28 → noWaits w → Readable s w [(ca.base, 4 * (o.n + 1))] →
    let src := (List.range (4 * (o.n + 1))).map fun i => ca.base + i
    let dst := (List.range (8 * (o.p + 1))).map fun i => cd.base + i
    Open s w.core w.port true dst → s.rangeOk w.core w.port 1 cd.base (8 * (o.p + 1)) = true →
    s.rangeMerges w.core w.port cd.base (8 * (o.p + 1)) = false →
    Apart s w.core w.port dst src → Fixed s w.core w.port dst (dst ++ src) →
    (ca.base + 4 * (o.n + 1) ≤ cd.base ∨ cd.base + 8 * (o.p + 1) ≤ ca.base) →
    let ptr := fun (i : Nat) => s.get4 w.core w.port (ca.base + 4 * i)
    let a := fun (k : Nat) => (ptr 0 : Int) + ((k : Int) * ((ptr o.n : Int) - ptr 0)) / (o.p : Int)
    ∃ t, exec (.streamOpComplete u) s = .next t ∧
      (∀ k, k ≤ o.p →
        t.get4 w.core w.port (cd.base + 8 * k) =
          (if k = 0 then 0 else ((List.range o.n).filter fun i => decide ((ptr (i + 1) : Int) ≤ a k)).length) ∧
        t.get4 w.core w.port (cd.base + 8 * k + 4) = (a k % 2 ^ 32).toNat) ∧
      ∀ k, (∀ va ∈ dst, k ≠ keyAt s w.core w.port va) → t.mem.byte k = s.mem.byte k

end Sys2Proof.Claims
end

