-- ==== Sys2Proof/Certificates/Slice0/Matrix.lean ====
section
/-!
DEFINITION. The words of the matrix stream as the claims state them (spec/13_matrix.md, R302 to R328).
-/
namespace Sys2Proof.Claims
open Sys2Proof.Machine

/-! ### A word of the sequencer -/

/-- The sequencer `c` issues a word that names these tiles (R303, R327): they lie in the allocation, and no operation in
flight names one of them; no wave is at a word, and no access is owed to the block (R198). -/
def Sequences (s : State) (c : SeqCtx) (tiles : List Nat) : Prop :=
  s.sequencing = some c ∧ s.unpassed = true ∧ (∀ x ∈ tiles, x < s.tilesOf c.k) ∧ ∀ o ∈ c.q.ops, ∀ x ∈ o.tiles, x ∉ tiles

/-- Nothing but the block of the sequencer has changed; it is now `k`. -/
def BlockIs (s t : State) (b : Nat) (k : Block) : Prop :=
  ({ t with blocks := [] } : State) = { s with blocks := [] } ∧ (∀ j, j ≠ b → fget t.blocks j = fget s.blocks j) ∧
    fget t.blocks b = some k

/-- A word the sequencer itself executes: its condition, and the sequencer and the block after it. -/
structure SeqRow where
  i : Instr
  tiles : List Nat := []
  ok : State → SeqCtx → Prop := fun _ _ => True
  q : State → SeqCtx → Seq := fun _ c => c.q
  k : SeqCtx → Block := fun c => c.k

/-- Wherever the sequencer issues the word and its condition holds, it answers a next state in which the sequencer and its
block are as the row says and nothing else has changed. -/
def SeqRow.completes (r : SeqRow) : Prop :=
  ∀ s c, Sequences s c r.tiles → r.ok s c → ∃ t, exec r.i s = .next t ∧ BlockIs s t c.b { r.k c with seq := some (r.q s c) }

/-- The sequencer at its next word. -/
def atNext (q : Seq) : Seq := { q with pc := pc56 (q.pc + 8) }

/-- The fault that ends a stream (R305): the sequencer stays at the word. -/
def faulted (code : Nat) (_ : State) (c : SeqCtx) : Seq :=
  { c.q with ended := true, flt := true, code := code, wait := .none }

/-- No phase of a barrier of the block ends with the stream (R204, R205): one that counts has its count in reach of the live
threads that do not wait at it, and one of participants still misses one. -/
def steady (s : State) (c : SeqCtx) : Prop :=
  ∀ k, k < 16 → match (c.k.bar k).mode with
    | none => True
    | some (.count n) => (c.k.bar k).arrivals < n ∧
        n ≤ (c.k.bar k).arrivals + ((s.blockLive c.b).filter fun x => !x.2.waitsAt k).length
    | some _ => s.blockLive c.b = [] ∨ ∃ y ∈ s.blockLive c.b, y.1 ∉ (c.k.bar k).arrived

/-- The matrix stream's scalar words and `tctl` (R309, R311, R315, R317). -/
def scalarRows (x : XOps) (y : MMovi) : List SeqRow :=
  let m := fun (c : SeqCtx) (r : BitVec 6) => c.q.getM r.toNat
  let ta : SeqCtx → DWord := fun c => c.q.getM x.ta.toNat
  let b : SeqCtx → DWord := fun c => if bfld x.mod 3 3 = 1 then x.imm.signExtend 64 else c.q.getM x.tb.toNat
  let td := x.td.toNat
  let sum : SeqCtx → DWord := fun c => match bfld x.mod 2 0 with
    | 0 => ta c + b c
    | 1 => ta c - b c
    | 2 => ta c * b c
    | 3 => ta c <<< ((b c).toNat % 64)
    | 4 => ta c >>> ((b c).toNat % 64)
    | 5 => ta c &&& b c
    | 6 => ta c ||| b c
    | _ => if (ta c).toNat ≤ (b c).toNat then ta c else b c
  let taken : SeqCtx → Bool := fun c => match bfld x.mod 2 0 with
    | 0 => true
    | 1 => ta c == 0
    | 2 => ta c != 0
    | 3 => decide ((ta c).toInt < 0)
    | _ => decide (0 ≤ (ta c).toInt)
  let target : SeqCtx → DWord := fun c => pc56 (c.q.pc + x.imm.signExtend 64 * 8)
  let old : SeqCtx → DWord := fun c => c.q.getM y.td.toNat
  let wave := bfld x.mod 8 4
  let shape : SeqCtx → Word := fun c => (m c x.mr).setWidth 32
  let inSpan := fun (s : State) (c : SeqCtx) => bfld x.mod 0 0 = 0 ∧
    ∀ l, fget s.launches c.k.lid = some l → x.imm.toNat < l.rc.sregs
  [{ i := .madd x, q := fun _ c => (atNext c.q).setM td (sum c) },
   { i := .mmovi y
     q := fun _ c => (atNext c.q).setM y.td.toNat (match bfld y.mod 1 0 with
       | 0 => BitVec.ofNat 64 y.imm.toNat
       | 1 => BitVec.ofInt 64 y.imm.toInt
       | _ => BitVec.ofNat 64 (y.imm.toNat * 2 ^ 32 + (old c).toNat % 2 ^ 32)) },
   { i := .mbr x, q := fun _ c => if taken c then { c.q with pc := target c } else atNext c.q },
   { i := .mloop x
     q := fun _ c =>
       let q := c.q.setM x.ta.toNat (ta c - 1)
       if ta c = 1 then atNext q else { q with pc := target c } },
   { i := .mend x, ok := fun s c => c.q.ops = [] ∧ steady s c, q := fun _ c => { atNext c.q with ended := true } },
   { i := .mfrom x, ok := fun _ _ => bfld x.mod 0 0 = 1, q := fun s c => (atNext c.q).setM td s.clk },
   { i := .mfrom x
     ok := fun s c => inSpan s c ∧ ∃ w, s.notedWave c wave = some w
     q := fun s c => (atNext c.q).setM td (match s.notedWave c wave with
       | some w => w.getS2 x.imm.toNat
       | none => 0) },
   { i := .mfrom x, ok := fun s c => inSpan s c ∧ s.notedWave c wave = none ∧ steady s c, q := faulted cTILE },
   { i := .tctl x, tiles := [td], ok := fun _ c => tcLegal (shape c) = true, q := fun _ c => atNext c.q
     k := fun c => { c.k with tc := rset c.k.tc td (shape c) } },
   { i := .tctl x, tiles := [td], ok := fun s c => tcLegal (shape c) = false ∧ steady s c, q := faulted cTILE },
   { i := .tctlR x, tiles := [td], q := fun _ c => (atNext c.q).setM x.mr.toNat (BitVec.ofNat 64 (c.k.tcOf td).toNat) }]

/-- R315: once every accepted operation is done `mend` ends the stream, whatever barriers then do. -/
def Ends' (x : XOps) : Prop :=
  ∀ s c, Sequences s c [] → c.q.ops = [] → ∃ t, exec (.mend x) s = .next t ∧
    ∀ k q, fget t.blocks c.b = some k → k.seq = some q → q.ended = true ∧ q.flt = c.q.flt ∧ q.m = c.q.m

/-! ### mbar (R308, R309, R316) -/

/-- The sequencer's arrivals and waits at barrier `k`, in count mode. A wait without an earlier arrival notes no wave, and the
sequencer stands past its `mbar` while it waits: log entry 97 (DEDUCED). -/
def mbarRows (x : XOps) : List SeqRow :=
  let k := bfld x.mod 7 4
  let kind := bfld x.mod 1 0
  let bar : SeqCtx → Barrier := fun c => c.k.bar k
  let n : SeqCtx → Nat := fun c => if bfld x.mod 3 3 = 1 then (c.q.getM x.mr.toNat).toNat else x.imm.toNat
  -- the earlier stores are performed, the count is one the phase accepts, and the phase goes on
  let counts := fun (_ : State) (c : SeqCtx) =>
    (∀ o ∈ c.q.ops, o.path = 0) ∧ 1 ≤ n c ∧ n c ≤ 1025 ∧ ((bar c).mode = none ∨ (bar c).mode = some (.count (n c))) ∧
      (bar c).arrivals + 1 < n c
  let room := fun (s : State) (c : SeqCtx) (self : Nat) =>
    n c ≤ (bar c).arrivals + 1 + ((s.blockLive c.b).filter fun x => !x.2.waitsAt k).length + self
  let arrived : SeqCtx → Block := fun c => c.k.setBar k
    { bar c with
      mode := some (.count (n c)), arrivals := (bar c).arrivals + 1, seqIn := true, seqFlags := (bar c).seqFlags ||| c.q.fresh }
  let came : SeqCtx → Seq := fun c => { atNext c.q with fresh := 0, barPhase := fset c.q.barPhase k (bar c).phase }
  [{ i := .mbar x, ok := fun s c => kind = 1 ∧ counts s c ∧ room s c 1, q := fun _ c => came c, k := arrived },
   { i := .mbar x, ok := fun s c => kind = 0 ∧ counts s c ∧ room s c 0 ∧ c.q.starved.getLsbD k = false
     q := fun _ c => { came c with wait := .bar k (bar c).phase }, k := arrived },
   { i := .mbar x
     ok := fun _ c => kind = 2 ∧ c.q.starved.getLsbD k = false ∧
       ∀ p, fget c.q.barPhase k = some p → p < (bar c).phase
     q := fun _ c => { atNext c.q with
       noted := match fget c.q.barPhase k with
         | some p => (fget (bar c).noted p).getD []
         | none => [] } },
   { i := .mbar x, ok := fun s c => kind ≠ 2 ∧ (∀ o ∈ c.q.ops, o.path = 0) ∧ (n c = 0 ∨ 1025 < n c) ∧ steady s c
     q := faulted cSTARVED },
   { i := .mbar x
     ok := fun s c => kind ≠ 2 ∧ (∀ o ∈ c.q.ops, o.path = 0) ∧
       ((bar c).mode.any fun y => y != .count (n c)) = true ∧ steady s c
     q := faulted cSTARVED }]

/-- R204, R304, R309: the sequencer's arrival that makes the count up ends the phase. -/
def SequencerCompletes (x : XOps) : Prop :=
  ∀ s c n, Sequences s c [] → bfld x.mod 1 0 ≠ 2 → (∀ o ∈ c.q.ops, o.path = 0) →
    (if bfld x.mod 3 3 = 1 then (c.q.getM x.mr.toNat).toNat else x.imm.toNat) = n → 1 ≤ n → n ≤ 1025 →
    c.q.starved.getLsbD (bfld x.mod 7 4) = false →
    (c.k.bar (bfld x.mod 7 4)).mode = some (.count n) ∨ (c.k.bar (bfld x.mod 7 4)).mode = none →
    n = (c.k.bar (bfld x.mod 7 4)).arrivals + 1 →
    ∃ t k q, exec (.mbar x) s = .next t ∧ t.mem = s.mem ∧ fget t.blocks c.b = some k ∧ k.seq = some q ∧
      (k.bar (bfld x.mod 7 4)).phase = (c.k.bar (bfld x.mod 7 4)).phase + 1 ∧ q.pc = pc56 (c.q.pc + 8) ∧ q.wait = .none ∧
      q.fresh = 0 ∧ (bfld x.mod 1 0 = 0 → q.noted = (c.k.bar (bfld x.mod 7 4)).waves) ∧
      ∀ v w j th p, fget s.waves v = some w → w.blk = c.b → w.sect = none → w.th j = some th →
        th.wait = .bar (bfld x.mod 7 4) p → p ≤ (c.k.bar (bfld x.mod 7 4)).phase →
        ∃ th', t.lane v j = some th' ∧ th'.wait = .none ∧
          th'.fflags = th.fflags ||| ((c.k.bar (bfld x.mod 7 4)).seqFlags ||| c.q.fresh)

/-! ### Operations of the matrix unit (R310 to R313, R319, R321 to R325) -/

/-- A legal shape (R311), so the tile's elements lie in its storage. -/
def legal (c : SeqCtx) (t : Nat) : Prop := tcLegal (c.k.tcOf t) = true

/-- A word of the matrix unit: its destination, the tiles it names, its condition, which elements it writes (row and column
below these bounds) and what each becomes, with the flags that raises. -/
structure TileRow where
  i : Instr
  d : Nat
  tiles : List Nat
  ok : State → SeqCtx → Prop := fun _ _ => True
  rows : SeqCtx → Nat
  cols : SeqCtx → Nat
  val : State → SeqCtx → Nat → Nat → Res

/-- The word is accepted (R327): its elements have their values, already in the step of the word (log entry 95, DESIGN CHOICE), no
other byte of a tile outside its destination and no
other element of the destination has changed, its flags come when it completes, and nothing else has changed. -/
def TileRow.completes (r : TileRow) : Prop :=
  ∀ s c, Sequences s c r.tiles → c.q.full = false → legal c r.d → r.ok s c →
    ∃ (t : State) (k : Block) (fl : Nat), exec r.i s = .next t ∧
      BlockIs s t c.b { k with
        seq := some { atNext c.q with ops := c.q.ops ++ [⟨c.q.pc, r.tiles, 0, fl, []⟩] } } ∧
      ({ k with tiles := [], seq := none } : Block) = { c.k with tiles := [], seq := none } ∧
      (∀ a, a / 16384 ≠ r.d → rget k.tiles a = rget c.k.tiles a) ∧
      (∀ m n, m < 64 → n < tcCols (c.k.tcOf r.d) →
        k.raw r.d m n = if m < r.rows c ∧ n < r.cols c then (r.val s c m n).1 else c.k.raw r.d m n) ∧
      ∀ j, fl.testBit j = true ↔ ∃ m n, m < r.rows c ∧ n < r.cols c ∧ (r.val s c m n).2.testBit j = true

/-- R321, R323: the formats, the distinct tiles and the accumulator's elements are as the multiply wants them. -/
def multiplies (x : XOps) (cb : Bool) (c : SeqCtx) : Prop :=
  let d := x.td.toNat
  let a := x.ta.toNat
  let b := x.tb.toNat
  tcFmt (c.k.tcOf d) = 0 ∧ d ≠ a ∧ d ≠ b ∧ Machine.pairOk cb (tcFmt (c.k.tcOf a)) (tcFmt (c.k.tcOf b)) = true ∧
    ∀ m n, m < min (tcRows (c.k.tcOf d)) (tcRows (c.k.tcOf a)) → n < min (tcCols (c.k.tcOf d)) (tcRows (c.k.tcOf b)) →
      isAbandoned (BitVec.ofNat 32 (c.k.raw d m n)) = false

/-- R313: one accumulator over the groups of its K in ascending order. -/
def accumulated (x : XOps) (scale : SeqCtx → Nat → Nat → Nat → Option Int) (c : SeqCtx) (m n : Nat) : Res :=
  let a := x.ta.toNat
  let b := x.tb.toNat
  (List.range (tileCap (tcFmt (c.k.tcOf a)) / 32)).foldl (fun r g =>
    let e := groupAcc r.1 ((List.range 32).map fun i => (c.k.val a m (32 * g + i), c.k.val b n (32 * g + i))) (scale c m n g)
    (e.1, r.2 ||| e.2)) (c.k.raw x.td.toNat m n, 0)

/-- The wave whose registers hold the scales is noted, and their span lies in its registers (R309, R322). -/
def scalesRead (x : XOps) (s : State) (c : SeqCtx) : Prop :=
  ∃ w, s.notedWave c (bfld x.mod 8 4) = some w ∧
    bfld x.imm 7 0 + scaleSpan (bfld x.mod 2 0) (tileCap (tcFmt (c.k.tcOf x.ta.toNat)) / 32) ≤ min w.vlim 256

/-- R322: the power of two of the scales of (m, n, g), or none for 0xFF. -/
def scaled (x : XOps) (s : State) (c : SeqCtx) (m n g : Nat) : Option Int :=
  match s.notedWave c (bfld x.mod 8 4) with
  | none => none
  | some w =>
    let gg := tileCap (tcFmt (c.k.tcOf x.ta.toNat)) / 32
    let ka := w.scaleByte (bfld x.imm 7 0) (scaleA (bfld x.mod 2 0) gg m g)
    let kb := w.scaleByte (bfld x.imm 7 0) (scaleB (bfld x.mod 2 0) gg n g)
    if ka = 255 ∨ kb = 255 then none else some ((ka - 127 : Int) + (kb - 127))

/-- No element below the bounds is an abandoned f32 (R63). -/
def sound (c : SeqCtx) (t rows cols : Nat) : Prop :=
  tcFmt (c.k.tcOf t) = 0 → ∀ m n, m < rows → n < cols → isAbandoned (BitVec.ofNat 32 (c.k.raw t m n)) = false

/-- The multiplies, the moves and the elementwise words. -/
def tileRows (x : XOps) : List TileRow :=
  let d := x.td.toNat
  let a := x.ta.toNat
  let b := x.tb.toNat
  let fmt := fun (c : SeqCtx) (t : Nat) => tcFmt (c.k.tcOf t)
  let rows := fun (c : SeqCtx) (t : Nat) => tcRows (c.k.tcOf t)
  let cols := fun (c : SeqCtx) (t : Nat) => tcCols (c.k.tcOf t)
  let both : SeqCtx → Nat := fun c => min (rows c d) (rows c a)
  let grid : SeqCtx → Nat := fun c => min (cols c d) (rows c b)
  let unit := fun (_ : SeqCtx) (_ _ _ : Nat) => some (0 : Int)
  let scl := bfld x.mod 2 0 == 5
  let y : SeqCtx → Word := fun c => (c.q.getM x.mr.toNat).setWidth 32
  let ewRows : SeqCtx → Nat := fun c => if scl then both c else min (both c) (rows c b)
  let mode := RMode.ofCode (bfld x.mod 2 0)
  [{ i := .tmma x, d := d, tiles := [d, a, b], ok := fun _ c => multiplies x false c, rows := both, cols := grid
     val := fun _ c => accumulated x unit c },
   { i := .tmmas x, d := d, tiles := [d, a, b], ok := fun s c => multiplies x false c ∧ scalesRead x s c, rows := both
     cols := grid, val := fun s c => accumulated x (scaled x s) c },
   { i := .tmmacb x, d := d, tiles := [d, a, b], ok := fun _ c => bfld x.mod 3 3 = 0 ∧ multiplies x true c, rows := both
     cols := grid, val := fun _ c => accumulated x unit c },
   { i := .tmmacb x, d := d, tiles := [d, a, b]
     ok := fun s c => bfld x.mod 3 3 = 1 ∧ multiplies x true c ∧ scalesRead x s c
     rows := both, cols := grid, val := fun s c => accumulated x (scaled x s) c },
   { i := .tmov x, d := d, tiles := [d, a]
     ok := fun _ c => bfld x.mod 0 0 = 0 ∧ fmt c d = fmt c a ∧ legal c a
     rows := both, cols := fun c => cols c d, val := fun _ c m n => (tileBits (fmt c d) (c.k.raw a m n), 0) },
   { i := .tmov x, d := d, tiles := [d, a]
     ok := fun _ c => bfld x.mod 0 0 = 1 ∧ fmt c d = fmt c a ∧ 8 ≤ tileWidth (fmt c d)
     rows := fun c => rows c d, cols := fun c => cols c d
     val := fun _ c m n => (if n < rows c a ∧ m < cols c a then tileBits (fmt c d) (c.k.raw a n m) else 0, 0) },
   { i := .tcvt x, d := d, tiles := [d, a]
     ok := fun _ c => fmt c d ≠ 7 ∧ sound c a (both c) (cols c d)
     rows := both, cols := fun c => cols c d
     val := fun _ c m n => convertFV (c.k.val a m n) (tileFmt (fmt c d)) mode },
   { i := .tcvt x, d := d, tiles := [d, a]
     ok := fun _ c => fmt c d = 7 ∧ (fmt c a = 1 ∨ fmt c a = 2) ∧ bfld x.mod 2 0 = 0
     rows := both, cols := fun c => cols c d
     val := fun _ c m n => cbEncode (tileFmt (fmt c a)) ((List.range 8).map fun i => c.k.raw a m (8 * (n / 8) + i)) 127 },
   { i := .tew x, d := d, tiles := if scl then [d, a] else [d, a, b]
     ok := fun _ c => fmt c d = 0 ∧ fmt c a = 0 ∧ (scl = false → fmt c b = 0 ∧ sound c b (ewRows c) (cols c d)) ∧
       (scl = true → isAbandoned (y c) = false) ∧ sound c a (ewRows c) (cols c d)
     rows := ewRows, cols := fun c => cols c d
     val := fun _ c m n =>
       let p := c.k.raw a m n
       let q := if scl then (y c).toNat else c.k.raw b m n
       let rm := RMode.ofCode (bfld x.mod 7 5)
       match bfld x.mod 2 0 with
       | 0 => fAdd .f32 rm p q
       | 1 => fSub .f32 rm p q
       | 3 => fMinMax .f32 true false p q
       | 4 => fMinMax .f32 false false p q
       | _ => fMul .f32 rm p q }]

/-- R319: `tzero` zeroes all 16 KiB and no other tile. -/
def Zeroes (x : XOps) : Prop :=
  ∀ s c, Sequences s c [x.td.toNat] → c.q.full = false →
    ∃ (t : State) (k : Block), exec (.tzero x) s = .next t ∧
      BlockIs s t c.b { k with
        seq := some { atNext c.q with ops := c.q.ops ++ [⟨c.q.pc, [x.td.toNat], 0, 0, []⟩] } } ∧
      ({ k with tiles := [], seq := none } : Block) = { c.k with tiles := [], seq := none } ∧
      ∀ a, rget k.tiles a = if a / 16384 = x.td.toNat then 0 else rget c.k.tiles a

/-- No operation of the matrix unit is in flight (R327). -/
def noneRuns (c : SeqCtx) : Prop := ∀ o ∈ c.q.ops, o.path ≠ 0

/-- R321, R326: a multiply of wrong formats or of one tile with itself ends the stream, and writes nothing. -/
def shapeRows (x : XOps) : List SeqRow :=
  let d := x.td.toNat
  let a := x.ta.toNat
  let b := x.tb.toNat
  let wrong := fun (cb : Bool) (s : State) (c : SeqCtx) => c.q.full = false ∧ steady s c ∧
    (tcFmt (c.k.tcOf d) ≠ 0 ∨ d = a ∨ d = b ∨ Machine.pairOk cb (tcFmt (c.k.tcOf a)) (tcFmt (c.k.tcOf b)) = false)
  let row := fun (i : Instr) (cb sp : Bool) =>
    ({ i := i, tiles := [d, a, b], ok := fun s c => wrong cb s c ∧ (sp = true → c.q.step = 0 ∧ noneRuns c), q := faulted cTILE } : SeqRow)
  [row (.tmma x) false false, row (.tmmas x) false false, row (.tmmacb x) true false, row (.tmmasp x) false true]

/-! ### Tile loads and stores (R318, R320, R327) -/

/-- The address of row r. -/
def rowAddr (x : XOps) (c : SeqCtx) (r : Nat) : DWord :=
  BitVec.ofNat 64 (c.q.getMc (bfld x.mod 2 0)).base + c.q.getM x.mr.toNat + x.imm.signExtend 64 +
    BitVec.ofNat 64 r * c.q.getM (x.mr.toNat + 1)

/-- Bytes of a row. -/
def rowBytes (x : XOps) (c : SeqCtx) : Nat :=
  tcCols (c.k.tcOf x.td.toNat) * tileWidth (tcFmt (c.k.tcOf x.td.toNat)) / 8

/-- All rows pass: `tld` and `tst` are on the load path with the pieces of every row; no byte has moved yet (log entry 95, DESIGN
CHOICE: the rows move together when the operation completes). -/
def MovesTile (i : Instr) (x : XOps) (path perms kind : Nat) : Prop :=
  ∀ s c ps, Sequences s c [x.td.toNat] → c.q.full = false →
    s.tileRows c x perms kind (tcRows (c.k.tcOf x.td.toNat)) = .ok ps →
    (∀ p ∈ ps, settled s c.k.core (kind == 1) p.2 = true) →
    ∃ t k q, exec i s = .next t ∧ t.mem = s.mem ∧ t.tags = s.tags ∧ t.waves = s.waves ∧
      fget t.blocks c.b = some k ∧ k.seq = some q ∧ k.tiles = c.k.tiles ∧ k.tc = c.k.tc ∧
      q.pc = pc56 (c.q.pc + 8) ∧ q.m = c.q.m ∧ q.ended = false ∧
      q.ops = c.q.ops ++ [⟨c.q.pc, [x.td.toNat], path, 0, ps.map (·.1)⟩]

/-- What passing means: each row passed its capability check and is aligned, and each of its 16-byte pieces was translated
at its own address. -/
def RowsPass (x : XOps) (perms kind : Nat) : Prop :=
  ∀ (s : State) (c : SeqCtx) (n : Nat) (ps : List (Piece × TlbEntry)), s.tileRows c x perms kind n = .ok ps → ∀ r, r < n →
    capCheck (c.q.getMc (bfld x.mod 2 0)) (rowAddr x c r).toNat (rowBytes x c) perms 0 = none ∧
      (rowAddr x c r).toNat % 16 = 0 ∧
      ∀ i, i < (rowBytes x c + 15) / 16 → ∃ e, s.seqTranslate c (rowAddr x c r + BitVec.ofNat 64 (16 * i)).toNat kind = .ok e ∧
        (⟨rowAddr x c r + BitVec.ofNat 64 (16 * i), e.key (rowAddr x c r + BitVec.ofNat 64 (16 * i)).toNat,
          16384 * x.td.toNat + 256 * r + 16 * i, min 16 (rowBytes x c - 16 * i), e.swm⟩, e) ∈ ps

/-- A row that fails a check ends the stream, and no row moves. -/
def rowFaultRows (x : XOps) : List SeqRow :=
  let row := fun (i : Instr) (perms kind code : Nat) =>
    ({ i := i, tiles := [x.td.toNat]
       ok := fun s c => c.q.full = false ∧ steady s c ∧ code ≠ cNOTPRESENT ∧
         ∃ va, s.tileRows c x perms kind (tcRows (c.k.tcOf x.td.toNat)) = .error (code, va)
       q := faulted code } : SeqRow)
  (List.range 256).flatMap fun code => [row (.tld x) pLOAD 0 code, row (.tst x) pSTORE 1 code]

/-! ### tmmasp (R324) -/

/-- What a step reads: the nonzeros of K block `blk` with their values. -/
def stepReads (x : XOps) (s : State) (c : SeqCtx) (z : GenCtx) (p : Pat) (blk : Nat) : Gen (List SpElem) :=
  let cap := c.q.getMc (bfld x.mod 3 1)
  let m0 := (c.q.getM x.mr.toNat).toNat
  let tc := c.k.tcOf x.ta.toNat
  spStep p (s.seqReader c cap) (BitVec.ofNat 64 z.cap.base) (BitVec.ofNat 64 cap.base + c.q.getM (x.mr.toNat + 1)) z.t
    (m0 % 2 ^ 32) (m0 / 2 ^ 32) (tcRows tc) (tcCols tc) blk (tileWidth (tcFmt tc))

/-- Memory, waves and the other blocks are as they were. -/
def sparseKeeps (s t : State) (c : SeqCtx) : Prop :=
  t.mem = s.mem ∧ t.waves = s.waves ∧ ∀ j, j ≠ c.b → fget t.blocks j = fget s.blocks j

/-- A K block with these nonzeros is done: one without any writes nothing and is not counted; the word stays until its last
block. -/
def Stepped (x : XOps) (s t : State) (c : SeqCtx) (es : List SpElem) : Prop :=
  let tc := c.k.tcOf x.ta.toNat
  sparseKeeps s t c ∧ ∃ k q, fget t.blocks c.b = some k ∧ k.seq = some q ∧ k.tc = c.k.tc ∧
    k.tiles = (c.k.spBlock x.td.toNat x.ta.toNat x.tb.toNat c.q.step (tcRows tc) (tcCols tc) es).1.tiles ∧
    q.dsteps = (if es.isEmpty then c.q.dsteps else min 65535 (c.q.dsteps + 1)) ∧ q.m = c.q.m ∧ q.z = c.q.z ∧
    if tcCols tc ≤ 32 * (c.q.step + 1) then q.step = 0 ∧ q.pc = pc56 (c.q.pc + 8)
    else q.step = c.q.step + 1 ∧ q.pc = c.q.pc

/-- No line read has a cork that does not match, and no read changes the class of its page. -/
def goodLines (s : State) (c : SeqCtx) (rs : List VRead) : Prop :=
  ∀ r ∈ rs, s.readBad c.k.core r = false ∧ settled s c.k.core false r.hit.e = true

/-- A resumed `tmmasp` performs its next K block. -/
def SparseSteps (x : XOps) : Prop :=
  ∀ s c z p es rs, Sequences s c [x.td.toNat, x.ta.toNat, x.tb.toNat] → c.q.full = false → noneRuns c → c.q.step ≠ 0 →
    fget c.q.z (bfld x.mod 5 4) = some z → parsePat z.words = some p →
    stepReads x s c z p c.q.step [] = .ok (es, rs) → goodLines s c rs →
    ∃ t, exec (.tmmasp x) s = .next t ∧ Stepped x s t c es

/-- The state once the reads of a fresh `tmmasp`'s program have left their traces and its context is bound, with DSTEPS zero. -/
def sparseBound (x : XOps) (s : State) (c : SeqCtx) (z : GenCtx) (rs : List VRead) : State :=
  (s.seqReads c rs fun s => s).modSeq c.b fun q => { q with z := fset q.z (bfld x.mod 5 4) z, dsteps := 0 }

/-- A fresh `tmmasp` whose program can be read binds it to its context, with DSTEPS zero, which changes nothing else that a program
can see; where the nonzeros of K block 0 can then be read it completes with that block performed. -/
def SparseStarts (x : XOps) : Prop :=
  ∀ s c z p rs, Sequences s c [x.td.toNat, x.ta.toNat, x.tb.toNat] → c.q.full = false → noneRuns c → c.q.step = 0 →
    multiplies x false c → s.spBind c x (bfld x.mod 0 0 == 1) [] = .ok ((z, p), rs) → goodLines s c rs →
    let s1 := sparseBound x s c z rs
    (∃ k q, fget s1.blocks c.b = some k ∧ k.seq = some q ∧ sparseKeeps s s1 c ∧ k.tiles = c.k.tiles ∧ k.tc = c.k.tc ∧
      fget q.z (bfld x.mod 5 4) = some z ∧ q.dsteps = 0 ∧ q.step = 0 ∧ q.m = c.q.m ∧ q.pc = c.q.pc) ∧
    ∀ k q es rs', fget s1.blocks c.b = some k → k.seq = some q →
      stepReads x s1 ⟨c.b, k, q⟩ z p 0 [] = .ok (es, rs') → goodLines s1 c rs' →
      ∃ t, exec (.tmmasp x) s = .next t ∧ Stepped x s1 t ⟨c.b, k, q⟩ es

/-- A dense step: the nonzeros stand in the staging tile, and each accumulator takes its one group (R313); a block without
nonzeros changes no tile. -/
def SparseBlock (d a b blk : Nat) (es : List SpElem) : Prop :=
  ∀ k : Block, (es = [] → k.spBlock d a b blk (tcRows (k.tcOf a)) (tcCols (k.tcOf a)) es = (k, 0)) ∧
    (es ≠ [] → tcLegal (k.tcOf d) = true → tcLegal (k.tcOf a) = true → tcFmt (k.tcOf d) = 0 → tcFmt (k.tcOf a) ≠ 7 →
      d ≠ a → d ≠ b →
      (∀ e ∈ es, e.m < tcRows (k.tcOf a) ∧ e.k < tcCols (k.tcOf a) ∧ e.k / 32 = blk) →
      (es.map fun (e : SpElem) => (e.m, e.k)).Nodup →
      let k' := (k.spBlock d a b blk (tcRows (k.tcOf a)) (tcCols (k.tcOf a)) es).1
      (∀ e ∈ es, k'.raw a e.m e.k = tileBits (tcFmt (k.tcOf a)) e.x % 2 ^ tileWidth (tcFmt (k.tcOf a))) ∧
      (∀ m n, m < tcRows (k.tcOf a) → n < tcCols (k.tcOf a) → n / 32 = blk → (∀ e ∈ es, ¬(e.m = m ∧ e.k = n)) →
        k'.raw a m n = 0) ∧
      (∀ m n, n / 32 ≠ blk → k'.raw a m n = k.raw a m n) ∧
      ∀ m n, m < min (tcRows (k.tcOf d)) (tcRows (k.tcOf a)) → n < min (tcCols (k.tcOf d)) (tcRows (k.tcOf b)) →
        k'.raw d m n = (groupAcc (k.raw d m n)
          ((List.range 32).map fun i => (k'.val a m (32 * blk + i), k'.val b n (32 * blk + i))) (some 0)).1)

/-! ### Completion of tile operations (R327) -/

/-- The one operation of the block in flight completes: the unit's raises its flags; a load writes its pieces' bytes into the tile;
a store writes the tile's bytes to memory, bits 7:6 of an e3m2 element as zero (R57). That all rows move in this one step is log
entry 95 (DESIGN CHOICE). -/
def TileOpsComplete (b : Nat) : Prop :=
  ∀ s k q o, fget s.blocks b = some k → k.seq = some q → q.ops = [o] → s.unpassed = true →
    ∃ t k' q', exec (.tileOpComplete b) s = .next t ∧
      (o.path = 0 → t.mem = s.mem ∧ fget t.blocks b = some k' ∧ k'.seq = some q' ∧ q'.ops = [] ∧ k'.tiles = k.tiles ∧
        q'.mflags = q.mflags ||| (BitVec.ofNat 32 o.flags &&& fflagsMask)) ∧
      (o.path = 1 → (∀ p ∈ o.rows, s.badAt (if p.swm then some (dieOf k.core) else none) p.key p.len = false) → t.mem = s.mem ∧ fget t.blocks b = some k' ∧
        k'.seq = some q' ∧ q'.ops = [] ∧ q'.mflags = q.mflags ∧
        ((o.rows.flatMap fun (p : Piece) => (List.range p.len).map fun i => p.off + i).Nodup →
          ∀ p ∈ o.rows, ∀ i, i < p.len → rget k'.tiles (p.off + i) = k.tileByte (p.off + i) (s.seqByte k b p.swm (p.key + i))) ∧
        ∀ a, (∀ p ∈ o.rows, ¬(p.off ≤ a ∧ a < p.off + p.len)) → rget k'.tiles a = rget k.tiles a) ∧
      (o.path = 2 → (s.core k.core).sq = [] → (∀ p ∈ o.rows, p.swm = false ∧ s.badAt none p.key p.len = false) →
        fget t.blocks b = some k' ∧ k'.seq = some q' ∧ q'.ops = [] ∧ k'.tiles = k.tiles ∧
        ((o.rows.flatMap fun (p : Piece) => (List.range p.len).map fun i => p.key + i).Nodup →
          ∀ p ∈ o.rows, ∀ i, i < p.len → t.mem.byte (p.key + i) = k.tileOut (p.off + i)) ∧
        ∀ a, (∀ p ∈ o.rows, ¬(p.key ≤ a ∧ a < p.key + p.len)) → t.mem.byte a = s.mem.byte a)

end Sys2Proof.Claims
end

