-- ==== Sys2Proof/Certificates/Slice0/Package.lean ====
section
/-!
DEFINITION. The events of the fabric, of blends, of errors, of firmware and of the host as the claims state them
(spec/16_fabric_and_blends.md, R381 to R403; spec/17_traps_errors_context.md, R410 to R416, R420;
spec/18_host_and_bringup.md, R429 to R438; spec/01_machine.md, R20).
-/
namespace Sys2Proof.Claims
open Sys2Proof.Machine

/-! ### Fabric packets (R380 to R386, R392) -/

/-- The packet's one entry passes its checks, and performing it changes no page's class; its data lies at `key`. -/
def Ingress (s : State) (p : ForeignPacket) (l : Nat) (va : DWord) (x : QWord) (key : Nat) : Prop :=
  p.lanes = [(l, va, x)] ∧ s.badAt none key p.size = false ∧ 0 < p.size ∧ ∃ e, s.ingressCheck p l va = .ok e ∧ e.swm = false ∧ e.key va.toNat = key ∧
    (e.pteAddr = 0 ∨ pCLASS (s.pteOf e) ≠ 1)

/-- The counts of a write packet's stream and path rise by one, and no others (R382). -/
def Counted (s t : State) (p : ForeignPacket) : Prop :=
  ∀ (q : ForeignPacket) k, t.arrived q k =
    if sameStream p q = true ∧ p.path = k ∧ pktWrite p = true then (s.arrived q k + 1) % 2 ^ 32 else s.arrived q k

/-- Nothing on the packet's path or in its stream stands before it. -/
def Comes (s : State) (p : ForeignPacket) : Prop := s.behindFlag p = false ∧ s.behindStalled (.foreign p) p = false

/-- A packet of another package arrives: a store writes its bytes, an atomic its result, a load writes nothing; an ordered
flag whose stream has not all arrived is held; a packet whose page is absent stands and waits. -/
def PacketsArrive (p : ForeignPacket) : Prop :=
  let n := p.size
  (∀ s l va x key, Comes s p → s.flagDue p = true → Ingress s p l va x key → (p.kind = 0 ∨ p.kind = 3) →
    ∃ t, exec (.fabricPacketArrive (.foreign p)) s = .next t ∧ Counted s t p ∧
      (∀ i, i < n → t.mem.byte (key + i) = BitVec.ofNat 8 (x.toNat / 256 ^ i)) ∧
      ∀ k, (k < key ∨ key + n ≤ k) → t.mem.byte k = s.mem.byte k) ∧
  (∀ s l va x key, Comes s p → s.flagDue p = true → Ingress s p l va x key → p.kind = 2 →
    ∃ t, exec (.fabricPacketArrive (.foreign p)) s = .next t ∧ Counted s t p ∧
      (∀ i, i < n → t.mem.byte (key + i) =
        BitVec.ofNat 8 ((atomOp p.opk n (s.mem.num key n) (x.toNat % 2 ^ (8 * n))).1 / 256 ^ i)) ∧
      ∀ k, (k < key ∨ key + n ≤ k) → t.mem.byte k = s.mem.byte k) ∧
  (∀ s l va x key, Comes s p → s.flagDue p = true → Ingress s p l va x key → p.kind = 1 →
    exec (.fabricPacketArrive (.foreign p)) s = .next { s with stalled := s.stalled.filter fun y => y != .foreign p }) ∧
  (∀ s, Comes s p → s.flagDue p = false →
    exec (.fabricPacketArrive (.foreign p)) s =
      .next { s with nextId := s.nextId + 1, heldFlags := fset s.heldFlags s.nextId ⟨p, none⟩ }) ∧
  ∀ s, Comes s p → s.flagDue p = true → s.ingressFault p = some cNOTPRESENT → .foreign p ∉ s.stalled →
    exec (.fabricPacketArrive (.foreign p)) s = .next { s with stalled := s.stalled ++ [.foreign p] }

/-- R385: a held flag is applied once every path of its stream has caught up. -/
def FlagsApplied (idx : Nat) : Prop :=
  ∀ s f l va x key, fget s.heldFlags idx = some f → s.flagDue f.pkt = true → Ingress s f.pkt l va x key → f.pkt.kind = 3 →
    ∃ t, exec (.orderedFlagApply idx) s = .next t ∧ fget t.heldFlags idx = none ∧
      (∀ i, i < f.pkt.size → t.mem.byte (key + i) = BitVec.ofNat 8 (x.toNat / 256 ^ i)) ∧
      ∀ k, (k < key ∨ key + f.pkt.size ≤ k) → t.mem.byte k = s.mem.byte k

/-- R391, R392: the acknowledgement of a one-lane load or atomic to another package brings its value and flags into the
lane's register; of a write, it brings nothing. The packet is gone, and its part of the operation is done. -/
def PacketsAcknowledged (id : Nat) : Prop :=
  ∀ s p w th l va x y fl, fget s.packets id = some p → s.toSelf p = false → s.left id p = true → p.pkt.kind ≠ 4 → p.pkt.lanes = [(l, va, x)] →
    s.wave p.wave = some w → fget s.saved p.wave = none → w.th l = some th → noWaits w →
    (∀ t ∈ w.threads, ∀ n g, t.2.wait ≠ .ffence n g) →
    ∃ t w', exec (.fabricAck id (some (.values [(l, y, fl)]))) s = .next t ∧ t.mem = s.mem ∧ fget t.packets id = none ∧
      (∀ k, k ≠ id → fget t.packets k = fget s.packets k) ∧ t.wave p.wave = some w' ∧ w'.ops = (w.opDone p.op).ops ∧
      w'.th l = some (if p.pkt.kind = 1 ∨ p.pkt.kind = 2 then
        { (th.setSized p.dst p.pkt.size p.sext y.toNat) with fflags := th.fflags ||| (fl &&& fflagsMask) } else th)

/-- R381, R382: links. That a fresh flit's failure begins the count anew, and that a resend counts only behind one, is the model's
reading of "consecutive" (log entry 122). -/
noncomputable def linkRows (link : Nat) : List EventRow :=
  let up := fun (s : State) => link < 36 ∧ link ∉ s.linksDown
  let fallen := fun (s t : State) => ({ t with linksDown := [], crcRetries := [] } : State) = { s with linksDown := [], crcRetries := [] } ∧
    (∀ k, k ∈ t.linksDown ↔ k = link ∨ k ∈ s.linksDown) ∧ fget t.crcRetries link = none ∧
    ∀ k, k ≠ link → fget t.crcRetries k = fget s.crcRetries k
  let failed := fun (s : State) => (fget s.crcRetries link).getD 0 + 1
  [{ i := .flitCrcFail ⟨link, false⟩, ok := up, post := fun s t => t = { s with crcRetries := fset s.crcRetries link 0 } },
   { i := .flitCrcFail ⟨link, true⟩, ok := fun s => up s ∧ (fget s.crcRetries link).isSome = true ∧ failed s < 16
     post := fun s t => t = { s with crcRetries := fset s.crcRetries link (failed s) } },
   { i := .flitCrcFail ⟨link, true⟩, ok := fun s => up s ∧ (fget s.crcRetries link).isSome = true ∧ 16 ≤ failed s, post := fallen },
   { i := .linkFail link, ok := up, post := fallen }]

/-! ### FPUT and collectives (R395 to R400) -/

/-- The command is the next of its wave to the fabric, and its records were read. -/
def NextFab (s : State) (id kind : Nat) (c : Cmd) : Prop :=
  fget s.cmds id = some c ∧ cKIND c.words = kind ∧ c.stage = .queued ∧ s.inTurnFab id c = true ∧ c.fault = none

/-- R395: a put without a flag to a LIVE member sends every element in packets of its own, where the engine of its die has room for
them (R383). -/
def Puts (id : Nat) : Prop :=
  ∀ s c a b, NextFab s id kFPUT c → Tensor.parse c.srec false = some a → Tensor.parse c.drec false = some b →
    a.code = b.code → a.un = b.un → a.count = b.count → c.dcap.space = 2 → cmdFld c.words 0x28 0 0 = 0 →
    (∀ va ∈ b.span, capCheck c.dcap va 1 pSTORE 2 = none) → s.memberLive c.port c.dcap.member = true →
    Granted c.scap pLOAD a.span → Open s c.core c.port false a.span →
    s.dieLoad (dieOf c.core) + b.span.length ≤ 8192 →
    ∃ t, exec (.fput id) s = .next t ∧ t.mem = s.mem ∧ t.waves = s.waves ∧
      fget t.cmds id = some { c with stage := .moved, flags := 0, unsent := [] } ∧
      ∀ n, n < a.count → ∀ e ∈ Tensor.entries b (digits b.ext n) (s.engElem c.core c.port a (digits a.ext n)),
        ∃ k p, fget t.packets k = some p ∧ e ∈ p.pkt.lanes ∧ p.op = c.op ∧ p.member = c.dcap.member ∧ p.pkt.kind = 4 ∧
          p.res = none ∧ p.pkt.path < 4

/-- R396, R397: a COLL of a LIVE member that does not lead contributes its elements, which leave for the leader; its command
waits for the result. That firmware's poison mark is set before the contribution (log entry 40) and that the contribution keeps
the LIVE set of the moment it was offered (log entry 121) are the model's choices. -/
def Contributes (i : Instr) (id cop : Nat) : Prop :=
  ∀ s c blend b self, NextFab s id kCOLL c → cCOP c.words = cop → s.blendOf c.port = some (blend, b, self) →
    b.st self = eLIVE → s.leads' blend = false → c.collShape b.size (self == cROOT c.words) = true →
    c.noRoot b.size = false → c.rootAway b = false → s.recordCheck c = none → s.destCheck c = none → Granted c.scap pLOAD c.sourceBytes →
    Open s c.core c.port false c.sourceBytes → s.foldAbandoned c = false →
    ∃ t x, exec i s = .next t ∧ t.mem = s.mem ∧ t.waves = s.waves ∧
      fget t.cmds id = some { c with stage := .contributed, flags := 0 } ∧ 
      t.outbox = s.outbox ++ [⟨blend, x.seq, b.inState eLIVE, [x]⟩] ∧ x.blend = blend ∧ x.seq = cmdFld c.words 0x20 31 0 ∧
      x.member = self ∧ (x.poison = true ↔ (blend, x.seq) ∈ s.poisons) ∧ x.cop = cop ∧ x.rop = cROP c.words ∧
      x.root = cROOT c.words ∧
      (x.poison = false → cop < 2 ∨ (cop = 2 ∧ self = cROOT c.words) → ∀ a, Tensor.parse c.srec false = some a →
        x.elems = (List.range a.count).map fun n => BitVec.ofNat 32 (s.engElem c.core c.port a (digits a.ext n))) ∧
      (cop = 3 → x.elems = [] ∧ x.ckpt.toNat = cmdFld c.words 0x28 63 0)

/-- R397: a contribution reaches the leader; while a LIVE member's is missing the collective stays undecided. -/
def ContributionsArrive (c : Contribution) : Prop :=
  ∀ s b port self, fget s.blends c.blend = some b → s.selfIn c.blend = some (port, self) → b.leader = some self →
    self ≠ c.member → b.st c.member = eLIVE → (∀ k ∈ s.colls, ¬(k.blend = c.blend ∧ k.seq = c.seq)) →
    (∃ m ∈ b.inState eLIVE, m ≠ c.member) →
    ∃ t, exec (.collContributionArrive c) s = .next t ∧ t.decided = s.decided ∧ t.mem = s.mem ∧ t.waves = s.waves ∧
      t.colls = s.colls ++ [⟨c.blend, c.seq, b.inState eLIVE, [c]⟩]

/-- R397, R398: the last contribution of the LIVE members decides the collective: an ALLRED of agreeing contributions folds
them in ascending member order; where the racking log has no room for the result, STATUS says so (R402). -/
def CollectivesDecide (c : Contribution) : Prop :=
  ∀ s b port self k rest, fget s.blends c.blend = some b → s.selfIn c.blend = some (port, self) → b.leader = some self →
    self ≠ c.member → b.st c.member = eLIVE → s.colls = k :: rest → k.blend = c.blend → k.seq = c.seq →
    (∀ x ∈ rest, ¬(x.blend = c.blend ∧ x.seq = c.seq)) →
    (∀ x ∈ k.cs, x.member ≠ c.member) → (∀ m ∈ b.inState eLIVE, m = c.member ∨ ∃ x ∈ k.cs, x.member = m) →
    k.live = b.inState eLIVE → (∀ x ∈ c :: k.cs, agree c x = true ∧ x.cop = 0 ∧ x.poison = false) →
    let of := fun (m : Nat) => (k.cs ++ [c]).find? fun x => x.member == m
    let all := (b.inState eLIVE).filterMap of
    let size := 64 + (1088 + (c.elems.length * ((Fmt.ofCode (c.fmt % 16) false).map Fmt.width).getD 8 + 7) / 8 + 63) / 64 * 64
    ∃ t r, exec (.collContributionArrive c) s = .next t ∧ t.decided = s.decided ++ [r] ∧ r.blend = c.blend ∧ r.seq = c.seq ∧
      r.gen = b.gen ∧ r.cmask = all.map (fun x => x.member) ∧ r.pmask = [] ∧ (∀ x ∈ t.colls, x ∈ rest) ∧
      if rackCapacity < logBytes (s.port port).log + size then r.status = 2 ∧ r.elems = []
      else r.status = 0 ∧ r.elems.length = c.elems.length ∧
        ∀ j, j < c.elems.length → ∀ h tl, all = h :: tl →
          r.elems.getD j 0 = tl.foldl (fun (a : Word) x =>
            BitVec.ofNat 32 (reduceStep c.rop c.fmt a.toNat (x.elems.getD j 0).toNat).1) (h.elems.getD j 0)

/-- R397, R400: a result from a leader elsewhere reaches the command that waits for it: its elements and its record are
written, and the command has moved its data. -/
def ResultsArrive (r : CollResult) : Prop :=
  ∀ s port self id c b, r ∉ s.decided → s.leads' r.blend = false → s.selfIn r.blend = some (port, self) →
    s.collWaiting r.blend r.seq = some (id, c) → fget s.cmds id = some c → s.recordCheck c = none → s.destCheck c = none →
    r.cop < 3 → (r.status = 0 ∨ r.status = 1) → Tensor.parse c.drec false = some b → r.elems.length = b.count →
    elementsApart b → Open s c.core c.port true (b.span ++ (List.range 1088).map fun i => cXREC c.words + i) →
    Apart s c.core c.port (b.span ++ (List.range 1088).map fun i => cXREC c.words + i) [] →
    Fixed s c.core c.port (b.span ++ (List.range 1088).map fun i => cXREC c.words + i)
      (b.span ++ (List.range 1088).map fun i => cXREC c.words + i) →
    (∀ va ∈ b.span, va < cXREC c.words ∨ cXREC c.words + 1088 ≤ va) → b.width = 32 →
    ∃ t, exec (.collResultArrive r) s = .next t ∧
      fget t.cmds id = some { c with stage := .moved, flags := r.flags } ∧
      (∀ n, n < b.count → t.engElem c.core c.port b (digits b.ext n) = (r.elems.getD n 0).toNat) ∧
      t.get4 c.core c.port (cXREC c.words) = r.status ∧
      t.get4 c.core c.port (cXREC c.words + 4) = r.gen % 2 ^ 32 ∧ t.get4 c.core c.port (cXREC c.words + 8) = r.seq % 2 ^ 32

/-! ### Membership (R401, R403) -/

/-- An entry of a blend table in its new state: the generation has risen, every other entry is as it was. -/
def Entered (s t : State) (blend m st : Nat) : Prop :=
  ∀ b, fget s.blends blend = some b → ∃ b', fget t.blends blend = some b' ∧ b'.gen = (b.gen + 1) % 2 ^ 32 ∧ b'.st m = st ∧
    b'.size = b.size ∧ (∀ k, k ≠ m → rget b'.ents k = rget b.ents k) ∧
    ∀ n, n ≠ blend → fget t.blends n = fget s.blends n

/-- No membership entry stands in a log: what a joining member replays changes no table. -/
def plainLogs (s : State) : Prop := ∀ n p, (n, p) ∈ s.ports → ∀ e ∈ p.log ++ p.replay, ∃ r, e = .coll r

noncomputable def memberRows (blend m pkg : Nat) : List EventRow :=
  [{ i := .memberDeclareDead blend m
     ok := fun s => ∃ b, fget s.blends blend = some b ∧ m < b.size ∧ (b.st m = 1 ∨ b.st m = 3) ∧ plainLogs s
     post := fun s t => Entered s t blend m 2 ∧ ∀ id p, fget t.packets id = some p → ¬(p.blend = blend ∧ p.member = m) },
   { i := .spareJoin blend m pkg
     ok := fun s => ∃ b, fget s.blends blend = some b ∧ m < b.size ∧ (b.st m = 0 ∨ b.st m = 2) ∧ plainLogs s
     post := fun s t => Entered s t blend m 3 ∧ t.mem = s.mem ∧ t.waves = s.waves ∧
       ∀ n p, fget s.ports n = some p → p.blend = some (blend, m) → pkg % 4096 ≠ s.package → (t.port n).blend = none },
   { i := .spareLive blend m
     ok := fun s => ∃ b, fget s.blends blend = some b ∧ m < b.size ∧ b.st m = 3 ∧ plainLogs s ∧
       ∀ n p, (n, p) ∈ s.ports → p.blend = some (blend, m) → p.replay = []
     post := fun s t => Entered s t blend m 1 ∧ t.mem = s.mem ∧ t.waves = s.waves }]

/-! ### Uncorrectable errors and decisions (R410, R413 to R416) -/

/-- R413: a wave of a T-core that consumes an error of a latch, a register or a unit, or of ingress whose consumer is none in
flight, freezes its cluster, with the error in its record; nothing else changes. -/
def ErrorsFreeze (e : ErrorReport) : Prop :=
  ∀ s w, e.seq = false → s.wave e.wave = some w → w.coreNo = e.core → e.core < 256 → e.lanes ≠ 0 →
    e.lanes &&& ~~~w.live = 0 → 1 ≤ e.src → e.src ≤ 9 → memorySource e.src = false →
    (e.src = 7 → s.consumingPacket e = none ∧ s.consumingAt e = none) → (s.cluster (e.core / 8)).frozen = none →
    ∃ t pc age, exec (.uncorrectableError e) s = .next t ∧
      ({ t with clusters := [] } : State) = { s with clusters := [] } ∧
      (t.cluster (e.core / 8)).frozen = some ⟨.error, s.clk,
        [⟨{ e with addr := if e.src = 5 ∨ e.src = 8 ∨ e.src = 9 then 0 else e.addr }, pc, age⟩]⟩ ∧
      (t.cluster (e.core / 8)).snaps.length = (s.clusterWaves (e.core / 8)).length ∧
      (∀ n ∈ (t.cluster (e.core / 8)).snaps, n.clk = s.clk ∧ (n.wave = e.wave → n.src = e.src ∧ n.lanes = e.lanes)) ∧
      ∀ n, n ≠ e.core / 8 → t.cluster n = s.cluster n

/-- R413: a fabric load or atomic that consumes poisoned ingress loses the lanes concerned, whose registers its acknowledgement
writes no more, and the cluster freezes. -/
def IngressPoisons (e : ErrorReport) : Prop :=
  ∀ s w id p, e.seq = false → s.wave e.wave = some w → w.coreNo = e.core → e.core < 256 → e.lanes ≠ 0 →
    e.lanes &&& ~~~w.live = 0 → e.src = 7 → s.consumingPacket e = some (id, p) → fget s.packets id = some p →
    ∃ t, exec (.uncorrectableError e) s = .next t ∧ t.mem = s.mem ∧ t.waves = s.waves ∧
      (t.cluster (e.core / 8)).frozen.isSome = true ∧ fget t.packets id = some { p with pkt := { p.pkt with
        lanes := p.pkt.lanes.filter fun x => !inMask e.lanes x.1 } }

/-- R410, R413: an error of a line of memory outside region buffers leaves the line, or on an SWM page the die's copy of it, without
its cork: that this is the damage such an error stands for is the model's reading (log entry 77). -/
def ErrorsMark (e : ErrorReport) : Prop :=
  ∀ s w x, e.seq = false → s.wave e.wave = some w → w.coreNo = e.core → e.core < 256 → e.lanes ≠ 0 →
    e.lanes &&& ~~~w.live = 0 → memorySource e.src = true → s.walkVa w.port e.addr.toNat = .ok x →
    s.inRegion w = false → ((s.core w.core).sq = [] ∨ ∀ x ∈ w.threads, ∀ sys n, x.2.wait ≠ .fenceSc sys n none) →
    ∃ t, exec (.uncorrectableError e) s = .next t ∧ t.mem = s.mem ∧
      s.lineRead (if x.swm then some (e.core / 64) else none) (x.key e.addr.toNat / 64) ∈ t.bad ∧
      (t.cluster (e.core / 8)).frozen.isSome = true

/-- No commit of a block region in the cluster is under way: none that the release would try again (R410). -/
def noCommits (s : State) (cl : Nat) : Prop :=
  ∀ n b, (n, b) ∈ s.blocks → clusterOf b.core = cl → ∀ k, (b.bar k).mode ≠ some .rcommit

/-- R415: firmware's decisions, in time and for every wave of the snapshot, release the cluster; a wave with RESUME that did
not consume the error goes on as it was, where every decision is RESUME. -/
def DecisionsRelease (cl : Nat) (ds : List (Nat × Byte)) : Prop :=
  ∀ s f, (s.cluster cl).frozen = some f → f.why = .error → f.errs ≠ [] →
    (∀ n ∈ (s.cluster cl).snaps, ∃ d ∈ ds, d.1 = n.wave) → (s.clk - f.since).toNat < 72000 → noCommits s cl →
    ∃ t, exec (.firmwareDecision cl ds) s = .next t ∧ (t.cluster cl).frozen = none ∧ (t.cluster cl).snaps = [] ∧
      ((∀ d ∈ ds, d.2 = 0) → ∀ u w, s.wave u = some w → (∀ e ∈ f.errs, e.rep.wave ≠ u ∧ e.rep.seq = false) →
        t.wave u = some w)

/-- R415: 72,000 clk after the error, a wave outside regions that consumed it is killed: its threads have exited, and its
launch will end KILLED; a wave that did not consume it goes on. That a freeze of power or temperature stands after the decisions is
the model's reading (log entry 82). -/
def DefaultsDecide (cl : Nat) : Prop :=
  (∀ s f, (s.cluster cl).frozen = some f → f.errs ≠ [] → 72000 ≤ (s.clk - f.since).toNat → noCommits s cl →
    ∃ t, exec (.decisionDefault cl) s = .next t ∧ (t.cluster cl).snaps = [] ∧
      (t.cluster cl).frozen = if f.why = .error then none else some { f with errs := [] }) ∧
  ∀ s f e w, (s.cluster cl).frozen = some f → f.why = .error → f.errs = [e] → e.rep.seq = false →
    s.clusterWaves cl = [(e.rep.wave, w)] → s.wave e.rep.wave = some w → s.inRegion w = false →
    72000 ≤ (s.clk - f.since).toNat → s.blockWaves w.blk = [(e.rep.wave, w)] → (fkeys w.threads).Nodup →
    (∀ k ∈ fkeys w.threads, k < 32) → noCommits s cl →
    ∃ t w', exec (.decisionDefault cl) s = .next t ∧ (t.cluster cl).frozen = none ∧ t.wave e.rep.wave = some w' ∧
      (∀ l th, w'.th l = some th → th.exited = true) ∧
      ∀ l, fget s.launches w.lid = some l → ∃ l', fget t.launches w.lid = some l' ∧ l'.kcode = cERROR

/-! ### Absent pages (R165, R166, R305) -/

/-- R165, R265, R305: firmware makes the page present where somebody waits for it: every lane parked on it that firmware means
issues its word again, a suspended section becomes ready, a sequencer goes on at its word, and other lanes stay as they are; lanes
that reached the page through other words wait on. That firmware may mean one word's lanes alone is how R165's last sentence is
read (log entry 84); that a page nobody waits for leaves all as it is, log entry 1. -/
def PagesResume (port : Nat) (va : DWord) (leaf : Option DWord) (who : Option (Nat × DWord)) : Prop :=
  (∀ s, s.awaited port va = true → (s.writeLeaf port va leaf).present port va = true → s.inRegionOn port va who = [] →
    ∃ t, exec (.firmwarePageResume port ⟨va, who⟩ leaf) s = .next t ∧ t.mem = (s.writeLeaf port va leaf).mem ∧
      (∀ u w l th, s.wave u = some w → w.sect = none → w.th l = some th → ∃ th', t.lane u l = some th' ∧
        th'.pc = th.pc ∧ th'.v = th.v ∧ th'.p = th.p ∧ th'.wait =
          (if w.port = port ∧ th.parkedOn va = true ∧ meant who u th.pc = true then .none else th.wait) ∧
        (leaf = none → { th' with wait := .none } = { th with wait := .none })) ∧
      (∀ u w c th, s.wave u = some w → w.sect = some c → c.suspended = true → w.port = port → w.th 0 = some th →
        th.parkedOn va = true → meant who u th.pc = true → ∃ w', t.wave u = some w' ∧ w'.sect = some { c with ready := true }) ∧
      ∀ n b q, fget s.blocks n = some b → b.seq = some q → s.portOf b = port → who = none → q.waitsOn va = true →
        ∃ b', fget t.blocks n = some b' ∧ b'.seq = some { q with wait := .none }) ∧
  ∀ s, (s.awaited port va = false ∨ (s.writeLeaf port va leaf).present port va = false) →
    exec (.firmwarePageResume port ⟨va, who⟩ leaf) s = .next s

/-- The lane is one to which firmware delivers the fault. -/
def receives (port : Nat) (va : DWord) (who : Option (Nat × DWord)) (u : Nat) (w : Wave) (th : Thread) : Prop :=
  w.port = port ∧ th.parkedOn va = true ∧ meant who u th.pc = true

/-- Every lane that receives the fault stands outside a doomed region and the handler, in a launch that has one. -/
def Deliverable (s : State) (port : Nat) (va : DWord) (who : Option (Nat × DWord)) : Prop :=
  (fkeys s.waves).Nodup ∧ s.inRegionOn port va who = [] ∧
    (∀ n b, (n, b) ∈ s.blocks → s.portOf b = port → who = none → ∀ q, b.seq = some q → q.waitsOn va = false) ∧
    ∀ u w, (u, w) ∈ s.waves → (fkeys w.threads).Nodup ∧ ∀ l th, (l, th) ∈ w.threads → receives port va who u w th →
      w.sect = none ∧ s.trapHandler w ≠ 0 ∧ th.tm = false ∧ (w.reg.any fun r => r.doomed) = false ∧
        ((s.blockRegion w).any fun r => r.doomed) = false

/-- R165, R404: firmware delivers the fault: every lane parked on the page that firmware means, in any wave, enters its handler with
PAGE_NOT_PRESENT, DEL set, and the address; every other lane stays as it is. That all the waiting words are meant where firmware
names none, and that the unit of absence is 4 KiB, is log entry 84. R305: a sequencer that waits for the page faults. -/
def FaultsDelivered (port : Nat) (va : DWord) (who : Option (Nat × DWord)) : Prop :=
  (∀ s, s.awaited port va = true → Deliverable s port va who →
    ∃ t, exec (.firmwareDeliverFault port ⟨va, who⟩) s = .next t ∧ t.mem = s.mem ∧ t.blocks = s.blocks ∧
      ∀ u w l th, s.wave u = some w → w.th l = some th → ∃ th', t.lane u l = some th' ∧
        (receives port va who u w th → ∀ a k, th.wait = .parked a k →
          th'.pc = s.trapHandler w ∧ th'.tm = true ∧ th'.tpc = th.pc ∧ th'.taddr = a ∧
            th'.tcause.toNat = 0x10000 + cNOTPRESENT ∧ th'.tdet = 0 ∧ th'.wait = .none ∧ th'.v = th.v ∧ th'.p = th.p) ∧
        (¬receives port va who u w th → th' = th)) ∧
  (∀ s n b q, s.awaited port va = true → who = none → fget s.blocks n = some b → s.portOf b = port → b.seq = some q →
    q.waitsOn va = true → q.ended = false → (∀ k, (b.bar k).mode = none) → s.inRegionOn port va who = [] →
    (∀ u w, (u, w) ∈ s.waves → ∀ l th, (l, th) ∈ w.threads → ¬receives port va who u w th) →
    (∀ m x, (m, x) ∈ s.blocks → m ≠ n → ∀ y, x.seq = some y → y.waitsOn va = false) → (fkeys s.blocks).Nodup →
    ∃ t b', exec (.firmwareDeliverFault port ⟨va, none⟩) s = .next t ∧ fget t.blocks n = some b' ∧
      b'.seq = some { q with ended := true, flt := true, code := cNOTPRESENT, wait := .none }) ∧
  ∀ s, s.awaited port va = false → exec (.firmwareDeliverFault port ⟨va, who⟩) s = .next s

/-- R166: a wave that met the absent page inside its region, and no lane that waits for the page outside one: whether firmware makes
the page present or delivers the fault, the innermost region aborts with reason FAULT, and every thread of the wave stands at its
handler. -/
def RegionsUnwind (port : Nat) (va : DWord) (leaf : Option DWord) (who : Option (Nat × DWord)) : Prop :=
  ∀ s u w, s.wave u = some w → w.sect = none → w.reg.isSome = true → w.escapes = [] → s.inRegionOn port va who = [u] →
    s.awaited port va = true → (∀ v x, (v, x) ∈ s.waves → ∀ l th, (l, th) ∈ x.threads → th.parkedOn va = false) →
    (∀ n b, (n, b) ∈ s.blocks → ∀ q, b.seq = some q → q.waitsOn va = false) →
    let post := fun (t : State) => ∃ w', t.wave u = some w' ∧ w'.reg = none ∧ w'.faultAbort = none ∧ w'.run = none ∧
      w'.rstat = rstatNext w.rstat cNOTPRESENT false 7 ∧ w'.s = w.s ∧
      ∀ l th, w.th l = some th → ∃ th', w'.th l = some th' ∧ th'.v = th.v ∧ th'.p = th.p ∧
        (th.exited = false → ∀ h, th.hWave = some h → th'.pc = h.pc ∧ th'.cd.toNat = h.cd % 65536 ∧ th'.wait = .none)
    (∃ t, exec (.firmwareDeliverFault port ⟨va, who⟩) s = .next t ∧ t.mem = s.mem ∧ post t) ∧
      ((s.writeLeaf port va leaf).present port va = true →
        ∃ t, exec (.firmwarePageResume port ⟨va, who⟩ leaf) s = .next t ∧ post t)

/-! ### Settings of cores, and memory by physical address (R20, R172, R438, R440) -/

noncomputable def settingRows (core : Nat) (k : Option Nat) (win : Nat) (mask : Word) : List EventRow :=
  [{ i := .setSamplingExponent core k
     ok := fun _ => core < 256 ∧ ∀ n, k = some n → 8 ≤ n ∧ n ≤ 20
     post := fun s t => coreOnly s t core { s.core core with samp := k, sampCnt := 0 } },
   { i := .setBlockWindow core win
     ok := fun s => core < 256 ∧ win ≤ 2 ^ 27 ∧ win % 4096 = 0 ∧
       ∀ n b, (n, b) ∈ s.blocks → b.placed = true → b.ended = false → (b.core = core ∨ b.sramCore = core) → b.sramLen = 0
     post := fun s t => coreOnly s t core { s.core core with win := win } },
   { i := .unitRetirement core mask
     ok := fun _ => core < 256
     post := fun s t => coreOnly s t core { s.core core with fmask := (s.core core).fmask &&& ~~~mask } }]

/-- R438: firmware's accesses by physical address; R167, R168: an address without memory. -/
def PhysicalAccesses (a n : Nat) (bs : List Byte) (tag : Bool) : Prop :=
  (∀ s, s.physical a n = false → exec (.physicalAccess (.read a n)) s = .fault (.noSuchAddress a)) ∧
  (∀ s, s.physical a n = true → 0 < n → s.badAt none a n = false →
    exec (.physicalAccess (.read a n)) s = .next { s with hostOut := .data ((List.range n).map fun i => s.mem.byte (a + i)) }) ∧
  (∀ s, s.physical a n = true → 0 < n → s.badAt none a n = true →
    exec (.physicalAccess (.read a n)) s = .next { s with hostOut := .poisoned }) ∧
  (∀ s, s.physical a bs.length = true → bs ≠ [] →
    ∃ t, exec (.physicalAccess (.write a bs)) s = .next t ∧
      (∀ i, i < bs.length → t.mem.byte (a + i) = bs.getD i 0) ∧
      (∀ k, (k < a ∨ a + bs.length ≤ k) → t.mem.byte k = s.mem.byte k) ∧
      ∀ g, a ≤ 16 * g + 15 → 16 * g < a + bs.length → g ∉ t.tags) ∧
  ∀ s, s.physical (a / 16 * 16) 16 = true →
    exec (.physicalAccess (.tag a tag)) s = .next { s with tags := sput s.tags (a / 16) tag } ∧
      exec (.physicalAccess (.readTag a)) s = .next { s with hostOut := .data [if s.tags.contains (a / 16) then 1 else 0] }

/-! ### The host (R429 to R432) -/

/-- Every byte of the access is mapped, at these keys, in pages that are not SWM and keep their class. -/
def HostPages (s : State) (port off n : Nat) (key : Nat → Nat) : Prop :=
  s.phase = 6 ∧ off + n ≤ (s.port port).partSize.toNat ∧ off + n ≤ 2 ^ 36 ∧
    ∀ i, i < n → ∃ e, s.walkVa port ((s.port port).partBase.toNat + off + i) = .ok e ∧ pRD e.pte = true ∧ pWR e.pte = true ∧
      e.swm = false ∧ e.key ((s.port port).partBase.toNat + off + i) = key i ∧ (e.pteAddr = 0 ∨ pCLASS (s.pteOf e) ≠ 1)

/-- R429: the aperture. -/
def HostAccesses (port off n : Nat) (bs : List Byte) : Prop :=
  (∀ s key, port < 2 → HostPages s port off n key → (∀ i, i < n → s.badAt none (key i) 1 = false) →
    exec (.hostApertureRead port off n) s =
      .next { s with hostOut := .data ((List.range n).map fun i => s.mem.byte (key i)) }) ∧
  (∀ s key, port < 2 → HostPages s port off bs.length key →
    (∀ i j, i < bs.length → j < bs.length → key i = key j → i = j) →
    (∀ m : Memory, (∀ k, (∀ i, i < bs.length → k ≠ key i) → m.byte k = s.mem.byte k) → ∀ i, i < bs.length →
      ({ s with mem := m } : State).walkVa port ((s.port port).partBase.toNat + off + i) =
        s.walkVa port ((s.port port).partBase.toNat + off + i) ∧
      ∀ e, s.walkVa port ((s.port port).partBase.toNat + off + i) = .ok e →
        ({ s with mem := m } : State).pteOf e = s.pteOf e) →
    ∃ t, exec (.hostApertureWrite port off bs) s = .next t ∧ t.hostOut = .none ∧
      (∀ i, i < bs.length → t.mem.byte (key i) = bs.getD i 0) ∧
      ∀ k, (∀ i, i < bs.length → k ≠ key i) → t.mem.byte k = s.mem.byte k) ∧
  -- R431: before phase 6 the aperture is an unsupported request
  ∀ s, port < 2 → s.phase ≠ 6 →
    exec (.hostApertureRead port off n) s = .next { s with hostOut := .unsupported } ∧
      exec (.hostApertureWrite port off bs) s = .next { s with hostOut := .unsupported }

/-- R430, R137: a function-level reset kills every launch of the function that has not ended; of its waves only those are left that
have yet to reach their next run boundary, or wait for the list operations they have issued, and of its blocks those that such a
wave or a tile operation keeps (log entry 83). -/
def FunctionsReset (port : Nat) : Prop :=
  (∀ s, port < 2 → (fkeys s.launches).Nodup → ∃ t, exec (.functionLevelReset port) s = .next t ∧
    ∀ lid l, fget s.launches lid = some l → l.port = port → ∃ l', fget t.launches lid = some l' ∧ l'.status.final = true) ∧
  ∀ s lid l, port < 2 → s.launches = [(lid, l)] → l.port = port → l.status.final = false → l.parent ≠ lid →
    ∃ t l', exec (.functionLevelReset port) s = .next t ∧ t.launches = [(lid, l')] ∧ l'.status = .killed ∧
      (∀ n b, fget t.blocks n = some b → b.lid = lid → (∃ y ∈ t.waves, y.2.sect = none ∧ y.2.blk = n) ∨
        (∃ y ∈ t.saved, y.2.blk = n) ∨ ∃ q, b.seq = some q ∧ q.ops ≠ []) ∧
      ∀ u w, t.wave u = some w → w.sect = none → w.lid = lid → w.run.isSome = true ∨ (w.live = 0 ∧ w.sops ≠ [])

/-- R431, R432: the register window and the firmware's settings. -/
noncomputable def registerRows (port : Nat) (v : DWord) : List EventRow :=
  let p := fun (s : State) => s.port port
  let here := port < 2
  [{ i := .brkrel port
     ok := fun s => here ∧ s.phase = 6 ∧ (p s).brks ≠ []
     post := fun s t => ∀ r rest, (p s).brks = r :: rest → (t.port port).brks = rest ∧ t.mem = s.mem ∧
       (∀ w, s.wave r.wave = some w → t.wave r.wave = some { w with brk := none, since := s.clk }) ∧
       ∀ w, fget s.saved r.wave = some w → fget t.saved r.wave = some { w with brk := none, since := s.clk } },
   { i := .brkrel port, ok := fun s => here ∧ (s.phase ≠ 6 ∨ (p s).brks = []), post := fun s t => t = s },
   { i := .registerWrite (.root port) v, ok := fun _ => here, post := fun s t => portOnly s t port { p s with root := v } },
   { i := .registerWrite (.partBase port) v, ok := fun _ => here
     post := fun s t => portOnly s t port { p s with partBase := v } },
   { i := .registerWrite (.partSize port) v, ok := fun _ => here
     post := fun s t => portOnly s t port { p s with partSize := v } },
   { i := .registerWrite .powerLimit v, ok := fun _ => True, post := fun s t => t = { s with limit := v.toNat } },
   { i := .registerWrite (.bar0 port 0x20) v, ok := fun s => here ∧ s.phase = 6
     post := fun s t => portOnly s t port { p s with htBase := v } },
   { i := .registerWrite (.bar0 port 0x28) v, ok := fun s => here ∧ s.phase = 6
     post := fun s t => portOnly s t port { p s with htCount := v.setWidth 32 } },
   -- read-only registers ignore writes
   { i := .registerWrite (.bar0 port 0x00) v, ok := fun _ => here, post := fun s t => t = s },
   { i := .registerWrite (.bar0 port 0x08) v, ok := fun _ => here, post := fun s t => t = s },
   { i := .registerWrite (.bar0 port 0x10) v, ok := fun _ => here, post := fun s t => t = s }]

/-- R431: before phase 6 every host register ignores writes. -/
def RegistersClosed (port off : Nat) (v : DWord) : Prop :=
  ∀ s, port < 2 → s.phase ≠ 6 → exec (.registerWrite (.bar0 port off) v) s = .next s

/-! ### Bring-up, power, temperature (R12, R20, R433 to R437) -/

/-- A phase ends: the next one, or FAIL with the phase's code, in which the package stays. -/
def ended (s : State) (ok : Bool) (code : Byte) : State :=
  if ok then { s with phase := s.phase + 1 } else { s with fail := true, fcode := code }

/-- R434: the image is signed with the fused key and new enough. The layout of key and image is log entry 143. -/
def signed (s : State) (g : FlashImage) : Prop :=
  keyDigest g.key = s.keyHash ∧ s.minVersion ≤ g.version ∧ ecdsaVerifies g.key (sha384 g.image).toNat g.sigR g.sigS = true

noncomputable def bringUpRows (f : Fuses) (ok : Bool) (flash : Option FlashImage) (up required dead : List Nat)
    (failed : List (Nat × Word)) : List EventRow :=
  let at_ := fun (n : BitVec 3) (s : State) => s.phase = n ∧ s.fail = false ∧ s.shutdown = false
  let survive := ∀ d, d < 4 → ∃ i, i < 64 ∧ 64 * d + i ∉ dead
  [{ i := .powerGood, ok := at_ 0, post := fun s t => t = { s with phase := 1, clk := 0, windowsDone := 0 } },
   { i := .fuseRead f, ok := fun s => at_ 1 s ∧ f.tier2.toNat ≤ 1024 ∧ f.ceiling = 3800
     post := fun s t => (f.ok = true → t = { s with
         phase := 2, ceiling := 3800, repair := f.repair, keyHash := f.keyHash, minVersion := f.version
         ident := t.ident, config := t.config } ∧
         bfld t.ident 31 8 = 0x4B4D08 ∧ bfld t.ident 7 0 = f.stepping.toNat ∧ bfld t.config 0 0 = (if f.cxl then 1 else 0) ∧
         bfld t.config 15 4 = f.tier2.toNat) ∧
       (f.ok = false → t = { s with fail := true, fcode := 1 }) },
   { i := .sramRepairTest failed dead, ok := at_ 2
     post := fun s t => ({ t with cores := [], phase := 0, fail := false, fcode := 0 } : State) =
         { s with cores := [], phase := 0, fail := false, fcode := 0, deadCores := dead } ∧
       (survive → t.phase = 3 ∧ t.fail = false) ∧ (¬survive → t.phase = 2 ∧ t.fail = true ∧ t.fcode = 2) ∧
       ∀ n, t.core n = { s.core n with
         fmask := (failed.filter fun x => x.1 == n).foldl (fun m x => m &&& ~~~x.2) (s.core n).fmask } },
   { i := .memoryTraining ok, ok := at_ 3, post := fun s t => t = ended s ok 3 },
   { i := .firmwareAuthentication flash, ok := at_ 4
     post := fun s t => (∀ g, flash = some g → signed s g → t = { s with phase := 5, firmware := some g.image }) ∧
       ((∀ g, flash = some g → ¬signed s g) → t = { s with fail := true, fcode := 4 }) },
   { i := .fabricLinkTraining up required, ok := at_ 5
     post := fun s t => (∀ k, k ∈ t.linksDown ↔ k < 36 ∧ k ∉ up) ∧
       ((∀ k ∈ required, k ∈ up) → t.phase = 6 ∧ t.fail = false ∧
         ({ t with cores := [], phase := 5, linksDown := [] } : State) = { s with cores := [], linksDown := [] } ∧
         ∀ n, (t.core n).samp = none ∧ (t.core n).replays = [] ∧ (t.core n).fmask = (s.core n).fmask) ∧
       ((∃ k ∈ required, k ∉ up) → t = { s with fail := true, fcode := 5, linksDown := t.linksDown }) }]

/-- R433: a package that has failed stays where it is. -/
def FailureStays : Prop :=
  ∀ s f o g u r d l, s.fail = true → ∀ i ∈ [.powerGood, .fuseRead f, .sramRepairTest l d, .memoryTraining o,
      .firmwareAuthentication g, .fabricLinkTraining u r], exec i s = .next s

/-- R436: the clamp at the end of a window: over the lesser of the setting and the fused ceiling the clock falls one step, to
no less than its floor; below 95% of it, it rises one step, to no more than 3,600 MHz. A window is 4,096 clk: before its end
nothing happens. That a cluster freezes at each window past the sixteenth is the model's reading (log entry 89). -/
def PowerClamps (watts : Nat) : Prop :=
  (∀ s, s.clk.toNat < 4096 * (s.windowsDone + 1) → exec (.powerWindow watts) s = .next s) ∧
  ∀ s, s.phase ≠ 0 → 4096 * (s.windowsDone + 1) ≤ s.clk.toNat →
    ∃ t, exec (.powerWindow watts) s = .next t ∧ t.mem = s.mem ∧ t.waves = s.waves ∧ t.windowsDone = s.windowsDone + 1 ∧
    (min s.limit s.ceiling < watts → t.mhz = max 1200 (s.mhz - 100)) ∧
    (watts * 100 < min s.limit s.ceiling * 95 → t.mhz = min 3600 (s.mhz + 100)) ∧
    (watts ≤ min s.limit s.ceiling → min s.limit s.ceiling * 95 ≤ watts * 100 → t.mhz = s.mhz) ∧
    (s.mhz = 1200 → min s.limit s.ceiling < watts → t.powerEvents = s.powerEvents + 1) ∧
    (s.mhz = 1200 → s.ceiling < watts → 15 ≤ s.overBudget → ∀ n, n < 32 → (t.cluster n).frozen.isSome = true) ∧
    ((s.mhz ≠ 1200 ∨ watts ≤ s.ceiling) → t.overBudget = 0 ∧ t.clusters = s.clusters)

/-- R437: the temperature limits, and firmware's release of the clusters. That a trip also makes an error freeze a thermal one, so
that the clusters wait for firmware's release after the decisions, is the model's reading (log entry 82). -/
noncomputable def heatRows (limit : Nat) : List EventRow :=
  [{ i := .thermalTrip, ok := fun _ => True
     post := fun s t => ({ t with clusters := [] } : State) = { s with thermalEvents := s.thermalEvents + 1, clusters := [] } ∧
       ∀ n, n < 32 → ∃ f, (t.cluster n).frozen = some f ∧ f.why = .thermal ∧
         ((s.cluster n).frozen = none → f.errs = [] ∧ f.since = s.clk) },
   { i := .thermalShutdown, ok := fun _ => True, post := fun s t => t = { s with shutdown := true } },
   { i := .firmwareUnfreeze limit
     ok := fun s => limit ≤ s.limit ∧ ∃ n c f, (n, c) ∈ s.clusters ∧ c.frozen = some f ∧ f.why ≠ .error
     post := fun s t => ({ t with clusters := [] } : State) = { s with limit := limit, clusters := [] } ∧
       ∀ n c, fget s.clusters n = some c → ∃ c', fget t.clusters n = some c' ∧
         ∀ f, c.frozen = some f → f.why ≠ .error → f.errs = [] → c'.frozen = none },
   { i := .packageReset, ok := fun _ => True
     post := fun s t => t = { State.reset with agenda := s.agenda, ctr := s.ctr } }]

/-- R437: without power no step goes on but a reset, whatever the agenda holds: that the machine stops and a PACKAGE_RESET at the
head of the agenda brings it back is the shutdown's form in the model (log entry 142). -/
def PowerLost : Prop :=
  (∀ s, s.shutdown = true → (∀ dt rest, s.agenda ≠ ⟨dt, .event .packageReset⟩ :: rest) → step s = .fault .poweredOff) ∧
  ∀ s dt rest, s.shutdown = true → s.agenda = ⟨dt, .event .packageReset⟩ :: rest →
    step s = .next { State.reset with agenda := rest, ctr := s.ctr }

/-- R413: a wave of a frozen cluster issues nothing. -/
def FrozenIssuesNothing : Prop :=
  ∀ s u w, s.shutdown = false → s.agenda = [] → s.turn = .wave u → s.wave u = some w → w.sect = none →
    (s.cluster (w.core / 8)).frozen.isSome = true → (s.tick 1).due = none → (s.tick 1).nextAccess = none →
    step s = .next (s.tick 1).ordered

end Sys2Proof.Claims
end

