-- ==== Sys2Proof/Certificates/Slice0/Sync.lean ====
section
/-!
DEFINITION. Capability words, fences, waits and barriers as the claims state them (spec/07_memory_access.md, R181 to
R184; spec/08_atomics_sync_consistency.md, R199 to R208).
-/
namespace Sys2Proof.Claims
open Sys2Proof.Machine

/-! ### Capabilities in registers -/

/-- The capability a word makes in each lane's quad, or once in a c register. -/
def lanesGet (f : FOps) (x : Thread → Except Nat Cap) (_ : Nat) (th : Thread) : Thread :=
  match x th with
  | .ok k => th.setQuadCap f.d.toNat k
  | .error _ => th

def onceGets (f : FOps) (x : Wave → Except Nat Cap) (_ : State) (c : Ctx) (w : Wave) : Wave :=
  match x c.w with
  | .ok k => w.setC f.d.toNat k
  | .error _ => w

def isOk (x : Except Nat Cap) : Prop := ∃ k, x = .ok k

/-- The read of a handle by `cfromh` (R184): the state with the pages of its entry touched by the group's lowest lane, and the
capability its pseudocode gives. -/
def handleRead (f : FOps) (s : State) (c : Ctx) : Option (List (Nat × TlbEntry) × State × Except Nat Cap) :=
  let va := ((s.port c.w.port).htBase.toNat + 32 * (c.w.getS f.a.num).toNat) % 2 ^ 56
  c.lead.bind fun (l, t) => match s.keysAt c.w t va 0 32 with
    | .ok ks =>
      let s1 := s.touchKeys c l t va ks
      some (ks, s1, handleCap (s1.bytesAt c.w ks) (c.w.getS2 f.bc.numB).toNat)
    | .error _ => none

/-- R181 to R183: the rows that write a capability, where no check fails; `ctest` never fails. -/
def capRows (f : FOps) : List EndRow :=
  let a := f.a.num
  let b := f.bc.numB
  let bndT := fun (t : Thread) => (t.quadCap a).narrow (t.getV2 b).toNat (t.getV2 f.bc.numC).toNat
  let bndW := fun (w : Wave) => (w.getC a).narrow (w.getS2 b).toNat (w.getS2 f.bc.numC).toNat
  let permT := fun (t : Thread) => (t.quadCap a).restrict (t.getV b)
  let permW := fun (w : Wave) => (w.getC a).restrict (w.getS b)
  [{ i := .cbnd f, ok := fun _ c => f.mod = 1 ∧ ∀ l th, c.has l th → isOk (bndT th), g := fun _ _ => lanesGet f bndT },
   { i := .cbnd f, ok := fun _ c => f.mod ≠ 1 ∧ isOk (bndW c.w), gw := onceGets f bndW },
   { i := .cperm f, ok := fun _ c => f.mod = 1 ∧ ∀ l th, c.has l th → isOk (permT th), g := fun _ _ => lanesGet f permT },
   { i := .cperm f, ok := fun _ c => f.mod ≠ 1 ∧ isOk (permW c.w), gw := onceGets f permW },
   { i := .cmov f, ok := fun _ _ => f.mod = 0, gw := fun _ c w => w.setC f.d.toNat (c.w.getC a) },
   { i := .cmov f, ok := fun _ _ => f.mod = 1, g := fun _ c _ th => th.setQuadCap f.d.toNat (c.w.getC a) },
   { i := .cmov f, ok := fun _ c => f.mod = 2 ∧ c.lead.isSome = true
     gw := fun _ c w => match c.lead with | some (_, t) => w.setC f.d.toNat (t.quadCap a) | none => w },
   { i := .cmov f, ok := fun _ _ => f.mod = 3, g := fun _ _ _ th => th.setQuadCap f.d.toNat (th.quadCap a) },
   { i := .ctest f, ok := fun _ _ => bfld f.mod 2 0 = 0 ∧ bfld f.mod 3 3 = 0
     g := fun _ c _ th => th.setP f.d.toNat (c.w.getC a).tag },
   { i := .ctest f, ok := fun _ _ => bfld f.mod 2 0 = 0 ∧ bfld f.mod 3 3 = 1
     g := fun _ _ _ th => th.setP f.d.toNat (th.quadCap a).tag },
   { i := .ctest f, ok := fun _ _ => bfld f.mod 2 0 = 1 ∧ bfld f.mod 3 3 = 0
     g := fun _ c _ th => th.setP f.d.toNat ((c.w.getC a).tag && (c.w.getC a).has (bfld (c.w.getS b) 11 0)) },
   { i := .ctest f, ok := fun _ _ => bfld f.mod 2 0 = 1 ∧ bfld f.mod 3 3 = 1
     g := fun _ _ _ th => th.setP f.d.toNat ((th.quadCap a).tag && (th.quadCap a).has (bfld (th.getV b) 11 0)) },
   { i := .ctest f, ok := fun _ _ => 2 ≤ bfld f.mod 2 0 ∧ bfld f.mod 3 3 = 0
     g := fun _ c _ th => th.setP f.d.toNat ((c.w.getC a).within (c.w.getC b)) },
   { i := .ctest f, ok := fun _ _ => 2 ≤ bfld f.mod 2 0 ∧ bfld f.mod 3 3 = 1
     g := fun _ _ _ th => th.setP f.d.toNat ((th.quadCap a).within (th.quadCap b)) },
   { i := .cfromh f
     ok := fun s c => (c.w.getS a).toNat < (s.port c.w.port).htCount.toNat ∧ s.quiet c.u c.mask = true ∧
       ∃ ks s1 k, handleRead f s c = some (ks, s1, .ok k) ∧ (∀ x ∈ ks, s.badAt (x.2.die c.w) x.1 1 = false) ∧
         ∀ x ∈ ks, settled s c.w.coreNo false x.2 = true
     f := fun c s => match handleRead f s c with
       | some (_, s1, _) => s1
       | none => s
     gw := fun s c w => match handleRead f s c with
       | some (_, _, .ok k) => w.setC f.d.toNat k
       | _ => w
     g := fun s c l th => { th with lastPage := match handleRead f s c with
       | some (_, s1, _) => (s1.lane c.u l).elim th.lastPage (·.lastPage)
       | none => th.lastPage } }]

/-- R98, R177: a word that makes a capability once faults in every thread where the check fails, and writes nothing. -/
def capFaultRows (f : FOps) : List EndRow :=
  let a := f.a.num
  let b := f.bc.numB
  let fails := fun (x : Wave → Except Nat Cap) (s : State) (c : Ctx) => f.mod ≠ 1 ∧ s.traps c ∧ ∃ e, x c.w = .error e
  let enters := fun (x : Wave → Except Nat Cap) (s : State) (c : Ctx) (_ : Nat) (th : Thread) =>
    match x c.w with
    | .error e => th.entered (s.trapHandler c.w) e 0 0 c.pc
    | .ok _ => th
  let bnd := fun (w : Wave) => (w.getC a).narrow (w.getS2 b).toNat (w.getS2 f.bc.numC).toNat
  let perm := fun (w : Wave) => (w.getC a).restrict (w.getS b)
  [{ i := .cbnd f, ok := fails bnd, g := enters bnd }, { i := .cperm f, ok := fails perm, g := enters perm }]

/-! ### Waits and fences -/

/-- What a fence leaves in flight for the accesses around it. -/
def withMarker (c : Ctx) (acq rel : Bool) (sc : Nat) (s : State) : State :=
  { s with
    inflight := s.inflight ++ [⟨s.nextId, c.u, c.pc, .fence acq rel, [], c.mask, sc, false, false, 0, 0⟩]
    nextId := s.nextId + 1 }

/-- The store queue of a core emptied that held nothing. -/
def withoutQueue (core : Nat) (s : State) : State := s.modCore core fun k => { k with sq := [] }

/-- No other thread of the wave waits for the drain of an sc fence. -/
def noneDrains (c : Ctx) : Prop :=
  ∀ x ∈ c.w.threads, inMask c.mask x.1 = false → ∀ sys since, x.2.wait ≠ .fenceSc sys since none

/-- R199 to R202, R208: `mwait` and the fences outside regions. A fence of .wave or .blk scope leaves its marker; one of .dev
or .sys scope here finds performed what it orders, and as a release an empty store queue. An sc fence notes the clk at which its
drain is complete, at once where nothing of its wave is in flight, and then empties the store queue (R200, R211). -/
def waitRows (u : UOps) : List EndRow :=
  let acq := bfld u.mod 2 0 != 1
  let rel := bfld u.mod 2 0 != 0
  let wide := fun (s : State) (c : Ctx) => 2 ≤ fenceSc u ∧ s.ordering c.u c.mask acq rel = false
  let out := fun (s : State) (c : Ctx) => s.inRegion c.w = false ∧ c.mask ≠ 0
  let victim := fun (c : Ctx) => if u.bc.isImm then u.imm.toNat else bfld (c.w.getS u.a.toNat) 7 0
  let n := fun (c : Ctx) => if u.bc.isImm then u.imm.setWidth 64 else (c.w.getS u.a.toNat).setWidth 64
  [{ i := .mwait u, ok := fun s c => s.inRegion c.w = false ∧ s.arming c.u c.mask = false
     g := fun s c _ th => match th.mon with
       | none => th
       | some k => if k.hit = true ∨ n c = 0 then { th with mon := none } else { th with wait := .mwait, deadline := s.clk + n c } },
   { i := .fence u, ok := fun s c => out s c ∧ fenceSc u < 2, f := fun c s => withMarker c acq rel (fenceSc u) s },
   { i := .fence u, ok := fun s c => out s c ∧ wide s c ∧ rel = true ∧ c.w.sect = none ∧ (s.core c.w.core).sq = []
     f := fun c s => withoutQueue c.w.core s },
   { i := .fence u, ok := fun s c => out s c ∧ wide s c ∧ (rel = false ∨ c.w.sect.isSome = true) },
   { i := .acqr u
     ok := fun s c => out s c ∧ (s.core (victim c)).sq = [] ∧ s.storing (victim c) = false ∧
       s.ordering c.u c.mask true false = false
     f := fun c s => withoutQueue (victim c) s },
   { i := .fenceSc u
     ok := fun s c => out s c ∧ s.drained c.u s.nextId = false ∧ noneDrains c
     g := fun s _ _ th => { th with wait := .fenceSc (fenceSc u == 3) s.nextId none } },
   { i := .fenceSc u
     ok := fun s c => out s c ∧ c.w.sect = none ∧ (s.core c.w.core).sq = [] ∧ s.drained c.u s.nextId = true ∧ noneDrains c ∧
       ∃ l th, c.has l th
     f := fun c s => withoutQueue c.w.core s
     g := fun s _ _ th => { th with wait := .fenceSc (fenceSc u == 3) s.nextId (some s.clk) } },
   { i := .fenceSc u
     ok := fun s c => out s c ∧ c.w.sect.isSome = true ∧ s.drained c.u s.nextId = true ∧ noneDrains c
     g := fun s _ _ th => { th with wait := .fenceSc (fenceSc u == 3) s.nextId (some s.clk) } }]

/-- R202, R211: a release of .dev or .sys scope, an sc fence whose drain is complete, and `acqr` at its victim, leave no store in
the queue: memory holds them. None of them has an access left that it waits for. -/
def ReleasesDrain (u : UOps) : Prop :=
  ∀ s c, s.inRegion c.w = false → c.w.sect = none →
    (s.issues (.fence u) c = true → bfld u.mod 2 0 ≠ 0 → 2 ≤ fenceSc u →
      s.ordering c.u c.mask (bfld u.mod 2 0 != 1) true = false →
      ∃ t, exec (.fence u) s = .next t ∧ (t.core c.w.core).sq = [] ∧
        t.mem = ((s.core c.w.core).sq.foldl State.drainEntry s).mem) ∧
    (s.issues (.fenceSc u) c = true → s.drained c.u s.nextId = true → (∃ l th, c.has l th) →
      ∃ t, exec (.fenceSc u) s = .next t ∧ (t.core c.w.core).sq = [] ∧
        t.mem = ((s.core c.w.core).sq.foldl State.drainEntry s).mem) ∧
    (s.issues (.acqr u) c = true →
      let v := if u.bc.isImm then u.imm.toNat else bfld (c.w.getS u.a.toNat) 7 0
      s.storing v = false → s.ordering c.u c.mask true false = false →
      ∃ t, exec (.acqr u) s = .next t ∧ (t.core v).sq = [] ∧ t.mem = ((s.core v).sq.foldl State.drainEntry s).mem)

/-- R214: words that no region admits take IRREVOCABLE there, in every thread. -/
def irrevocableRows (u : UOps) (m : MOps) : List EndRow :=
  let bad : Instr → EndRow := fun i =>
    { i := i, ok := fun s c => s.inRegion c.w = true ∧ s.traps c
      g := fun s c _ th => th.entered (s.trapHandler c.w) cIRREVOCABLE 0 0 c.pc }
  [bad (.mwait u), bad (.fenceSc u), bad (.acqr u), bad (.lres m), bad (.scond m), bad (.mon m)]

/-! ### Barriers (R203 to R206) -/

/-- Arrivals of the group at barrier k that do not end its phase: the mode fits, every thread's earlier accesses are
performed, and the phase still misses a thread or arrivals. -/
def arrivable (s : State) (c : Ctx) (b : Block) (k : Nat) (mode : BarMode) : Prop :=
  let bar := b.bar k
  let live := s.blockLive c.w.blk
  c.w.sect = none ∧ fget s.blocks c.w.blk = some b ∧ s.quiet c.u c.mask = true ∧ (bar.mode = none ∨ bar.mode = some mode) ∧
    match mode with
    | .participant => ∃ x ∈ live, x.1 ∉ bar.arrived ∧ ∀ l, inMask c.mask l = true → x.1 ≠ threadKey c.u l
    | .count n => n ≤ 1025 ∧ bar.arrivals + (lanesOf c.mask).length < n ∧ (live.map Prod.fst).Nodup ∧
        n ≤ bar.arrivals + (live.filter fun x => !x.2.waitsAt k).length + (if b.streamLive && !b.seqWaits k then 1 else 0)
    | _ => ∃ x ∈ live, x.1 ∉ bar.arrived ∧ ∀ l, inMask c.mask l = true → x.1 ≠ threadKey c.u l

/-- The arrivals counted, each thread at its phase; `waits` where they wait for its end; `g` is what else the word does to
a thread. -/
def Arrives (s t : State) (c : Ctx) (k : Nat) (b : Block) (mode : BarMode) (waits : Bool)
    (g : Thread → Thread := fun th => th) : Prop :=
  let bar := b.bar k
  t.mem = s.mem ∧ (∀ v, v ≠ c.u → t.wave v = s.wave v) ∧
    (∃ b', fget t.blocks c.w.blk = some b' ∧ (b'.bar k).phase = bar.phase ∧ (b'.bar k).mode = some mode ∧
      (b'.bar k).arrivals = bar.arrivals + (lanesOf c.mask).length ∧ (∀ j, j ≠ k → b'.bar j = b.bar j) ∧
      ∀ l, inMask c.mask l = true → threadKey c.u l ∈ (b'.bar k).arrived) ∧
    ∀ l th, c.has l th → t.lane c.u l =
      some { (g th.done) with barPhase := fset th.barPhase k bar.phase, wait := if waits then .bar k bar.phase else th.wait }

/-- `bar.arrive`, `bar.sync` in a phase that goes on, and `bar.wait` after the phase of the latest arrival (R204). -/
def BarriersArrive (u : UOps) : Prop :=
  ∀ s c b,
    (s.issues (.barArrive u) c = true → arrivable s c b (barNo u) (barMode u c.w) →
      ∃ t, exec (.barArrive u) s = .next t ∧ Arrives s t c (barNo u) b (barMode u c.w) false) ∧
    (s.issues (.barSync u) c = true → arrivable s c b (barNo u) (barMode u c.w) →
      (∀ l th, c.has l th → th.starved.getLsbD (barNo u) = false) → (∀ l, inMask c.mask l = true → ∃ th, c.has l th) →
      ∃ t, exec (.barSync u) s = .next t ∧ Arrives s t c (barNo u) b (barMode u c.w) true)

/-- `bar.wait` after the phase of the latest arrival: it returns at once, and its acquire is in flight (R206). -/
def barWaitRow (u : UOps) : EndRow :=
  let flags := fun (s : State) (c : Ctx) (th : Thread) =>
    match fget s.blocks c.w.blk, fget th.barPhase (barNo u) with
    | some b, some p => (b.bar (barNo u)).flagsOf p
    | _, _ => 0
  { i := .barWait u
    ok := fun s c => c.w.sect = none ∧ c.mask ≠ 0 ∧ ∃ b, fget s.blocks c.w.blk = some b ∧ ∀ l th, c.has l th →
      th.starved.getLsbD (barNo u) = false ∧ th.phaseOver (barNo u) (b.bar (barNo u)).phase = true
    f := fun c s => withMarker c true false 1 s
    g := fun s c _ th => { th with fflags := th.fflags ||| flags s c th } }

/-- R204: in a block whose live threads have all arrived but the one of the group, its `bar.sync` ends the phase: the next
phase begins, and a thread that waited for this one goes on. -/
def BarriersComplete (u : UOps) : Prop :=
  ∀ s c b l, s.issues (.barSync u) c = true → lanesOf c.mask = [l] → c.w.sect = none → fget s.blocks c.w.blk = some b →
    s.quiet c.u c.mask = true → barMode u c.w = .participant →
    ((b.bar (barNo u)).mode = some .participant ∨ (b.bar (barNo u)).mode = none) →
    (∃ th, c.has l th ∧ th.exited = false ∧ th.wait = .none ∧ th.starved.getLsbD (barNo u) = false) →
    (∀ x ∈ s.blockLive c.w.blk, x.1 = threadKey c.u l ∨ x.1 ∈ (b.bar (barNo u)).arrived) →
    ∃ t b', exec (.barSync u) s = .next t ∧ fget t.blocks c.w.blk = some b' ∧
      (b'.bar (barNo u)).phase = (b.bar (barNo u)).phase + 1 ∧ (b'.bar (barNo u)).arrivals = 0 ∧
      (∀ v w j th p, v ≠ c.u → s.wave v = some w → w.blk = c.w.blk → w.sect = none → w.th j = some th →
        th.wait = .bar (barNo u) p → p ≤ (b.bar (barNo u)).phase → ∃ th', t.lane v j = some th' ∧ th'.wait = .none) ∧
      ∃ th', t.lane c.u l = some th' ∧ th'.wait = .none

end Sys2Proof.Claims
end

