-- ==== Sys2Proof/Certificates/Slice0/Ship.lean ====
section
/-!
DEFINITION. The words of shipped sections, of the engines, of the fabric and of verdicts, as the claims state them
(spec/10_shipped_sections.md; spec/12_engines_and_promises.md; spec/16_fabric_and_blends.md; spec/15_verdicts.md).
-/
namespace Sys2Proof.Claims
open Sys2Proof.Machine

/-- A release of the issuing wave that finds no store queued on its core; an L-core has no queue. -/
def releases (c : Ctx) (s : State) : State := if c.w.sect.isSome then s else withoutQueue c.w.core s
/-- Its premise. -/
def noQueue (s : State) (c : Ctx) : Prop := c.w.sect.isSome = true ∨ (s.core c.w.core).sq = []

/-! ### Requests (R256 to R259, R267, R271) -/

/-- What a word of the class does to a thread's wait: `ship` and `shipt` wait for their slot, `shipp` goes on. -/
def shipWait (mode key : Nat) (th : Thread) : Wait := if mode = 0 then .ship key else if mode = 1 then .shipt key else th.wait

/-- Outside regions, with free slots and nothing of the group in flight, where every lane passes its checks: each lane's
request leaves in a bundle to its lock's home, with the lane's registers, and holds a reply slot that was free; memory and
the lanes' registers stay, and the wave counts one operation. -/
def Ships (i : Instr) (m : MOps) (mode : Nat) : Prop :=
  let n := fun (c : Ctx) => (c.w.active c.mask).length
  ∀ s c, s.issues i c = true → s.inRegion c.w = false → c.w.sect = none → n c ≤ (s.freeSlotsOf c.w.core).length →
    c.w.oc 1 < 1023 → s.quiet c.u c.mask = true → (s.core c.w.core).sq = [] → 0 < n c →
    (∀ l th, c.has l th → ∃ h, s.shipCheck c m l th = .ok h) →
    ∃ t w', exec i s = .next t ∧ t.mem = s.mem ∧ t.wave c.u = some w' ∧ w'.s = c.w.s ∧
      (∃ o ∈ w'.ops, o.cls = 1 ∧ o.left = n c ∧ s.nextId ≤ o.id) ∧ s.bundles <+: t.bundles ∧
      ∀ l th h, c.has l th → s.shipCheck c m l th = .ok h → ∃ b ∈ t.bundles, ∃ q ∈ b.reqs, ∃ th',
        b.home = hLCORE h.entry ∧ b.remote = s.homeMember c.w.port h.cap h.entry ∧
        q.lane = l ∧ q.wave = c.u ∧ q.lock = h.va ∧ q.mode = mode ∧ q.cc = h.cc ∧ q.na = naOf m ∧
        q.args = argsOf th m.data.toNat (naOf m) ∧
        (s.slot c.w.core q.slot).st = .free ∧ (t.slot c.w.core q.slot).st = .waiting ∧
        (t.slot c.w.core q.slot).lane = l ∧ (t.slot c.w.core q.slot).wave = c.u ∧
        w'.th l = some th' ∧ th' = { th.done with wait := shipWait mode (slotKey c.w.core q.slot) th }

/-- R272, R273: a token that names nothing lets `shwait` pass and `shtest` answer true; `shtest` tells whether the reply is
there; `homeof` gives the home of each lane's lock. -/
def shipRows (u : UOps) (m : MOps) : List EndRow :=
  let a := u.a.toNat
  let ready := fun (s : State) (c : Ctx) (l : Nat) (th : Thread) => match s.redeem c.w c.u l (th.getV a) with
    | none => true
    | some (_, r) => r.st == .replied
  [{ i := .shwait u, ok := fun s c => ∀ l th, c.has l th → s.redeem c.w c.u l (th.getV a) = none },
   { i := .shtest u, g := fun s c l th => th.setP u.d.toNat (ready s c l th) },
   { i := .homeof m
     ok := fun _ c => ∀ l th, c.has l th → capCheck (capOf m c.w th) (addrOf m c.w th).toNat 8 pLOCK 1 = none ∧
       (addrOf m c.w th).toNat % 8 = 0
     g := fun s c _ th => th.setV m.data.toNat
       (s.homeEntry (capOf m c.w th) (addrOf m c.w th) ||| (if (capOf m c.w th).global then 0x40000000 else 0)) }]

/-- R267, R271, R272: in a group of one thread whose token names its request, `shwait` delivers a reply that is there and
frees the slot; before the reply it waits at its word, until the promise unless it is .nl; once the promise has passed it
raises LATE. -/
def ShipWaits (u : UOps) : Prop :=
  ∀ s c l th key r, s.issues (.shwait u) c = true → lanesOf c.mask = [l] → c.has l th →
    s.redeem c.w c.u l (th.getV u.a.toNat) = some (key, r) →
    let nl := bfld u.mod 4 4 == 1
    (r.st = .replied → r.status = 0 →
      ∃ t th', exec (.shwait u) s = .next t ∧ t.mem = s.mem ∧ t.lane c.u l = some th' ∧ th'.pc = pc56 (th.pc + 8) ∧
        th'.v = (th.deliver u.d.toNat (min r.k (bfld u.mod 3 0)) r.regs r.tags).v ∧ th'.fflags = th.fflags ||| (r.flags &&& fflagsMask) ∧
        (t.slot (key / 4096) (key % 4096)).st = .free) ∧
    (r.st ≠ .replied → (nl = true ∨ s.clk < r.p) →
      ∃ t th', exec (.shwait u) s = .next t ∧ t.mem = s.mem ∧ t.lane c.u l = some th' ∧
        th' = { th.done with pc := c.pc, wait := .shwait key nl, deadline := r.p }) ∧
    (r.st ≠ .replied → nl = false → r.p ≤ s.clk → s.traps c →
      ∃ t th', exec (.shwait u) s = .next t ∧ t.mem = s.mem ∧ t.lane c.u l = some th' ∧
        th' = th.done.entered (s.trapHandler c.w) cLATE 0 0 c.pc ∧
        (t.slot (key / 4096) (key % 4096)).p = s.clk + BitVec.ofNat 64 (budget r.cc))

/-- R262 to R264, R268, R274: in a section with nothing in flight `shret` answers its request with status 0 and k registers;
`exit` answers with none. The section's wave is gone and its context free. Outside a section `shret` raises SHIP_ENTRY. -/
def SectionsReturn (f : FOps) : Prop :=
  let ends := fun (i : Instr) (k : Nat) =>
    ∀ s c x l th, s.issues i c = true → c.w.sect = some x → c.lead = some (l, th) → s.quietWave c.u = true → c.mask ≠ 0 →
      ∃ t id r, exec i s = .next t ∧ t.mem = s.mem ∧ t.wave c.u = none ∧ fget t.replies id = some r ∧ r.req = x.req ∧
        r.status = 0 ∧ r.k = k ∧ r.regs = argsOf th f.a.num k ∧
        (x.suspended = false → fget (t.lcore x.lcore).ctxEnd x.ctx = some s.clk)
  ends (.shret f) (bfld f.mod 3 0) ∧ ends (.exit f) 0 ∧
    ∀ s c, s.issues (.shret f) c = true → s.traps c →
      ∃ t, exec (.shret f) s = .next t ∧ Ends s t c (fun s => s) (fun w => w)
        (fun _ th => th.entered (s.trapHandler c.w) cSHIPENTRY 0 0 c.pc)

/-! ### Engines (R281 to R300) -/

/-- The 512 bits a `push` names, its engine and its scope. -/
def pushBits (u : UOps) (c : Ctx) : BitVec 512 := BitVec.ofNat 512 (c.w.getSn u.a.toNat 16)
def pushEng (fab : Bool) (c : Ctx) : Eng := if fab then .fab (dieOf c.w.core) else .copy c.w.core
def pushInstr (fab : Bool) (u : UOps) : Instr := if fab then .pushFab u else .pushCopy u

/-- A well-formed command of a T-core wave outside regions, with nothing of the wave in flight and no store queued; its engine has
taken no command of a later place in this clk. -/
def pushable (fab : Bool) (u : UOps) (s : State) (c : Ctx) : Prop :=
  let x := pushBits u c
  c.w.sect = none ∧ s.inRegion c.w = false ∧ kindOk x fab = true ∧ headerOk x = true ∧ bodyOk x (s.isRoot c.w.port x) = true ∧
    s.quietWave c.u = true ∧ (s.core c.w.core).sq = [] ∧
    (fab = true → s.inPlace (unitFabric (dieOf c.w.core)) c.w.fabPlace = true)

/-- The engine holds as many commands as it can, or the wave counts 1,023 of its class (R288, R291). -/
def engineFull (fab : Bool) (s : State) (c : Ctx) : Bool :=
  let e := pushEng fab c
  decide ((s.cmds.filter fun (_, (k : Cmd)) => k.inFlight e).length ≥ e.capacity) || decide (c.w.oc e.cls ≥ 1023)

/-- A command before this one waits for its guard slot, or this one does (R289). -/
def engineHeld (fab : Bool) (u : UOps) (s : State) (c : Ctx) : Bool :=
  let x := pushBits u c
  (cGV x && (c.w.slotOf (cGS x)).val == .pending) ||
    (s.cmdsOf c.u (pushEng fab c).cls).any fun (_, (k : Cmd)) => k.stage == .held

/-- Every record the command uses is in the core's record cache. -/
def recordsCached (u : UOps) (s : State) (c : Ctx) : Prop :=
  let r := s.readRecs c.w (c.w.getC (cmdFld (pushBits u c) 4 4 0)) (pushBits u c)
  r.miss = 0 ∧ r.fault = none

/-- What its engine learns before the command is accepted changes nothing (R289). -/
def calm (fab : Bool) (s : State) (c : Ctx) : Prop := s.nextKnown (some (pushEng fab c)) ((s.clk + 8).toNat - 1) = none

/-- A and P of R288, the records being cached. -/
def arrival (s : State) : Nat := (s.clk + 8).toNat
def promised (fab : Bool) (u : UOps) (s : State) (c : Ctx) : Nat :=
  let x := pushBits u c
  let e := s.engine (pushEng fab c)
  let r := s.readRecs c.w (c.w.getC (cmdFld x 4 4 0)) x
  max (arrival s) e.f.toNat + costOf (s.moved c.w.port x r) + e.drain

/-- R288, R297: a `push` that is refused answers 0 with its predicate set, and nothing else: on an L-core, with the engine
full, or past the horizon. Its records are at hand: what they decide is known at the issue. -/
def pushRefusedRows (fab : Bool) (u : UOps) : List EndRow :=
  let i := pushInstr fab u
  let wide := decide (2 ≤ bfld u.mod 6 5)
  let gw := fun (_ : State) (_ : Ctx) (w : Wave) => w.setS2 u.d.toNat 0
  let g := fun (_ : State) (_ : Ctx) (_ : Nat) (th : Thread) => th.setP (u.bc.numC % 8) true
  let rel := fun (c : Ctx) (s : State) =>
    let s0 := if fab then s.took (unitFabric (dieOf c.w.core)) c.w.fabPlace else s
    if wide then withoutQueue c.w.core s0 else s0
  let alone := fun (s : State) (c : Ctx) => fget s.saved c.u = none
  [{ i := i, ok := fun s c => c.w.sect.isSome = true ∧ alone s c, gw := gw, g := g },
   { i := i
     ok := fun s c => pushable fab u s c ∧ engineFull fab s c = true ∧ recordsCached u s c ∧ calm fab s c ∧ alone s c
     f := rel, gw := gw, g := g },
   { i := i
     ok := fun s c => pushable fab u s c ∧ engineFull fab s c = false ∧ engineHeld fab u s c = false ∧ recordsCached u s c ∧
       calm fab s c ∧ alone s c ∧ promised fab u s c < 2 ^ 64 ∧
       (s.engine (pushEng fab c)).horizon < promised fab u s c - arrival s
     f := rel, gw := gw, g := g }]

/-- R288, R289, R295, R297: an accepted command waits in its engine with its promise, and the word answers the promise with
its predicate clear; one behind a pending guard slot is held and answers no promise; one whose slot is false already has no effect
(log entry 29). -/
def PushAccepts (fab : Bool) (u : UOps) : Prop :=
  ∀ s c, s.issues (pushInstr fab u) c = true → pushable fab u s c → engineFull fab s c = false → recordsCached u s c →
    calm fab s c →
    let x := pushBits u c
    let held := engineHeld fab u s c
    let p : DWord := if held then noPromise else BitVec.ofNat 64 (promised fab u s c)
    let dropped := cGV x && (c.w.slotOf (cGS x)).val == .fls
    (held = true ∨ promised fab u s c - arrival s ≤ (s.engine (pushEng fab c)).horizon) →
    ∃ t w' k, exec (pushInstr fab u) s = .next t ∧ t.mem = s.mem ∧ t.inflight = s.inflight ∧ t.wave c.u = some w' ∧
      w'.getS2 u.d.toNat = p ∧ (∀ r, r ≠ u.d.toNat → r ≠ u.d.toNat + 1 → w'.getS r = c.w.getS r) ∧
      (∃ o ∈ w'.ops, o.id = s.nextId ∧ o.cls = (pushEng fab c).cls ∧ o.left = 1) ∧
      fget t.cmds s.nextId = some k ∧ k.words = x ∧ k.wave = c.u ∧ k.lanes = c.mask ∧ k.eng = pushEng fab c ∧
      k.scope = bfld u.mod 6 5 ∧ k.promise = p ∧
      k.stage = (if held then .held else if dropped then .moved else .queued) ∧
      ∀ l th, c.has l th → w'.th l = some (th.done.setP (u.bc.numC % 8) false)

/-- R284, R288: a `push` one of whose records misses the core's cache writes nothing yet: its command is on the way, and its engine
takes it up by the latency of the slowest record later. -/
def PushesSent (fab : Bool) (u : UOps) : Prop :=
  ∀ s c, s.issues (pushInstr fab u) c = true → pushable fab u s c →
    let x := pushBits u c
    let r := s.readRecs c.w (c.w.getC (cmdFld x 4 4 0)) x
    r.miss ≠ 0 →
    ∃ t w' k, exec (pushInstr fab u) s = .next t ∧ t.mem = s.mem ∧ t.inflight = s.inflight ∧ t.wave c.u = some w' ∧
      w'.s = c.w.s ∧ w'.ops = c.w.ops ∧ fget t.cmds s.nextId = some k ∧ k.stage = .sent ∧ k.words = x ∧ k.wave = c.u ∧
      k.lanes = c.mask ∧ k.eng = pushEng fab c ∧ k.dst = u.d.toNat ∧ k.pred = u.bc.numC % 8 ∧
      k.learn = BitVec.ofNat 64 (arrival s + r.lat) ∧ t.engine (pushEng fab c) = s.engine (pushEng fab c) ∧
      ∀ l th, c.has l th → w'.th l = some th.done

/-- The step that answers such a `push`, when the clk of its acceptance has come (R288): refused where the engine is full, with 0
and the predicate set; else, with no command of the wave held and no guard slot, its promise and the predicate clear. -/
def AnswersArrive : Prop :=
  ∀ s id k w, s.shutdown = false → s.agenda = [] →
    let s1 := s.tick 1
    s1.reap = none → s1.nextKnown none s1.clk.toNat = some (id, k) → k.stage = .sent → k.deferred = false →
    s1.anyWave k.wave = some w →
    let s2 : State := { s1 with cmds := fdel s1.cmds id }
    let full := decide ((s2.cmds.filter fun (_, (x : Cmd)) => x.inFlight k.eng).length ≥ k.eng.capacity) ||
      decide (w.oc k.eng.cls ≥ 1023)
    let e := s2.engine k.eng
    let p := max k.learn.toNat e.f.toNat +
      costOf (s2.moved k.port k.words (s2.readRecs (k.reader w) k.rcap k.words)) + e.drain
    let answers := fun (t : State) (x : DWord) (b : Bool) => ∃ w', t.anyWave k.wave = some w' ∧ w'.getS2 k.dst = x ∧
      ∀ l th, inMask k.lanes l = true → w.th l = some th → w'.th l = some (th.setP k.pred b)
    (full = true → ∃ t, step s = .next t ∧ t.mem = s.mem ∧ t.cmds = s2.cmds ∧ answers t 0 true) ∧
    (full = false → cGV k.words = false → ((s2.cmdsOf k.wave k.eng.cls).any fun (_, (x : Cmd)) => x.stage == .held) = false →
      p - k.learn.toNat ≤ e.horizon → p < 2 ^ 64 →
      ∃ t k', step s = .next t ∧ answers t (BitVec.ofNat 64 p) false ∧ fget t.cmds id = some k' ∧ k'.stage = .queued ∧
        k'.promise = BitVec.ofNat 64 p ∧ k'.words = k.words)

/-- R282, R297: a malformed command raises ILLEGAL_WORD in every thread. -/
def pushIllegalRow (fab : Bool) (u : UOps) : EndRow :=
  { i := pushInstr fab u
    ok := fun s c => s.traps c ∧ s.inRegion c.w = false ∧
      (kindOk (pushBits u c) fab && headerOk (pushBits u c) && bodyOk (pushBits u c) (s.isRoot c.w.port (pushBits u c))) = false
    g := fun s c _ th => th.entered (s.trapHandler c.w) cILLEGAL 0 0 c.pc }

/-- R284, R291 to R300: counters, their waits, guard slots, the record fence. -/
def engineRows (u : UOps) : List EndRow :=
  let cls := bfld u.mod 1 0
  let k := u.d.toNat
  let v := fun (c : Ctx) => if u.bc.isImm then
      (match u.imm.toNat with | 0 => GVal.fls | 1 => GVal.tru | _ => GVal.pending)
    else if c.w.getS u.a.toNat = 0 then .fls else .tru
  let bound := fun (s : State) (c : Ctx) => if s.outermost c.w = some 0 then 1 else 2
  let put := fun (g : State → Ctx → GuardSlot) (c : Ctx) (s : State) =>
    ({ s with cmds := (s.setGuard c.u k (g s c)).cmds } : State)
  let promise := fun (s : State) (c : Ctx) =>
    ((s.cmdsOf c.u cls).filter fun (_, (k : Cmd)) => c.w.ops.any fun o => o.id == k.op).foldl
      (fun m (_, (k : Cmd)) => if m < k.promise then k.promise else m) (0 : DWord)
  [{ i := .wait u, ok := fun _ c => c.w.oc cls < waitN u c.w
     gw := fun _ _ w => { w with fails := w.fails.filter fun f => f.cls != cls } },
   { i := .wait u, ok := fun _ c => c.w.oc cls = waitN u c.w ∧ c.w.failure cls (waitN u c.w) = none },
   { i := .wait u, ok := fun _ c => waitN u c.w < c.w.oc cls
     g := fun _ c _ th => { th with wait := .counter cls (waitN u c.w) (bfld u.mod 2 2 == 1) c.mask } },
   { i := .ocrd u, ok := fun _ _ => bfld u.mod 2 2 ≠ 1, gw := fun _ c w => w.setS k (BitVec.ofNat 32 (c.w.oc cls)) },
   { i := .ocrd u, ok := fun _ _ => bfld u.mod 2 2 = 1, gw := fun s c w => w.setS2 k (promise s c) },
   { i := .gset u, ok := fun _ c => c.w.sect.isSome = true },
   { i := .gset u, ok := fun _ c => c.w.sect = none ∧ (c.w.slotOf k).bound = 0
     f := put fun _ c => ⟨v c, 0⟩, gw := fun _ c w => { w with g := fset w.g k ⟨v c, 0⟩ } },
   { i := .gset u, ok := fun s c => (c.w.slotOf k).bound ≠ 0 ∧ s.traps c
     g := fun s c _ th => th.entered (s.trapHandler c.w) cIRREVOCABLE 0 0 c.pc },
   { i := .gbind u, ok := fun _ c => c.w.sect.isSome = true },
   { i := .gbind u, ok := fun s c => s.outermost c.w = none ∧ s.traps c
     g := fun s c _ th => th.entered (s.trapHandler c.w) cNESTING 0 0 c.pc },
   { i := .gbind u, ok := fun s c => c.w.sect = none ∧ (s.outermost c.w).isSome = true ∧ (c.w.slotOf k).bound = 0
     f := put fun s c => ⟨.pending, bound s c⟩, gw := fun s c w => { w with g := fset w.g k ⟨.pending, bound s c⟩ } },
   { i := .gbind u, ok := fun s c => (s.outermost c.w).isSome = true ∧ (c.w.slotOf k).bound ≠ 0 },
   { i := .rfence u, ok := fun _ c => c.w.sect.isSome = true },
   { i := .rfence u, ok := fun _ c => c.w.sect = none, f := fun c s => s.modCore c.w.core fun k => { k with recs := [] } }]

/-- R293: a `wait` that is met reports the oldest failure of its class among the operations it covers: its code in every thread,
and sr.estat. -/
def FailuresReported (u : UOps) : Prop :=
  let cls := bfld u.mod 1 0
  ∀ s c x, s.issues (.wait u) c = true → s.traps c → c.w.oc cls = waitN u c.w → c.w.failure cls (waitN u c.w) = some x →
    fget s.saved c.u = none → c.mask ≠ 0 →
    ∃ t w', exec (.wait u) s = .next t ∧ t.mem = s.mem ∧ t.wave c.u = some w' ∧ w'.estat = estatOf x ∧ x ∉ w'.fails ∧
      ∀ l th, c.has l th → w'.th l = some (th.done.entered (s.trapHandler c.w) x.code 0 0 c.pc)

/-! ### The fabric (R379 to R392) -/

/-- Outside regions, where every acting lane passes the checks of R387 and there is room: each acting lane's entry leaves in
a packet to the member its capability names, and the wave counts one operation; memory and the lanes' registers stay. -/
def FabricSends (i : Instr) (m : MOps) (kind opk size perms : Nat) (val : Thread → QWord) (abandoned : Thread → Bool) : Prop :=
  let sys := bfld m.mod 6 5 == 3
  ∀ s c, s.issues i c = true → s.inRegion c.w = false → c.w.sect = none → c.w.oc 2 < 1023 →
    (s.packets.filter fun (_, (p : Packet)) => p.die == dieOf c.w.core).length + (c.acting m.g).length ≤ 8192 →
    (sys = true → s.quiet c.u c.mask = true ∧ (s.core c.w.core).sq = []) →
    (∀ l th, c.has l th → th.guard m.g = true → ∃ h, s.fabCheck c m size perms (abandoned th) l th = .ok h) →
    ∃ t w', exec i s = .next t ∧ t.mem = s.mem ∧ t.wave c.u = some w' ∧ w'.s = c.w.s ∧
      (∀ id, id < s.nextId → fget t.packets id = fget s.packets id) ∧
      (∀ l th, inMask c.mask l = false → c.w.th l = some th → w'.th l = some th) ∧
      (∀ l th, c.has l th → w'.th l = some th.done) ∧
      ∀ l th, c.has l th → th.guard m.g = true → ∃ id p, s.nextId ≤ id ∧ fget t.packets id = some p ∧ p.wave = c.u ∧
        p.member = (capOf m c.w th).member ∧ p.dst = m.data.toNat ∧ p.res = none ∧ p.pkt.kind = kind ∧ p.pkt.opk = opk ∧
        p.pkt.size = size ∧ p.pkt.sys = sys ∧ (l, addrOf m c.w th, val th) ∈ p.pkt.lanes ∧
        ∃ o ∈ w'.ops, o.id = p.op ∧ o.cls = 2

/-- The four access words. -/
def fabricWords (m : MOps) : List Prop :=
  let d := m.data.toNat
  let n := szBytes (szM m)
  let k := aBytes m
  let q := if bfld m.mod 0 0 = 1 then 8 else 4
  [FabricSends (.fst m) m 0 0 n pSTORE (fun th => th.dataOf d n) (fun _ => false),
   FabricSends (.fld m) m 1 0 n pLOAD (fun _ => 0) (fun _ => false),
   FabricSends (.fatom m) m 2 (opkA m) k (pLOAD ||| pSTORE ||| pATOMIC) (fun th => th.dataOf d k)
     (fun th => opkFloat (opkA m) && isAbandoned (th.getV d)),
   FabricSends (.fflag m) m 3 0 q pSTORE (fun th => th.dataOf d q) (fun _ => false)]

/-- R385, R389, R390: `ffence` waits for the wave's write packets, or goes on where none is abroad and none failed; `blstat`. -/
def fabricRows (u : UOps) : List EndRow :=
  let out := fun (s : State) (c : Ctx) => s.quiet c.u c.mask = true ∧ noQueue s c
  [{ i := .ffence u, ok := fun s c => out s c ∧ s.abroad c.u s.nextId = true, f := releases
     g := fun s c _ th => { th with wait := .ffence s.nextId c.mask } },
   { i := .ffence u, ok := fun s c => out s c ∧ s.abroad c.u s.nextId = false ∧ c.w.packetFailure s.nextId = none
     f := releases },
   { i := .blstat u, gw := fun s c w => w.setS u.d.toNat
       (BitVec.ofNat 32 (s.blendFact c.w.port (bfld u.mod 2 0) (c.w.getS u.a.toNat).toNat)) }]

/-! ### Verdicts (R355 to R372) -/

/-- The accumulation that a `vdopen` opens (R355, R357). -/
def opened (u : UOps) (c : Ctx) : Verdict :=
  let d := c.w.verdictDesc u.a.toNat
  { opn := true, src := vdSource u, keep := bfld u.mod 3 3 == 1, qfmt := bitsOf d.w0 27 24
    ccap := c.w.getC (bitsOf d.w0 4 0), qcap := c.w.getC (bitsOf d.w0 12 8), tcap := c.w.getC (bitsOf d.w0 20 16)
    qoff := d.qoff, toff := d.toff, qmax := d.qmax, tuse := vdFirst u
    lanes := (List.range 32).map fun l => (l, ⟨if inMask c.mask l then .live else .idle, 0, 0, 0, false⟩) }

/-- R357, R358, R369 to R372: opening, closing, testing; `vdacc` with no open accumulation. -/
def verdictRows (f : FOps) (u : UOps) : List EndRow :=
  let mem := vdSource u == .mem
  let taddr := fun (c : Ctx) => BitVec.ofNat 64 (opened u c).tcap.base + (opened u c).toff
  [{ i := .vdopen u
     ok := fun s c => (c.w.verdictDesc u.a.toNat).illegal mem = false ∧
       copiedFault ([(opened u c).ccap, (opened u c).qcap] ++ if mem then [(opened u c).tcap] else []) = none ∧
       (mem = true → s.inRegion c.w = false ∧ capCheck (opened u c).tcap (taddr c).toNat 4 pLOAD 0 = none ∧
         (taddr c).toNat % 4 = 0)
     gw := fun _ c w => { w with vd := opened u c } },
   { i := .vdend u, gw := fun _ c w =>
       { (w.setS u.d.toNat (if (Fmt.value .f32 c.w.vd.tuse.toNat).isNaN then Config.qnan32 else c.w.vd.tuse)) with
         vd := { c.w.vd with opn := false } } },
   { i := .vdstat u, gw := fun _ c w => w.setS u.d.toNat c.w.vd.stat },
   { i := .vdtest f, g := fun _ c l th => match c.w.th l with
       | some t0 => th.setP f.d.toNat (vdKind (bfld f.mod 2 0) (t0.src f.a))
       | none => th },
   { i := .vdacc f, ok := fun _ c => c.w.vd.opn = false, g := fun _ _ _ th => th.setP (f.bc.numC % 8) false }]

/-- `thmax` (R371): an access with one address. -/
def thmaxRow (m : MOps) : AccRow :=
  { i := .thmax m, m := m, size := aBytes m, perms := fun _ => pLOAD ||| pSTORE ||| pATOMIC, kind := 2, writes := true
    op := fun _ _ => .thmax m.data.toNat, val := fun _ th => (th.dataOf m.data.toNat (aBytes m), false)
    ok := fun s c => scOf m < 2 ∨ noQueue s c }

/-- What a lane's plan leaves: the destination, the predicate, the lane's state (R361 to R364). -/
def vdOutcome (keep : Bool) (qmax tuse : Word) (pl : VPlan) : Word × Bool × VState :=
  let won := fun (b : Bool) => if b then VState.tru else .fls
  match pl with
  | .settled b => (abandonedWord b 0, false, won b)
  | .used v _ none => (v.s, false, .done)
  | .used v _ (some m) => match v.verdict keep qmax tuse m with
    | some b => (abandonedWord b v.n, false, won b)
    | none => (v.s, true, v.st)

/-- R358, R361 to R364: in an open accumulation whose threshold is not read from memory, where every live lane of the group
can read its chunk: a live lane has the outcome of its plan, any other lane a clear predicate; memory stays. -/
def Accumulates (f : FOps) : Prop :=
  ∀ s c, s.issues (.vdacc f) c = true → c.w.vd.opn = true → (c.w.vd.src = .mem → s.inRegion c.w = true) →
    s.quiet c.u c.mask = true → s.thresholdPending c = false →
    let vd := c.w.vd
    let tuse := match vd.src with
      | .reg sb => tuseNext vd.tuse (c.w.getS sb)
      | _ => vd.tuse
    let laneOf := fun (l : Nat) => (fget vd.lanes l).getD ⟨.idle, 0, 0, 0, false⟩
    let plan := fun (l : Nat) (th : Thread) => s.vdPlan c vd tuse (th.getV2 f.a.num) l th (laneOf l)
    let p := f.bc.numC % 8
    (∀ l th, c.has l th → (laneOf l).st = .live → ∃ pl rs, plan l th = (.ok pl, rs) ∧ s.vdBad c.w.coreNo rs = false ∧
      ∀ r ∈ rs, settled s c.w.coreNo false r.hit.e = true) →
    ∃ t w', exec (.vdacc f) s = .next t ∧ t.mem = s.mem ∧ t.wave c.u = some w' ∧ w'.vd.opn = true ∧ w'.vd.tuse = tuse ∧
      (∀ l th, c.has l th → (laneOf l).st ≠ .live → ∃ th', w'.th l = some th' ∧ th'.pc = pc56 (th.pc + 8) ∧ th'.v = th.v ∧
        th'.getP p = (p == 0)) ∧
      ∀ l th pl rs, c.has l th → (laneOf l).st = .live → plan l th = (.ok pl, rs) →
        let o := vdOutcome vd.keep vd.qmax tuse pl
        ∃ th', w'.th l = some th' ∧ th'.pc = pc56 (th.pc + 8) ∧ th'.getV f.d.toNat = o.1 ∧ th'.getP p = (p == 0 || o.2.1) ∧
          (∀ r, r ≠ f.d.toNat → th'.getV r = th.getV r) ∧ ((fget w'.vd.lanes l).map VLane.st = some o.2.2)

end Sys2Proof.Claims
end

