-- ==== Sys2Proof/Certificates/Slice0/Patterns.lean ====
section
/-!
DEFINITION. The words of patterns and streams as the claims state them (spec/14_patterns_and_streams.md, R338 to R353).
-/
namespace Sys2Proof.Claims
open Sys2Proof.Machine

/-! ### Words that read and then act once (R345, R353) -/

/-- The reads of a word succeed and give `x`: every page is one the read does not reclassify, no line is bad, and nothing of
the group is in flight. -/
def ReadsOk {α : Type} (s : State) (c : Ctx) (g : Gen α) (x : α) : Prop :=
  ∃ rs, g [] = .ok (x, rs) ∧ s.quiet c.u c.mask = true ∧
    ∀ r ∈ rs, settled s c.w.coreNo false r.hit.e = true ∧ s.readBad c.w.coreNo r = false

/-- The word leaves everything but its wave, and there memory's traces, as it was; its threads stand past it and hold `v`. -/
def ActsOn (s t : State) (c : Ctx) (w' : Wave) (v : Nat → Thread → Regs 32) : Prop :=
  t.mem = s.mem ∧ t.inflight = s.inflight ∧ t.wave c.u = some w' ∧ (∀ u, u ≠ c.u → t.wave u = s.wave u) ∧
    w'.s = c.w.s ∧ w'.c = c.w.c ∧ (∀ l, inMask c.mask l = false → w'.th l = c.w.th l) ∧
    ∀ l th, c.has l th → ∃ th', w'.th l = some th' ∧ th'.pc = pc56 (th.pc + 8) ∧ th'.v = v l th ∧ th'.p = th.p

/-- A fault of the reads is raised in every thread, and nothing else happens. -/
def ReadsTrap {α : Type} (i : Instr) (ok : State → Ctx → Prop) (g : State → Ctx → Gen α) : Prop :=
  ∀ s c e va, s.issues i c = true → s.traps c → ok s c → g s c [] = .error (e, va) → e ≠ cNOTPRESENT →
    ∃ t, exec i s = .next t ∧ Ends s t c (fun s => s) (fun w => w)
      (fun _ th => th.entered (s.trapHandler c.w) e va 0 c.pc)

/-! ### Generators (R338, R339, R345 to R347) -/

/-- The address of a program or an image. -/
def genAddr (u : UOps) (c : Ctx) : DWord := BitVec.ofNat 64 (c.w.getC u.a.toNat).base + (c.w.getS u.bc.numB).setWidth 64

/-- R345: `pgbind` reads the program and binds the context before its first element; a program that R331 rejects, or a read
that fails, faults in every thread and binds nothing. -/
def Binds (u : UOps) : Prop :=
  let g := fun (s : State) (c : Ctx) => readPat (s.leadReader c (c.w.getC u.a.toNat)) (genAddr u c)
  (∀ s c ws p, s.issues (.pgbind u) c = true → ReadsOk s c (g s c) (ws, p) →
    ∃ t w', exec (.pgbind u) s = .next t ∧ ActsOn s t c w' (fun _ th => th.v) ∧
      fget w'.z u.d.toNat = some ⟨c.w.getC u.a.toNat, genAddr u c, ws, false, false, false, 0, 0⟩ ∧
      ∀ k, k ≠ u.d.toNat → fget w'.z k = fget c.w.z k) ∧
  ReadsTrap (.pgbind u) (fun _ _ => True) g

/-- The walk of a `pgnext` or `pgnextt`: one element for each lane, and the position after them (R335, R337, R346). -/
def walk (s : State) (c : Ctx) (z : GenCtx) (p : Pat) (tr : Bool) : Gen (List Elem × PPos) := do
  let pos : PPos := if z.dset && z.t != tr then ⟨0, 0, false⟩ else ⟨z.major, z.minor, z.done⟩
  let base := BitVec.ofNat 64 z.cap.base
  let rd := s.leadReader c z.cap
  let (es, q) ← p.take rd base tr (c.w.active c.mask).length pos
  let q' ← p.settle rd base tr q
  pure (es, q')

/-- R346: each lane in ascending order takes the next nonzero of its direction, the lanes past the end the past-the-end
element; the context keeps the place. An unbound context gives the past-the-end element to all. A transposed walk of a
program with a hash term that has no inverse table is refused. -/
def Generates (f : FOps) (tr : Bool) : Prop :=
  let i : Instr := if tr then .pgnextt f else .pgnext f
  let k := f.a.num
  let d := f.d.toNat
  (∀ s c, s.issues i c = true → fget c.w.z k = none →
    ∃ t, exec i s = .next t ∧ Ends s t c (fun s => s) (fun w => w) (fun _ th => th.setElem d none)) ∧
  (∀ s c z p es q, s.issues i c = true → fget c.w.z k = some z → parsePat z.words = some p →
    (tr = true → p.term.invertible = true) → ReadsOk s c (walk s c z p tr) (es, q) →
    ∃ t w', exec i s = .next t ∧
      ActsOn s t c w' (fun l th => (th.setElem d ((((c.w.active c.mask).findIdx? fun x => x.1 == l).bind fun n => es[n]?))).v) ∧
      fget w'.z k = some { z with dset := true, t := tr, done := q.done, major := q.maj, minor := q.min }) ∧
  (∀ s c z p, s.issues i c = true → s.traps c → fget c.w.z k = some z → parsePat z.words = some p → tr = true →
    p.term.invertible = false →
    ∃ t, exec i s = .next t ∧ Ends s t c (fun s => s) (fun w => w)
      (fun _ th => th.entered (s.trapHandler c.w) cNONINV 0 0 c.pc))

/-- R339, R347, Table 14.5: outside regions `pgsave` puts the 64 bytes of its context in flight as one access of four quads, the first
with the tag of the context's capability; an unbound context gives zeros. That the 64 bytes are four stores of a quad is log entry 92
(DEDUCED), and what position the image names after the walk has read ahead log entry 124 (DESIGN CHOICE). -/
def Saves (u : UOps) : Prop :=
  ∀ s c l th e, s.issues (.pgsave u) c = true → s.inRegion c.w = false → c.lead = some (l, th) →
    let z := (fget c.w.z u.d.toNat).map (s.ahead c)
    s.checkAt c.w th (c.w.getC u.a.toNat) (genAddr u c) 64
      (pSTORE ||| if (z.any fun z => z.cap.tag) then pSTCAP else 0) 4 = .ok e →
    settled s c.w.coreNo true e = true → (z.any fun z => z.done) = false →
    let img : BitVec 384 := (z.map fun z => z.image (BitVec.ofNat 32 z.major) (BitVec.ofNat 32 z.minor)).getD 0
    let cap := (z.map GenCtx.cap).getD Cap.nil
    ∃ t a, exec (.pgsave u) s = .next t ∧ t.mem = s.mem ∧ t.inflight = s.inflight ++ [a] ∧ a.op = .stc ∧ a.wave = c.u ∧
      a.lanes.map (fun x => (x.lane, x.key, x.val, x.tag)) =
        [(l, e.key (genAddr u c).toNat, cap.bits, cap.tag),
         (l, e.key (genAddr u c).toNat + 16, img.setWidth 128, false),
         (l, e.key (genAddr u c).toNat + 32, (img >>> 128).setWidth 128, false),
         (l, e.key (genAddr u c).toNat + 48, (img >>> 256).setWidth 128, false)] ∧
      ∀ l th, c.has l th → ∃ th', t.lane c.u l = some th' ∧ th'.v = th.v ∧ th'.pc = pc56 (th.pc + 8)

/-- What `pgrest` reads: the image, then the program it names; the tag too past any region buffer (R238, R352). -/
def restored (u : UOps) (s : State) (c : Ctx) : Gen (Option GenCtx) := fun rs => (do
  let (x, rs1) ← (rdAt (s.leadReader c (c.w.getC u.a.toNat)) (genAddr u c) 64) rs
  let tag := rs1.getLast?.any fun r => s.memoryTag c.w (r.hit.e.die c.w) (r.hit.e.key (genAddr u c).toNat)
  let raw : Cap := ⟨BitVec.ofNat 128 x, false⟩
  restGen (s.leadReader c) ⟨raw.bits, tag && (c.w.getC u.a.toNat).has pLDCAP && raw.wellFormed⟩ x rs1)

/-- R347: `pgrest` makes the context what its image names, or unbinds it; what fails faults in every thread. -/
def Restores (u : UOps) : Prop :=
  (∀ s c z, s.issues (.pgrest u) c = true → ReadsOk s c (restored u s c) z →
    ∃ t w', exec (.pgrest u) s = .next t ∧ ActsOn s t c w' (fun _ th => th.v) ∧ fget w'.z u.d.toNat = z) ∧
  ReadsTrap (.pgrest u) (fun _ _ => True) (restored u)

/-! ### Lists and stream registers (R341, R342, R348, R351) -/

/-- R348: `sopen` binds a stream register to the list at the address its lanes agree on, before its first key; a header that
is malformed faults and binds nothing. -/
def Opens (m : MOps) : Prop :=
  let q := m.data.toNat
  let agree := fun (c : Ctx) (l : Nat) (th : Thread) => c.lead = some (l, th) ∧
    ((c.w.active c.mask).all fun x => addrOf m c.w x.2 == addrOf m c.w th) = true
  let g := fun (s : State) (c : Ctx) (l : Nat) (th : Thread) =>
    sopenGen (s.readerOf c l th (capOf m c.w th)) (capOf m c.w th) (addrOf m c.w th)
  (∀ s c l th r, s.issues (.sopen m) c = true → c.w.streamBusy q = false → agree c l th → ReadsOk s c (g s c l th) r →
    ∃ t w', exec (.sopen m) s = .next t ∧ ActsOn s t c w' (fun _ th => th.v) ∧ fget w'.q q = some r ∧ r.pos = 0 ∧
      r.addr = addrOf m c.w th ∧ ∀ k, k ≠ q → fget w'.q k = fget c.w.q k) ∧
  ∀ s c l th e va, s.issues (.sopen m) c = true → s.traps c → c.w.streamBusy q = false → agree c l th →
    g s c l th [] = .error (e, va) → e ≠ cNOTPRESENT →
    ∃ t, exec (.sopen m) s = .next t ∧ Ends s t c (fun s => s) (fun w => w)
      (fun _ th => th.entered (s.trapHandler c.w) e va 0 c.pc)

/-- R351: `sopen.rd` gives each lane in ascending order the next key and value, the lanes past the end the past-the-end
element, and moves the position past what it gave. -/
def Pops (m : MOps) : Prop :=
  let q := m.cap.toNat
  let d := m.data.toNat
  let g := fun (s : State) (c : Ctx) =>
    popGen (fun l t => s.readerOf c l t (c.w.getQ q).cap) (c.w.getQ q) (c.w.active c.mask) (c.w.getQ q).pos
  ∀ s c es p, s.issues (.sopenRd m) c = true → c.w.streamBusy q = false → ReadsOk s c (g s c) (es, p) →
    ∃ t w', exec (.sopenRd m) s = .next t ∧
      ActsOn s t c w' (fun l th => match fget es l with
        | some (k, v) => ((th.setV d (BitVec.ofNat 32 k)).setV (d + 1) (BitVec.ofNat 32 v)).v
        | none => th.v) ∧
      ∀ r, fget c.w.q q = some r → fget w'.q q = some { r with pos := p }

/-- An operation of the stream unit begun (R343): a release that finds no store queued, and a count. -/
def begins (c : Ctx) (s : State) : State := { (releases c s) with nextId := s.nextId + 1 }
def begun (s : State) (o : Nat → StreamOp) (w : Wave) : Wave := { (w.opBegin s.nextId 3 1) with sops := w.sops ++ [o s.nextId] }

/-- R343, R348 to R350: `sclose`; the operations of the unit, where their ranges pass the checks at issue. -/
def streamRows (u : UOps) : List EndRow :=
  let room := fun (s : State) (c : Ctx) => s.inRegion c.w = false ∧ c.w.oc 3 < 1023 ∧ s.quiet c.u c.mask = true ∧ noQueue s c
  let qc := u.bc.numC
  let out := fun (s : State) (c : Ctx) => fget c.w.q qc = none ∨
    (s.issueCheck c (c.w.getQ qc).cap ((c.w.getQ qc).keyVa (c.w.getQ qc).pos) (4 * ((c.w.getQ qc).capy - (c.w.getQ qc).pos)) 1
        pSTORE 1 = none ∧
      s.issueCheck c (c.w.getQ qc).cap ((c.w.getQ qc).valVa (c.w.getQ qc).pos) (4 * ((c.w.getQ qc).capy - (c.w.getQ qc).pos)) 1
        pSTORE 1 = none)
  let list := fun (i : Instr) (kind : Nat) =>
    ({ i := i, ok := fun s c => room s c ∧ out s c, f := begins
       gw := fun s c w => begun s (fun id => ⟨id, c.pc, kind, u.d.toNat, u.a.toNat, u.bc.numB, qc, [], 0, 0, c.mask⟩) w } : EndRow)
  let n := fun (c : Ctx) => (c.w.getS u.bc.numB).toNat
  let p := fun (c : Ctx) => (c.w.getS (u.bc.numB + 1)).toNat
  [{ i := .sclose u, ok := fun _ c => c.w.streamBusy u.d.toNat = false, gw := fun _ _ w => { w with q := fdel w.q u.d.toNat } },
   list (.sisect u) 0, list (.sunion u) 1, list (.sdiff u) 2, list (.smerge u) 3,
   { i := .spart u
     ok := fun s c => room s c ∧ 0 < n c ∧ n c < 2 ^ 28 ∧ 0 < p c ∧ p c ≤ 65536 ∧
       s.issueCheck c (c.w.getC u.a.toNat) (c.w.getC u.a.toNat).base (4 * (n c + 1)) 4 pLOAD 0 = none ∧
       s.issueCheck c (c.w.getC u.d.toNat) (c.w.getC u.d.toNat).base (8 * (p c + 1)) 8 pSTORE 1 = none
     f := begins
     gw := fun s c w => begun s
       (fun id => ⟨id, c.pc, 4, 0, 0, 0, 0, [c.w.getC u.a.toNat, c.w.getC u.d.toNat], n c, p c, c.mask⟩) w }]

/-- R214, R343: no region admits an operation of the unit. -/
def streamRegionRows (u : UOps) : List EndRow :=
  [.sisect u, .sunion u, .sdiff u, .smerge u, .spart u].map fun i =>
    { i := i, ok := fun s c => s.inRegion c.w = true ∧ s.traps c
      g := fun s c _ th => th.entered (s.trapHandler c.w) cIRREVOCABLE 0 0 c.pc }

end Sys2Proof.Claims
end

