-- ==== Sys2Proof/Certificates/Slice0/Regions.lean ====
section
/-!
DEFINITION. The region words as the claims state them (spec/09_regions.md, R221 to R248).
-/
namespace Sys2Proof.Claims
open Sys2Proof.Machine

/-- R221, R223, R244, R247, R243: `ropen.wave` where a first chunk can be had and where not, `rstat`, and the two faults of
`ropen.wave` and `rcommit.wave`. -/
def regionRows (u : UOps) : List EndRow :=
  let p := u.d.toNat
  let chunk := fun (s : State) (c : Ctx) => firstChunk (s.quotaWave c.w.lid) 4 (s.poolFree c.w.core)
  let faults := fun (i : Instr) (code : Nat) (ok : Ctx → Prop) =>
    ({ i := i, ok := fun s c => s.traps c ∧ ok c, g := fun s c _ th => th.entered (s.trapHandler c.w) code 0 0 c.pc } : EndRow)
  [{ i := .ropenWave u, ok := fun s c => c.whole = true ∧ c.w.reg = none ∧ (chunk s c).isSome = true
     gw := fun s c w => { w with reg := chunk s c }
     g := fun _ c _ th => { (th.setP p true) with hWave := some ⟨targetU c.pc u.imm, th.cd.toNat, th.ser⟩ } },
   { i := .ropenWave u, ok := fun s c => c.whole = true ∧ c.w.reg = none ∧ chunk s c = none
     g := fun _ _ _ th => th.setP p false },
   { i := .rstat u, gw := fun s c w => w.setS p (s.rstatValue c.w) },
   faults (.ropenWave u) cDIVERGENT fun c => c.whole = false,
   faults (.ropenWave u) cNESTING fun c => c.whole = true ∧ c.w.reg.isSome = true,
   faults (.rcommitWave u) cDIVERGENT fun c => c.whole = false,
   faults (.rcommitWave u) cNESTING fun c => c.whole = true ∧ c.w.reg = none,
   faults (.rabortWave u) cNESTING fun c => c.w.reg = none]

/-- A thread unwound to a handler keeps its registers and predicates (R234). -/
def atHandler (th : Thread) (h : Unwind) (th' : Thread) : Prop :=
  th'.pc = h.pc ∧ th'.cd = BitVec.ofNat 16 h.cd ∧ th'.wait = .none ∧ th'.tm = false ∧ th'.latv = 0 ∧ th'.v = th.v ∧ th'.p = th.p ∧
    th'.meet = th.meet.filter (fun m => decide (m.ser ≤ h.ser))

/-- R233, R234, R235, R246: `rabort.wave` discards the region's buffer, so memory keeps what it held; every thread that has
not exited is at its handler; sr.rstat tells of an abort by USER with the word's code. -/
def WaveAborts (u : UOps) : Prop :=
  ∀ s c, s.issues (.rabortWave u) c = true → c.w.reg.isSome = true →
    ∃ t w', exec (.rabortWave u) s = .next t ∧ t.mem = s.mem ∧ t.tags = s.tags ∧ t.blocks = s.blocks ∧
      t.wave c.u = some w' ∧ w'.reg = none ∧ w'.run = none ∧ w'.s = c.w.s ∧
      w'.rstat = rstatNext c.w.rstat u.imm.toNat false 1 ∧
      ∀ l th h, c.w.th l = some th → th.exited = false → th.hWave = some h →
        ∃ th', w'.th l = some th' ∧ atHandler th h th' ∧ th'.hWave = none

/-- R233 to R237, R246: `rabort.blk` discards the block's buffer. Its own wave is at its handlers with cause USER; another
wave of the block that stands between its runs is at its handlers with cause PARENT, and one with an open run unwinds at
the end of it. -/
def BlockAborts (u : UOps) : Prop :=
  ∀ s c b, s.issues (.rabortBlk u) c = true → c.w.sect = none → fget s.blocks c.w.blk = some b → b.reg.isSome = true →
    (fkeys (s.waves ++ s.saved)).Nodup →
    ∃ t b' w', exec (.rabortBlk u) s = .next t ∧ t.mem = s.mem ∧ t.tags = s.tags ∧
      fget t.blocks c.w.blk = some b' ∧ b'.reg = none ∧ t.wave c.u = some w' ∧
      w'.rstat = rstatNext c.w.rstat u.imm.toNat true 1 ∧
      (∀ l th h, c.w.th l = some th → th.exited = false → th.hBlk = some h →
        ∃ th', w'.th l = some th' ∧ atHandler th h th' ∧ th'.hBlk = none) ∧
      ∀ v x, v ≠ c.u → s.wave v = some x → x.sect = none → x.blk = c.w.blk → ∃ x', t.wave v = some x' ∧
        (x.run = none → x'.rstat = rstatNext x.rstat u.imm.toNat true 4 ∧ x'.reg = none) ∧
        (x.run ≠ none → x'.unwind = some ⟨4, u.imm.toNat, true⟩ ∧ x'.threads = x.threads)

/-- The byte a buffer holds for a storage key outside SWM pages. -/
def heldByte (r : Region) (k : Nat) : Option Byte :=
  match fget r.lines (k / 64) with
  | some l => if !l.swm && l.mask.getLsbD (k % 64) then some (rget l.data (k % 64)) else none
  | none => none

/-- R227, R230: with no block region around it, no access of the wave in flight and no store queued on the core, the commit of a wave region that is neither
poisoned nor doomed makes memory hold every buffered byte and leaves every other byte; the region is closed, the deferred
requests leave. -/
def WaveCommits (u : UOps) : Prop :=
  ∀ s c r, s.issues (.rcommitWave u) c = true → c.whole = true → c.w.reg = some r → c.w.sect = none → s.blockRegion c.w = none →
    r.poisoned = false → s.badMerge (dieOf c.w.core) r = none → r.doomed = false → s.quietWave c.u = true → (s.core c.w.core).sq = [] → (fkeys r.lines).Nodup →
    ∃ t w', exec (.rcommitWave u) s = .next t ∧ t.wave c.u = some w' ∧ w'.reg = none ∧ w'.run = none ∧ w'.s = c.w.s ∧
      w'.rstat = c.w.rstat ∧ t.bundles = s.bundles ++ r.escapes ∧
      (∀ k, t.mem.byte k = (heldByte r k).getD (s.mem.byte k)) ∧
      ∀ l th, c.has l th → ∃ th', w'.th l = some th' ∧ th'.pc = pc56 (th.pc + 8) ∧ th'.hWave = none ∧ th'.v = th.v

/-- R229: the commit of a doomed region aborts it with CONFLICT, and memory keeps what it held. -/
def DoomedAborts (u : UOps) : Prop :=
  ∀ s c r, s.issues (.rcommitWave u) c = true → c.whole = true → c.w.reg = some r → c.w.sect = none → s.blockRegion c.w = none →
    r.poisoned = false → r.doomed = true → s.quietWave c.u = true →
    ∃ t w', exec (.rcommitWave u) s = .next t ∧ t.mem = s.mem ∧ t.wave c.u = some w' ∧ w'.reg = none ∧
      w'.rstat = rstatNext c.w.rstat 0 false 2 ∧
      ∀ l th h, c.w.th l = some th → th.exited = false → th.hWave = some h →
        ∃ th', w'.th l = some th' ∧ atHandler th h th'

/-- R222, R232, R243: `ropen.blk` and `rcommit.blk` arrive at their barrier and wait, while a live thread of the block has
not arrived; `ropen.blk` has recorded each thread's handler. -/
def BlockRegionsArrive (u : UOps) : Prop :=
  ∀ s c b, (∀ l th, c.has l th → th.starved.getLsbD (blkBar u) = false) → (∀ l, inMask c.mask l = true → ∃ th, c.has l th) →
    c.w.reg = none →
    (s.issues (.ropenBlk u) c = true → arrivable s c b (blkBar u) .ropen → b.reg = none →
      ∃ t, exec (.ropenBlk u) s = .next t ∧ Arrives s t c (blkBar u) b .ropen true
        fun th => { th with hBlk := some ⟨targetU c.pc u.imm, th.cd.toNat, th.ser⟩ }) ∧
    (s.issues (.rcommitBlk u) c = true → arrivable s c b (blkBar u) .rcommit → b.reg.isSome = true →
      ∃ t, exec (.rcommitBlk u) s = .next t ∧ Arrives s t c (blkBar u) b .rcommit true)

/-- The one live thread of the block that has not arrived at barrier k is lane l of the group. -/
def lastOne (s : State) (c : Ctx) (b : Block) (k l : Nat) (mode : BarMode) : Prop :=
  lanesOf c.mask = [l] ∧ c.w.sect = none ∧ fget s.blocks c.w.blk = some b ∧ c.w.reg = none ∧ s.quiet c.u c.mask = true ∧
    ((b.bar k).mode = some mode ∨ (b.bar k).mode = none) ∧
    (∃ th, c.has l th ∧ th.exited = false ∧ th.wait = .none ∧ th.starved.getLsbD k = false) ∧
    ∀ x ∈ s.blockLive c.w.blk, x.1 = threadKey c.u l ∨ x.1 ∈ (b.bar k).arrived

/-- R222, R232: the last arrival opens the block's region with its first chunk and sets the predicate, or commits a region
that is neither poisoned nor doomed: it is closed, and memory holds its bytes. -/
def BlockRegionsComplete (u : UOps) : Prop :=
  ∀ s c b l,
    (s.issues (.ropenBlk u) c = true → lastOne s c b (blkBar u) l .ropen → b.reg = none → u.d.toNat < 8 →
      ∀ r, firstChunk (s.quotaBlk b) 64 (s.poolFree b.core) = some r →
      ∃ t b' th', exec (.ropenBlk u) s = .next t ∧ t.mem = s.mem ∧ fget t.blocks c.w.blk = some b' ∧ b'.reg = some r ∧
        (b'.bar (blkBar u)).phase = (b.bar (blkBar u)).phase + 1 ∧ t.lane c.u l = some th' ∧ th'.getP u.d.toNat = true ∧
        th'.wait = .none) ∧
    (s.issues (.rcommitBlk u) c = true → lastOne s c b (blkBar u) l .rcommit →
      ∀ r, b.reg = some r → r.poisoned = false → s.badMerge (dieOf b.core) r = none → r.doomed = false → (s.core b.core).sq = [] → (fkeys r.lines).Nodup →
      ∃ t b', exec (.rcommitBlk u) s = .next t ∧ fget t.blocks c.w.blk = some b' ∧ b'.reg = none ∧
        (b'.bar (blkBar u)).phase = (b.bar (blkBar u)).phase + 1 ∧ ∀ k, t.mem.byte k = (heldByte r k).getD (s.mem.byte k))

/-! ### Memory words inside a region (R185, R214, R223 to R226, R166) -/

/-- A byte as a word of the wave reads it: from the wave's buffer, else from its block's, else from memory (R224). -/
def mergedByte (s : State) (w : Wave) (die : Option Nat) (key : Nat) : Byte :=
  match w.reg.bind fun r => r.byte (key / 64) (key % 64) with
  | some b => b
  | none => match (s.blockRegion w).bind fun r => r.byte (key / 64) (key % 64) with
    | some b => b
    | none => s.loadByte w die key

/-- So many of them as a number. -/
def mergedNum (s : State) (w : Wave) (die : Option Nat) (key n : Nat) : Nat :=
  ((List.range n).map fun i => (mergedByte s w die (key + i)).toNat * 256 ^ i).sum

/-- The buffer that the wave's stores go to: its own, else its block's. -/
def innermostBuffer (s : State) (w : Wave) : Option Region :=
  w.reg.orElse fun _ => (fget s.blocks w.blk).bind fun b => b.reg

/-- Inside a region, with nothing of the wave in flight, every acting lane passes its checks in a page it does not reclassify, and
within one line whose cork matches where memory is read. -/
def InsidePassing (s : State) (c : Ctx) (m : MOps) (n perms kind : Nat) (writes : Bool) : Prop :=
  c.w.sect = none ∧ s.quietWave c.u = true ∧ Passing s c m.g (capOf m c.w) (addrOf m c.w) n (fun _ => perms) kind writes ∧
    ∀ l th e, c.has l th → th.guard m.g = true → s.checkAt c.w th (capOf m c.w th) (addrOf m c.w th) n perms kind = .ok e →
      e.key (addrOf m c.w th).toNat % 64 + n ≤ 64 ∧
        s.regionBad c.w (e.die c.w) (e.key (addrOf m c.w th).toNat) n = false

/-- R185, R224, R226: a load inside a region reads each lane's merged bytes at once, puts its line into the signature of every open
region of the wave, and puts nothing in flight. -/
def LoadsInside (m : MOps) : Prop :=
  let n := szBytes (szM m)
  ∀ s c, s.issues (.ld m) c = true → s.inRegion c.w = true → InsidePassing s c m n pLOAD 0 false →
    ∃ t w', exec (.ld m) s = .next t ∧ t.mem = s.mem ∧ t.inflight = s.inflight ∧ t.wave c.u = some w' ∧
      (∀ l, inMask c.mask l = false → w'.th l = c.w.th l) ∧
      ∀ l th, c.has l th → ∃ th', w'.th l = some th' ∧ th'.pc = pc56 (th.pc + 8) ∧ th'.p = th.p ∧
        (th.guard m.g = false → th'.v = th.v) ∧
        ∀ e, th.guard m.g = true → s.checkAt c.w th (capOf m c.w th) (addrOf m c.w th) n pLOAD 0 = .ok e →
          th'.v = (th.setSized m.data.toNat n (szSigned (szM m))
            (mergedNum s c.w (e.die c.w) (e.key (addrOf m c.w th).toNat) n)).v ∧
          (∀ r, w'.reg = some r → sigHit r.sig (vanOf (addrOf m c.w th).toNat) = true) ∧
          ∀ b r, fget t.blocks c.w.blk = some b → b.reg = some r → sigHit r.sig (vanOf (addrOf m c.w th).toNat) = true

/-- The keys and the values of the acting lanes, in ascending lane order. -/
def laneParts (s : State) (c : Ctx) (m : MOps) (n perms kind : Nat) : List (Nat × QWord) :=
  (c.acting m.g).filterMap fun (_, th) =>
    match s.checkAt c.w th (capOf m c.w th) (addrOf m c.w th) n perms kind with
    | .ok e => some (e.key (addrOf m c.w th).toNat, th.dataOf m.data.toNat n)
    | .error _ => none

/-- A buffered byte after stores of parts one after another. -/
def bufferedByte (n : Nat) (ps : List (Nat × QWord)) (k : Nat) (old : Option Byte) : Option Byte :=
  ps.foldl (fun b (key, x) => if key ≤ k ∧ k < key + n then some (BitVec.ofNat 8 (x.toNat / 256 ^ (k - key))) else b) old

/-- R185, R223, R224: a store inside a region whose chunks have room for its lines goes to the innermost buffer alone, in ascending
lane order; memory keeps what it held, and nothing is in flight. -/
def StoresInside (m : MOps) : Prop :=
  let n := szBytes (szM m)
  ∀ s c r, s.issues (.st m) c = true → innermostBuffer s c.w = some r → InsidePassing s c m n pSTORE 1 true →
    r.lines.length + (c.acting m.g).length ≤ 64 * (r.qChunks + r.pChunks) →
    ∃ t w' r', exec (.st m) s = .next t ∧ t.mem = s.mem ∧ t.tags = s.tags ∧ t.inflight = s.inflight ∧ t.wave c.u = some w' ∧
      innermostBuffer t w' = some r' ∧ (w'.reg.isSome = c.w.reg.isSome) ∧ r'.sig = r.sig ∧ r'.escapes = r.escapes ∧
      (∀ k, r'.byte (k / 64) (k % 64) = bufferedByte n (laneParts s c m n pSTORE 1) k (r.byte (k / 64) (k % 64))) ∧
      (∀ l, inMask c.mask l = false → w'.th l = c.w.th l) ∧
      ∀ l th, c.has l th → ∃ th', w'.th l = some th' ∧ th'.pc = pc56 (th.pc + 8) ∧ th'.v = th.v ∧ th'.p = th.p

/-- R223: where a store needs a line that its wave region has no chunk for, the region aborts with CAPACITY: its buffer is gone,
memory keeps what it held, and the threads are at their handlers. -/
def StoresOverflow (m : MOps) : Prop :=
  let n := szBytes (szM m)
  ∀ s c r x xs, s.issues (.st m) c = true → c.w.reg = some r → InsidePassing s c m n pSTORE 1 true → c.acting m.g = x :: xs →
    (∀ p ∈ laneParts s c m n pSTORE 1, fget r.lines (p.1 / 64) = none) →
    4 ≤ r.qChunks + r.pChunks → 64 * (r.qChunks + r.pChunks) ≤ r.lines.length →
    ∃ t w', exec (.st m) s = .next t ∧ t.mem = s.mem ∧ t.wave c.u = some w' ∧ w'.reg = none ∧ w'.run = none ∧
      w'.rstat = rstatNext c.w.rstat 0 false 3 ∧
      ∀ l th h, c.w.th l = some th → th.exited = false → th.hWave = some h → ∃ th', w'.th l = some th' ∧ atHandler th h th'

/-- R214, R224, R188: an atomic of a scope that the region admits, its acting lanes at one address of a page that is not SWM, acts
on the merged bytes one lane after another, into the innermost buffer alone; each lane takes the value it found. -/
def AtomicsInside (m : MOps) : Prop :=
  let n := aBytes m
  let d := m.data.toNat
  let perms := pLOAD ||| pSTORE ||| pATOMIC
  ∀ s c r key, s.issues (.atom m) c = true → innermostBuffer s c.w = some r → s.tooWide c.w (scOf m) = false → clean m false c →
    InsidePassing s c m n perms 2 true → c.acting m.g ≠ [] →
    (∀ l th e, c.has l th → th.guard m.g = true → s.checkAt c.w th (capOf m c.w th) (addrOf m c.w th) n perms 2 = .ok e →
      e.swm = false ∧ e.key (addrOf m c.w th).toNat = key) →
    r.lines.length < 64 * (r.qChunks + r.pChunks) →
    let b := fun (x : Nat × Thread) => (x.2.dataOf d n).toNat % 2 ^ (8 * n)
    let found := fun (i : Nat) => ((c.acting m.g).take i).foldl (fun v x => (atomOp (opkA m) n v (b x)).1 % 2 ^ (8 * n))
      (mergedNum s c.w none key n)
    ∃ t w' r', exec (.atom m) s = .next t ∧ t.mem = s.mem ∧ t.tags = s.tags ∧ t.inflight = s.inflight ∧ t.wave c.u = some w' ∧
      innermostBuffer t w' = some r' ∧
      (∀ k, r'.byte (k / 64) (k % 64) = if key ≤ k ∧ k < key + n
        then some (BitVec.ofNat 8 (found (c.acting m.g).length / 256 ^ (k - key))) else r.byte (k / 64) (k % 64)) ∧
      ∀ (i l : Nat) (th : Thread), (c.acting m.g)[i]? = some (l, th) → ∃ th', w'.th l = some th' ∧ th'.pc = pc56 (th.pc + 8) ∧
        th'.v = (th.setSized d n false (found i)).v

/-- R214: an atomic of a wider scope than the innermost region raises IRREVOCABLE in its acting threads. -/
def wideRows (m : MOps) : List EndRow :=
  let row : Instr → EndRow := fun i =>
    { i := i, ok := fun s c => s.tooWide c.w (scOf m) = true ∧ s.traps c
      g := fun s c _ th => if th.guard m.g then th.entered (s.trapHandler c.w) cIRREVOCABLE 0 0 c.pc else th }
  [row (.atom m), row (.red m), row (.cas m), row (.dcas m), row (.atom2 m), row (.amov2 m)]

/-- The memory words that a region admits: loads and stores of any scope, atomics of a scope not too wide. -/
def insideRows (m : MOps) : List AccRow :=
  (((accessRows m).take 4).map fun (r : AccRow) => { r with ok := fun _ _ => True }) ++
    (((accessRows m).drop 4).take 3).map fun (r : AccRow) =>
      { r with ok := fun s c => s.tooWide c.w (scOf m) = false ∧ clean m false c }

/-- R166: a word inside a region whose acting lanes all meet absent pages is not parked: its threads stay at the word, the wave is not
eligible, with the page noted, until firmware has acted; nothing is buffered, and the region is still open. -/
def AccRow.awaitsPage (r : AccRow) : Prop :=
  ∀ s c x xs, s.issues r.i c = true → r.ok s c → s.inRegion c.w = true → c.w.sect = none → s.quietWave c.u = true →
    c.acting r.m.g = x :: xs →
    (∀ y ∈ c.acting r.m.g, s.checkAt c.w y.2 (capOf r.m c.w y.2) (addrOf r.m c.w y.2) r.size (r.perms y.2) r.kind =
      .error cNOTPRESENT) →
    ∃ t w', exec r.i s = .next t ∧ t.mem = s.mem ∧ t.inflight = s.inflight ∧ t.blocks = s.blocks ∧ t.wave c.u = some w' ∧
      w'.faultAbort = some (addrOf r.m c.w x.2, r.kind) ∧ w'.reg = c.w.reg ∧ t.readyWave w' = false ∧
      ∀ l th, c.has l th → ∃ th', w'.th l = some th' ∧
        { th' with lastPage := none } = { th.done with lastPage := none, pc := if th.guard r.m.g then c.pc else pc56 (th.pc + 8) }

end Sys2Proof.Claims
end

