-- ==== Sys2Proof/Certificates/Slice0/Specials.lean ====
section
/-!
DEFINITION. The register arithmetic rows with a destination, an operand or a condition of their own: selects and moves,
compares of floats, conversions that write more than one register, reductions and scans, the moves between threads and
the wave, paired words, and the words that do nothing.
-/
namespace Sys2Proof.Claims
open Sys2Proof.Machine

/-- A register arithmetic row: its destinations, the operands it runs on, and the value it gives. -/
structure RunRow where
  i : Instr
  d : Dest
  ok : Ctx → Prop := anyOps
  val : Ctx → Nat → Thread → Thread → Prop := fun _ _ _ _ => True

/-- Wherever the word issues on such operands, it answers a next state in which only `d` has changed, to `val`. -/
def RunRow.completes (r : RunRow) : Prop := Completes r.i r.d r.ok r.val

/-- The flags a word raises in a thread (R63, R99). -/
def raises (n : Nat) (th th' : Thread) : Prop := th'.fflags = (th.flag n).fflags

/-! ### Vector words -/

/-- A value in as many registers from D on as it takes; one register is a result like any other (R32, R60). -/
def givesSpan (f : FOps) (n x : Nat) (th' : Thread) : Prop :=
  if n ≤ 1 then gives f (BitVec.ofNat 32 x) th' else ∀ k, k < n → th'.getV (f.d.toNat + k) = BitVec.ofNat 32 (x / 2 ^ (32 * k))

/-- Selects, moves, the wide multiply-add and the float compare. -/
def selectRows (f : FOps) (m : VMovi) : List RunRow :=
  [{ i := .vmadw f, d := Dest.span f 2 false, val := fun _ _ th th' =>
       th'.getV2 f.d.toNat = BitVec.ofInt 64 (readE (viUN f.mod) 32 (opA f th).toNat * readE (viUN f.mod) 32 (opB f th).toNat +
         readE (viUN f.mod) 64 (th.getV2 f.bc.numC).toNat) },
   { i := .vsel f, d := Dest.vec f false, val := fun _ _ th th' => gives f (if th.guard f.g then opA f th else opB f th) th' },
   { i := .vmovi m, d := { Dest.none with v := [m.d.toNat] }, val := fun _ _ _ th' => th'.getV m.d.toNat = m.imm },
   { i := .fcmp f, d := Dest.pred f true, ok := noneAbandoned fun t => [t.src f.a, t.srcBf f.bc], val := fun _ _ th th' =>
       let r := fCmp .f32 (bfld f.mod 2 0) (th.src f.a).toNat (th.srcBf f.bc).toNat
       setsP f r.1 th' ∧ raises r.2 th th' }]

/-! ### Conversions -/

/-- The elements of source `src` of a word that reads `regs` registers there, from element `from` on. -/
def srcElements (f : FOps) (t : Thread) (src : VSrc) (regs start n : Nat) : List Nat :=
  (List.range n).map fun j => elem (spanVal t src regs) (cvFr f).width (start + j)

/-- The elements `pack` converts: those of a, then those of b (R77). -/
def packElements (f : FOps) (t : Thread) : List Nat :=
  let n := 16 / (cvTo f).width
  let regs := (cvFr f).width / (cvTo f).width / 2
  srcElements f t f.a regs 0 n ++ srcElements f t (match f.bc with
    | .regs b _ => b
    | .imm _ => .reg 0) regs 0 n

/-- Conversions that read or write several registers, and those of the lees registers. -/
def conversionSpecials (f : FOps) : List RunRow :=
  let fr := cvFr f
  let tgt := cvTo f
  let conv := fun (xs : List Nat) => xs.map fun x => convert x fr tgt (cvMode f)
  [{ i := .pack f, d := Dest.vec f true
     ok := fun c => fr = .f32 → noneAbandoned (fun t => (packElements f t).map (BitVec.ofNat 32)) c
     val := fun _ _ th th' =>
       let rs := conv (packElements f th)
       gives f (BitVec.ofNat 32 (packE tgt.width (rs.map fun r => r.1))) th' ∧ raises (orFlags rs) th th' },
   { i := .unpack f, d := Dest.span f (tgt.width / fr.width / 2) true, val := fun _ _ th th' =>
       let n := 16 / fr.width
       let rs := conv ((List.range n).map fun j => elem (th.src f.a).toNat fr.width (cvLow f * n + j))
       givesSpan f (tgt.width / fr.width / 2) (packE tgt.width (rs.map fun r => r.1)) th' ∧ raises (orFlags rs) th th' },
   { i := .cbdec f, d := Dest.span f (tgt.width / 4) false, val := fun _ _ th th' =>
       givesSpan f (tgt.width / 4)
         (packE tgt.width ((lq8Decode (elem (th.src f.a).toNat 16 (cvLow f))).map fun w => (tgt.roundDy .rne false ⟨w, -1⟩).1)) th' },
   { i := .cvtef f, d := { Dest.vec f true with e := [cvLow f] }, ok := noneAbandoned fun t => [t.src f.a, rget t.e (cvLow f)]
     val := fun _ _ th th' =>
       let r := efNarrow tgt (th.src f.a).toNat (rget th.e (cvLow f)).toNat
       gives f (place tgt r.1) th' ∧ rget th'.e (cvLow f) = BitVec.ofNat 32 r.2.1 ∧ raises r.2.2 th th' },
   { i := .leeswr f, d := { Dest.none with e := [cvLow f] }, val := fun _ _ th th' => rget th'.e (cvLow f) = th.src f.a }]

/-- R84: `leesrd` and `leeswr` copy the 32-bit pattern between a register and a lees register, whatever it is, and set no
flag. -/
def leesRows (f : FOps) : List RunRow :=
  [{ i := .leesrd f, d := Dest.vec f false, val := fun _ _ th th' => gives f (rget th.e (cvLow f)) th' },
   { i := .leeswr f, d := { Dest.none with e := [cvLow f] }, val := fun _ _ th th' => rget th'.e (cvLow f) = th.src f.a }]

/-! ### Lanes -/

/-- The values of a list combined in order, and the flags of all steps (R102). -/
def folded (float : Bool) (op : Nat) : List Word → Word × Nat
  | [] => (0, 0)
  | x :: xs => xs.foldl (fun (acc : Word × Nat) y => let r := redStep float op acc.1 y; (r.1, acc.2 ||| r.2)) (x, 0)

/-- Source a of the threads of the group up to or below a lane, in lane order. -/
def upTo (f : FOps) (c : Ctx) (p : Nat → Bool) : List Word := ((group c).filter fun x => p x.1).map fun x => x.2.src f.a

/-- Reductions, scans, broadcasts and moves of predicates and between thread and wave. -/
def laneSpecials (f : FOps) : List RunRow :=
  let float := lnTy f == 0
  let op := lnSub f % 8
  let tested := fun (c : Ctx) => float = true → noneAbandoned (fun t => [t.src f.a]) c
  let all := fun (c : Ctx) => folded float op (upTo f c fun _ => true)
  [{ i := .lred f, d := Dest.vec f true, ok := tested, val := fun c _ th th' =>
       gives f (all c).1 th' ∧ raises (all c).2 th th' },
   { i := .lscan f, d := Dest.vec f true, ok := tested, val := fun c l th th' =>
       raises (all c).2 th th' ∧
       if lnSub f / 8 = 1 then
         gives f (if upTo f c (fun k => decide (k < l)) = [] then redIdentity float op
           else (folded float op (upTo f c fun k => decide (k < l))).1) th'
       else gives f (folded float op (upTo f c fun k => decide (k ≤ l))).1 th' },
   { i := .bcast f, d := Dest.vec f false, val := fun c _ _ th' => ∀ l0 u, (group c).head? = some (l0, u) →
       let j := (u.srcB f.bc).toNat % 32
       gives f (match (if inMask c.mask j then c.w.th j else none) with
         | some x => x.src f.a
         | none => u.src f.a) th' },
   { i := .pmov f, d := if lnSub f < 2 then Dest.pred f false else Dest.vec f false, val := fun _ _ th th' =>
       match lnSub f with
       | 0 => setsP f (th.getP f.a.num) th'
       | 1 => setsP f (th.src f.a != 0) th'
       | _ => gives f (if th.getP f.a.num then 1 else 0) th' }]

/-! ### Uniform registers -/

/-- The wave's registers after the word. -/
def UniformAfter (i : Instr) (d : Dest) (ok : Ctx → Prop) (val : Ctx → Wave → Prop) (flags : Ctx → Nat) : Prop :=
  ∀ s c, s.issues i c = true → ok c → ∃ t w, exec i s = .next t ∧ t.wave c.u = some w ∧ val c w ∧
    Ran s t c d fun _ th th' => raises (flags c) th th'

/-- A register, or with DB a pair (R98). -/
def holdsU (u : UOps) (w : Wave) (x : Nat) : Prop :=
  if uDB u then w.getS2 u.d.toNat = BitVec.ofNat 64 x else w.getS u.d.toNat = BitVec.ofNat 32 x

/-- The format of scvt's integer (R99). -/
def integerFormat (u : UOps) : Fmt :=
  if uDB u then (if uUN u then .n64 else .i64) else if uUN u then .n32 else .i32

/-- Uniform rows with a value of their own: the register and what it holds. -/
def uniformSpecials (f : FOps) (u : UOps) (m : SMovi) : List (Instr × Dest × (Ctx → Prop) × (Ctx → Wave → Prop) × (Ctx → Nat)) :=
  let d := Dest.uni u.d.toNat (if uDB u then 2 else 1)
  let q := fun (_ : Ctx) => 0
  [(.ssel u, d false, anyOps, fun c w =>
      holdsU u w (if c.w.getS u.bc.numC ≠ 0 then c.w.getU u u.a.toNat else c.w.srcUB u), q),
   (.slea u, d false, anyOps, fun c w => holdsU u w ((c.w.getU u u.a.toNat + 2 ^ uSUB u * (match u.bc with
      | .regs b _ => if uUN u then (c.w.getS b.toNat).toNat else ((c.w.getS b.toNat).signExtend 64).toNat
      | .imm k => (immU k).toNat)) % 2 ^ uW u), q),
   (.smovi m, Dest.uni m.d.toNat 1 false, anyOps, fun _ w => w.getS m.d.toNat = m.imm, q),
   (.scvt u, if uSUB u = 0 then d true else Dest.uni u.d.toNat 1 true,
      fun c => uSUB u = 0 → isAbandoned (c.w.getS u.a.toNat) = false,
      fun c w =>
        if uSUB u = 0 then holdsU u w (convert (c.w.getS u.a.toNat).toNat .f32 (integerFormat u) (RMode.ofCode (uRM u))).1
        else w.getS u.d.toNat =
          BitVec.ofNat 32 (convert (c.w.getU u u.a.toNat) (integerFormat u) .f32 (RMode.ofCode (uRM u))).1,
      fun c =>
        if uSUB u = 0 then (convert (c.w.getS u.a.toNat).toNat .f32 (integerFormat u) (RMode.ofCode (uRM u))).2
        else (convert (c.w.getU u u.a.toNat) (integerFormat u) .f32 (RMode.ofCode (uRM u))).2),
   (.sfcmp u, Dest.uni u.d.toNat 2 true,
      fun c => [c.w.getS u.a.toNat, c.w.srcUf u].any isAbandoned = false,
      fun c w => w.getS u.d.toNat =
          (if (fCmp .f32 (uSUB u) (c.w.getS u.a.toNat).toNat (c.w.srcUf u).toNat).1 then 1 else 0) ∧ w.getS (u.d.toNat + 1) = 0,
      fun c => (fCmp .f32 (uSUB u) (c.w.getS u.a.toNat).toNat (c.w.srcUf u).toNat).2),
   (.v2s f, Dest.uni f.d.toNat 1 false, anyOps,
      fun c w => ∀ l0 x, (group c).head? = some (l0, x) → w.getS f.d.toNat = x.src f.a, q)]

/-! ### Paired words and words that do nothing -/

/-- A slot's operand a: a register or a latch (Table 2.7). -/
def slotA (p : PSlot) (t : Thread) : Word := if p.la then rget t.lat (p.a.toNat % 4) else t.getV p.a.toNat

/-- What a slot gives from the registers before the word. -/
def slotGives (p : PSlot) (t : Thread) : Option (Word × Nat) := shortOp p.sop.toNat (t.getV p.d.toNat) (slotA p t) p.imm

/-- Paired words: both slots read before either writes; a slot that does nothing leaves its register (R39). -/
def pairedRows (p : Pair) : List RunRow :=
  let on := fun (q : PSlot) => q.sop ≠ 0
  [{ i := .pairedWord p
     d := { Dest.none with v := (if on p.s0 then [p.s0.d.toNat] else []) ++ (if on p.s1 then [p.s1.d.toNat] else []), flags := true }
     ok := fun c => ∀ x ∈ group c, (on p.s0 → slotGives p.s0 x.2 ≠ none) ∧ (on p.s1 → slotGives p.s1 x.2 ≠ none)
     val := fun _ _ th th' =>
       (∀ r, on p.s1 → slotGives p.s1 th = some r → th'.getV p.s1.d.toNat = r.1) ∧
       (∀ r, on p.s0 → (on p.s1 → p.s0.d ≠ p.s1.d) → slotGives p.s0 th = some r → th'.getV p.s0.d.toNat = r.1) ∧
       raises ((if on p.s0 then ((slotGives p.s0 th).map fun r => r.2).getD 0 else 0) |||
         (if on p.s1 then ((slotGives p.s1 th).map fun r => r.2).getD 0 else 0)) th th' }]

/-- `nop`, and `land` in sequence (R116). -/
def idleRows (f : FOps) : List RunRow := [{ i := .nop f, d := Dest.none }, { i := .land f, d := Dest.none }]

/-- `trap #k` (R118): its effect is the entry of R404, with cause 80H + k and the next word as return address. -/
def trapRow (f : FOps) : EndRow where
  i := .trap f
  ok s c := s.traps c
  g s c _ th := th.entered (s.trapHandler c.w) (0x80 + f.imm.toNat) 0 0 (pc56 (c.pc + 8))

end Sys2Proof.Claims
end

