-- ==== Sys2Proof/Certificates/Slice0/System.lean ====
section
/-!
DEFINITION. The system words and the words that create work, as the claims state them (spec/17_traps_errors_context.md;
spec/06_work_creation_and_scheduling.md).
-/
namespace Sys2Proof.Claims
open Sys2Proof.Machine

/-! ### System registers and returns from a handler -/

/-- A system register's value in the destination of a lane or of the wave (R421). -/
def srPutV (n d x : Nat) (th : Thread) : Thread :=
  if srWide n then th.setV2 d (BitVec.ofNat 64 x) else th.setV d (BitVec.ofNat 32 x)
def srPutS (n d x : Nat) (w : Wave) : Wave :=
  if srWide n then w.setS2 d (BitVec.ofNat 64 x) else w.setS d (BitVec.ofNat 32 x)

/-- The return of a thread from its handler (R422): TM clear, the PC and the latches that the trap registers hold. -/
def returned (th : Thread) : Thread :=
  { th with
    tm := false, pc := th.tpc, latv := th.tlatv.setWidth 3
    lat := [1, 2, 3].foldl (fun m k => if th.tlatv.getLsbD (k - 1) then rset m k (rget th.tlat k) else m) [] }

/-- R409, R421, R422, R148: `rdsr`, `wrsr`, `tret` and `tret.mig` where no interrupted group waits, `prio`. -/
def systemRows (u : UOps) : List EndRow :=
  let n := srNum u
  let d := u.d.toNat
  let a := u.a.toNat
  let open_ := fun (c : Ctx) (s : State) => if n = 5 ∧ c.w.sect.isSome = true then { s with ctr := s.ctr + 1 } else s
  let write := fun (th : Thread) (x : DWord) => th.setSr n x
  [{ i := .rdsr u, ok := fun _ _ => u.mod = 1, f := open_
     g := fun s c l th => match c.w.th l with
       | some t0 => srPutV n d (s.srValue c.w l t0 n) th
       | none => th },
   { i := .rdsr u, ok := fun _ c => u.mod ≠ 1 ∧ c.lead.isSome = true, f := open_
     gw := fun s c w => match c.lead with
       | some (l, t) => srPutS n d (s.srValue c.w l t n) w
       | none => w },
   { i := .wrsr u, ok := fun _ _ => u.mod = 1
     g := fun _ _ _ th => write th (if srWide n then th.getV2 a else (th.getV a).setWidth 64) },
   { i := .wrsr u, ok := fun _ _ => u.mod ≠ 1
     g := fun _ c _ th => write th (if srWide n then c.w.getS2 a else (c.w.getS a).setWidth 64) },
   { i := .tret u, ok := fun _ c => c.w.intr = [], g := fun _ _ _ th => returned th },
   { i := .tretMig u, ok := fun _ c => c.w.intr = [] ∧ ∀ l th, c.has l th → th.tcause.toNat % 256 ≠ cFEATURE
     g := fun _ _ _ th => returned th },
   { i := .prio u, ok := fun _ c => c.w.sect = none
     gw := fun _ c w => { w with hint := if u.bc.isImm then u.imm.toNat % 8 else bfld (c.w.getS a) 2 0 } },
   { i := .prio u, ok := fun _ c => c.w.sect.isSome = true }]

/-- R419: `tret.mig` after FEATURE_ABSENT: the threads of the wave that are in the handler return, and the block is to be
saved and placed where the groups of the words that faulted are present. -/
def Migrates (u : UOps) : Prop :=
  ∀ s c b, s.issues (.tretMig u) c = true → c.w.intr = [] → fget s.blocks c.w.blk = some b → b.reg = none →
    (∃ l th, c.has l th ∧ th.tcause.toNat % 256 = cFEATURE) →
    ∃ t b', exec (.tretMig u) s = .next t ∧ t.mem = s.mem ∧ fget t.blocks c.w.blk = some b' ∧ b'.leaving = true ∧
      (∀ k, b.needs.getLsbD k = true → b'.needs.getLsbD k = true) ∧
      (∀ l th, c.has l th → th.tcause.toNat % 256 = cFEATURE → ∀ k, th.tneed = some k → k < 32 → b'.needs.getLsbD k = true) ∧
      ∀ l th, c.has l th → ∃ th', t.lane c.u l = some th' ∧ th'.tm = false ∧ th'.pc = th.tpc ∧ th'.v = th.v

/-! ### Translations and SWM pages -/

/-- R423, R164: outside regions, once the thread's own accesses and every access translated on the named cores have been
performed, `tlbinv` completes: it drops the page's translations on the cores it names, `tlbinv.all` those of the address
space; no other translation goes, memory holds what the store queues of the issuing core and of the named ones held, later
accesses stand behind an acquire, and the threads go on past the word. -/
def Invalidates (i : Instr) (u : UOps) (page : Wave → TlbEntry → Bool) : Prop :=
  ∀ s c, s.issues i c = true → s.inRegion c.w = false → s.quiet c.u c.mask = true → c.mask ≠ 0 →
    let x := c.w.getS u.bc.numB
    let gone := fun (e : TlbEntry) => e.port == bfld x 16 16 && page c.w e
    s.settledOn (invTargets x) (bfld x 16 16) = true →
    ∃ t, exec i s = .next t ∧ t.mem = ((s.releaseBy c.w).drainCores (invTargets x)).mem ∧
      (∀ n, n < 0x100 → (t.core n).tlb = (s.core n).tlb.filter fun e => !(invTargets x n && gone e)) ∧
      (∀ v w l th, t.wave v = some w → invTargets x w.coreNo = true → w.th l = some th →
        ∀ e, th.lastPage = some e → gone e = false) ∧
      (∃ a ∈ t.inflight, a.wave = c.u ∧ a.op = .fence true false ∧ a.mask = c.mask) ∧
      ∀ l th, c.has l th → ∃ th', t.lane c.u l = some th' ∧ th'.pc = pc56 (th.pc + 8) ∧ th'.v = th.v ∧ th'.p = th.p

/-- R171, R424: on a page that is not SWM `pgclass` completes and answers 0 in every thread; on an SWM page, once no access to
it is under way or buffered, it makes the page SHARED, where no copy nor line that takes one has a cork that does not match (R410):
no die keeps a copy of its lines, and the answer counts the bytes that more than one die had written. -/
def Reclassifies (m : MOps) : Prop :=
  let d := m.data.toNat
  ∀ s c l th e, s.issues (.pgclass m) c = true → s.inRegion c.w = false → c.lead = some (l, th) →
    s.checkAt c.w th (capOf m c.w th) (addrOf m c.w th) 1 (pLOAD ||| pSTORE) 1 = .ok e →
    (pCLASS (s.pteOf e) ≠ 3 →
      ∃ t, exec (.pgclass m) s = .next t ∧ t.mem = s.mem ∧ t.swm = s.swm ∧ (∀ v, v ≠ c.u → t.wave v = s.wave v) ∧
        ∀ l th, c.has l th → ∃ th', t.lane c.u l = some th' ∧ th'.pc = pc56 (th.pc + 8) ∧ th'.getV d = 0 ∧
          ∀ r, r ≠ d → th'.getV r = th.getV r) ∧
    (pCLASS (s.pteOf e) = 3 → s.swmBusy e = false →
      (∀ x ∈ s.copies e.lines.1 e.lines.2 none, s.copyBad x.2.1 x.1 x.2.2 = false) →
      ∃ t, exec (.pgclass m) s = .next t ∧
        (∀ n k, e.lines.1 ≤ n → n < e.lines.2 → n < 2 ^ 60 → k < 4 → fget t.swm (2 ^ 60 * k + n) = none) ∧
        ∀ l th, c.has l th → ∃ th', t.lane c.u l = some th' ∧
          th'.getV d = BitVec.ofNat 32 (overlapCount (s.copies e.lines.1 e.lines.2 none)) ∧
          ∀ r, r ≠ d → th'.getV r = th.getV r)

/-- R171, R425: where every lane's byte may be loaded and the thread's own accesses have been performed, `cachewb` completes
and writes the issuing die's copy of each lane's line back, `cachewb.pg` of every line of the lane's page: memory holds its
written bytes, and the copy stays with no byte marked as written, where no such copy nor its line has a cork that does not match
(R410). Pages that are not SWM stay as they are, their class too. -/
def WritesBack (i : Instr) (m : MOps) (lines : TlbEntry → DWord → Nat → Prop) : Prop :=
  let at_ := fun (s : State) (c : Ctx) (th : Thread) => s.checkAt c.w th (capOf m c.w th) (addrOf m c.w th) 1 pLOAD 0
  ∀ s c, s.issues i c = true → s.inRegion c.w = false → s.quiet c.u c.mask = true →
    (∀ l th, c.has l th → th.guard m.g = true → ∃ e, at_ s c th = .ok e) →
    (∀ l th e n x, c.has l th → th.guard m.g = true → at_ s c th = .ok e → e.swm = true → lines e (addrOf m c.w th) n →
      fget s.swm (2 ^ 60 * dieOf c.w.coreNo + n) = some x → s.copyBad (dieOf c.w.coreNo) n x = false) →
    ∃ t, exec i s = .next t ∧
      (∀ l th e n, c.has l th → th.guard m.g = true → at_ s c th = .ok e → e.swm = true → lines e (addrOf m c.w th) n →
        n < 2 ^ 60 → ∀ x, fget s.swm (2 ^ 60 * dieOf c.w.coreNo + n) = some x →
          fget t.swm (2 ^ 60 * dieOf c.w.coreNo + n) = some { x with mask := 0 } ∧
          ∀ k, k < 64 → x.mask.getLsbD k = true → t.mem.byte (64 * n + k) = rget x.data k) ∧
      ((∀ l th e, c.has l th → at_ s c th = .ok e → e.swm = false) →
        t.mem = (s.releaseBy c.w).mem ∧ t.swm = s.swm) ∧
      ∀ l th, c.has l th → ∃ th', t.lane c.u l = some th' ∧ th'.pc = pc56 (th.pc + 8) ∧ th'.v = th.v ∧ th'.p = th.p

/-! ### halt -/

/-- R426, R137: `halt` kills its launch with code 0x7F and its immediate. A wave of the launch between runs with no list operation
in flight is gone, its own among them; of one inside a run, the rest of that run is left. A block is gone with its last wave
and its sequencer's last tile operation. -/
def Halts (u : UOps) : Prop :=
  ∀ s c k, s.issues (.halt u) c = true → c.w.sect = none → s.inRegion c.w = false → fget s.launches c.w.lid = some k →
    k.status.final = false → (fkeys s.launches).Nodup → (fkeys (s.waves ++ s.saved)).Nodup →
    ∃ t k', exec (.halt u) s = .next t ∧ fget t.launches c.w.lid = some k' ∧ k'.status = .killed ∧ k'.kcode = 0x7F ∧
      k'.karg = u.imm.toNat ∧
      (∀ v w, s.wave v = some w → w.lid = c.w.lid → w.sect = none → (v = c.u ∨ w.run = none) → w.sops = [] → t.wave v = none) ∧
      (∀ v w, t.wave v = some w → w.lid = c.w.lid → w.sect = none → w.run.isSome = true ∨ (w.live = 0 ∧ w.sops ≠ [])) ∧
      ∀ b x, fget t.blocks b = some x → x.lid = c.w.lid → (∃ q, x.seq = some q ∧ q.ops ≠ []) ∨
        (∃ y ∈ s.waves, y.2.sect = none ∧ y.2.blk = b ∧
          (y.2.lid ≠ c.w.lid ∨ (y.1 ≠ c.u ∧ y.2.run ≠ none) ∨ y.2.sops ≠ [])) ∨
        ∃ y ∈ s.saved, y.2.blk = b ∧ (y.2.lid ≠ c.w.lid ∨ y.2.sops ≠ [])

/-! ### Creating work -/

/-- The arguments a `spawn` hands to the thread it creates (R143). -/
def spawnArgs (f : FOps) (th : Thread) : Regs 32 := (List.range 8).foldl (fun m i => rset m i (th.getV (f.a.num + i))) []

/-- R138, R142, R143: every thread of the group goes on with its predicate set or clear; a group of one thread joins the open
bin of its launch and entry, else opens a free one, else finds none. -/
def Spawns (f : FOps) : Prop :=
  ∀ s c, s.issues (.spawn f) c = true → s.inRegion c.w = false → s.quiet c.u c.mask = true → c.w.sect = none → f.d.toNat < 8 →
    let entry := target c.pc f.imm
    let k := s.core c.w.core
    ∃ t, exec (.spawn f) s = .next t ∧ t.mem = (k.sq.foldl State.drainEntry s).mem ∧
      (∀ l th, c.has l th → ∃ th', t.lane c.u l = some th' ∧ { th' with p := 0 } = { th.done with p := 0, mon := th'.mon } ∧
        ∀ j, j ≠ f.d.toNat → j < 8 → th'.getP j = th.getP j) ∧
      ∀ l th, lanesOf c.mask = [l] → c.has l th → ∃ th', t.lane c.u l = some th' ∧
        (∀ n b, k.openBin c.w.lid entry = some n → fget k.bins n = some b →
          th'.getP f.d.toNat = true ∧ ∃ b', fget (t.core c.w.core).bins n = some b' ∧ b'.threads = b.threads ++ [spawnArgs f th] ∧
            (b'.sealed = true ↔ b.sealed = true ∨ b.threads.length = 31)) ∧
        (∀ n, k.openBin c.w.lid entry = none → k.freeBin = some n →
          th'.getP f.d.toNat = true ∧ ∃ b', fget (t.core c.w.core).bins n = some b' ∧ b'.threads = [spawnArgs f th] ∧
            b'.lid = c.w.lid ∧ b'.entry = entry ∧ b'.start = s.clk ∧ b'.sealed = false) ∧
        (k.openBin c.w.lid entry = none → k.freeBin = none →
          th'.getP f.d.toNat = (f.d == 0) ∧ (t.core c.w.core).bins = k.bins)

/-- The bins of a core with those of a launch (and of an entry) sealed. -/
def sealed (lid : Nat) (entry : Option DWord) (clk : DWord) (bins : FMap Bin) : FMap Bin :=
  bins.map fun (n, (b : Bin)) =>
    (n, if !b.sealed && b.lid == lid && entry.all (· == b.entry) then { b with sealed := true, sealAt := clk } else b)

/-- R144, R145, R146, R147: `binflush`; the answers of `launch` that create nothing; `lwait` whose answer is known at its issue, and one
that waits; `fetchw` in a section. -/
def workRows (u : UOps) : List EndRow :=
  let d := u.d.toNat
  let flush := fun (entry : Ctx → Option DWord) (c : Ctx) (s : State) =>
    s.modCore c.w.core fun k => { k with bins := sealed c.w.lid (entry c) s.clk k.bins }
  let answer := fun (w : Wave) (a b : Word) => (w.setS d a).setS (d + 1) b
  let id := fun (c : Ctx) => (c.w.getS u.a.toNat).toNat
  let shallow := fun (s : State) (c : Ctx) => c.w.sect = none ∧ (fget s.launches c.w.lid).any (fun l => l.depth == 10) = false
  [{ i := .binflush u, f := flush fun _ => none },
   { i := .binflushLabel u, f := flush fun c => some (targetU c.pc u.imm) },
   { i := .launch u, ok := fun s c => s.inRegion c.w = false ∧ shallow s c ∧ s.leads c = false, gw := fun _ _ w => answer w 0 1 },
   { i := .lwait u, ok := fun s c => c.mask ≠ 0 ∧ (s.lwaitValue (id c)).isSome = true
     f := fun c s => withMarker c true false 2 s
     gw := fun s c w => w.setS d (BitVec.ofNat 32 ((s.lwaitValue (id c)).getD 0)) },
   { i := .lwait u, ok := fun s c => s.lwaitValue (id c) = none, g := fun _ c _ th => { th with wait := .lwait (id c) d } },
   { i := .fetchw u, ok := fun _ c => c.w.sect.isSome = true, gw := fun _ _ w => w.setS d 0 }]

/-- A `launch` by the block's lowest live thread that can read its record: nothing of its group in flight, no store queued,
its turn of R127 come, and the record's page in a class it does not change. -/
def launchable (u : UOps) (s : State) (c : Ctx) (ks : List (Nat × TlbEntry)) : Prop :=
  let cap := c.w.getC u.a.toNat
  s.inRegion c.w = false ∧ c.w.sect = none ∧ (fget s.launches c.w.lid).any (fun l => l.depth == 10) = false ∧
    s.leads c = true ∧ capCheck cap cap.base 384 (pLOAD ||| pSTORE) 0 = none ∧ cap.base % 128 = 0 ∧
    s.quiet c.u c.mask = true ∧ s.launchTurn c.w.coreNo = true ∧ (s.core c.w.core).sq = [] ∧
    ∃ l th, c.lead = some (l, th) ∧ s.keysAt c.w th cap.base 0 384 = .ok ks ∧
      ∀ x ∈ ks, settled s c.w.coreNo false x.2 = true

/-- The record as the word reads it, once the pages it lies in are touched. -/
def launchRecord (u : UOps) (s : State) (c : Ctx) (ks : List (Nat × TlbEntry)) : List Byte × LaunchRec :=
  let cap := c.w.getC u.a.toNat
  let s1 := match c.lead with
    | some (l, th) => s.touchKeys c l th cap.base ks
    | none => s
  let bs := s1.bytesAt c.w ks
  (bs, LaunchRec.parse bs (s1.capsAt c.w ks (cap.has pLDCAP) (recordCaps bs)))

/-- R123, R127, R145: a record that the scheduler rejects, or that finds 4,096 launches pending, creates nothing and answers
with the code; an accepted one is a launch with the next id, which the word answers with 0. -/
def Launches (u : UOps) : Prop :=
  let d := u.d.toNat
  ∀ s c ks, s.issues (.launch u) c = true → launchable u s c ks →
    (∀ x, (4096 ≤ s.pendingCount ∧ x = 2) ∨
        (s.pendingCount < 4096 ∧ s.reject (launchRecord u s c ks).1 (launchRecord u s c ks).2 = some x) →
      ∃ t w', exec (.launch u) s = .next t ∧ t.mem = s.mem ∧ t.launches = s.launches ∧ t.nextLid = s.nextLid ∧
        t.wave c.u = some w' ∧ w'.getS d = 0 ∧ w'.getS (d + 1) = BitVec.ofNat 32 x ∧
        ∀ r, r ≠ d → r ≠ d + 1 → w'.getS r = c.w.getS r) ∧
    (s.pendingCount < 4096 → s.reject (launchRecord u s c ks).1 (launchRecord u s c ks).2 = none →
      ∃ t w' k, exec (.launch u) s = .next t ∧ t.wave c.u = some w' ∧ w'.getS d = s.nextLid ∧ w'.getS (d + 1) = 0 ∧
        (∀ r, r ≠ d → r ≠ d + 1 → w'.getS r = c.w.getS r) ∧ t.newestLid = s.nextLid ∧
        fget t.launches s.nextLid.toNat = some k ∧ k.parent = c.w.lid ∧ k.va = BitVec.ofNat 64 (c.w.getC u.a.toNat).base ∧
        k.rc.entry = (launchRecord u s c ks).2.entry ∧ k.next = 0)

/-- R147, R149: `fetchw` outside sections puts its request in the core's queue and answers 1, or 0 where sixteen wait. -/
def Fetches (u : UOps) : Prop :=
  ∀ s c l th e, s.issues (.fetchw u) c = true → c.w.sect = none → s.inRegion c.w = false → c.lead = some (l, th) →
    let cap := c.w.getC u.bc.numB
    let va : DWord := BitVec.ofNat 64 (cap.base + (c.w.getS u.bc.numC).toNat)
    let q := (s.core c.w.core).fetchq
    s.checkAt c.w th cap va 16 pSTORE 1 = .ok e → settled s c.w.coreNo true e = true →
    ∃ t w', exec (.fetchw u) s = .next t ∧ t.mem = s.mem ∧ t.wave c.u = some w' ∧
      (t.core c.w.core).fetchq = (if q.length < 16 then q ++ [⟨(c.w.getS u.a.toNat).toNat, c.w.port, va⟩] else q) ∧
      w'.getS u.d.toNat = (if q.length < 16 then 1 else 0) ∧ ∀ r, r ≠ u.d.toNat → w'.getS r = c.w.getS r

end Sys2Proof.Claims
end

