-- ==== Sys2Proof/Certificates/Slice0/Whole.lean ====
section
/-!
DEFINITION. The machine as a whole: the checks before a word's effect, trap entry, what a step runs, the encoding of the
instruction set, and the state after a reset.
-/
namespace Sys2Proof.Claims
open Sys2Proof.Machine

/-! ### Trap entry (R404, R34, R31) -/

/-- The wave of `c` stands at a word of its open run, and no access is owed to its block (R198). -/
def Stands (s : State) (c : Ctx) : Prop :=
  s.turn = .wave c.u ∧ s.wave c.u = some c.w ∧ c.w.run = some c.mask ∧ s.unpassed = true

/-- Its launch has a handler, none of its threads runs in it, it runs no shipped section, and no abort of the block's
region waits for the end of its run. -/
def Handles (s : State) (c : Ctx) : Prop :=
  c.w.sect = none ∧ s.trapHandler c.w ≠ 0 ∧ (∀ l th, c.has l th → th.tm = false) ∧ c.w.unwind = none

/-- A thread in the handler after a fault of its word: a register arithmetic word keeps its latches for the return; `need` is
the feature group that the word lacked, if it did (R419). -/
def caught (pure : Bool) (th : Thread) (traph : DWord) (code : Nat) (ret : DWord) (need : Option Nat) : Thread :=
  { th with
    tcause := BitVec.ofNat 32 (code % 256), tpc := ret, taddr := 0, tdet := 0
    tlatv := if pure then th.latv.setWidth 32 else 0, tlat := if pure then th.lat else th.tlat
    tneed := need, tm := true, pc := traph, wait := .none, lat := [], latv := 0, resume := 0 }

/-- The lanes of a mask have faulted at their word, and nothing else has happened: their threads stand in the handler; the
other threads of a register arithmetic word wait to issue it again, and the run is over. -/
def Caught (s t : State) (c : Ctx) (pure : Bool) (code : Nat) (lanes : Word) (need : Option Nat := none) : Prop :=
  t.besides = s.besides ∧ (∀ v, v ≠ c.u → t.wave v = s.wave v) ∧
    ∃ w, t.wave c.u = some w ∧
      w.besides = ({ c.w with run := none, intr := if pure
        then c.w.intr ++ [⟨c.pc, c.mask &&& ~~~lanes, lanes, c.w.nextIntr⟩] else c.w.intr } : Wave).besides ∧
      (∀ l, inMask c.mask l = false → w.th l = c.w.th l) ∧
      ∀ l th, c.has l th → w.th l = some (
        if inMask lanes l then caught pure th (s.trapHandler c.w) code c.pc need
        else if pure then { th with wait := .group } else { th with lat := [], latv := 0 })

/-- The first of checks 4 and 8 to 10 of R48 that a decoded word fails, and the lanes it faults in. -/
def failing (s : State) (c : Ctx) (i : Instr) : Option (Nat × Word) :=
  if s.lacks c.w i then some (0x05, c.mask)
  else if i.privileged ((fget s.launches c.w.lid).any fun l => l.priv && c.w.sect.isNone) (c.lead.any fun (_, t) => t.tm) then
    some (0x06, c.mask)
  else if i.shape.vr.any (fun (r, n) => decide (c.w.vlim < r + n)) || i.shape.sr.any (fun (r, n) => decide (c.w.slim < r + n)) then
    some (0x08, c.mask)
  else
    let stale := maskOf (((group c).filter fun x => i.shape.lat.any fun k => !x.2.latLive k).map fun x => x.1)
    if stale = 0 then none else some (0x03, stale)

/-- The words of the thread stream. -/
def threadWord (i : Instr) : Bool := i.isWord && !isX i

/-- A thread word that fails one of these checks traps with that check's cause before it has any effect. -/
def ChecksTrap : Prop :=
  ∀ i s c code lanes, threadWord i = true → Stands s c → Handles s c → failing s c i = some (code, lanes) → lanes ≠ 0 →
    ∃ t, exec i s = .next t ∧ Caught s t c i.arith code lanes (if code = 0x05 then i.feature else none)

/-- A register of the word is the destination of an operation in flight, or the answer to a `push` of the group is: the word is
not issued, and nothing changes (R85, R288). -/
def HeldAtIssue : Prop :=
  ∀ i s c, threadWord i = true → Stands s c → failing s c i = none →
    (s.pendingReg c i.shape.vr || c.w.pendingS i.shape.sr || s.awaits c i) = true → exec i s = .next s

/-- A word of the matrix stream in a wave's instruction stream is WRONG_STREAM (R46). -/
def MatrixWordTraps : Prop :=
  ∀ i s c, i.isWord = true → isX i = true → Stands s c → Handles s c → c.mask ≠ 0 →
    ∃ t, exec i s = .next t ∧ Caught s t c false 0x07 c.mask

/-- Threads with an abandoned f32 operand enter the handler with cause ABANDONED_OPERAND, and no thread writes a result
(R63, R65, R34). -/
def AbandonedTraps (i : Instr) (ops : Thread → List Word) : Prop :=
  ∀ s c, s.issues i c = true → s.traps c →
    let bad := maskOf (((group c).filter fun x => (ops x.2).any isAbandoned).map fun x => x.1)
    bad ≠ 0 → ∃ t, exec i s = .next t ∧ Caught s t c true 0x20 bad

/-- A fault of a thread whose launch has no handler, or that runs in the handler already, kills the launch with the fault's
code and the thread's linear id (R405): a fault of the checks of R48, and outside doomed regions any other (R229). The wave's own
run is over. -/
def UnhandledKills : Prop :=
  ∀ (s : State) (u : Nat) (w : Wave) (f : LaneFault) (pure : Option Word) (r48 : Bool) (th : Thread),
    s.wave u = some w → w.sect = none → w.th f.lane = some th → (s.trapHandler w = 0 ∨ th.tm = true) →
    (r48 = true ∨ ((w.reg.any fun r => r.doomed) = false ∧ ((s.blockRegion w).any fun r => r.doomed) = false)) →
    s.takeFaults u [f] pure r48 =
      (s.modWave u Wave.closeRun).killLaunch w.lid f.code (s.linearId w f.lane th % 2 ^ 32)

/-- A kill ends a launch with status KILLED; of its waves only those are left that have yet to reach their next run boundary, and
those that have stopped and wait for the list operations they have issued (R137, R115, R426). -/
def KillsEnd : Prop :=
  ∀ (s : State) (lid code arg : Nat) (l : Launch), (fkeys s.launches).Nodup → fget s.launches lid = some l →
    l.status.final = false → let t := s.killLaunch lid code arg
    ((fget t.launches lid).map fun x => x.status) = some .killed ∧
      ∀ u w, t.wave u = some w → w.sect = none → w.lid = lid → w.run.isSome = true ∨ (w.live = 0 ∧ w.sops ≠ [])

/-! ### A step (log entry 1) -/

/-- The state in which agent `a` moves: the agenda names it, or the agenda is empty, no access can be performed, and it is
that agent's turn; in the next clk where its quadrant comes too late in this one (R19). No promise makes an event happen
first (R290). -/
def Turn (s s1 : State) (a : Agent) : Prop :=
  s.shutdown = false ∧
    ((∃ dt rest, s.agenda = ⟨dt, .issue a⟩ :: rest ∧ s1.due = none ∧
        s1 = (({ s with agenda := rest, turn := a } : State).tick dt).ordered) ∨
      (s.agenda = [] ∧ s.turn = a ∧ (s.tick 1).due = none ∧ (s.tick 1).nextAccess = none ∧ s1 = (s.tick 1).ordered))

/-- Wave `c.u` fetches through `e` at its group's address. -/
def FetchesVia (s : State) (c : Ctx) (e : TlbEntry) : Prop :=
  Stands s c ∧ s.frozen c.w = false ∧ s.translateX c.w.coreNo c.w.port c.pc.toNat = .ok e ∧
    (s.fetched c.w.coreNo e c.pc).badAt (if e.swm then some (dieOf c.w.coreNo) else none) (e.key c.pc.toNat) 8 = false

/-- A step in which a wave moves decodes the eight bytes at its group's address and runs that instruction, in the state the
fetch leaves: clk has advanced, the page's entry is in the core's TLB and its class holds the fetch (R163, R170 to R172). -/
def WordsRun : Prop :=
  ∀ s s1 u c e i, Turn s s1 (.wave u) → c.u = u → FetchesVia s1 c e → c.entering = 0 →
    let s2 := s1.fetched c.w.coreNo e c.pc
    decode (s2.wordAt c.w.coreNo e c.pc) = .ok i → isX i = false → step s = exec i s2

/-- The same for a block's sequencer, whose fetches find the stores of its tiles that it has accepted (R320). -/
def MatrixWordsRun : Prop :=
  ∀ s s1 b k q e i, Turn s s1 (.seq b) → fget s1.blocks b = some k → k.seq = some q → q.ended = false → q.wait = .none →
    k.leaving = false → k.placed = true → (s1.cluster (clusterOf k.core)).frozen = none → s1.translateX k.core (s1.portOf k) q.pc.toNat = .ok e →
    s1.unpassed = true →
    let s2 := s1.fetched k.core e q.pc
    s2.badAt (if e.swm then some (dieOf k.core) else none) (e.key q.pc.toNat) 8 = false →
    decode (s2.seqFetch k q b e q.pc) = .ok i → isX i = true →
    (∀ f, i.feature = some f → (s2.core k.core).fmask.getLsbD f = true) → step s = exec i s2

/-- An event row on the agenda happens, where no promise makes another happen first; with nothing on it, the oldest access that
can be performed is. A copy command that has moved its data is complete by its promise (R290), before anything else but the end of a killed launch and
what an engine learns (R426, R289). -/
def EventsHappen : Prop :=
  (∀ s dt i rest, s.shutdown = false → s.agenda = ⟨dt, .event i⟩ :: rest → i.isWord = false →
    (({ s with agenda := rest } : State).tick dt).due = none →
    step s = exec i (({ s with agenda := rest } : State).tick dt)) ∧
  (∀ s id, s.shutdown = false → s.agenda = [] → (s.tick 1).due = none → (s.tick 1).nextAccess = some id →
    step s = exec (.accessPerformed id) (s.tick 1)) ∧
  ∀ s id c core rest, s.shutdown = false → s.agenda = [] → s.cmds = (id, c) :: rest → c.eng = .copy core → c.stage = .moved →
    (s.tick 1).reap = none → (s.tick 1).learned = none → c.promise ≤ (s.tick 1).clk → (s.cluster (clusterOf c.core)).frozen = none →
    (∀ x ∈ s.packets, x.2.pkt.kind ≠ 4) → step s = exec (.commandComplete id) (s.tick 1)

/-- A fetched word that decodes to no instruction traps: ILLEGAL_WORD for an unassigned kind or opcode (R47, R48). -/
def UndecodedTraps : Prop :=
  ∀ s s1 u c e r, Turn s s1 (.wave u) → c.u = u → FetchesVia s1 c e → c.entering = 0 → Handles s1 c → c.mask ≠ 0 →
    let s2 := s1.fetched c.w.coreNo e c.pc
    decodeRaw (s2.wordAt c.w.coreNo e c.pc) = .error r →
    ∃ t, step s = .next t ∧ Caught s2 t c false 0x01 c.mask

/-- A spawned thread whose first word is no landing traps with LANDING, and the other threads of its group go on at the
word (R140). -/
def LandingsChecked : Prop :=
  ∀ s s1 u c e, Turn s s1 (.wave u) → c.u = u → FetchesVia s1 c e → c.entering ≠ 0 → Handles s1 c →
    isLanding ((s1.fetched c.w.coreNo e c.pc).wordAt c.w.coreNo e c.pc) = false →
    ∃ t, step s = .next t ∧ ∃ w, t.wave u = some w ∧ w.run = none ∧
      ∀ l th, c.has l th → inMask c.entering l = true →
        w.th l = some { caught false th (s1.trapHandler c.w) 0x19 c.pc none with atEntry := false }

/-! ### Encoding (Tables 2.1 to 2.11) -/

/-- Every well-formed instruction has a word, and that word decodes to it. -/
def EncodeDecodes : Prop :=
  ∀ i : Instr, i.wellFormed = true → i.isWord = true → ∃ w, encode i = some w ∧ decode w = .ok i

/-- A word that decodes is the word of the instruction it decodes to, and of no other. -/
def DecodeEncodes : Prop := ∀ w i, decode w = .ok i → encode i = some w ∧ i.isWord = true

/-- Kinds 10 and 11 hold no instruction (R21). -/
def ReservedKinds : Prop := ∀ w : DWord, w.getLsbD 63 = true → decode w = .error .kind

/-- A long immediate writes no latch: while the run goes on every latch of the thread is as it was; the end of the run drops them
(R33). -/
def LatchesKept (t : State) (c : Ctx) (th th' : Thread) : Prop :=
  (∃ w, t.wave c.u = some w ∧ w.run = some c.mask ∧ ∀ k : BitVec 2, th'.latLive k = th.latLive k ∧
      rget th'.lat k.toNat = rget th.lat k.toNat) ∨
    (∃ w, t.wave c.u = some w ∧ w.run = none ∧ th'.latv = 0)

/-- R25: a word of opcode 0x01D or 0x193 is `vmovi` or `smovi` with its 32-bit immediate, ILLEGAL_WORD where a reserved bit
is set; no other word is one; the word writes its register, and no latch. -/
def LongImmediates : Prop :=
  (∀ w : DWord, w.extractLsb' 62 2 = 0 → (w.extractLsb' 51 10).toNat = 0x01D → decode w =
    if w.extractLsb' 0 8 = 0 ∧ w.extractLsb' 40 3 = 0
    then .ok (.vmovi ⟨w.getLsbD 61, w.extractLsb' 43 8, w.extractLsb' 8 32⟩) else .error .illegal) ∧
  (∀ w : DWord, w.extractLsb' 62 2 = 0 → (w.extractLsb' 51 10).toNat = 0x193 → decode w =
    if w.extractLsb' 0 8 = 0 ∧ w.getLsbD 40 = false
    then .ok (.smovi ⟨w.getLsbD 61, w.extractLsb' 41 10, w.extractLsb' 8 32⟩) else .error .illegal) ∧
  (∀ w m, decode w = .ok (.vmovi m) → (w.extractLsb' 51 10).toNat = 0x01D) ∧
  (∀ w m, decode w = .ok (.smovi m) → (w.extractLsb' 51 10).toNat = 0x193) ∧
  (∀ m : VMovi, Completes (.vmovi m) { Dest.none with v := [m.d.toNat] } anyOps fun _ _ _ th' =>
    th'.getV m.d.toNat = m.imm) ∧
  (∀ m : SMovi, UniformAfter (.smovi m) (Dest.uni m.d.toNat 1 false) anyOps (fun _ w => w.getS m.d.toNat = m.imm) fun _ => 0) ∧
  ∀ i s c, (∃ m, i = .vmovi m) ∨ (∃ m, i = .smovi m) → s.issues i c = true → ∃ t, exec i s = .next t ∧
    ∀ l th, c.has l th → ∃ th', t.lane c.u l = some th' ∧ LatchesKept t c th th'

/-! ### What no word changes (R420, R430, R184, R377) -/

/-- The two functions' page-table roots, partitions, handle tables, launch slots and blends, the homes of locks, the package's own
number and bring-up, and each core's features and block window stand as they did. -/
def SettingsStand (s t : State) : Prop :=
  t.phase = s.phase ∧ t.config = s.config ∧ t.ident = s.ident ∧ t.package = s.package ∧ t.mhz = s.mhz ∧ t.limit = s.limit ∧
    t.ceiling = s.ceiling ∧ t.blends = s.blends ∧ t.homeL = s.homeL ∧ t.homeG = s.homeG ∧
    (∀ n, let p := s.port n; let q := t.port n; q.root = p.root ∧ q.partBase = p.partBase ∧ q.partSize = p.partSize ∧
      q.htBase = p.htBase ∧ q.htCount = p.htCount ∧ q.slots = p.slots ∧ q.blend = p.blend) ∧
    ∀ n, (t.core n).fmask = (s.core n).fmask ∧ (t.core n).win = (s.core n).win

/-- No word, of a wave, a section or a sequencer, changes what the host and firmware have set of either function, touches the other
function's port, or makes a launch privileged (R430, R420). -/
def WordsStayInside : Prop :=
  ∀ i s t, i.isWord = true → exec i s = .next t → SettingsStand s t ∧
    (∀ c, s.issuing = some c → ∀ n, n ≠ c.w.port → t.port n = s.port n) ∧
    ∀ lid l, fget t.launches lid = some l → l.priv = true → ∃ l', fget s.launches lid = some l' ∧ l'.priv = true

/-! ### After a reset (Tables 18.1 to 18.4, R433, R12) -/

/-- The state after a reset: phase 0, no failure, sr.clk zero, the registers of Table 18.1, the clock and the limits of
R435 and R436, and no work anywhere. -/
def ResetState (s : State) : Prop :=
  s.phase = 0 ∧ s.fail = false ∧ s.fcode = 0 ∧ s.clk = 0 ∧ s.ident.extractLsb' 8 24 = 0x4B4D08#24 ∧ s.mhz = 3600 ∧
    s.limit = 3400 ∧ s.ceiling = 3800 ∧ s.shutdown = false ∧ s.windowsDone = 0 ∧ s.launches = [] ∧ s.blocks = [] ∧ s.waves = [] ∧ s.inflight = [] ∧ s.cmds = [] ∧
    (∀ port, let p := s.port port; p.partBase = 0 ∧ p.partSize = 0 ∧ p.htBase = 0 ∧ p.htCount = 0 ∧ p.brks = [])

/-- R431: before phase 6 only IDENT, CONFIG and STATUS answer; other reads give zero, writes are ignored, and BAR2 completes
every access as an unsupported request. -/
def WindowClosed : Prop :=
  ∀ (s : State) (port off n slot : Nat) (prio : BitVec 3) (v : DWord) (bs : List Byte), port < 2 → slot < 64 → s.phase ≠ 6 →
    s.bar0 port 0x00 = s.ident.toNat ∧ s.bar0 port 0x04 = s.config.toNat ∧
    s.bar0 port 0x08 = (if s.fail then 2 ^ 31 else 0) + 256 * s.fcode.toNat + s.phase.toNat ∧
    (off ≠ 0x00 → off ≠ 0x04 → off ≠ 0x08 → s.bar0 port off = 0) ∧
    exec (.lsresRead port slot) s = .next { s with hostOut := .data [0, 0, 0, 0] } ∧
    exec (.registerWrite (.bar0 port off) v) s = .next s ∧ exec (.launchSlotGo port slot prio) s = .next s ∧
    exec (.brkrel port) s = .next s ∧
    exec (.hostApertureRead port off n) s = .next { s with hostOut := .unsupported } ∧
    exec (.hostApertureWrite port off bs) s = .next { s with hostOut := .unsupported }

end Sys2Proof.Claims
end

