-- ==== Sys2Proof/Certificates/Slice0/Obligations.lean ====
section
/-!
DEFINITION. The statements for the provers. Each says of a family of rows what they do wherever they may happen; the rows
and their effects stand in the files of Sys2Proof.Claims.
-/
open Sys2Proof Sys2Proof.Machine Sys2Proof.Claims

/-! ### Register arithmetic -/

/-- R88, R89, Table 4.2: every vector integer row gives each element, or each register, its value and changes nothing else;
so do the selects, the immediate move, the wide multiply-add and the compares. -/
def Obligations.VectorIntegerResults : Prop := ∀ (f : FOps) (m : VMovi),
  (∀ r ∈ elementRows f, Completes r.1 (Dest.vec f false) anyOps fun _ _ th th' => ∃ x : Word, gives f x th' ∧
    ∀ j, j < 32 / wdBits f.mod → elem x.toNat (wdBits f.mod) j =
      r.2 (elem (opA f th).toNat (wdBits f.mod) j) (elem (opB f th).toNat (wdBits f.mod) j) (elem (opC f th).toNat (wdBits f.mod) j)) ∧
  (∀ r ∈ wordRows f, Completes r.1 (Dest.vec f false) anyOps fun _ _ th th' => gives f (r.2 (opA f th) (opB f th) (opC f th)) th') ∧
  ∀ r ∈ selectRows f m, r.completes

/-- R91 to R97, Table 4.3: every vector float row on operands without the abandoned pattern gives its result and raises its
flags. -/
def Obligations.VectorFloatResults : Prop := ∀ f : FOps, ∀ r ∈ floatRows f,
  Completes r.1 (Dest.vec f true) (noneAbandoned r.2.1) fun _ _ th th' =>
    gives f (r.2.2 th).1 th' ∧ raises (r.2.2 th).2 th th'

/-- R69 to R84, Table 3.6: every conversion gives its result in the registers it names and raises its flags. -/
def Obligations.ConversionResults : Prop := ∀ f : FOps,
  (∀ r ∈ conversionRows f, Completes r.1 (Dest.vec f true) (noneAbandoned r.2.1) fun _ _ th th' =>
    gives f (r.2.2 th).1 th' ∧ raises (r.2.2 th).2 th th') ∧
  ∀ r ∈ conversionSpecials f, r.completes

/-- R100 to R103, R90, Table 4.7: shuffles, votes, masks, reductions, scans and broadcasts over the threads of the group, and
the words on predicates. That `.up` and `.dn` of `shfl` read b as unsigned is log entry 16. -/
def Obligations.LaneResults : Prop := ∀ f : FOps,
  (∀ r ∈ laneRows f, Completes r.1 (Dest.vec f false) anyOps fun c l th th' => gives f (r.2 c l th) th') ∧
  (∀ r ∈ predicateRows f, Completes r.1 (Dest.pred f false) anyOps fun c _ th th' => setsP f (r.2 c th) th') ∧
  ∀ r ∈ laneSpecials f, r.completes

/-- R98, R99, Table 4.6: every uniform row writes its register or pair once. That `sfcmp` writes s[d] and s[d+1], also for an odd d, is log entry 63. -/
def Obligations.UniformResults : Prop := ∀ (f : FOps) (u : UOps) (m : SMovi),
  (∀ r ∈ uniformRows u, UniformAfter r.1 (Dest.uni u.d.toNat (if uDB u then 2 else 1) false) anyOps
    (fun c w => holdsU u w
      ((r.2 (uW u) (c.w.getU u u.a.toNat) (c.w.srcUB u) (c.w.getU u u.bc.numC)) % (2 ^ uW u : Nat)).toNat) fun _ => 0) ∧
  (∀ r ∈ uniformFloatRows u, UniformAfter r.1 (Dest.uni u.d.toNat 1 true) (fun c => (r.2.1 c.w).any isAbandoned = false)
    (fun c w => w.getS u.d.toNat = (r.2.2 (r.2.1 c.w)).1) fun c => (r.2.2 (r.2.1 c.w)).2) ∧
  ∀ r ∈ uniformSpecials f u m, UniformAfter r.1 r.2.1 r.2.2.1 r.2.2.2.1 r.2.2.2.2

/-- R38 to R40: both slots of a paired word read before either writes. R116: `nop` and `land` do nothing. -/
def Obligations.PairedAndIdle : Prop :=
  (∀ p : Pair, ∀ r ∈ pairedRows p, r.completes) ∧ ∀ f : FOps, ∀ r ∈ idleRows f, r.completes

/-- R63, R34: an abandoned f32 operand traps in its thread and nothing is written. -/
def Obligations.AbandonedOperandsTrap : Prop := ∀ f : FOps,
  (∀ r ∈ floatRows f, AbandonedTraps r.1 r.2.1) ∧ (∀ r ∈ conversionRows f, AbandonedTraps r.1 r.2.1) ∧
  AbandonedTraps (.fcmp f) (fun t => [t.src f.a, t.srcBf f.bc])

/-- R84, whole: lees registers are moved unchanged, and `cvtef` traps on an abandoned one. -/
def Obligations.LeesRegistersMove : Prop := ∀ f : FOps,
  (∀ r ∈ leesRows f, r.completes) ∧ AbandonedTraps (.cvtef f) fun t => [t.src f.a, rget t.e (cvLow f)]

/-! ### Control -/

/-- R106 to R119: branches, calls, returns, meetings, sleeps, yields, debug stops, `exit`, a `ret` at depth 0, and `trap`. That
the threads stand past a `brk` at once, and that it does nothing in a section, is log entry 109. -/
def Obligations.ControlTransfers : Prop := ∀ f : FOps,
  (∀ r ∈ branchRows f, r.completes) ∧ (∀ r ∈ transferRows f, r.completes) ∧ (∀ r ∈ exitRows f, r.completes) ∧
  (trapRow f).completes

/-! ### Memory -/

/-- R185, R214, R223 to R226, R166: loads, stores and atomics inside an open region act on its buffers alone; a store past its
chunks aborts it with CAPACITY; a word that meets absent pages waits until firmware has acted. -/
def Obligations.RegionAccesses : Prop := ∀ m : MOps,
  LoadsInside m ∧ StoresInside m ∧ StoresOverflow m ∧ AtomicsInside m ∧ (∀ r ∈ wideRows m, r.completes) ∧
  ∀ r ∈ insideRows m, r.awaitsPage

/-- R155, R174, R439: the memory words put their accesses in flight, one lane at the address of R155 each. -/
def Obligations.AccessesIssue : Prop := ∀ m : MOps, (∀ r ∈ accessRows m, r.completes) ∧ ∀ r ∈ pairRows m, r.completes m

/-- R156, R157, R165, R202, R180: a lane whose capability, alignment or translation check fails traps and accesses nothing, one whose
page is absent parks with a record, while the other lanes of the word go on; stores of narrow scope wait in the store queue; a
prefetch accesses nothing; a `mon` acquires. -/
def Obligations.ChecksStoresPrefetches : Prop := ∀ m : MOps,
  (∀ r ∈ accessRows m, r.checksTrap ∧ r.splits ∧ r.records) ∧ QueuedStores m ∧ Prefetches m ∧ MonitorsAcquire m

/-- R439, R174, R175, R178, R187 to R196: what loads, stores, atomics, swaps, reservations and store-conditionals do when they are
performed, their lanes in ascending order. -/
def Obligations.AccessesPerform : Prop :=
  LoadsPerformed ∧ StoresPerformed ∧ AtomicsPerformed ∧ SwapsPerformed ∧ ReservesPerformed ∧ ConditionalsPerformed

/-- R420, R430, R184, R377: no word of a wave, a section or a sequencer changes a page-table root, a partition, a handle table, a
blend or the other function's port, or makes a launch privileged. -/
def Obligations.WordsStayInside : Prop := Sys2Proof.Claims.WordsStayInside

/-- R151 to R154, R181 to R184: the capability words. That the two faults of `cbnd` and `cperm` leave sr.taddr 0, and that a handle's
entry stands at its address modulo 2^56, are log entries 104 and 53. -/
def Obligations.CapabilityWords : Prop := ∀ f : FOps,
  (∀ r ∈ capRows f, r.completes) ∧ ∀ r ∈ capFaultRows f, r.completes

/-- R199 to R202, R208: fences, acquires and monitor waits. -/
def Obligations.FencesAndWaits : Prop := ∀ (u : UOps) (m : MOps),
  (∀ r ∈ waitRows u, r.completes) ∧ ReleasesDrain u ∧ ∀ r ∈ irrevocableRows u m, r.completes

/-- R203 to R206: barriers. -/
def Obligations.BarriersSynchronise : Prop := ∀ u : UOps, BarriersArrive u ∧ (barWaitRow u).completes ∧ BarriersComplete u

/-! ### Regions -/

/-- R221, R227, R230 to R236, R244 to R247: wave regions open, nest, commit and abort. -/
def Obligations.RegionWords : Prop := ∀ u : UOps,
  (∀ r ∈ regionRows u, r.completes) ∧ WaveAborts u ∧ BlockAborts u ∧ WaveCommits u ∧ DoomedAborts u

/-- R222, R232: block regions open and commit when the last live thread has arrived. -/
def Obligations.BlockRegionsMeet : Prop := ∀ u : UOps, BlockRegionsArrive u ∧ BlockRegionsComplete u

/-! ### System and work -/

/-- R408, R409, R419, R421, R422: special registers, the return from a trap, migration. -/
def Obligations.SystemRegisters : Prop := ∀ u : UOps, (∀ r ∈ systemRows u, r.completes) ∧ Migrates u

/-- R164, R171, R423 to R425: `tlbinv`, `tlbinv.all`, `pgclass`, `cachewb` and `cachewb.pg` complete: translations dropped, page
classes and SWM copies. -/
def Obligations.TranslationsAndClasses : Prop := ∀ (u : UOps) (m : MOps),
  Invalidates (.tlbinv u) u (fun w e =>
    let va := (w.getS2 u.a.toNat).toNat
    decide (e.base ≤ va) && decide (va < e.base + e.size)) ∧
  Invalidates (.tlbinvAll u) u (fun _ _ => true) ∧ Reclassifies m ∧
  WritesBack (.cachewb m) m (fun e va n => n = e.key va.toNat / 64) ∧
  WritesBack (.cachewbPg m) m (fun e _ n => e.lines.1 ≤ n ∧ n < e.lines.2)

/-- R143 to R148, R426: `spawn`, `launch`, `fetchw`, `lwait`, bins and `halt`. Which waves of a halted launch are gone in the step of
its `halt` is log entry 83. -/
def Obligations.WorkWords : Prop := ∀ (f : FOps) (u : UOps),
  Spawns f ∧ (∀ r ∈ workRows u, r.completes) ∧ Launches u ∧ Sys2Proof.Claims.Fetches u ∧ Halts u

/-! ### Shipped sections and engines -/

/-- R256 to R259, R271: `ship`, `shipt` and `shipp` send a bundle of requests. -/
def Obligations.ShipsSend : Prop := ∀ m : MOps, Ships (.ship m) m 0 ∧ Ships (.shipt m) m 1 ∧ Ships (.shipp m) m 2

/-- R272 to R274: replies collected, homes asked for, sections ended. -/
def Obligations.ShipWords : Prop := ∀ (f : FOps) (u : UOps) (m : MOps),
  (∀ r ∈ shipRows u m, r.completes) ∧ ShipWaits u ∧ SectionsReturn f

/-- R282 to R284, R288, R297, R300: a command is accepted with its promise, refused, or illegal; a command whose record
is read from memory gets its answer when that has come. A guard slot that is false at the push (log entry 29) and a kind of the other engine (log entry 21) are as the
model reads them. -/
def Obligations.PushesAnswer : Prop := ∀ (fab : Bool) (u : UOps),
  PushAccepts fab u ∧ PushesSent fab u ∧ AnswersArrive ∧ (∀ r ∈ pushRefusedRows fab u, r.completes) ∧ (pushIllegalRow fab u).completes

/-- R291 to R297: waits, guard slots and counters. -/
def Obligations.EngineWords : Prop := ∀ u : UOps, (∀ r ∈ engineRows u, r.completes) ∧ FailuresReported u

/-- R387 to R390: fabric stores, loads, atomics and flags leave as packets; fences and blend states. -/
def Obligations.FabricWords : Prop := ∀ (m : MOps) (u : UOps),
  (∀ p ∈ fabricWords m, p) ∧ ∀ r ∈ fabricRows u, r.completes

/-- R355 to R373: verdict accumulations. -/
def Obligations.VerdictWords : Prop := ∀ (f : FOps) (u : UOps) (m : MOps),
  (∀ r ∈ verdictRows f u, r.completes) ∧ (thmaxRow m).completes ∧ Accumulates f

/-! ### Patterns and streams -/

/-- R338, R339, R345 to R347: pattern generators bind, step, and are saved and restored. The image as four stores, and its position
after the walk has read ahead, are log entries 92 and 124. -/
def Obligations.PatternsGenerate : Prop := ∀ (f : FOps) (u : UOps),
  Binds u ∧ Generates f false ∧ Generates f true ∧ Saves u ∧ Restores u

/-- R342, R348, R351, R352: streams open and close, give their elements, and take part in list operations. -/
def Obligations.StreamWords : Prop := ∀ (m : MOps) (u : UOps),
  Opens m ∧ Pops m ∧ (∀ r ∈ streamRows u, r.completes) ∧ ∀ r ∈ streamRegionRows u, r.completes

/-! ### The matrix stream -/

/-- R303 to R309, R315, R316: the sequencer's scalar words, its barrier words and its end. That an `mbar.wait`
without an earlier arrival notes no wave, and where the sequencer stands while it waits, are log entry 97. -/
def Obligations.SequencerWords : Prop := ∀ (x : XOps) (y : MMovi),
  (∀ r ∈ scalarRows x y, r.completes) ∧ Ends' x ∧ (∀ r ∈ mbarRows x, r.completes) ∧ SequencerCompletes x

/-- R310 to R323, R325: the words of the matrix path give each element of their destination its value. That they give it in the
step of the word is log entry 95. -/
def Obligations.TilesCompute : Prop := ∀ x : XOps,
  (∀ r ∈ tileRows x, r.completes) ∧ Zeroes x ∧ ∀ r ∈ shapeRows x, r.completes

/-- R318, R327: `tld` and `tst`, and the completion of tile operations. That all rows move in the step of the completion is log
entry 95. -/
def Obligations.TilesMove : Prop := ∀ (x : XOps) (b : Nat),
  MovesTile (.tld x) x 1 pLOAD 0 ∧ MovesTile (.tst x) x 2 pSTORE 1 ∧ RowsPass x pLOAD 0 ∧ RowsPass x pSTORE 1 ∧
  (∀ r ∈ rowFaultRows x, r.completes) ∧ TileOpsComplete b

/-- R324: the sparse multiply. -/
def Obligations.SparseMultiply : Prop := ∀ x : XOps,
  SparseStarts x ∧ SparseSteps x ∧ ∀ d a b blk es, SparseBlock d a b blk es

/-! ### Events -/

/-- R106, R119, R135, R208, R237, R411: runs start in the order of R135; waiting threads wake. -/
def Obligations.RunsAndWakes : Prop :=
  (∀ core quad, RunsStart core quad ∧ (replayRow core quad).completes ∧ FourthReplayFreezes core quad) ∧ GroupsAreOne ∧
  ∀ u lane, (∀ r ∈ wakeRows u lane, r.completes) ∧ (unwindRow u).completes ∧ (scFenceRow u).completes

/-- R163, R197, R202: page walks, store queues and displaced reservations. Which entry leaves a full TLB is log entry 7. -/
def Obligations.MemoryEvents : Prop :=
  (∀ core port va, (walkRow core port va).completes) ∧ (∀ core idx, StoresDrain core idx) ∧
  ∀ u lane, ReservationsDisplaced u lane

/-- R123 to R130, R434: launch slots, acceptance and privileged submission. -/
def Obligations.LaunchSlots : Prop := ∀ (port slot : Nat) (prio : BitVec 3) (addr : DWord) (lid : Nat),
  (∀ r ∈ slotRows port slot prio, r.completes) ∧ LaunchesAccepted port slot ∧ PrivilegedSubmitted port addr prio ∧
  (reservingRow lid).completes

/-- R129, R137, R146: waves, blocks and launches end, and `lwait` is released. -/
def Obligations.WorkEnds : Prop := ∀ (lid u b lane : Nat),
  LaunchesEnd lid ∧ LwaitReleased u lane ∧ ∀ r ∈ endRows u b, r.completes

/-- R130, R131, R138 to R140: blocks are placed on the least loaded core, start, and bins seal. -/
def Obligations.BlocksStart : Prop :=
  BlocksPlaced ∧ LeastLoaded ∧ (∀ b, Sys2Proof.Claims.BlocksStart b ∧ SpawnedStart b) ∧
  ∀ core bin, ∀ r ∈ binRows core bin, r.completes

/-- R417, R141, R147, R208, R294: waves saved and resumed, fetched work answered, late waits. -/
def Obligations.SavedWaves : Prop := ∀ (u core lane : Nat),
  WavesSaved u ∧ (resumeRow u core).completes ∧ FetchesAnswered core ∧ WaitsLate u lane

/-- R285, R286: the copy engine moves, fills, converts and gathers. -/
def Obligations.CopyEngine : Prop := ∀ id : Nat,
  Copies id ∧ Fills id ∧ Converts id ∧ ConvertsScaled id ∧ Gathers id

/-- R289, R291, R293: commands fail, complete, and leave the held state. -/
def Obligations.CommandsEnd : Prop := ∀ id : Nat, CommandsFail id ∧ CommandsComplete id ∧ HeldCommandsGo id

/-- R258 to R266: homes accept or refuse, sections start and are suspended. That the lowest free context is taken is log entry 26. -/
def Obligations.HomesServe : Prop :=
  (∀ id, BundlesAccepted id ∧ TicketsAnswered id ∧ (reofferRow id).completes) ∧ OneSectionPerLock ∧
  ∀ lcore u, SectionsStart lcore ∧ ∀ r ∈ sectionRows lcore u, r.completes

/-- R253, R267, R268, R272, R275: replies, homes reassigned and lost. -/
def Obligations.RepliesArrive : Prop :=
  (∀ id, RepliesDelivered id ∧ RepliesHeld id) ∧ (∀ u lane, ShwaitsLate u lane) ∧
  ∀ lcore global idx entry, (∀ r ∈ homeRows lcore global idx entry, r.completes) ∧ HomesLost lcore

/-- R349, R350: list operations complete. -/
def Obligations.ListOperations : Prop := ∀ u : Nat, ListsComplete u ∧ SpartCompletes u

/-! ### The package -/

/-- R380 to R392, R395: packets arrive, are acknowledged, and puts leave. What a fresh flit's failure does to a link's count of
resends is log entry 122. -/
def Obligations.FabricPackets : Prop :=
  (∀ p, PacketsArrive p) ∧ (∀ idx, FlagsApplied idx) ∧ (∀ id, PacketsAcknowledged id ∧ Puts id) ∧
  ∀ link, ∀ r ∈ linkRows link, r.completes

/-- R396 to R403: collectives contribute, decide and give their results; members change state. The poison mark of a contribution is
log entry 40, the LIVE set it keeps log entry 121. -/
def Obligations.Collectives : Prop :=
  (∀ id, Contributes (.collAllred id) id 0 ∧ Contributes (.collGather id) id 1 ∧ Contributes (.collBcast id) id 2 ∧
    Contributes (.collMark id) id 3) ∧
  (∀ c, ContributionsArrive c ∧ CollectivesDecide c) ∧ (∀ r, ResultsArrive r) ∧
  ∀ blend m pkg, ∀ r ∈ memberRows blend m pkg, r.completes

/-- R410, R413 to R415: errors freeze a cluster, and firmware's decisions release it. The line an error marks is log entry 77, the
freezes that a default leaves standing log entry 82. -/
def Obligations.ErrorsDecided : Prop :=
  (∀ e, ErrorsFreeze e ∧ ErrorsMark e ∧ IngressPoisons e) ∧ (∀ cl ds, DecisionsRelease cl ds) ∧ (∀ cl, DefaultsDecide cl) ∧ FrozenIssuesNothing

/-- R165, R166, R172, R438, R440: pages brought back, faults delivered, firmware's settings and its accesses. Which lanes a
delivery means and what wakes with a page is log entry 84, the numbers of physical addresses log entry 85. -/
def Obligations.FirmwareActs : Prop :=
  (∀ port va leaf who, PagesResume port va leaf who ∧ FaultsDelivered port va who ∧ RegionsUnwind port va leaf who) ∧
  (∀ core k win mask, ∀ r ∈ settingRows core k win mask, r.completes) ∧
  ∀ a n bs tag, PhysicalAccesses a n bs tag

/-- R429 to R432: what a host reads and writes. -/
def Obligations.HostsAccess : Prop :=
  (∀ port off n bs, HostAccesses port off n bs) ∧ (∀ port, FunctionsReset port) ∧
  ∀ port v, (∀ r ∈ registerRows port v, r.completes) ∧ ∀ off, RegistersClosed port off v

/-- R433, R434, R436, R437: bring-up, the power clamp and the thermal limits. Freezing again after the sixteenth window is
log entry 89, what a trip and firmware's release do to other freezes log entry 82, the shutdown's form log entry 142. -/
def Obligations.BringUpAndPower : Prop :=
  (∀ f ok flash up required dead failed, ∀ r ∈ bringUpRows f ok flash up required dead failed, r.completes) ∧ FailureStays ∧
  (∀ watts, PowerClamps watts) ∧ (∀ limit, ∀ r ∈ heatRows limit, r.completes) ∧ PowerLost

/-- R431, whole. -/
def Obligations.WindowClosedBeforeReady : Prop := WindowClosed

/-! ### The machine as a whole -/

/-- R48, R31, R33, R85: what happens to a word before it has any effect. -/
def Obligations.ChecksPrecede : Prop := ChecksTrap ∧ HeldAtIssue ∧ MatrixWordTraps

/-- R405, R137, R47, R48, R140: double faults, faults without a handler, fetched words that are no instruction, landings. -/
def Obligations.FetchesAndDoubleFaults : Prop := UnhandledKills ∧ KillsEnd ∧ UndecodedTraps ∧ LandingsChecked

/-- A step runs the word it decodes at its agent's address, or the event that happens next. -/
def Obligations.StepRunsDecoded : Prop := WordsRun ∧ MatrixWordsRun ∧ EventsHappen

/-- Every well-formed instruction decodes from its own word, and a word that decodes is the word of what it decodes to. -/
def Obligations.EncodeThenDecode : Prop := EncodeDecodes ∧ DecodeEncodes

/-- R21 and the worked encodings of spec/02_instruction_word.md. -/
def Obligations.WorkedWords : Prop :=
  decode 0x00002A0304800000 = .ok (.vadd ⟨false, 5, false, 2, .reg 3, .regs (.reg 9) (.reg 0), ⟨0, false⟩, 0⟩) ∧
  decode 0x2410300282000000 = .ok (.fmul ⟨true, 6, false, 0, .latch 2, .regs (.reg 4) (.reg 0), ⟨0, false⟩, 0⟩) ∧
  decode 0x1200404088020042 = .ok (.ld ⟨false, 8, 1, 2, false, 2, 16, ⟨0, false⟩, 0x42⟩) ∧ ReservedKinds

/-- R25, whole: the long-immediate form. -/
def Obligations.LongImmediateForm : Prop := LongImmediates

/-- Tables 18.1 to 18.4: the state after a reset. -/
def Obligations.ResetLeaves : Prop := ResetState State.reset ∧ State.reset.memOk

/-- Memory stays in its canonical form in every step from every state that has it. -/
def Obligations.MemoryStaysCanonical : Prop := ∀ s t, s.memOk → step s = .next t → t.memOk
end

