-- ==== Sys2Proof/Laws/Store.lean ====
section
/-!
SUPPORT. The laws of the sparse stores: reading back what was written, leaving every other place alone, and keeping the
canonical form.
-/
namespace Sys2Proof.Machine

/-! ### Finite maps -/

@[simp] theorem fget_nil {α : Type} (k : Nat) : fget ([] : FMap α) k = none := rfl

@[simp] theorem fget_fset_same {α : Type} (m : FMap α) (k : Nat) (v : α) : fget (fset m k v) k = some v := by
  induction m with
  | nil => simp [fset, fget]
  | cons x t ih =>
    obtain ⟨k', v'⟩ := x
    simp only [fset]
    split
    · simp [fget]
    · split
      · simp [fget]
      · rename_i h
        simp [fget, h, ih]

theorem fget_fset_other {α : Type} (m : FMap α) {k j : Nat} (v : α) (h : j ≠ k) : fget (fset m k v) j = fget m j := by
  induction m with
  | nil => simp [fset, fget, Ne.symm h]
  | cons x t ih =>
    obtain ⟨k', v'⟩ := x
    simp only [fset]
    split
    · simp [fget, Ne.symm h]
    · split
      · rename_i e
        subst e
        simp [fget, Ne.symm h]
      · simp [fget, ih]

@[simp] theorem fget_fdel_same {α : Type} (m : FMap α) (k : Nat) : fget (fdel m k) k = none := by
  induction m with
  | nil => rfl
  | cons x t ih =>
    obtain ⟨k', v'⟩ := x
    simp only [fdel]
    split
    · exact ih
    · rename_i h
      simp [fget, h, ih]

theorem fget_fdel_other {α : Type} (m : FMap α) {k j : Nat} (h : j ≠ k) : fget (fdel m k) j = fget m j := by
  induction m with
  | nil => rfl
  | cons x t ih =>
    obtain ⟨k', v'⟩ := x
    simp only [fdel]
    split
    · rename_i e
      subst e
      simp [fget, Ne.symm h, ih]
    · simp [fget, ih]

theorem fget_fmod_same {α : Type} (m : FMap α) (k : Nat) (g : α → α) : fget (fmod m k g) k = (fget m k).map g := by
  induction m with
  | nil => rfl
  | cons x t ih =>
    by_cases hx : x.1 = k
    · simp [fmod, fget, hx]
    · simp [fmod, fget, hx, ih]

theorem fget_fmod_other {α : Type} (m : FMap α) {k j : Nat} (g : α → α) (h : j ≠ k) : fget (fmod m k g) j = fget m j := by
  induction m with
  | nil => rfl
  | cons x t ih =>
    by_cases hx : x.1 = k
    · have hj : ¬ k = j := fun e => h e.symm
      simp [fmod, fget, hx, hj]
    · simp [fmod, fget, hx, ih]

theorem fkeys_fmod {α : Type} (m : FMap α) (k : Nat) (g : α → α) : fkeys (fmod m k g) = fkeys m := by
  induction m with
  | nil => rfl
  | cons x t ih =>
    by_cases hx : x.1 = k
    · simp [fmod, fkeys, hx]
    · have : (fmod t k g).map (·.1) = t.map (·.1) := ih
      simp [fmod, fkeys, hx, this]

/-- Values changed in place, by key. -/
theorem fget_map {α β : Type} (m : FMap α) (g : Nat → α → β) (k : Nat) :
    fget (m.map fun x => (x.1, g x.1 x.2)) k = (fget m k).map (g k) := by
  induction m with
  | nil => rfl
  | cons x t ih =>
    obtain ⟨k', v⟩ := x
    by_cases h : k' = k
    · simp [fget, h]
    · simp [fget, h, ih]

/-- Entries kept by key. -/
theorem fget_filter_key {α : Type} (m : FMap α) (p : Nat → Bool) (k : Nat) :
    fget (m.filter fun x => p x.1) k = if p k then fget m k else none := by
  induction m with
  | nil => simp
  | cons x t ih =>
    obtain ⟨k', v⟩ := x
    by_cases h : k' = k
    · subst h
      cases hp : p k' <;> simp [fget, hp, ih]
    · cases hp : p k' <;> simp [fget, h, hp, ih]

theorem fget_mem {α : Type} {m : FMap α} {k : Nat} {v : α} (h : fget m k = some v) : (k, v) ∈ m := by
  induction m with
  | nil => simp at h
  | cons x t ih =>
    obtain ⟨k', v'⟩ := x
    by_cases e : k' = k
    · simp [fget, e] at h
      simp [e, h]
    · simp [fget, e] at h
      exact List.mem_cons_of_mem _ (ih h)

/-! ### Registers and memory -/

@[simp] theorem rget_nil {w : Nat} (k : Nat) : rget ([] : Regs w) k = 0#w := rfl

/-- A register file reads as its entry, or zero. -/
theorem rget_eq_fget {w : Nat} (m : Regs w) (k : Nat) : rget m k = (fget m k).getD 0#w := by
  induction m with
  | nil => rfl
  | cons x t ih =>
    obtain ⟨k', v⟩ := x
    by_cases h : k' = k <;> simp [rget, fget, h, ih]

@[simp] theorem rget_rset_same {w : Nat} (m : Regs w) (k : Nat) (v : BitVec w) : rget (rset m k v) k = v := by
  rw [rget_eq_fget, rset]
  split
  · rename_i h
    simp [h]
  · simp

theorem rget_rset_other {w : Nat} (m : Regs w) {k j : Nat} (v : BitVec w) (h : j ≠ k) :
    rget (rset m k v) j = rget m j := by
  rw [rget_eq_fget, rget_eq_fget, rset]
  split
  · rw [fget_fdel_other m h]
  · rw [fget_fset_other m v h]

/-! ### The canonical form -/

/-- Every key of the map is above `k`. -/
def above {α : Type} (k : Nat) (m : FMap α) : Prop := ∀ x ∈ m, k < x.1

theorem fwf_cons {α : Type} (x : Nat × α) (t : FMap α) : fwf (x :: t) = true ↔ above x.1 t ∧ fwf t = true := by
  induction t generalizing x with
  | nil => simp [fwf, above]
  | cons y t ih =>
    simp only [fwf, Bool.and_eq_true, decide_eq_true_eq, above, List.mem_cons, forall_eq_or_imp]
    constructor
    · rintro ⟨h, h2⟩
      have h3 := (ih y).mp h2
      exact ⟨⟨h, fun z hz => Nat.lt_trans h (h3.1 z hz)⟩, h2⟩
    · rintro ⟨⟨h, _⟩, h2⟩
      exact ⟨h, h2⟩

theorem mem_fset {α : Type} (m : FMap α) (k : Nat) (v : α) (x : Nat × α) (h : x ∈ fset m k v) : x = (k, v) ∨ x ∈ m := by
  induction m with
  | nil => simp [fset] at h; exact .inl h
  | cons y t ih =>
    obtain ⟨k', v'⟩ := y
    simp only [fset] at h
    split at h
    · simpa using h
    · split at h
      · rcases List.mem_cons.mp h with h | h
        · exact .inl h
        · exact .inr (List.mem_cons_of_mem _ h)
      · rcases List.mem_cons.mp h with h | h
        · exact .inr (by simp [h])
        · rcases ih h with h | h
          · exact .inl h
          · exact .inr (List.mem_cons_of_mem _ h)

theorem mem_fdel {α : Type} (m : FMap α) (k : Nat) (x : Nat × α) (h : x ∈ fdel m k) : x ∈ m := by
  induction m with
  | nil => simp [fdel] at h
  | cons y t ih =>
    obtain ⟨k', v'⟩ := y
    simp only [fdel] at h
    split at h
    · exact List.mem_cons_of_mem _ (ih h)
    · rcases List.mem_cons.mp h with h | h
      · simp [h]
      · exact List.mem_cons_of_mem _ (ih h)

theorem fset_wf {α : Type} (m : FMap α) (k : Nat) (v : α) (h : fwf m = true) : fwf (fset m k v) = true := by
  induction m with
  | nil => rfl
  | cons y t ih =>
    obtain ⟨k', v'⟩ := y
    have hc := (fwf_cons _ _).mp h
    simp only [fset]
    split
    · rename_i hk
      refine (fwf_cons _ _).mpr ⟨?_, h⟩
      intro x hx
      rcases List.mem_cons.mp hx with rfl | hx
      · exact hk
      · exact Nat.lt_trans hk (hc.1 x hx)
    · split
      · rename_i _ hk
        subst hk
        exact (fwf_cons _ _).mpr ⟨hc.1, hc.2⟩
      · rename_i h1 h2
        refine (fwf_cons _ _).mpr ⟨?_, ih hc.2⟩
        intro x hx
        rcases mem_fset t k v x hx with rfl | hx
        · simp only
          omega
        · exact hc.1 x hx

theorem fdel_wf {α : Type} (m : FMap α) (k : Nat) (h : fwf m = true) : fwf (fdel m k) = true := by
  induction m with
  | nil => rfl
  | cons y t ih =>
    obtain ⟨k', v'⟩ := y
    have hc := (fwf_cons _ _).mp h
    simp only [fdel]
    split
    · exact ih hc.2
    · exact (fwf_cons _ _).mpr ⟨fun x hx => hc.1 x (mem_fdel t k x hx), ih hc.2⟩

/-- Writing a register keeps the canonical form. -/
theorem rset_wf {w : Nat} (m : Regs w) (k : Nat) (v : BitVec w) (h : rwf m = true) : rwf (rset m k v) = true := by
  simp only [rwf, Bool.and_eq_true, List.all_eq_true, decide_eq_true_eq] at h ⊢
  unfold rset
  split
  · exact ⟨fdel_wf m k h.1, fun x hx => h.2 x (mem_fdel m k x hx)⟩
  · rename_i hv
    refine ⟨fset_wf m k v h.1, fun x hx => ?_⟩
    rcases mem_fset m k v x hx with rfl | hx
    · exact hv
    · exact h.2 x hx

/-! ### Memory -/

@[simp] theorem Memory.byte_put_same (m : Memory) (k : Nat) (b : Byte) : (m.put k b).byte k = b := rget_rset_same m k b

theorem Memory.byte_put_other (m : Memory) {k j : Nat} (b : Byte) (h : j ≠ k) : (m.put k b).byte j = m.byte j :=
  rget_rset_other m b h

theorem Memory.put_wf (m : Memory) (k : Nat) (b : Byte) (h : m.wf = true) : (m.put k b).wf = true := rset_wf m k b h

theorem Memory.setNum_wf (m : Memory) (k x n : Nat) (h : m.wf = true) : (m.setNum k x n).wf = true := by
  induction n with
  | zero => exact h
  | succ n ih => exact Memory.put_wf _ _ _ ih

theorem Memory.setBytes_wf (m : Memory) (k : Nat) (bs : List Byte) (h : m.wf = true) : (m.setBytes k bs).wf = true := by
  induction bs generalizing m k with
  | nil => exact h
  | cons b t ih => exact ih _ _ (Memory.put_wf m k b h)

/-- A write of n bytes leaves every byte outside them alone. -/
theorem Memory.byte_setNum_outside (m : Memory) (k x n : Nat) {j : Nat} (h : j < k ∨ k + n ≤ j) :
    (m.setNum k x n).byte j = m.byte j := by
  induction n with
  | zero => rfl
  | succ n ih =>
    rw [Memory.setNum, Memory.byte_put_other _ _ (by omega), ih (by omega)]

/-- Byte i of what was written. -/
theorem Memory.byte_setNum_inside (m : Memory) (k x n : Nat) {i : Nat} (h : i < n) :
    (m.setNum k x n).byte (k + i) = BitVec.ofNat 8 (x / 256 ^ i) := by
  induction n with
  | zero => omega
  | succ n ih =>
    rw [Memory.setNum]
    by_cases e : i = n
    · subst e
      simp
    · rw [Memory.byte_put_other _ _ (by omega), ih (by omega)]

end Sys2Proof.Machine
end

