-- ==== Sys2Proof/Laws/Threads.lean ====
section
/-!
SUPPORT. The registers of a thread and of a wave: what each operation writes and what it leaves alone; the threads of a
wave by lane.
-/
namespace Sys2Proof.Machine

/-! ### Vector registers -/

@[simp] theorem Thread.getV_setV_same (t : Thread) (r : Nat) (x : Word) : (t.setV r x).getV r = x := rget_rset_same _ _ _

theorem Thread.getV_setV_other (t : Thread) {r k : Nat} (x : Word) (h : k ≠ r) : (t.setV r x).getV k = t.getV k :=
  rget_rset_other _ _ h

@[simp] theorem Thread.getV_setLat (t : Thread) (k : BitVec 2) (x : Word) (r : Nat) : (t.setLat k x).getV r = t.getV r := by
  unfold Thread.setLat
  split <;> rfl

@[simp] theorem Thread.getV_setP (t : Thread) (k : Nat) (b : Bool) (r : Nat) : (t.setP k b).getV r = t.getV r := by
  unfold Thread.setP
  split <;> rfl

theorem Thread.getP_setP_same (t : Thread) (k : Nat) (b : Bool) (h : k < 8) : (t.setP k b).getP k = (k == 0 || b) := by
  unfold Thread.setP Thread.getP
  split
  · rename_i hk
    simp [hk]
  · rename_i hk
    have e : (BitVec.ofNat 8 (2 ^ k)).getLsbD k = true := by
      rw [BitVec.getLsbD_ofNat, Nat.testBit_two_pow_self]
      simpa using h
    have hk0 : (k == 0) = false := by simpa using hk
    cases b
    · simp only [Bool.false_eq_true, if_false, BitVec.getLsbD_and, BitVec.getLsbD_not, e, hk0]
      simp
    · simp only [if_true, BitVec.getLsbD_or, e]
      simp

/-- p0 reads true in every thread (R6). -/
@[simp] theorem Thread.getP_zero (t : Thread) : t.getP 0 = true := rfl

/-! ### The threads of a wave -/

@[simp] theorem Wave.th_mapMask (w : Wave) (mask : Word) (g : Nat → Thread → Thread) (l : Nat) :
    (w.mapMask mask g).th l = (w.th l).map fun t => if inMask mask l then g l t else t := by
  simp only [Wave.th, Wave.mapMask]
  exact fget_map w.threads (fun l t => if inMask mask l then g l t else t) l

theorem mem_lanesOf (m : Word) (l : Nat) : l ∈ lanesOf m ↔ inMask m l = true := by
  simp only [lanesOf, List.mem_filter, List.mem_range]
  refine ⟨fun h => h.2, fun h => ⟨?_, h⟩⟩
  cases Nat.lt_or_ge l 32 with
  | inl hl => exact hl
  | inr hl => exact absurd (BitVec.getLsbD_of_ge m l hl) (by simpa [inMask] using h)

/-- The threads of a mask are those found under its lanes. -/
theorem Wave.mem_active (w : Wave) (mask : Word) (l : Nat) (t : Thread) :
    (l, t) ∈ w.active mask ↔ inMask mask l = true ∧ w.th l = some t := by
  simp only [Wave.active, List.mem_filterMap, mem_lanesOf, Option.map_eq_some_iff, Prod.mk.injEq]
  constructor
  · rintro ⟨a, ha, b, hb, rfl, rfl⟩
    exact ⟨ha, hb⟩
  · rintro ⟨hl, ht⟩
    exact ⟨l, hl, t, ht, rfl, rfl⟩

theorem Wave.th_mapMask_in (w : Wave) {mask : Word} {g : Nat → Thread → Thread} {l : Nat} {t : Thread}
    (h : w.th l = some t) (hm : inMask mask l = true) : (w.mapMask mask g).th l = some (g l t) := by simp [h, hm]

theorem Wave.th_mapMask_out (w : Wave) {mask : Word} {g : Nat → Thread → Thread} {l : Nat} (hm : inMask mask l = false) :
    (w.mapMask mask g).th l = w.th l := by cases h : w.th l <;> simp [h, hm]

/-! ### Waves of the package -/

theorem State.wave_modWave_same (s : State) (u : Nat) (g : Wave → Wave) : (s.modWave u g).wave u = (s.wave u).map g := by
  simp [State.wave, State.modWave, fget_fmod_same]

theorem State.wave_modWave_other (s : State) {u v : Nat} (g : Wave → Wave) (h : v ≠ u) :
    (s.modWave u g).wave v = s.wave v := by
  simp [State.wave, State.modWave, fget_fmod_other _ _ h]

theorem State.wave_modWave_some {s : State} {u : Nat} {w : Wave} (g : Wave → Wave) (h : s.wave u = some w) :
    (s.modWave u g).wave u = some (g w) := by
  rw [State.wave_modWave_same, h]
  rfl

end Sys2Proof.Machine
end

