-- ==== Sys2Proof/Laws/Issue.lean ====
section
/-!
SUPPORT. What the shapes of a meaning do once a word issues: `issue`, `arith`, `word` and `event`, each said once.
-/
namespace Sys2Proof.Machine

/-! ### Issue -/

theorem issues_turn {s : State} {i : Instr} {c : Ctx} (h : s.issues i c = true) : s.turn = .wave c.u := by
  simp [State.issues] at h
  exact h.1.1.1.1.1.1.1.1.1

theorem issues_wave {s : State} {i : Instr} {c : Ctx} (h : s.issues i c = true) : s.wave c.u = some c.w := by
  simp [State.issues] at h
  exact h.1.1.1.1.1.1.1.1.2

theorem issues_run {s : State} {i : Instr} {c : Ctx} (h : s.issues i c = true) : c.w.run = some c.mask := by
  simp [State.issues] at h
  exact h.1.1.1.1.1.1.1.2

theorem issues_calm {s : State} {i : Instr} {c : Ctx} (h : s.issues i c = true) : c.w.unwind = none := by
  simp [State.issues] at h
  exact h.1.2

theorem issues_unpassed {s : State} {i : Instr} {c : Ctx} (h : s.issues i c = true) : s.unpassed = true := by
  simp only [State.issues, Bool.and_eq_true] at h
  exact h.2

/-- Where nothing is owed, an observer finds the state as it is. -/
theorem settleOwed_of_unpassed {s : State} (h : s.unpassed = true) (u : Option (Nat × Word)) (blk : Nat) (upto : Option Nat) : s.settleOwed u blk upto = s := by
  have : s.owed u blk = [] := by
    simp only [State.unpassed, List.all_eq_true, beq_iff_eq] at h
    simp only [State.owed, List.filter_eq_nil_iff]
    intro a ha
    simp [h a ha]
  simp [State.settleOwed, this]

theorem settled_of_unpassed {s : State} (h : s.unpassed = true) : s.settled = s := by
  unfold State.settled State.settleFor
  split
  · split
    · rfl
    · exact settleOwed_of_unpassed h _ _ _
  · rfl

/-- A word that issues has its effect, or is held and leaves the state as it is. -/
theorem issue_of_issues {s : State} {i : Instr} {c : Ctx} (h : s.issues i c = true) (k : State → Ctx → Option State) :
    issue i s k = .next ((k s c).getD s) := by
  have ht := issues_turn h
  have hc : s.issuing = some c := by
    simp only [State.issuing, ht, issues_wave h, issues_run h, Option.map_some]
  simp only [State.issues, Bool.and_eq_true, Bool.not_eq_true', decide_eq_true_eq] at h
  obtain ⟨⟨⟨⟨⟨⟨⟨⟨⟨_, _⟩, _⟩, h1⟩, h2⟩, h3⟩, h4⟩, h5⟩, _⟩, _⟩ := h
  unfold issue
  rw [hc, ht]
  simp only [h1, h2, h3, h4, h5, ne_eq, not_true_eq_false, ↓reduceIte, Bool.false_eq_true]
  cases k s c <;> rfl

/-! ### Register arithmetic -/

theorem Thread.keeps_next {a b : Thread} {d : Dest} (h : a.keeps b d) : a.keeps b.next d := h

theorem Thread.keeps_dropLat {a b : Thread} {d : Dest} (h : a.keeps b d) : a.keeps b.dropLat d := h

/-- What a state without a pending abort does at a run boundary. -/
theorem boundary_of_calm {s : State} {u : Nat} {w : Wave} (h : s.wave u = some w) (hu : w.unwind = none) :
    s.boundary u = s := by
  simp [State.boundary, h, hu]

/-- A register arithmetic word whose effect succeeds has run. -/
theorem arith_ran {s : State} {i : Instr} {c : Ctx} {e : Bool} {eff : Wave → Word → Except Word Wave} {d : Dest}
    {val : Nat → Thread → Thread → Prop} {w : Wave} (h : s.issues i c = true) (ok : eff (c.issued s.clk) c.mask = .ok w)
    (hr : w.rest = c.w.rest) (hrun : w.run = some c.mask) (hs : ∀ r, r ∉ d.s → w.getS r = c.w.getS r)
    (ho : ∀ l, inMask c.mask l = false → w.th l = c.w.th l)
    (hi : ∀ l th, c.has l th → ∃ t, w.th l = some t ∧ t.pc = th.pc ∧ (th.keeps t d ∧ th.carries t d) ∧ val l th t.next ∧ val l th t.next.dropLat) :
    ∃ t, arith i e s eff = .next t ∧ Ran s t c d val := by
  have hun : (w.mapMask c.mask fun _ t => t.next).unwind = none := by
    have : w.rest.unwind = c.w.rest.unwind := by rw [hr]
    simpa [Wave.rest, Wave.mapMask, issues_calm h] using this
  simp only [arith, issue_of_issues h, ok, Option.getD_some]
  refine ⟨_, rfl, ?_⟩
  by_cases hE : (e || (w.mapMask c.mask fun _ t => t.next).atMeeting c.mask) = true
  · simp only [hE, if_true]
    have hcl : (w.mapMask c.mask fun _ t => t.next).closeRun =
        { ((w.mapMask c.mask fun _ t => t.next).mapMask c.mask fun _ t => t.dropLat) with run := none } := by
      have : (w.mapMask c.mask fun _ t => t.next).run = some c.mask := hrun
      simp [Wave.closeRun, this]
    rw [boundary_of_calm (w := (w.mapMask c.mask fun _ t => t.next).closeRun)
      (State.wave_modWave_some (fun _ => (w.mapMask c.mask fun _ t => t.next).closeRun) (issues_wave h))
      (by rw [hcl]; exact hun)]
    refine ⟨rfl, fun v hv => State.wave_modWave_other s _ hv, _, State.wave_modWave_some _ (issues_wave h), ?_⟩
    rw [hcl]
    refine ⟨?_, hs, ?_, ?_⟩
    · simpa [Wave.rest, Wave.mapMask] using hr
    · intro l hl
      have := ho l hl
      show ((w.mapMask c.mask fun _ t => t.next).mapMask c.mask fun _ t => t.dropLat).th l = _
      rw [Wave.th_mapMask_out _ hl, Wave.th_mapMask_out _ hl, this]
    · intro l th hth
      obtain ⟨t, h1, h2, ⟨h3, _⟩, _, h5⟩ := hi l th hth
      refine ⟨t.next.dropLat, ?_, ?_, h3, h5, .inr ⟨rfl, rfl⟩⟩
      · show ((w.mapMask c.mask fun _ t => t.next).mapMask c.mask fun _ t => t.dropLat).th l = _
        rw [Wave.th_mapMask_in _ (Wave.th_mapMask_in _ h1 hth.1) hth.1]
      · simp [Thread.dropLat, Thread.next, h2]
  · simp only [hE, Bool.false_eq_true, if_false]
    refine ⟨rfl, fun v hv => State.wave_modWave_other s _ hv, _, State.wave_modWave_some _ (issues_wave h), ?_⟩
    refine ⟨?_, hs, ?_, ?_⟩
    · simpa [Wave.rest, Wave.mapMask] using hr
    · intro l hl
      show (w.mapMask c.mask fun _ t => t.next).th l = _
      rw [Wave.th_mapMask_out _ hl, ho l hl]
    · intro l th hth
      obtain ⟨t, h1, h2, ⟨h3, hc⟩, h4, _⟩ := hi l th hth
      refine ⟨t.next, Wave.th_mapMask_in _ h1 hth.1, ?_, h3, h4, .inl ⟨hrun, hc⟩⟩
      simp [Thread.next, h2]

/-- The group as a word issues: the same threads, no longer deferred. -/
theorem Ctx.issued_th {c : Ctx} {clk : DWord} {l : Nat} {th : Thread} (h : c.has l th) :
    (c.issued clk).th l = some { th with yd := false, resume := 0 } := by
  show (c.w.mapMask c.mask fun _ t => { t with yd := false, resume := 0 }).th l = _
  exact Wave.th_mapMask_in c.w h.2 h.1

theorem Ctx.issued_th_out {c : Ctx} {clk : DWord} {l : Nat} (h : inMask c.mask l = false) :
    (c.issued clk).th l = c.w.th l := by
  show (c.w.mapMask c.mask fun _ t => { t with yd := false, resume := 0 }).th l = _
  exact Wave.th_mapMask_out c.w h

/-- An effect on each thread by itself. -/
theorem arith_lanes {s : State} {i : Instr} {c : Ctx} {e : Bool} {g : Nat → Thread → Thread} {d : Dest}
    {val : Nat → Thread → Thread → Prop} (h : s.issues i c = true)
    (hg : ∀ l th, c.has l th → let t := g l { th with yd := false, resume := 0 }
      t.pc = th.pc ∧ (th.keeps t d ∧ th.carries t d) ∧ val l th t.next ∧ val l th t.next.dropLat) :
    ∃ t, arith i e s (laneEff' g) = .next t ∧ Ran s t c d val := by
  refine arith_ran (w := (c.issued s.clk).mapMask c.mask g) h rfl rfl (issues_run h) (fun _ _ => rfl) ?_ ?_
  · intro l hl
    rw [Wave.th_mapMask_out _ hl, Ctx.issued_th_out hl]
  · intro l th hth
    exact ⟨_, Wave.th_mapMask_in _ (Ctx.issued_th hth) hth.1, hg l th hth⟩

/-- An effect on each thread by itself that none of them fails. -/
theorem arith_lanes_ok {s : State} {i : Instr} {c : Ctx} {e : Bool} {g : Nat → Thread → Option Thread} {d : Dest}
    {val : Nat → Thread → Thread → Prop} (h : s.issues i c = true)
    (hall : ∀ l t, (l, t) ∈ (c.issued s.clk).active c.mask → (g l t).isSome = true)
    (hg : ∀ l th t, c.has l th → g l { th with yd := false, resume := 0 } = some t →
      t.pc = th.pc ∧ (th.keeps t d ∧ th.carries t d) ∧ val l th t.next ∧ val l th t.next.dropLat) :
    ∃ t, arith i e s (laneEff g) = .next t ∧ Ran s t c d val := by
  have hbad : ((c.issued s.clk).active c.mask).filterMap (fun (l, t) => if (g l t).isNone then some l else none) = [] := by
    rw [List.filterMap_eq_nil_iff]
    rintro ⟨l, t⟩ hm
    have := hall l t hm
    cases hgt : g l t <;> simp_all
  refine arith_ran (w := (c.issued s.clk).mapMask c.mask fun l t => (g l t).getD t) h ?_ rfl (issues_run h)
    (fun _ _ => rfl) ?_ ?_
  · simp only [laneEff, hbad]
    rfl
  · intro l hl
    rw [Wave.th_mapMask_out _ hl, Ctx.issued_th_out hl]
  · intro l th hth
    have hm : (g l { th with yd := false, resume := 0 }).isSome = true := by
      exact hall l _ ((Wave.mem_active _ _ _ _).mpr ⟨hth.1, Ctx.issued_th hth⟩)
    obtain ⟨t, ht⟩ := Option.isSome_iff_exists.mp hm
    refine ⟨_, Wave.th_mapMask_in _ (Ctx.issued_th hth) hth.1, ?_⟩
    rw [ht]
    exact hg l th t hth ht

end Sys2Proof.Machine
end

