-- ==== Sys2Proof/Laws/PerInstr.lean ====
section
/-!
SUPPORT. Statements about every instruction, said once per constructor: an instruction row has a word of kind 00 with its
opcode, or, a paired word, of kind 01; an event row has none.
-/
namespace Sys2Proof.Laws.Words

/-- The kind of the word (R21). -/
def kind : Instr → BitVec 2
  | .pairedWord _ => 1
  | _ => 0

/-- The words are those of instruction rows; kind and opcode stand where Table 2.1 puts them. -/
def Statement (i : Instr) : Prop :=
  (encode i).isSome = i.isWord ∧ ∀ w, encode i = some w → w.extractLsb' 62 2 = kind i ∧
    (kind i = 0 → (w.extractLsb' 51 10).toNat = i.opcode)

theorem bit_word00 (e : Bool) (op : Nat) (x : BitVec 51) {k : Nat} (h : 51 ≤ k) :
    (word00 e op x).getLsbD k = if k < 61 then (BitVec.ofNat 10 op).getLsbD (k - 51) else if k = 61 then e else false := by
  rw [show (word00 e op x).getLsbD k = (((0#2 ++ BitVec.ofBool e) ++ BitVec.ofNat 10 op) ++ x).getLsbD k from rfl,
    BitVec.getLsbD_append, BitVec.getLsbD_append, BitVec.getLsbD_append]
  have h1 : ¬ k < 51 := by omega
  by_cases h2 : k < 61
  · have h3 : k - 51 < 10 := by omega
    simp [h1, h2, h3]
  · have h3 : ¬ k - 51 < 10 := by omega
    by_cases h4 : k = 61
    · subst h4
      simp
    · have h5 : ¬ k - 51 - 10 < 1 := by omega
      simp [h1, h2, h3, h4, h5]

theorem kind_word00 (e : Bool) (op : Nat) (x : BitVec 51) : (word00 e op x).extractLsb' 62 2 = 0#2 := by
  apply BitVec.eq_of_getLsbD_eq
  intro k hk
  rw [BitVec.getLsbD_extractLsb', bit_word00 _ _ _ (by omega)]
  have h1 : ¬ 62 + k < 61 := by omega
  have h2 : ¬ 62 + k = 61 := by omega
  simp [h1, h2]

theorem opcode_word00 (e : Bool) (op : Nat) (x : BitVec 51) (h : op < 1024) :
    ((word00 e op x).extractLsb' 51 10).toNat = op := by
  have : (word00 e op x).extractLsb' 51 10 = BitVec.ofNat 10 op := by
    apply BitVec.eq_of_getLsbD_eq
    intro k hk
    rw [BitVec.getLsbD_extractLsb', bit_word00 _ _ _ (by omega)]
    have h1 : 51 + k < 61 := by omega
    have h2 : 51 + k - 51 = k := by omega
    simp [hk, h1, h2]
  rw [this, BitVec.toNat_ofNat]
  exact Nat.mod_eq_of_lt h

/-- A row whose word is `word00` of its opcode. -/
theorem of_word00 {i : Instr} {op : Nat} (e : Bool) (x : BitVec 51) (h : encode i = some (word00 e op x))
    (hk : kind i = 0) (ho : i.opcode = op) (hl : op < 1024) (hw : i.isWord = true) : Statement i := by
  refine ⟨by rw [h, hw]; rfl, fun w hw' => ?_⟩
  rw [h] at hw'
  cases hw'
  exact ⟨(kind_word00 _ _ _).trans hk.symm, fun _ => (opcode_word00 _ _ _ hl).trans ho.symm⟩

/-- A row without a word. -/
theorem of_none {i : Instr} (h : encode i = none) (hw : i.isWord = false) : Statement i :=
  ⟨by rw [h, hw]; rfl, fun w hw' => by rw [h] at hw'; cases hw'⟩

theorem kind_pair (e : Bool) (a b : BitVec 30) :
    (1#2 ++ BitVec.ofBool e ++ a ++ b ++ 0#1 : BitVec 64).extractLsb' 62 2 = 1#2 := by
  apply BitVec.eq_of_getLsbD_eq
  intro k hk
  have hc : k = 0 ∨ k = 1 := by omega
  rw [BitVec.getLsbD_extractLsb',
    show (1#2 ++ BitVec.ofBool e ++ a ++ b ++ 0#1 : BitVec 64).getLsbD (62 + k) =
      ((((1#2 ++ BitVec.ofBool e) ++ a) ++ b) ++ 0#1).getLsbD (62 + k) from rfl,
    BitVec.getLsbD_append, BitVec.getLsbD_append, BitVec.getLsbD_append, BitVec.getLsbD_append]
  rcases hc with rfl | rfl <;> simp

theorem vadd (f : FOps) : Statement (.vadd f) := of_word00 (op := 0x000) _ _ rfl rfl rfl (by decide) rfl
theorem vsub (f : FOps) : Statement (.vsub f) := of_word00 (op := 0x001) _ _ rfl rfl rfl (by decide) rfl
theorem vmul (f : FOps) : Statement (.vmul f) := of_word00 (op := 0x002) _ _ rfl rfl rfl (by decide) rfl
theorem vmulh (f : FOps) : Statement (.vmulh f) := of_word00 (op := 0x003) _ _ rfl rfl rfl (by decide) rfl
theorem vmad (f : FOps) : Statement (.vmad f) := of_word00 (op := 0x004) _ _ rfl rfl rfl (by decide) rfl
theorem vmadw (f : FOps) : Statement (.vmadw f) := of_word00 (op := 0x005) _ _ rfl rfl rfl (by decide) rfl
theorem vdiv (f : FOps) : Statement (.vdiv f) := of_word00 (op := 0x006) _ _ rfl rfl rfl (by decide) rfl
theorem vrem (f : FOps) : Statement (.vrem f) := of_word00 (op := 0x007) _ _ rfl rfl rfl (by decide) rfl
theorem vabs (f : FOps) : Statement (.vabs f) := of_word00 (op := 0x008) _ _ rfl rfl rfl (by decide) rfl
theorem vmin (f : FOps) : Statement (.vmin f) := of_word00 (op := 0x009) _ _ rfl rfl rfl (by decide) rfl
theorem vmax (f : FOps) : Statement (.vmax f) := of_word00 (op := 0x00A) _ _ rfl rfl rfl (by decide) rfl
theorem vand (f : FOps) : Statement (.vand f) := of_word00 (op := 0x00B) _ _ rfl rfl rfl (by decide) rfl
theorem vor (f : FOps) : Statement (.vor f) := of_word00 (op := 0x00C) _ _ rfl rfl rfl (by decide) rfl
theorem vxor (f : FOps) : Statement (.vxor f) := of_word00 (op := 0x00D) _ _ rfl rfl rfl (by decide) rfl
theorem vandn (f : FOps) : Statement (.vandn f) := of_word00 (op := 0x00E) _ _ rfl rfl rfl (by decide) rfl
theorem vshl (f : FOps) : Statement (.vshl f) := of_word00 (op := 0x00F) _ _ rfl rfl rfl (by decide) rfl
theorem vshr (f : FOps) : Statement (.vshr f) := of_word00 (op := 0x010) _ _ rfl rfl rfl (by decide) rfl
theorem vsra (f : FOps) : Statement (.vsra f) := of_word00 (op := 0x011) _ _ rfl rfl rfl (by decide) rfl
theorem vrot (f : FOps) : Statement (.vrot f) := of_word00 (op := 0x012) _ _ rfl rfl rfl (by decide) rfl
theorem vclz (f : FOps) : Statement (.vclz f) := of_word00 (op := 0x013) _ _ rfl rfl rfl (by decide) rfl
theorem vpopc (f : FOps) : Statement (.vpopc f) := of_word00 (op := 0x014) _ _ rfl rfl rfl (by decide) rfl
theorem vbrev (f : FOps) : Statement (.vbrev f) := of_word00 (op := 0x015) _ _ rfl rfl rfl (by decide) rfl
theorem vbfe (f : FOps) : Statement (.vbfe f) := of_word00 (op := 0x016) _ _ rfl rfl rfl (by decide) rfl
theorem vbfi (f : FOps) : Statement (.vbfi f) := of_word00 (op := 0x017) _ _ rfl rfl rfl (by decide) rfl
theorem vaddc (f : FOps) : Statement (.vaddc f) := of_word00 (op := 0x018) _ _ rfl rfl rfl (by decide) rfl
theorem vdot4 (f : FOps) : Statement (.vdot4 f) := of_word00 (op := 0x019) _ _ rfl rfl rfl (by decide) rfl
theorem vcmp (f : FOps) : Statement (.vcmp f) := of_word00 (op := 0x01A) _ _ rfl rfl rfl (by decide) rfl
theorem vsel (f : FOps) : Statement (.vsel f) := of_word00 (op := 0x01B) _ _ rfl rfl rfl (by decide) rfl
theorem vmov (f : FOps) : Statement (.vmov f) := of_word00 (op := 0x01C) _ _ rfl rfl rfl (by decide) rfl
theorem vmovi (f : VMovi) : Statement (.vmovi f) := of_word00 (op := 0x01D) _ _ rfl rfl rfl (by decide) rfl
theorem vlea (f : FOps) : Statement (.vlea f) := of_word00 (op := 0x01E) _ _ rfl rfl rfl (by decide) rfl
theorem fadd (f : FOps) : Statement (.fadd f) := of_word00 (op := 0x080) _ _ rfl rfl rfl (by decide) rfl
theorem fsub (f : FOps) : Statement (.fsub f) := of_word00 (op := 0x081) _ _ rfl rfl rfl (by decide) rfl
theorem fmul (f : FOps) : Statement (.fmul f) := of_word00 (op := 0x082) _ _ rfl rfl rfl (by decide) rfl
theorem ffma (f : FOps) : Statement (.ffma f) := of_word00 (op := 0x083) _ _ rfl rfl rfl (by decide) rfl
theorem fmin (f : FOps) : Statement (.fmin f) := of_word00 (op := 0x084) _ _ rfl rfl rfl (by decide) rfl
theorem fmax (f : FOps) : Statement (.fmax f) := of_word00 (op := 0x085) _ _ rfl rfl rfl (by decide) rfl
theorem fcmp (f : FOps) : Statement (.fcmp f) := of_word00 (op := 0x086) _ _ rfl rfl rfl (by decide) rfl
theorem frcp (f : FOps) : Statement (.frcp f) := of_word00 (op := 0x087) _ _ rfl rfl rfl (by decide) rfl
theorem frsq (f : FOps) : Statement (.frsq f) := of_word00 (op := 0x088) _ _ rfl rfl rfl (by decide) rfl
theorem fsqrt (f : FOps) : Statement (.fsqrt f) := of_word00 (op := 0x089) _ _ rfl rfl rfl (by decide) rfl
theorem fdiv (f : FOps) : Statement (.fdiv f) := of_word00 (op := 0x08A) _ _ rfl rfl rfl (by decide) rfl
theorem fexp2 (f : FOps) : Statement (.fexp2 f) := of_word00 (op := 0x08B) _ _ rfl rfl rfl (by decide) rfl
theorem flog2 (f : FOps) : Statement (.flog2 f) := of_word00 (op := 0x08C) _ _ rfl rfl rfl (by decide) rfl
theorem fsin (f : FOps) : Statement (.fsin f) := of_word00 (op := 0x08D) _ _ rfl rfl rfl (by decide) rfl
theorem fcos (f : FOps) : Statement (.fcos f) := of_word00 (op := 0x08E) _ _ rfl rfl rfl (by decide) rfl
theorem fclass (f : FOps) : Statement (.fclass f) := of_word00 (op := 0x08F) _ _ rfl rfl rfl (by decide) rfl
theorem fdot2 (f : FOps) : Statement (.fdot2 f) := of_word00 (op := 0x090) _ _ rfl rfl rfl (by decide) rfl
theorem fscale (f : FOps) : Statement (.fscale f) := of_word00 (op := 0x091) _ _ rfl rfl rfl (by decide) rfl
theorem cvt (f : FOps) : Statement (.cvt f) := of_word00 (op := 0x100) _ _ rfl rfl rfl (by decide) rfl
theorem cvtef (f : FOps) : Statement (.cvtef f) := of_word00 (op := 0x101) _ _ rfl rfl rfl (by decide) rfl
theorem frnd (f : FOps) : Statement (.frnd f) := of_word00 (op := 0x102) _ _ rfl rfl rfl (by decide) rfl
theorem pack (f : FOps) : Statement (.pack f) := of_word00 (op := 0x103) _ _ rfl rfl rfl (by decide) rfl
theorem unpack (f : FOps) : Statement (.unpack f) := of_word00 (op := 0x104) _ _ rfl rfl rfl (by decide) rfl
theorem cbdec (f : FOps) : Statement (.cbdec f) := of_word00 (op := 0x105) _ _ rfl rfl rfl (by decide) rfl
theorem cbenc (f : FOps) : Statement (.cbenc f) := of_word00 (op := 0x106) _ _ rfl rfl rfl (by decide) rfl
theorem scget (f : FOps) : Statement (.scget f) := of_word00 (op := 0x107) _ _ rfl rfl rfl (by decide) rfl
theorem scapply (f : FOps) : Statement (.scapply f) := of_word00 (op := 0x108) _ _ rfl rfl rfl (by decide) rfl
theorem leesrd (f : FOps) : Statement (.leesrd f) := of_word00 (op := 0x109) _ _ rfl rfl rfl (by decide) rfl
theorem leeswr (f : FOps) : Statement (.leeswr f) := of_word00 (op := 0x10A) _ _ rfl rfl rfl (by decide) rfl
theorem shfl (f : FOps) : Statement (.shfl f) := of_word00 (op := 0x140) _ _ rfl rfl rfl (by decide) rfl
theorem vote (f : FOps) : Statement (.vote f) := of_word00 (op := 0x141) _ _ rfl rfl rfl (by decide) rfl
theorem voteBallot (f : FOps) : Statement (.voteBallot f) := of_word00 (op := 0x141) _ _ rfl rfl rfl (by decide) rfl
theorem lred (f : FOps) : Statement (.lred f) := of_word00 (op := 0x142) _ _ rfl rfl rfl (by decide) rfl
theorem lscan (f : FOps) : Statement (.lscan f) := of_word00 (op := 0x143) _ _ rfl rfl rfl (by decide) rfl
theorem bcast (f : FOps) : Statement (.bcast f) := of_word00 (op := 0x144) _ _ rfl rfl rfl (by decide) rfl
theorem v2s (f : FOps) : Statement (.v2s f) := of_word00 (op := 0x145) _ _ rfl rfl rfl (by decide) rfl
theorem s2v (f : FOps) : Statement (.s2v f) := of_word00 (op := 0x146) _ _ rfl rfl rfl (by decide) rfl
theorem amask (f : FOps) : Statement (.amask f) := of_word00 (op := 0x147) _ _ rfl rfl rfl (by decide) rfl
theorem pand (f : FOps) : Statement (.pand f) := of_word00 (op := 0x148) _ _ rfl rfl rfl (by decide) rfl
theorem por (f : FOps) : Statement (.por f) := of_word00 (op := 0x149) _ _ rfl rfl rfl (by decide) rfl
theorem pxor (f : FOps) : Statement (.pxor f) := of_word00 (op := 0x14A) _ _ rfl rfl rfl (by decide) rfl
theorem pnot (f : FOps) : Statement (.pnot f) := of_word00 (op := 0x14B) _ _ rfl rfl rfl (by decide) rfl
theorem pmov (f : FOps) : Statement (.pmov f) := of_word00 (op := 0x14C) _ _ rfl rfl rfl (by decide) rfl
theorem sadd (u : UOps) : Statement (.sadd u) := of_word00 (op := 0x180) _ _ rfl rfl rfl (by decide) rfl
theorem ssub (u : UOps) : Statement (.ssub u) := of_word00 (op := 0x181) _ _ rfl rfl rfl (by decide) rfl
theorem smul (u : UOps) : Statement (.smul u) := of_word00 (op := 0x182) _ _ rfl rfl rfl (by decide) rfl
theorem smulh (u : UOps) : Statement (.smulh u) := of_word00 (op := 0x183) _ _ rfl rfl rfl (by decide) rfl
theorem smad (u : UOps) : Statement (.smad u) := of_word00 (op := 0x184) _ _ rfl rfl rfl (by decide) rfl
theorem sdiv (u : UOps) : Statement (.sdiv u) := of_word00 (op := 0x185) _ _ rfl rfl rfl (by decide) rfl
theorem smin (u : UOps) : Statement (.smin u) := of_word00 (op := 0x186) _ _ rfl rfl rfl (by decide) rfl
theorem smax (u : UOps) : Statement (.smax u) := of_word00 (op := 0x187) _ _ rfl rfl rfl (by decide) rfl
theorem sand (u : UOps) : Statement (.sand u) := of_word00 (op := 0x188) _ _ rfl rfl rfl (by decide) rfl
theorem sor (u : UOps) : Statement (.sor u) := of_word00 (op := 0x189) _ _ rfl rfl rfl (by decide) rfl
theorem sxor (u : UOps) : Statement (.sxor u) := of_word00 (op := 0x18A) _ _ rfl rfl rfl (by decide) rfl
theorem sshl (u : UOps) : Statement (.sshl u) := of_word00 (op := 0x18B) _ _ rfl rfl rfl (by decide) rfl
theorem sshr (u : UOps) : Statement (.sshr u) := of_word00 (op := 0x18C) _ _ rfl rfl rfl (by decide) rfl
theorem ssra (u : UOps) : Statement (.ssra u) := of_word00 (op := 0x18D) _ _ rfl rfl rfl (by decide) rfl
theorem sclz (u : UOps) : Statement (.sclz u) := of_word00 (op := 0x18E) _ _ rfl rfl rfl (by decide) rfl
theorem spopc (u : UOps) : Statement (.spopc u) := of_word00 (op := 0x18F) _ _ rfl rfl rfl (by decide) rfl
theorem scmp (u : UOps) : Statement (.scmp u) := of_word00 (op := 0x190) _ _ rfl rfl rfl (by decide) rfl
theorem ssel (u : UOps) : Statement (.ssel u) := of_word00 (op := 0x191) _ _ rfl rfl rfl (by decide) rfl
theorem smov (u : UOps) : Statement (.smov u) := of_word00 (op := 0x192) _ _ rfl rfl rfl (by decide) rfl
theorem smovi (u : SMovi) : Statement (.smovi u) := of_word00 (op := 0x193) _ _ rfl rfl rfl (by decide) rfl
theorem sfadd (u : UOps) : Statement (.sfadd u) := of_word00 (op := 0x194) _ _ rfl rfl rfl (by decide) rfl
theorem sfmul (u : UOps) : Statement (.sfmul u) := of_word00 (op := 0x195) _ _ rfl rfl rfl (by decide) rfl
theorem sffma (u : UOps) : Statement (.sffma u) := of_word00 (op := 0x196) _ _ rfl rfl rfl (by decide) rfl
theorem sfcmp (u : UOps) : Statement (.sfcmp u) := of_word00 (op := 0x197) _ _ rfl rfl rfl (by decide) rfl
theorem scvt (u : UOps) : Statement (.scvt u) := of_word00 (op := 0x198) _ _ rfl rfl rfl (by decide) rfl
theorem slea (u : UOps) : Statement (.slea u) := of_word00 (op := 0x199) _ _ rfl rfl rfl (by decide) rfl
theorem pairedWord (p : Pair) : Statement (.pairedWord p) :=
  ⟨rfl, fun w h => by cases h; exact ⟨kind_pair _ _ _, fun h => absurd (show (1 : BitVec 2) = 0 from h) (by decide)⟩⟩
theorem bra (f : FOps) : Statement (.bra f) := of_word00 (op := 0x1C0) _ _ rfl rfl rfl (by decide) rfl
theorem sbra (f : FOps) : Statement (.sbra f) := of_word00 (op := 0x1C1) _ _ rfl rfl rfl (by decide) rfl
theorem brx (f : FOps) : Statement (.brx f) := of_word00 (op := 0x1C2) _ _ rfl rfl rfl (by decide) rfl
theorem call (f : FOps) : Statement (.call f) := of_word00 (op := 0x1C3) _ _ rfl rfl rfl (by decide) rfl
theorem callx (f : FOps) : Statement (.callx f) := of_word00 (op := 0x1C4) _ _ rfl rfl rfl (by decide) rfl
theorem ret (f : FOps) : Statement (.ret f) := of_word00 (op := 0x1C5) _ _ rfl rfl rfl (by decide) rfl
theorem meet (f : FOps) : Statement (.meet f) := of_word00 (op := 0x1C6) _ _ rfl rfl rfl (by decide) rfl
theorem meetPop (f : FOps) : Statement (.meetPop f) := of_word00 (op := 0x1C6) _ _ rfl rfl rfl (by decide) rfl
theorem land (f : FOps) : Statement (.land f) := of_word00 (op := 0x1C7) _ _ rfl rfl rfl (by decide) rfl
theorem exit (f : FOps) : Statement (.exit f) := of_word00 (op := 0x1C8) _ _ rfl rfl rfl (by decide) rfl
theorem nop (f : FOps) : Statement (.nop f) := of_word00 (op := 0x1C9) _ _ rfl rfl rfl (by decide) rfl
theorem yield (f : FOps) : Statement (.yield f) := of_word00 (op := 0x1CA) _ _ rfl rfl rfl (by decide) rfl
theorem trap (f : FOps) : Statement (.trap f) := of_word00 (op := 0x1CB) _ _ rfl rfl rfl (by decide) rfl
theorem brk (f : FOps) : Statement (.brk f) := of_word00 (op := 0x1CC) _ _ rfl rfl rfl (by decide) rfl
theorem sleep (f : FOps) : Statement (.sleep f) := of_word00 (op := 0x1CD) _ _ rfl rfl rfl (by decide) rfl
theorem sleepUntil (f : FOps) : Statement (.sleepUntil f) := of_word00 (op := 0x1CD) _ _ rfl rfl rfl (by decide) rfl
theorem spawn (f : FOps) : Statement (.spawn f) := of_word00 (op := 0x200) _ _ rfl rfl rfl (by decide) rfl
theorem binflush (u : UOps) : Statement (.binflush u) := of_word00 (op := 0x201) _ _ rfl rfl rfl (by decide) rfl
theorem binflushLabel (u : UOps) : Statement (.binflushLabel u) :=
  of_word00 (op := 0x201) _ _ rfl rfl rfl (by decide) rfl
theorem launch (u : UOps) : Statement (.launch u) := of_word00 (op := 0x202) _ _ rfl rfl rfl (by decide) rfl
theorem lwait (u : UOps) : Statement (.lwait u) := of_word00 (op := 0x203) _ _ rfl rfl rfl (by decide) rfl
theorem fetchw (u : UOps) : Statement (.fetchw u) := of_word00 (op := 0x204) _ _ rfl rfl rfl (by decide) rfl
theorem prio (u : UOps) : Statement (.prio u) := of_word00 (op := 0x205) _ _ rfl rfl rfl (by decide) rfl
theorem ld (m : MOps) : Statement (.ld m) := of_word00 (op := 0x240) _ _ rfl rfl rfl (by decide) rfl
theorem st (m : MOps) : Statement (.st m) := of_word00 (op := 0x241) _ _ rfl rfl rfl (by decide) rfl
theorem ldc (m : MOps) : Statement (.ldc m) := of_word00 (op := 0x242) _ _ rfl rfl rfl (by decide) rfl
theorem stc (m : MOps) : Statement (.stc m) := of_word00 (op := 0x243) _ _ rfl rfl rfl (by decide) rfl
theorem pf (m : MOps) : Statement (.pf m) := of_word00 (op := 0x244) _ _ rfl rfl rfl (by decide) rfl
theorem cbnd (f : FOps) : Statement (.cbnd f) := of_word00 (op := 0x245) _ _ rfl rfl rfl (by decide) rfl
theorem cperm (f : FOps) : Statement (.cperm f) := of_word00 (op := 0x246) _ _ rfl rfl rfl (by decide) rfl
theorem ctest (f : FOps) : Statement (.ctest f) := of_word00 (op := 0x247) _ _ rfl rfl rfl (by decide) rfl
theorem cmov (f : FOps) : Statement (.cmov f) := of_word00 (op := 0x248) _ _ rfl rfl rfl (by decide) rfl
theorem cfromh (f : FOps) : Statement (.cfromh f) := of_word00 (op := 0x249) _ _ rfl rfl rfl (by decide) rfl
theorem atom (m : MOps) : Statement (.atom m) := of_word00 (op := 0x280) _ _ rfl rfl rfl (by decide) rfl
theorem red (m : MOps) : Statement (.red m) := of_word00 (op := 0x281) _ _ rfl rfl rfl (by decide) rfl
theorem cas (m : MOps) : Statement (.cas m) := of_word00 (op := 0x282) _ _ rfl rfl rfl (by decide) rfl
theorem dcas (m : MOps) : Statement (.dcas m) := of_word00 (op := 0x283) _ _ rfl rfl rfl (by decide) rfl
theorem atom2 (m : MOps) : Statement (.atom2 m) := of_word00 (op := 0x284) _ _ rfl rfl rfl (by decide) rfl
theorem amov2 (m : MOps) : Statement (.amov2 m) := of_word00 (op := 0x285) _ _ rfl rfl rfl (by decide) rfl
theorem lres (m : MOps) : Statement (.lres m) := of_word00 (op := 0x286) _ _ rfl rfl rfl (by decide) rfl
theorem scond (m : MOps) : Statement (.scond m) := of_word00 (op := 0x287) _ _ rfl rfl rfl (by decide) rfl
theorem fence (u : UOps) : Statement (.fence u) := of_word00 (op := 0x288) _ _ rfl rfl rfl (by decide) rfl
theorem fenceSc (u : UOps) : Statement (.fenceSc u) := of_word00 (op := 0x288) _ _ rfl rfl rfl (by decide) rfl
theorem acqr (u : UOps) : Statement (.acqr u) := of_word00 (op := 0x289) _ _ rfl rfl rfl (by decide) rfl
theorem barSync (u : UOps) : Statement (.barSync u) := of_word00 (op := 0x28A) _ _ rfl rfl rfl (by decide) rfl
theorem barArrive (u : UOps) : Statement (.barArrive u) := of_word00 (op := 0x28A) _ _ rfl rfl rfl (by decide) rfl
theorem barWait (u : UOps) : Statement (.barWait u) := of_word00 (op := 0x28A) _ _ rfl rfl rfl (by decide) rfl
theorem mon (m : MOps) : Statement (.mon m) := of_word00 (op := 0x28B) _ _ rfl rfl rfl (by decide) rfl
theorem mwait (u : UOps) : Statement (.mwait u) := of_word00 (op := 0x28C) _ _ rfl rfl rfl (by decide) rfl
theorem ropenWave (u : UOps) : Statement (.ropenWave u) := of_word00 (op := 0x2C0) _ _ rfl rfl rfl (by decide) rfl
theorem ropenBlk (u : UOps) : Statement (.ropenBlk u) := of_word00 (op := 0x2C0) _ _ rfl rfl rfl (by decide) rfl
theorem rcommitWave (u : UOps) : Statement (.rcommitWave u) := of_word00 (op := 0x2C1) _ _ rfl rfl rfl (by decide) rfl
theorem rcommitBlk (u : UOps) : Statement (.rcommitBlk u) := of_word00 (op := 0x2C1) _ _ rfl rfl rfl (by decide) rfl
theorem rabortWave (u : UOps) : Statement (.rabortWave u) := of_word00 (op := 0x2C2) _ _ rfl rfl rfl (by decide) rfl
theorem rabortBlk (u : UOps) : Statement (.rabortBlk u) := of_word00 (op := 0x2C2) _ _ rfl rfl rfl (by decide) rfl
theorem rstat (u : UOps) : Statement (.rstat u) := of_word00 (op := 0x2C3) _ _ rfl rfl rfl (by decide) rfl
theorem ship (m : MOps) : Statement (.ship m) := of_word00 (op := 0x2E0) _ _ rfl rfl rfl (by decide) rfl
theorem shipt (m : MOps) : Statement (.shipt m) := of_word00 (op := 0x2E1) _ _ rfl rfl rfl (by decide) rfl
theorem shipp (m : MOps) : Statement (.shipp m) := of_word00 (op := 0x2E2) _ _ rfl rfl rfl (by decide) rfl
theorem shwait (u : UOps) : Statement (.shwait u) := of_word00 (op := 0x2E3) _ _ rfl rfl rfl (by decide) rfl
theorem shtest (u : UOps) : Statement (.shtest u) := of_word00 (op := 0x2E4) _ _ rfl rfl rfl (by decide) rfl
theorem shret (f : FOps) : Statement (.shret f) := of_word00 (op := 0x2E5) _ _ rfl rfl rfl (by decide) rfl
theorem homeof (m : MOps) : Statement (.homeof m) := of_word00 (op := 0x2E6) _ _ rfl rfl rfl (by decide) rfl
theorem pushCopy (u : UOps) : Statement (.pushCopy u) := of_word00 (op := 0x300) _ _ rfl rfl rfl (by decide) rfl
theorem pushFab (u : UOps) : Statement (.pushFab u) := of_word00 (op := 0x300) _ _ rfl rfl rfl (by decide) rfl
theorem wait (u : UOps) : Statement (.wait u) := of_word00 (op := 0x301) _ _ rfl rfl rfl (by decide) rfl
theorem gset (u : UOps) : Statement (.gset u) := of_word00 (op := 0x302) _ _ rfl rfl rfl (by decide) rfl
theorem gbind (u : UOps) : Statement (.gbind u) := of_word00 (op := 0x303) _ _ rfl rfl rfl (by decide) rfl
theorem rfence (u : UOps) : Statement (.rfence u) := of_word00 (op := 0x304) _ _ rfl rfl rfl (by decide) rfl
theorem ocrd (u : UOps) : Statement (.ocrd u) := of_word00 (op := 0x305) _ _ rfl rfl rfl (by decide) rfl
theorem vdopen (u : UOps) : Statement (.vdopen u) := of_word00 (op := 0x320) _ _ rfl rfl rfl (by decide) rfl
theorem vdacc (f : FOps) : Statement (.vdacc f) := of_word00 (op := 0x321) _ _ rfl rfl rfl (by decide) rfl
theorem vdend (u : UOps) : Statement (.vdend u) := of_word00 (op := 0x322) _ _ rfl rfl rfl (by decide) rfl
theorem vdtest (f : FOps) : Statement (.vdtest f) := of_word00 (op := 0x323) _ _ rfl rfl rfl (by decide) rfl
theorem thmax (m : MOps) : Statement (.thmax m) := of_word00 (op := 0x324) _ _ rfl rfl rfl (by decide) rfl
theorem vdstat (u : UOps) : Statement (.vdstat u) := of_word00 (op := 0x325) _ _ rfl rfl rfl (by decide) rfl
theorem pgbind (u : UOps) : Statement (.pgbind u) := of_word00 (op := 0x340) _ _ rfl rfl rfl (by decide) rfl
theorem pgnext (f : FOps) : Statement (.pgnext f) := of_word00 (op := 0x341) _ _ rfl rfl rfl (by decide) rfl
theorem pgnextt (f : FOps) : Statement (.pgnextt f) := of_word00 (op := 0x342) _ _ rfl rfl rfl (by decide) rfl
theorem pgsave (u : UOps) : Statement (.pgsave u) := of_word00 (op := 0x343) _ _ rfl rfl rfl (by decide) rfl
theorem pgrest (u : UOps) : Statement (.pgrest u) := of_word00 (op := 0x344) _ _ rfl rfl rfl (by decide) rfl
theorem sopen (m : MOps) : Statement (.sopen m) := of_word00 (op := 0x345) _ _ rfl rfl rfl (by decide) rfl
theorem sopenRd (m : MOps) : Statement (.sopenRd m) := of_word00 (op := 0x345) _ _ rfl rfl rfl (by decide) rfl
theorem sisect (u : UOps) : Statement (.sisect u) := of_word00 (op := 0x346) _ _ rfl rfl rfl (by decide) rfl
theorem sunion (u : UOps) : Statement (.sunion u) := of_word00 (op := 0x347) _ _ rfl rfl rfl (by decide) rfl
theorem sdiff (u : UOps) : Statement (.sdiff u) := of_word00 (op := 0x348) _ _ rfl rfl rfl (by decide) rfl
theorem smerge (u : UOps) : Statement (.smerge u) := of_word00 (op := 0x349) _ _ rfl rfl rfl (by decide) rfl
theorem spart (u : UOps) : Statement (.spart u) := of_word00 (op := 0x34A) _ _ rfl rfl rfl (by decide) rfl
theorem sclose (u : UOps) : Statement (.sclose u) := of_word00 (op := 0x34B) _ _ rfl rfl rfl (by decide) rfl
theorem tctl (x : XOps) : Statement (.tctl x) := of_word00 (op := 0x380) _ _ rfl rfl rfl (by decide) rfl
theorem tctlR (x : XOps) : Statement (.tctlR x) := of_word00 (op := 0x380) _ _ rfl rfl rfl (by decide) rfl
theorem tld (x : XOps) : Statement (.tld x) := of_word00 (op := 0x381) _ _ rfl rfl rfl (by decide) rfl
theorem tst (x : XOps) : Statement (.tst x) := of_word00 (op := 0x382) _ _ rfl rfl rfl (by decide) rfl
theorem tzero (x : XOps) : Statement (.tzero x) := of_word00 (op := 0x383) _ _ rfl rfl rfl (by decide) rfl
theorem tmma (x : XOps) : Statement (.tmma x) := of_word00 (op := 0x384) _ _ rfl rfl rfl (by decide) rfl
theorem tmmas (x : XOps) : Statement (.tmmas x) := of_word00 (op := 0x385) _ _ rfl rfl rfl (by decide) rfl
theorem tmmacb (x : XOps) : Statement (.tmmacb x) := of_word00 (op := 0x386) _ _ rfl rfl rfl (by decide) rfl
theorem tmmasp (x : XOps) : Statement (.tmmasp x) := of_word00 (op := 0x387) _ _ rfl rfl rfl (by decide) rfl
theorem tcvt (x : XOps) : Statement (.tcvt x) := of_word00 (op := 0x388) _ _ rfl rfl rfl (by decide) rfl
theorem tmov (x : XOps) : Statement (.tmov x) := of_word00 (op := 0x389) _ _ rfl rfl rfl (by decide) rfl
theorem tew (x : XOps) : Statement (.tew x) := of_word00 (op := 0x38A) _ _ rfl rfl rfl (by decide) rfl
theorem mbar (x : XOps) : Statement (.mbar x) := of_word00 (op := 0x38B) _ _ rfl rfl rfl (by decide) rfl
theorem madd (x : XOps) : Statement (.madd x) := of_word00 (op := 0x38C) _ _ rfl rfl rfl (by decide) rfl
theorem mmovi (x : MMovi) : Statement (.mmovi x) := of_word00 (op := 0x38D) _ _ rfl rfl rfl (by decide) rfl
theorem mbr (x : XOps) : Statement (.mbr x) := of_word00 (op := 0x38E) _ _ rfl rfl rfl (by decide) rfl
theorem mloop (x : XOps) : Statement (.mloop x) := of_word00 (op := 0x38F) _ _ rfl rfl rfl (by decide) rfl
theorem mend (x : XOps) : Statement (.mend x) := of_word00 (op := 0x390) _ _ rfl rfl rfl (by decide) rfl
theorem mfrom (x : XOps) : Statement (.mfrom x) := of_word00 (op := 0x391) _ _ rfl rfl rfl (by decide) rfl
theorem fst (m : MOps) : Statement (.fst m) := of_word00 (op := 0x3C0) _ _ rfl rfl rfl (by decide) rfl
theorem fld (m : MOps) : Statement (.fld m) := of_word00 (op := 0x3C1) _ _ rfl rfl rfl (by decide) rfl
theorem fatom (m : MOps) : Statement (.fatom m) := of_word00 (op := 0x3C2) _ _ rfl rfl rfl (by decide) rfl
theorem fflag (m : MOps) : Statement (.fflag m) := of_word00 (op := 0x3C3) _ _ rfl rfl rfl (by decide) rfl
theorem ffence (u : UOps) : Statement (.ffence u) := of_word00 (op := 0x3C4) _ _ rfl rfl rfl (by decide) rfl
theorem blstat (u : UOps) : Statement (.blstat u) := of_word00 (op := 0x3C5) _ _ rfl rfl rfl (by decide) rfl
theorem rdsr (u : UOps) : Statement (.rdsr u) := of_word00 (op := 0x3D0) _ _ rfl rfl rfl (by decide) rfl
theorem wrsr (u : UOps) : Statement (.wrsr u) := of_word00 (op := 0x3D1) _ _ rfl rfl rfl (by decide) rfl
theorem tret (u : UOps) : Statement (.tret u) := of_word00 (op := 0x3D2) _ _ rfl rfl rfl (by decide) rfl
theorem tretMig (u : UOps) : Statement (.tretMig u) := of_word00 (op := 0x3D2) _ _ rfl rfl rfl (by decide) rfl
theorem tlbinv (u : UOps) : Statement (.tlbinv u) := of_word00 (op := 0x3D3) _ _ rfl rfl rfl (by decide) rfl
theorem tlbinvAll (u : UOps) : Statement (.tlbinvAll u) := of_word00 (op := 0x3D3) _ _ rfl rfl rfl (by decide) rfl
theorem pgclass (m : MOps) : Statement (.pgclass m) := of_word00 (op := 0x3D4) _ _ rfl rfl rfl (by decide) rfl
theorem cachewb (m : MOps) : Statement (.cachewb m) := of_word00 (op := 0x3D5) _ _ rfl rfl rfl (by decide) rfl
theorem cachewbPg (m : MOps) : Statement (.cachewbPg m) := of_word00 (op := 0x3D5) _ _ rfl rfl rfl (by decide) rfl
theorem halt (u : UOps) : Statement (.halt u) := of_word00 (op := 0x3D6) _ _ rfl rfl rfl (by decide) rfl
theorem pageWalkDone (core port : Nat) (va : DWord) : Statement (.pageWalkDone core port va) := of_none rfl rfl
theorem accessPerformed (id : Nat) : Statement (.accessPerformed id) := of_none rfl rfl
theorem storeQueueDrain (core idx : Nat) : Statement (.storeQueueDrain core idx) := of_none rfl rfl
theorem mwaitWake (w lane : Nat) : Statement (.mwaitWake w lane) := of_none rfl rfl
theorem mwaitTimeout (w lane : Nat) : Statement (.mwaitTimeout w lane) := of_none rfl rfl
theorem fenceScTick (w : Nat) : Statement (.fenceScTick w) := of_none rfl rfl
theorem sleepDeadline (w lane : Nat) : Statement (.sleepDeadline w lane) := of_none rfl rfl
theorem runStart (core quad : Nat) : Statement (.runStart core quad) := of_none rfl rfl
theorem parentUnwind (w : Nat) : Statement (.parentUnwind w) := of_none rfl rfl
theorem launchSlotGo (port slot : Nat) (prio : BitVec 3) : Statement (.launchSlotGo port slot prio) := of_none rfl rfl
theorem lsresRead (port slot : Nat) : Statement (.lsresRead port slot) := of_none rfl rfl
theorem launchAccept (port slot : Nat) : Statement (.launchAccept port slot) := of_none rfl rfl
theorem launchComplete (lid : Nat) : Statement (.launchComplete lid) := of_none rfl rfl
theorem lwaitRelease (w lane : Nat) : Statement (.lwaitRelease w lane) := of_none rfl rfl
theorem blockPlace : Statement .blockPlace := of_none rfl rfl
theorem launchReserving (lid : Nat) : Statement (.launchReserving lid) := of_none rfl rfl
theorem blockStart (b : Nat) : Statement (.blockStart b) := of_none rfl rfl
theorem waveContextFree (w : Nat) : Statement (.waveContextFree w) := of_none rfl rfl
theorem blockEnd (b : Nat) : Statement (.blockEnd b) := of_none rfl rfl
theorem blockRetire (b : Nat) : Statement (.blockRetire b) := of_none rfl rfl
theorem waveSave (w : Nat) : Statement (.waveSave w) := of_none rfl rfl
theorem waveResume (w core : Nat) : Statement (.waveResume w core) := of_none rfl rfl
theorem binTimerSeal (core bin : Nat) : Statement (.binTimerSeal core bin) := of_none rfl rfl
theorem binStart (core bin : Nat) : Statement (.binStart core bin) := of_none rfl rfl
theorem binOffer (core bin : Nat) : Statement (.binOffer core bin) := of_none rfl rfl
theorem fetchwAnswer (core : Nat) : Statement (.fetchwAnswer core) := of_none rfl rfl
theorem heldCommandSchedule (cmd : Nat) : Statement (.heldCommandSchedule cmd) := of_none rfl rfl
theorem tcopy (cmd : Nat) : Statement (.tcopy cmd) := of_none rfl rfl
theorem fill (cmd : Nat) : Statement (.fill cmd) := of_none rfl rfl
theorem ccopy (cmd : Nat) : Statement (.ccopy cmd) := of_none rfl rfl
theorem rgather (cmd : Nat) : Statement (.rgather cmd) := of_none rfl rfl
theorem fput (cmd : Nat) : Statement (.fput cmd) := of_none rfl rfl
theorem collAllred (cmd : Nat) : Statement (.collAllred cmd) := of_none rfl rfl
theorem collGather (cmd : Nat) : Statement (.collGather cmd) := of_none rfl rfl
theorem collBcast (cmd : Nat) : Statement (.collBcast cmd) := of_none rfl rfl
theorem collMark (cmd : Nat) : Statement (.collMark cmd) := of_none rfl rfl
theorem commandComplete (cmd : Nat) : Statement (.commandComplete cmd) := of_none rfl rfl
theorem waitDeadlineLate (w lane : Nat) : Statement (.waitDeadlineLate w lane) := of_none rfl rfl
theorem tileOpComplete (b : Nat) : Statement (.tileOpComplete b) := of_none rfl rfl
theorem streamOpComplete (w : Nat) : Statement (.streamOpComplete w) := of_none rfl rfl
theorem homeAcceptBundle (src : BundleSrc) : Statement (.homeAcceptBundle src) := of_none rfl rfl
theorem bundleReoffer (id : Nat) : Statement (.bundleReoffer id) := of_none rfl rfl
theorem sectionStart (lcore : Nat) : Statement (.sectionStart lcore) := of_none rfl rfl
theorem sectionResume (lcore w : Nat) : Statement (.sectionResume lcore w) := of_none rfl rfl
theorem sectionOverrun (w : Nat) : Statement (.sectionOverrun w) := of_none rfl rfl
theorem replyArrive (src : ReplySrc) : Statement (.replyArrive src) := of_none rfl rfl
theorem shwaitLate (w lane : Nat) : Statement (.shwaitLate w lane) := of_none rfl rfl
theorem homeLoss (lcore : Nat) : Statement (.homeLoss lcore) := of_none rfl rfl
theorem homeTableWrite (global : Bool) (idx : Nat) (entry : Word) : Statement (.homeTableWrite global idx entry) :=
  of_none rfl rfl
theorem fabricPacketArrive (src : PacketSrc) : Statement (.fabricPacketArrive src) := of_none rfl rfl
theorem fabricAck (id : Nat) (res : Option PacketResult) : Statement (.fabricAck id res) := of_none rfl rfl
theorem orderedFlagApply (idx : Nat) : Statement (.orderedFlagApply idx) := of_none rfl rfl
theorem flitCrcFail (flit : FlitFail) : Statement (.flitCrcFail flit) := of_none rfl rfl
theorem linkFail (link : Nat) : Statement (.linkFail link) := of_none rfl rfl
theorem collContributionArrive (c : Contribution) : Statement (.collContributionArrive c) := of_none rfl rfl
theorem collResultArrive (r : CollResult) : Statement (.collResultArrive r) := of_none rfl rfl
theorem memberDeclareDead (blend member : Nat) : Statement (.memberDeclareDead blend member) := of_none rfl rfl
theorem spareJoin (blend slot pkg : Nat) : Statement (.spareJoin blend slot pkg) := of_none rfl rfl
theorem spareLive (blend slot : Nat) : Statement (.spareLive blend slot) := of_none rfl rfl
theorem uncorrectableError (e : ErrorReport) : Statement (.uncorrectableError e) := of_none rfl rfl
theorem firmwareDecision (cluster : Nat) (ds : List (Nat × Byte)) : Statement (.firmwareDecision cluster ds) :=
  of_none rfl rfl
theorem decisionDefault (cluster : Nat) : Statement (.decisionDefault cluster) := of_none rfl rfl
theorem timingReplay (core quad : Nat) : Statement (.timingReplay core quad) := of_none rfl rfl
theorem firmwarePageResume (port : Nat) (page : Absence) (leaf : Option DWord) : Statement (.firmwarePageResume port page leaf) :=
  of_none rfl rfl
theorem firmwareDeliverFault (port : Nat) (page : Absence) : Statement (.firmwareDeliverFault port page) :=
  of_none rfl rfl
theorem setSamplingExponent (core : Nat) (k : Option Nat) : Statement (.setSamplingExponent core k) := of_none rfl rfl
theorem setBlockWindow (core win : Nat) : Statement (.setBlockWindow core win) := of_none rfl rfl
theorem physicalAccess (a : PhysAccess) : Statement (.physicalAccess a) := of_none rfl rfl
theorem hostApertureRead (port off n : Nat) : Statement (.hostApertureRead port off n) := of_none rfl rfl
theorem hostApertureWrite (port off : Nat) (bytes : List Byte) : Statement (.hostApertureWrite port off bytes) :=
  of_none rfl rfl
theorem functionLevelReset (port : Nat) : Statement (.functionLevelReset port) := of_none rfl rfl
theorem brkrel (port : Nat) : Statement (.brkrel port) := of_none rfl rfl
theorem registerWrite (r : RegName) (value : DWord) : Statement (.registerWrite r value) := of_none rfl rfl
theorem powerWindow (watts : Nat) : Statement (.powerWindow watts) := of_none rfl rfl
theorem thermalTrip : Statement .thermalTrip := of_none rfl rfl
theorem thermalShutdown : Statement .thermalShutdown := of_none rfl rfl
theorem powerGood : Statement .powerGood := of_none rfl rfl
theorem fuseRead (f : Fuses) : Statement (.fuseRead f) := of_none rfl rfl
theorem sramRepairTest (failed : List (Nat × Word)) (dead : List Nat) : Statement (.sramRepairTest failed dead) :=
  of_none rfl rfl
theorem memoryTraining (ok : Bool) : Statement (.memoryTraining ok) := of_none rfl rfl
theorem firmwareAuthentication (flash : Option FlashImage) : Statement (.firmwareAuthentication flash) :=
  of_none rfl rfl
theorem fabricLinkTraining (linkUp required : List Nat) : Statement (.fabricLinkTraining linkUp required) :=
  of_none rfl rfl
theorem wakeUpNoStatedCause (w lane : Nat) : Statement (.wakeUpNoStatedCause w lane) := of_none rfl rfl
theorem reservationHeld1024Clk (w lane : Nat) : Statement (.reservationHeld1024Clk w lane) := of_none rfl rfl
theorem firmwareUnfreeze (limit : Nat) : Statement (.firmwareUnfreeze limit) := of_none rfl rfl
theorem packageReset : Statement .packageReset := of_none rfl rfl
theorem unitRetirement (core : Nat) (mask : Word) : Statement (.unitRetirement core mask) := of_none rfl rfl
theorem privilegedLaunchSubmit (port : Nat) (addr : DWord) (prio : BitVec 3) : Statement (.privilegedLaunchSubmit port addr prio) :=
  of_none rfl rfl

end Sys2Proof.Laws.Words
end

