-- ==== Sys2Proof/Laws/Results.lean ====
section
/-!
SUPPORT. What writing a result leaves of a thread (R32, R90, R153): one lemma for each kind of destination.
-/
namespace Sys2Proof.Machine

theorem quadTag_setV (t : Thread) {r q : Nat} (x : Word) (hq : q % 4 = 0) (h : ∀ k, k < 4 → q + k ≠ r) :
    (t.setV r x).quadTag q = t.quadTag q := by
  have hne : q ≠ r / 4 * 4 := by
    intro e
    exact h (r % 4) (Nat.mod_lt _ (by omega)) (by omega)
  have hc : ∀ (l : List Nat), (l.filter fun a => decide (a ≠ r / 4 * 4)).contains q = l.contains q := by
    intro l
    induction l with
    | nil => rfl
    | cons a l ih =>
      by_cases ha : a = r / 4 * 4
      · have : ¬ q = a := fun e => hne (e.trans ha)
        simp [ha, hne]
      · simp [ha, hne]
  exact hc t.qtag

/-- A thread that issues keeps everything. -/
theorem keeps_issued (th : Thread) (d : Dest) : th.keeps { th with yd := false, resume := 0 } d :=
  ⟨rfl, fun _ _ => ⟨rfl, fun _ _ => rfl⟩, fun _ _ => rfl, fun _ _ => rfl, fun _ => rfl⟩

/-- A vector register written. -/
theorem keeps_setV {a b : Thread} {d : Dest} {r : Nat} {x : Word} (h : a.keeps b d) (hr : r ∈ d.v) : a.keeps (b.setV r x) d := by
  obtain ⟨h1, h2, h3, h4, h5⟩ := h
  refine ⟨h1, fun k hk => ?_, h3, h4, h5⟩
  have hne : k ≠ r := fun e => hk (e ▸ hr)
  refine ⟨by rw [Thread.getV_setV_other _ _ hne]; exact (h2 k hk).1, fun hq hall => ?_⟩
  rw [quadTag_setV b x hq fun j hj e => hall j hj (e ▸ hr)]
  exact (h2 k hk).2 hq hall

/-- A latch written. -/
theorem keeps_setLat {a b : Thread} {d : Dest} {k : BitVec 2} {x : Word} (h : a.keeps b d) : a.keeps (b.setLat k x) d := by
  unfold Thread.setLat
  split
  · exact h
  · exact h

/-- A predicate written. -/
theorem keeps_setP {a b : Thread} {d : Dest} {k : Nat} {x : Bool} (h : a.keeps b d) (hk : k ∈ d.p) : a.keeps (b.setP k x) d := by
  obtain ⟨h1, h2, h3, h4, h5⟩ := h
  unfold Thread.setP
  split
  · exact ⟨h1, h2, h3, h4, h5⟩
  · refine ⟨h1, h2, fun j hj => ?_, h4, h5⟩
    rw [← h3 j hj]
    have hne : j ≠ k := fun e => hj (e ▸ hk)
    have hbit : (BitVec.ofNat 8 (2 ^ k)).getLsbD j = false := by
      rw [BitVec.getLsbD_ofNat, Nat.testBit_two_pow_of_ne (Ne.symm hne), Bool.and_false]
    by_cases hj8 : j < 8
    · cases x
      · simp only [Thread.getP, BitVec.getLsbD_and, BitVec.getLsbD_not, hbit, hj8, decide_true, Bool.not_false, Bool.and_true, Bool.false_eq_true, if_false]
      · simp only [Thread.getP, BitVec.getLsbD_or, hbit, Bool.or_false, if_true]
    · have hge : ∀ y : BitVec 8, y.getLsbD j = false := fun y => BitVec.getLsbD_of_ge y j (by omega)
      simp only [Thread.getP, hge]

/-- Flags set. -/
theorem keeps_flag {a b : Thread} {d : Dest} {n : Nat} (h : a.keeps b d) (hf : d.flags = true) : a.keeps (b.flag n) d := by
  obtain ⟨h1, h2, h3, h4, _⟩ := h
  exact ⟨h1, h2, h3, h4, fun e => absurd (hf.symm.trans e) (by decide)⟩

/-- The result of a form F word. -/
theorem keeps_result {a b : Thread} {f : FOps} {x : Word} {fl : Bool} (h : a.keeps b (Dest.vec f fl)) :
    a.keeps (b.result f x) (Dest.vec f fl) := by
  unfold Thread.result
  refine keeps_setLat ?_
  split
  · exact h
  · rename_i hw
    exact keeps_setV h (by simp [Dest.vec, hw])

theorem latLive_setLat (t : Thread) {j : BitVec 2} (k : BitVec 2) (x : Word) (h : j ≠ 0) :
    (t.setLat j x).latLive k = (k == j || t.latLive k) := by
  unfold Thread.setLat Thread.latLive
  rw [if_neg h]
  show (k != 0 && (t.latv ||| BitVec.ofNat 3 (2 ^ (j.toNat - 1))).getLsbD (k.toNat - 1)) = (k == j || (k != 0 && t.latv.getLsbD (k.toNat - 1)))
  generalize t.latv = m
  revert j k m
  decide

/-- The latch of a result is live, every other one is as before (R32, R33). -/
theorem carries_result {a b : Thread} (f : FOps) (x : Word) (fl : Bool)
    (h : ∀ k : BitVec 2, b.latLive k = a.latLive k ∧ rget b.lat k.toNat = rget a.lat k.toNat) :
    a.carries (b.result f x) (Dest.vec f fl) := by
  unfold Thread.result
  generalize hb : (if f.w then b else b.setV f.d.toNat x) = c
  have hc : ∀ k : BitVec 2, c.latLive k = a.latLive k ∧ rget c.lat k.toNat = rget a.lat k.toNat := by
    subst hb
    split <;> exact h
  by_cases hl : f.l = 0
  · have e : (Dest.vec f fl).l = [] := if_pos hl
    have e' : c.setLat f.l x = c := if_pos hl
    rw [Thread.carries, e, e']
    exact ⟨fun k _ => hc k, fun k hk => absurd hk (by simp)⟩
  · have e : (Dest.vec f fl).l = [f.l] := if_neg hl
    rw [Thread.carries, e]
    refine ⟨fun k hk => ?_, fun k hk => ?_⟩
    · have hne : k ≠ f.l := by simpa using hk
      rw [latLive_setLat c k x hl, beq_eq_false_iff_ne.mpr hne, Bool.false_or, ← (hc k).1, ← (hc k).2]
      refine ⟨rfl, ?_⟩
      unfold Thread.setLat
      rw [if_neg hl]
      exact rget_rset_other _ _ fun e => hne (BitVec.eq_of_toNat_eq e)
    · have hk' : k = f.l := by simpa using hk
      rw [latLive_setLat c k x hl, hk', beq_self_eq_true, Bool.true_or]

theorem result_pc (t : Thread) (f : FOps) (x : Word) : (t.result f x).pc = t.pc := by
  unfold Thread.result Thread.setLat
  split <;> split <;> rfl

/-- Where the result of a form F word can be read while the run goes on, and after it. -/
theorem gives_result (t : Thread) (f : FOps) (x : Word) : gives f x (t.result f x).next ∧ gives f x (t.result f x).next.dropLat := by
  have hv : f.w = false → (t.result f x).getV f.d.toNat = x := by
    intro hw
    simp [Thread.result, hw]
  refine ⟨⟨hv, fun hl _ => ?_⟩, ⟨hv, fun _ h => absurd h (by simp [Thread.latLive, Thread.dropLat])⟩⟩
  show rget (t.result f x).lat f.l.toNat = x
  unfold Thread.result Thread.setLat
  rw [if_neg hl]
  exact rget_rset_same _ _ _

end Sys2Proof.Machine
end

