-- ==== Sys2Proof/Laws/State.lean ====
section
/-!
SUPPORT. What the named updates of a state, a wave and a thread leave alone: one lemma for each field and update, true by
unfolding the record update.
-/
namespace Sys2Proof.Machine

/-! ### State.modCore -/

@[simp] theorem State.modCore_clk (s : State) (n : Nat) (g : Core → Core) : (s.modCore n g).clk = s.clk := rfl
@[simp] theorem State.modCore_phase (s : State) (n : Nat) (g : Core → Core) : (s.modCore n g).phase = s.phase := rfl
@[simp] theorem State.modCore_fail (s : State) (n : Nat) (g : Core → Core) : (s.modCore n g).fail = s.fail := rfl
@[simp] theorem State.modCore_fcode (s : State) (n : Nat) (g : Core → Core) : (s.modCore n g).fcode = s.fcode := rfl
@[simp] theorem State.modCore_config (s : State) (n : Nat) (g : Core → Core) : (s.modCore n g).config = s.config := rfl
@[simp] theorem State.modCore_ident (s : State) (n : Nat) (g : Core → Core) : (s.modCore n g).ident = s.ident := rfl
@[simp] theorem State.modCore_mhz (s : State) (n : Nat) (g : Core → Core) : (s.modCore n g).mhz = s.mhz := rfl
@[simp] theorem State.modCore_limit (s : State) (n : Nat) (g : Core → Core) : (s.modCore n g).limit = s.limit := rfl
@[simp] theorem State.modCore_ceiling (s : State) (n : Nat) (g : Core → Core) : (s.modCore n g).ceiling = s.ceiling := rfl
@[simp] theorem State.modCore_overBudget (s : State) (n : Nat) (g : Core → Core) : (s.modCore n g).overBudget = s.overBudget := rfl
@[simp] theorem State.modCore_windowsDone (s : State) (n : Nat) (g : Core → Core) : (s.modCore n g).windowsDone = s.windowsDone := rfl
@[simp] theorem State.modCore_repair (s : State) (n : Nat) (g : Core → Core) : (s.modCore n g).repair = s.repair := rfl
@[simp] theorem State.modCore_keyHash (s : State) (n : Nat) (g : Core → Core) : (s.modCore n g).keyHash = s.keyHash := rfl
@[simp] theorem State.modCore_minVersion (s : State) (n : Nat) (g : Core → Core) : (s.modCore n g).minVersion = s.minVersion := rfl
@[simp] theorem State.modCore_firmware (s : State) (n : Nat) (g : Core → Core) : (s.modCore n g).firmware = s.firmware := rfl
@[simp] theorem State.modCore_deadCores (s : State) (n : Nat) (g : Core → Core) : (s.modCore n g).deadCores = s.deadCores := rfl
@[simp] theorem State.modCore_powerEvents (s : State) (n : Nat) (g : Core → Core) : (s.modCore n g).powerEvents = s.powerEvents := rfl
@[simp] theorem State.modCore_thermalEvents (s : State) (n : Nat) (g : Core → Core) : (s.modCore n g).thermalEvents = s.thermalEvents := rfl
@[simp] theorem State.modCore_shutdown (s : State) (n : Nat) (g : Core → Core) : (s.modCore n g).shutdown = s.shutdown := rfl
@[simp] theorem State.modCore_mem (s : State) (n : Nat) (g : Core → Core) : (s.modCore n g).mem = s.mem := rfl
@[simp] theorem State.modCore_tags (s : State) (n : Nat) (g : Core → Core) : (s.modCore n g).tags = s.tags := rfl
@[simp] theorem State.modCore_bad (s : State) (n : Nat) (g : Core → Core) : (s.modCore n g).bad = s.bad := rfl
@[simp] theorem State.modCore_swm (s : State) (n : Nat) (g : Core → Core) : (s.modCore n g).swm = s.swm := rfl
@[simp] theorem State.modCore_homeL (s : State) (n : Nat) (g : Core → Core) : (s.modCore n g).homeL = s.homeL := rfl
@[simp] theorem State.modCore_homeG (s : State) (n : Nat) (g : Core → Core) : (s.modCore n g).homeG = s.homeG := rfl
@[simp] theorem State.modCore_blends (s : State) (n : Nat) (g : Core → Core) : (s.modCore n g).blends = s.blends := rfl
@[simp] theorem State.modCore_colls (s : State) (n : Nat) (g : Core → Core) : (s.modCore n g).colls = s.colls := rfl
@[simp] theorem State.modCore_outbox (s : State) (n : Nat) (g : Core → Core) : (s.modCore n g).outbox = s.outbox := rfl
@[simp] theorem State.modCore_poisons (s : State) (n : Nat) (g : Core → Core) : (s.modCore n g).poisons = s.poisons := rfl
@[simp] theorem State.modCore_decided (s : State) (n : Nat) (g : Core → Core) : (s.modCore n g).decided = s.decided := rfl
@[simp] theorem State.modCore_lcores (s : State) (n : Nat) (g : Core → Core) : (s.modCore n g).lcores = s.lcores := rfl
@[simp] theorem State.modCore_dies (s : State) (n : Nat) (g : Core → Core) : (s.modCore n g).dies = s.dies := rfl
@[simp] theorem State.modCore_clusters (s : State) (n : Nat) (g : Core → Core) : (s.modCore n g).clusters = s.clusters := rfl
@[simp] theorem State.modCore_ports (s : State) (n : Nat) (g : Core → Core) : (s.modCore n g).ports = s.ports := rfl
@[simp] theorem State.modCore_waves (s : State) (n : Nat) (g : Core → Core) : (s.modCore n g).waves = s.waves := rfl
@[simp] theorem State.modCore_saved (s : State) (n : Nat) (g : Core → Core) : (s.modCore n g).saved = s.saved := rfl
@[simp] theorem State.modCore_blocks (s : State) (n : Nat) (g : Core → Core) : (s.modCore n g).blocks = s.blocks := rfl
@[simp] theorem State.modCore_launches (s : State) (n : Nat) (g : Core → Core) : (s.modCore n g).launches = s.launches := rfl
@[simp] theorem State.modCore_nextLid (s : State) (n : Nat) (g : Core → Core) : (s.modCore n g).nextLid = s.nextLid := rfl
@[simp] theorem State.modCore_newestLid (s : State) (n : Nat) (g : Core → Core) : (s.modCore n g).newestLid = s.newestLid := rfl
@[simp] theorem State.modCore_nextId (s : State) (n : Nat) (g : Core → Core) : (s.modCore n g).nextId = s.nextId := rfl
@[simp] theorem State.modCore_inflight (s : State) (n : Nat) (g : Core → Core) : (s.modCore n g).inflight = s.inflight := rfl
@[simp] theorem State.modCore_bundles (s : State) (n : Nat) (g : Core → Core) : (s.modCore n g).bundles = s.bundles := rfl
@[simp] theorem State.modCore_replies (s : State) (n : Nat) (g : Core → Core) : (s.modCore n g).replies = s.replies := rfl
@[simp] theorem State.modCore_cmds (s : State) (n : Nat) (g : Core → Core) : (s.modCore n g).cmds = s.cmds := rfl
@[simp] theorem State.modCore_packets (s : State) (n : Nat) (g : Core → Core) : (s.modCore n g).packets = s.packets := rfl
@[simp] theorem State.modCore_arrivals (s : State) (n : Nat) (g : Core → Core) : (s.modCore n g).arrivals = s.arrivals := rfl
@[simp] theorem State.modCore_heldFlags (s : State) (n : Nat) (g : Core → Core) : (s.modCore n g).heldFlags = s.heldFlags := rfl
@[simp] theorem State.modCore_stalled (s : State) (n : Nat) (g : Core → Core) : (s.modCore n g).stalled = s.stalled := rfl
@[simp] theorem State.modCore_package (s : State) (n : Nat) (g : Core → Core) : (s.modCore n g).package = s.package := rfl
@[simp] theorem State.modCore_paths (s : State) (n : Nat) (g : Core → Core) : (s.modCore n g).paths = s.paths := rfl
@[simp] theorem State.modCore_windows (s : State) (n : Nat) (g : Core → Core) : (s.modCore n g).windows = s.windows := rfl
@[simp] theorem State.modCore_linksDown (s : State) (n : Nat) (g : Core → Core) : (s.modCore n g).linksDown = s.linksDown := rfl
@[simp] theorem State.modCore_crcRetries (s : State) (n : Nat) (g : Core → Core) : (s.modCore n g).crcRetries = s.crcRetries := rfl
@[simp] theorem State.modCore_hostOut (s : State) (n : Nat) (g : Core → Core) : (s.modCore n g).hostOut = s.hostOut := rfl
@[simp] theorem State.modCore_served (s : State) (n : Nat) (g : Core → Core) : (s.modCore n g).served = s.served := rfl
@[simp] theorem State.modCore_ctr (s : State) (n : Nat) (g : Core → Core) : (s.modCore n g).ctr = s.ctr := rfl
@[simp] theorem State.modCore_agenda (s : State) (n : Nat) (g : Core → Core) : (s.modCore n g).agenda = s.agenda := rfl
@[simp] theorem State.modCore_turn (s : State) (n : Nat) (g : Core → Core) : (s.modCore n g).turn = s.turn := rfl

/-! ### State.modLCore -/

@[simp] theorem State.modLCore_clk (s : State) (n : Nat) (g : LCore → LCore) : (s.modLCore n g).clk = s.clk := rfl
@[simp] theorem State.modLCore_phase (s : State) (n : Nat) (g : LCore → LCore) : (s.modLCore n g).phase = s.phase := rfl
@[simp] theorem State.modLCore_fail (s : State) (n : Nat) (g : LCore → LCore) : (s.modLCore n g).fail = s.fail := rfl
@[simp] theorem State.modLCore_fcode (s : State) (n : Nat) (g : LCore → LCore) : (s.modLCore n g).fcode = s.fcode := rfl
@[simp] theorem State.modLCore_config (s : State) (n : Nat) (g : LCore → LCore) : (s.modLCore n g).config = s.config := rfl
@[simp] theorem State.modLCore_ident (s : State) (n : Nat) (g : LCore → LCore) : (s.modLCore n g).ident = s.ident := rfl
@[simp] theorem State.modLCore_mhz (s : State) (n : Nat) (g : LCore → LCore) : (s.modLCore n g).mhz = s.mhz := rfl
@[simp] theorem State.modLCore_limit (s : State) (n : Nat) (g : LCore → LCore) : (s.modLCore n g).limit = s.limit := rfl
@[simp] theorem State.modLCore_ceiling (s : State) (n : Nat) (g : LCore → LCore) : (s.modLCore n g).ceiling = s.ceiling := rfl
@[simp] theorem State.modLCore_overBudget (s : State) (n : Nat) (g : LCore → LCore) : (s.modLCore n g).overBudget = s.overBudget := rfl
@[simp] theorem State.modLCore_windowsDone (s : State) (n : Nat) (g : LCore → LCore) : (s.modLCore n g).windowsDone = s.windowsDone := rfl
@[simp] theorem State.modLCore_repair (s : State) (n : Nat) (g : LCore → LCore) : (s.modLCore n g).repair = s.repair := rfl
@[simp] theorem State.modLCore_keyHash (s : State) (n : Nat) (g : LCore → LCore) : (s.modLCore n g).keyHash = s.keyHash := rfl
@[simp] theorem State.modLCore_minVersion (s : State) (n : Nat) (g : LCore → LCore) : (s.modLCore n g).minVersion = s.minVersion := rfl
@[simp] theorem State.modLCore_firmware (s : State) (n : Nat) (g : LCore → LCore) : (s.modLCore n g).firmware = s.firmware := rfl
@[simp] theorem State.modLCore_deadCores (s : State) (n : Nat) (g : LCore → LCore) : (s.modLCore n g).deadCores = s.deadCores := rfl
@[simp] theorem State.modLCore_powerEvents (s : State) (n : Nat) (g : LCore → LCore) : (s.modLCore n g).powerEvents = s.powerEvents := rfl
@[simp] theorem State.modLCore_thermalEvents (s : State) (n : Nat) (g : LCore → LCore) : (s.modLCore n g).thermalEvents = s.thermalEvents := rfl
@[simp] theorem State.modLCore_shutdown (s : State) (n : Nat) (g : LCore → LCore) : (s.modLCore n g).shutdown = s.shutdown := rfl
@[simp] theorem State.modLCore_mem (s : State) (n : Nat) (g : LCore → LCore) : (s.modLCore n g).mem = s.mem := rfl
@[simp] theorem State.modLCore_tags (s : State) (n : Nat) (g : LCore → LCore) : (s.modLCore n g).tags = s.tags := rfl
@[simp] theorem State.modLCore_bad (s : State) (n : Nat) (g : LCore → LCore) : (s.modLCore n g).bad = s.bad := rfl
@[simp] theorem State.modLCore_swm (s : State) (n : Nat) (g : LCore → LCore) : (s.modLCore n g).swm = s.swm := rfl
@[simp] theorem State.modLCore_homeL (s : State) (n : Nat) (g : LCore → LCore) : (s.modLCore n g).homeL = s.homeL := rfl
@[simp] theorem State.modLCore_homeG (s : State) (n : Nat) (g : LCore → LCore) : (s.modLCore n g).homeG = s.homeG := rfl
@[simp] theorem State.modLCore_blends (s : State) (n : Nat) (g : LCore → LCore) : (s.modLCore n g).blends = s.blends := rfl
@[simp] theorem State.modLCore_colls (s : State) (n : Nat) (g : LCore → LCore) : (s.modLCore n g).colls = s.colls := rfl
@[simp] theorem State.modLCore_outbox (s : State) (n : Nat) (g : LCore → LCore) : (s.modLCore n g).outbox = s.outbox := rfl
@[simp] theorem State.modLCore_poisons (s : State) (n : Nat) (g : LCore → LCore) : (s.modLCore n g).poisons = s.poisons := rfl
@[simp] theorem State.modLCore_decided (s : State) (n : Nat) (g : LCore → LCore) : (s.modLCore n g).decided = s.decided := rfl
@[simp] theorem State.modLCore_cores (s : State) (n : Nat) (g : LCore → LCore) : (s.modLCore n g).cores = s.cores := rfl
@[simp] theorem State.modLCore_dies (s : State) (n : Nat) (g : LCore → LCore) : (s.modLCore n g).dies = s.dies := rfl
@[simp] theorem State.modLCore_clusters (s : State) (n : Nat) (g : LCore → LCore) : (s.modLCore n g).clusters = s.clusters := rfl
@[simp] theorem State.modLCore_ports (s : State) (n : Nat) (g : LCore → LCore) : (s.modLCore n g).ports = s.ports := rfl
@[simp] theorem State.modLCore_waves (s : State) (n : Nat) (g : LCore → LCore) : (s.modLCore n g).waves = s.waves := rfl
@[simp] theorem State.modLCore_saved (s : State) (n : Nat) (g : LCore → LCore) : (s.modLCore n g).saved = s.saved := rfl
@[simp] theorem State.modLCore_blocks (s : State) (n : Nat) (g : LCore → LCore) : (s.modLCore n g).blocks = s.blocks := rfl
@[simp] theorem State.modLCore_launches (s : State) (n : Nat) (g : LCore → LCore) : (s.modLCore n g).launches = s.launches := rfl
@[simp] theorem State.modLCore_nextLid (s : State) (n : Nat) (g : LCore → LCore) : (s.modLCore n g).nextLid = s.nextLid := rfl
@[simp] theorem State.modLCore_newestLid (s : State) (n : Nat) (g : LCore → LCore) : (s.modLCore n g).newestLid = s.newestLid := rfl
@[simp] theorem State.modLCore_nextId (s : State) (n : Nat) (g : LCore → LCore) : (s.modLCore n g).nextId = s.nextId := rfl
@[simp] theorem State.modLCore_inflight (s : State) (n : Nat) (g : LCore → LCore) : (s.modLCore n g).inflight = s.inflight := rfl
@[simp] theorem State.modLCore_bundles (s : State) (n : Nat) (g : LCore → LCore) : (s.modLCore n g).bundles = s.bundles := rfl
@[simp] theorem State.modLCore_replies (s : State) (n : Nat) (g : LCore → LCore) : (s.modLCore n g).replies = s.replies := rfl
@[simp] theorem State.modLCore_cmds (s : State) (n : Nat) (g : LCore → LCore) : (s.modLCore n g).cmds = s.cmds := rfl
@[simp] theorem State.modLCore_packets (s : State) (n : Nat) (g : LCore → LCore) : (s.modLCore n g).packets = s.packets := rfl
@[simp] theorem State.modLCore_arrivals (s : State) (n : Nat) (g : LCore → LCore) : (s.modLCore n g).arrivals = s.arrivals := rfl
@[simp] theorem State.modLCore_heldFlags (s : State) (n : Nat) (g : LCore → LCore) : (s.modLCore n g).heldFlags = s.heldFlags := rfl
@[simp] theorem State.modLCore_stalled (s : State) (n : Nat) (g : LCore → LCore) : (s.modLCore n g).stalled = s.stalled := rfl
@[simp] theorem State.modLCore_package (s : State) (n : Nat) (g : LCore → LCore) : (s.modLCore n g).package = s.package := rfl
@[simp] theorem State.modLCore_paths (s : State) (n : Nat) (g : LCore → LCore) : (s.modLCore n g).paths = s.paths := rfl
@[simp] theorem State.modLCore_windows (s : State) (n : Nat) (g : LCore → LCore) : (s.modLCore n g).windows = s.windows := rfl
@[simp] theorem State.modLCore_linksDown (s : State) (n : Nat) (g : LCore → LCore) : (s.modLCore n g).linksDown = s.linksDown := rfl
@[simp] theorem State.modLCore_crcRetries (s : State) (n : Nat) (g : LCore → LCore) : (s.modLCore n g).crcRetries = s.crcRetries := rfl
@[simp] theorem State.modLCore_hostOut (s : State) (n : Nat) (g : LCore → LCore) : (s.modLCore n g).hostOut = s.hostOut := rfl
@[simp] theorem State.modLCore_served (s : State) (n : Nat) (g : LCore → LCore) : (s.modLCore n g).served = s.served := rfl
@[simp] theorem State.modLCore_ctr (s : State) (n : Nat) (g : LCore → LCore) : (s.modLCore n g).ctr = s.ctr := rfl
@[simp] theorem State.modLCore_agenda (s : State) (n : Nat) (g : LCore → LCore) : (s.modLCore n g).agenda = s.agenda := rfl
@[simp] theorem State.modLCore_turn (s : State) (n : Nat) (g : LCore → LCore) : (s.modLCore n g).turn = s.turn := rfl

/-! ### State.modDie -/

@[simp] theorem State.modDie_clk (s : State) (n : Nat) (g : Die → Die) : (s.modDie n g).clk = s.clk := rfl
@[simp] theorem State.modDie_phase (s : State) (n : Nat) (g : Die → Die) : (s.modDie n g).phase = s.phase := rfl
@[simp] theorem State.modDie_fail (s : State) (n : Nat) (g : Die → Die) : (s.modDie n g).fail = s.fail := rfl
@[simp] theorem State.modDie_fcode (s : State) (n : Nat) (g : Die → Die) : (s.modDie n g).fcode = s.fcode := rfl
@[simp] theorem State.modDie_config (s : State) (n : Nat) (g : Die → Die) : (s.modDie n g).config = s.config := rfl
@[simp] theorem State.modDie_ident (s : State) (n : Nat) (g : Die → Die) : (s.modDie n g).ident = s.ident := rfl
@[simp] theorem State.modDie_mhz (s : State) (n : Nat) (g : Die → Die) : (s.modDie n g).mhz = s.mhz := rfl
@[simp] theorem State.modDie_limit (s : State) (n : Nat) (g : Die → Die) : (s.modDie n g).limit = s.limit := rfl
@[simp] theorem State.modDie_ceiling (s : State) (n : Nat) (g : Die → Die) : (s.modDie n g).ceiling = s.ceiling := rfl
@[simp] theorem State.modDie_overBudget (s : State) (n : Nat) (g : Die → Die) : (s.modDie n g).overBudget = s.overBudget := rfl
@[simp] theorem State.modDie_windowsDone (s : State) (n : Nat) (g : Die → Die) : (s.modDie n g).windowsDone = s.windowsDone := rfl
@[simp] theorem State.modDie_repair (s : State) (n : Nat) (g : Die → Die) : (s.modDie n g).repair = s.repair := rfl
@[simp] theorem State.modDie_keyHash (s : State) (n : Nat) (g : Die → Die) : (s.modDie n g).keyHash = s.keyHash := rfl
@[simp] theorem State.modDie_minVersion (s : State) (n : Nat) (g : Die → Die) : (s.modDie n g).minVersion = s.minVersion := rfl
@[simp] theorem State.modDie_firmware (s : State) (n : Nat) (g : Die → Die) : (s.modDie n g).firmware = s.firmware := rfl
@[simp] theorem State.modDie_deadCores (s : State) (n : Nat) (g : Die → Die) : (s.modDie n g).deadCores = s.deadCores := rfl
@[simp] theorem State.modDie_powerEvents (s : State) (n : Nat) (g : Die → Die) : (s.modDie n g).powerEvents = s.powerEvents := rfl
@[simp] theorem State.modDie_thermalEvents (s : State) (n : Nat) (g : Die → Die) : (s.modDie n g).thermalEvents = s.thermalEvents := rfl
@[simp] theorem State.modDie_shutdown (s : State) (n : Nat) (g : Die → Die) : (s.modDie n g).shutdown = s.shutdown := rfl
@[simp] theorem State.modDie_mem (s : State) (n : Nat) (g : Die → Die) : (s.modDie n g).mem = s.mem := rfl
@[simp] theorem State.modDie_tags (s : State) (n : Nat) (g : Die → Die) : (s.modDie n g).tags = s.tags := rfl
@[simp] theorem State.modDie_bad (s : State) (n : Nat) (g : Die → Die) : (s.modDie n g).bad = s.bad := rfl
@[simp] theorem State.modDie_swm (s : State) (n : Nat) (g : Die → Die) : (s.modDie n g).swm = s.swm := rfl
@[simp] theorem State.modDie_homeL (s : State) (n : Nat) (g : Die → Die) : (s.modDie n g).homeL = s.homeL := rfl
@[simp] theorem State.modDie_homeG (s : State) (n : Nat) (g : Die → Die) : (s.modDie n g).homeG = s.homeG := rfl
@[simp] theorem State.modDie_blends (s : State) (n : Nat) (g : Die → Die) : (s.modDie n g).blends = s.blends := rfl
@[simp] theorem State.modDie_colls (s : State) (n : Nat) (g : Die → Die) : (s.modDie n g).colls = s.colls := rfl
@[simp] theorem State.modDie_outbox (s : State) (n : Nat) (g : Die → Die) : (s.modDie n g).outbox = s.outbox := rfl
@[simp] theorem State.modDie_poisons (s : State) (n : Nat) (g : Die → Die) : (s.modDie n g).poisons = s.poisons := rfl
@[simp] theorem State.modDie_decided (s : State) (n : Nat) (g : Die → Die) : (s.modDie n g).decided = s.decided := rfl
@[simp] theorem State.modDie_cores (s : State) (n : Nat) (g : Die → Die) : (s.modDie n g).cores = s.cores := rfl
@[simp] theorem State.modDie_lcores (s : State) (n : Nat) (g : Die → Die) : (s.modDie n g).lcores = s.lcores := rfl
@[simp] theorem State.modDie_clusters (s : State) (n : Nat) (g : Die → Die) : (s.modDie n g).clusters = s.clusters := rfl
@[simp] theorem State.modDie_ports (s : State) (n : Nat) (g : Die → Die) : (s.modDie n g).ports = s.ports := rfl
@[simp] theorem State.modDie_waves (s : State) (n : Nat) (g : Die → Die) : (s.modDie n g).waves = s.waves := rfl
@[simp] theorem State.modDie_saved (s : State) (n : Nat) (g : Die → Die) : (s.modDie n g).saved = s.saved := rfl
@[simp] theorem State.modDie_blocks (s : State) (n : Nat) (g : Die → Die) : (s.modDie n g).blocks = s.blocks := rfl
@[simp] theorem State.modDie_launches (s : State) (n : Nat) (g : Die → Die) : (s.modDie n g).launches = s.launches := rfl
@[simp] theorem State.modDie_nextLid (s : State) (n : Nat) (g : Die → Die) : (s.modDie n g).nextLid = s.nextLid := rfl
@[simp] theorem State.modDie_newestLid (s : State) (n : Nat) (g : Die → Die) : (s.modDie n g).newestLid = s.newestLid := rfl
@[simp] theorem State.modDie_nextId (s : State) (n : Nat) (g : Die → Die) : (s.modDie n g).nextId = s.nextId := rfl
@[simp] theorem State.modDie_inflight (s : State) (n : Nat) (g : Die → Die) : (s.modDie n g).inflight = s.inflight := rfl
@[simp] theorem State.modDie_bundles (s : State) (n : Nat) (g : Die → Die) : (s.modDie n g).bundles = s.bundles := rfl
@[simp] theorem State.modDie_replies (s : State) (n : Nat) (g : Die → Die) : (s.modDie n g).replies = s.replies := rfl
@[simp] theorem State.modDie_cmds (s : State) (n : Nat) (g : Die → Die) : (s.modDie n g).cmds = s.cmds := rfl
@[simp] theorem State.modDie_packets (s : State) (n : Nat) (g : Die → Die) : (s.modDie n g).packets = s.packets := rfl
@[simp] theorem State.modDie_arrivals (s : State) (n : Nat) (g : Die → Die) : (s.modDie n g).arrivals = s.arrivals := rfl
@[simp] theorem State.modDie_heldFlags (s : State) (n : Nat) (g : Die → Die) : (s.modDie n g).heldFlags = s.heldFlags := rfl
@[simp] theorem State.modDie_stalled (s : State) (n : Nat) (g : Die → Die) : (s.modDie n g).stalled = s.stalled := rfl
@[simp] theorem State.modDie_package (s : State) (n : Nat) (g : Die → Die) : (s.modDie n g).package = s.package := rfl
@[simp] theorem State.modDie_paths (s : State) (n : Nat) (g : Die → Die) : (s.modDie n g).paths = s.paths := rfl
@[simp] theorem State.modDie_windows (s : State) (n : Nat) (g : Die → Die) : (s.modDie n g).windows = s.windows := rfl
@[simp] theorem State.modDie_linksDown (s : State) (n : Nat) (g : Die → Die) : (s.modDie n g).linksDown = s.linksDown := rfl
@[simp] theorem State.modDie_crcRetries (s : State) (n : Nat) (g : Die → Die) : (s.modDie n g).crcRetries = s.crcRetries := rfl
@[simp] theorem State.modDie_hostOut (s : State) (n : Nat) (g : Die → Die) : (s.modDie n g).hostOut = s.hostOut := rfl
@[simp] theorem State.modDie_served (s : State) (n : Nat) (g : Die → Die) : (s.modDie n g).served = s.served := rfl
@[simp] theorem State.modDie_ctr (s : State) (n : Nat) (g : Die → Die) : (s.modDie n g).ctr = s.ctr := rfl
@[simp] theorem State.modDie_agenda (s : State) (n : Nat) (g : Die → Die) : (s.modDie n g).agenda = s.agenda := rfl
@[simp] theorem State.modDie_turn (s : State) (n : Nat) (g : Die → Die) : (s.modDie n g).turn = s.turn := rfl

/-! ### State.modCluster -/

@[simp] theorem State.modCluster_clk (s : State) (n : Nat) (g : Cluster → Cluster) : (s.modCluster n g).clk = s.clk := rfl
@[simp] theorem State.modCluster_phase (s : State) (n : Nat) (g : Cluster → Cluster) : (s.modCluster n g).phase = s.phase := rfl
@[simp] theorem State.modCluster_fail (s : State) (n : Nat) (g : Cluster → Cluster) : (s.modCluster n g).fail = s.fail := rfl
@[simp] theorem State.modCluster_fcode (s : State) (n : Nat) (g : Cluster → Cluster) : (s.modCluster n g).fcode = s.fcode := rfl
@[simp] theorem State.modCluster_config (s : State) (n : Nat) (g : Cluster → Cluster) : (s.modCluster n g).config = s.config := rfl
@[simp] theorem State.modCluster_ident (s : State) (n : Nat) (g : Cluster → Cluster) : (s.modCluster n g).ident = s.ident := rfl
@[simp] theorem State.modCluster_mhz (s : State) (n : Nat) (g : Cluster → Cluster) : (s.modCluster n g).mhz = s.mhz := rfl
@[simp] theorem State.modCluster_limit (s : State) (n : Nat) (g : Cluster → Cluster) : (s.modCluster n g).limit = s.limit := rfl
@[simp] theorem State.modCluster_ceiling (s : State) (n : Nat) (g : Cluster → Cluster) : (s.modCluster n g).ceiling = s.ceiling := rfl
@[simp] theorem State.modCluster_overBudget (s : State) (n : Nat) (g : Cluster → Cluster) : (s.modCluster n g).overBudget = s.overBudget := rfl
@[simp] theorem State.modCluster_windowsDone (s : State) (n : Nat) (g : Cluster → Cluster) : (s.modCluster n g).windowsDone = s.windowsDone := rfl
@[simp] theorem State.modCluster_repair (s : State) (n : Nat) (g : Cluster → Cluster) : (s.modCluster n g).repair = s.repair := rfl
@[simp] theorem State.modCluster_keyHash (s : State) (n : Nat) (g : Cluster → Cluster) : (s.modCluster n g).keyHash = s.keyHash := rfl
@[simp] theorem State.modCluster_minVersion (s : State) (n : Nat) (g : Cluster → Cluster) : (s.modCluster n g).minVersion = s.minVersion := rfl
@[simp] theorem State.modCluster_firmware (s : State) (n : Nat) (g : Cluster → Cluster) : (s.modCluster n g).firmware = s.firmware := rfl
@[simp] theorem State.modCluster_deadCores (s : State) (n : Nat) (g : Cluster → Cluster) : (s.modCluster n g).deadCores = s.deadCores := rfl
@[simp] theorem State.modCluster_powerEvents (s : State) (n : Nat) (g : Cluster → Cluster) : (s.modCluster n g).powerEvents = s.powerEvents := rfl
@[simp] theorem State.modCluster_thermalEvents (s : State) (n : Nat) (g : Cluster → Cluster) : (s.modCluster n g).thermalEvents = s.thermalEvents := rfl
@[simp] theorem State.modCluster_shutdown (s : State) (n : Nat) (g : Cluster → Cluster) : (s.modCluster n g).shutdown = s.shutdown := rfl
@[simp] theorem State.modCluster_mem (s : State) (n : Nat) (g : Cluster → Cluster) : (s.modCluster n g).mem = s.mem := rfl
@[simp] theorem State.modCluster_tags (s : State) (n : Nat) (g : Cluster → Cluster) : (s.modCluster n g).tags = s.tags := rfl
@[simp] theorem State.modCluster_bad (s : State) (n : Nat) (g : Cluster → Cluster) : (s.modCluster n g).bad = s.bad := rfl
@[simp] theorem State.modCluster_swm (s : State) (n : Nat) (g : Cluster → Cluster) : (s.modCluster n g).swm = s.swm := rfl
@[simp] theorem State.modCluster_homeL (s : State) (n : Nat) (g : Cluster → Cluster) : (s.modCluster n g).homeL = s.homeL := rfl
@[simp] theorem State.modCluster_homeG (s : State) (n : Nat) (g : Cluster → Cluster) : (s.modCluster n g).homeG = s.homeG := rfl
@[simp] theorem State.modCluster_blends (s : State) (n : Nat) (g : Cluster → Cluster) : (s.modCluster n g).blends = s.blends := rfl
@[simp] theorem State.modCluster_colls (s : State) (n : Nat) (g : Cluster → Cluster) : (s.modCluster n g).colls = s.colls := rfl
@[simp] theorem State.modCluster_outbox (s : State) (n : Nat) (g : Cluster → Cluster) : (s.modCluster n g).outbox = s.outbox := rfl
@[simp] theorem State.modCluster_poisons (s : State) (n : Nat) (g : Cluster → Cluster) : (s.modCluster n g).poisons = s.poisons := rfl
@[simp] theorem State.modCluster_decided (s : State) (n : Nat) (g : Cluster → Cluster) : (s.modCluster n g).decided = s.decided := rfl
@[simp] theorem State.modCluster_cores (s : State) (n : Nat) (g : Cluster → Cluster) : (s.modCluster n g).cores = s.cores := rfl
@[simp] theorem State.modCluster_lcores (s : State) (n : Nat) (g : Cluster → Cluster) : (s.modCluster n g).lcores = s.lcores := rfl
@[simp] theorem State.modCluster_dies (s : State) (n : Nat) (g : Cluster → Cluster) : (s.modCluster n g).dies = s.dies := rfl
@[simp] theorem State.modCluster_ports (s : State) (n : Nat) (g : Cluster → Cluster) : (s.modCluster n g).ports = s.ports := rfl
@[simp] theorem State.modCluster_waves (s : State) (n : Nat) (g : Cluster → Cluster) : (s.modCluster n g).waves = s.waves := rfl
@[simp] theorem State.modCluster_saved (s : State) (n : Nat) (g : Cluster → Cluster) : (s.modCluster n g).saved = s.saved := rfl
@[simp] theorem State.modCluster_blocks (s : State) (n : Nat) (g : Cluster → Cluster) : (s.modCluster n g).blocks = s.blocks := rfl
@[simp] theorem State.modCluster_launches (s : State) (n : Nat) (g : Cluster → Cluster) : (s.modCluster n g).launches = s.launches := rfl
@[simp] theorem State.modCluster_nextLid (s : State) (n : Nat) (g : Cluster → Cluster) : (s.modCluster n g).nextLid = s.nextLid := rfl
@[simp] theorem State.modCluster_newestLid (s : State) (n : Nat) (g : Cluster → Cluster) : (s.modCluster n g).newestLid = s.newestLid := rfl
@[simp] theorem State.modCluster_nextId (s : State) (n : Nat) (g : Cluster → Cluster) : (s.modCluster n g).nextId = s.nextId := rfl
@[simp] theorem State.modCluster_inflight (s : State) (n : Nat) (g : Cluster → Cluster) : (s.modCluster n g).inflight = s.inflight := rfl
@[simp] theorem State.modCluster_bundles (s : State) (n : Nat) (g : Cluster → Cluster) : (s.modCluster n g).bundles = s.bundles := rfl
@[simp] theorem State.modCluster_replies (s : State) (n : Nat) (g : Cluster → Cluster) : (s.modCluster n g).replies = s.replies := rfl
@[simp] theorem State.modCluster_cmds (s : State) (n : Nat) (g : Cluster → Cluster) : (s.modCluster n g).cmds = s.cmds := rfl
@[simp] theorem State.modCluster_packets (s : State) (n : Nat) (g : Cluster → Cluster) : (s.modCluster n g).packets = s.packets := rfl
@[simp] theorem State.modCluster_arrivals (s : State) (n : Nat) (g : Cluster → Cluster) : (s.modCluster n g).arrivals = s.arrivals := rfl
@[simp] theorem State.modCluster_heldFlags (s : State) (n : Nat) (g : Cluster → Cluster) : (s.modCluster n g).heldFlags = s.heldFlags := rfl
@[simp] theorem State.modCluster_stalled (s : State) (n : Nat) (g : Cluster → Cluster) : (s.modCluster n g).stalled = s.stalled := rfl
@[simp] theorem State.modCluster_package (s : State) (n : Nat) (g : Cluster → Cluster) : (s.modCluster n g).package = s.package := rfl
@[simp] theorem State.modCluster_paths (s : State) (n : Nat) (g : Cluster → Cluster) : (s.modCluster n g).paths = s.paths := rfl
@[simp] theorem State.modCluster_windows (s : State) (n : Nat) (g : Cluster → Cluster) : (s.modCluster n g).windows = s.windows := rfl
@[simp] theorem State.modCluster_linksDown (s : State) (n : Nat) (g : Cluster → Cluster) : (s.modCluster n g).linksDown = s.linksDown := rfl
@[simp] theorem State.modCluster_crcRetries (s : State) (n : Nat) (g : Cluster → Cluster) : (s.modCluster n g).crcRetries = s.crcRetries := rfl
@[simp] theorem State.modCluster_hostOut (s : State) (n : Nat) (g : Cluster → Cluster) : (s.modCluster n g).hostOut = s.hostOut := rfl
@[simp] theorem State.modCluster_served (s : State) (n : Nat) (g : Cluster → Cluster) : (s.modCluster n g).served = s.served := rfl
@[simp] theorem State.modCluster_ctr (s : State) (n : Nat) (g : Cluster → Cluster) : (s.modCluster n g).ctr = s.ctr := rfl
@[simp] theorem State.modCluster_agenda (s : State) (n : Nat) (g : Cluster → Cluster) : (s.modCluster n g).agenda = s.agenda := rfl
@[simp] theorem State.modCluster_turn (s : State) (n : Nat) (g : Cluster → Cluster) : (s.modCluster n g).turn = s.turn := rfl

/-! ### State.modPort -/

@[simp] theorem State.modPort_clk (s : State) (n : Nat) (g : Port → Port) : (s.modPort n g).clk = s.clk := rfl
@[simp] theorem State.modPort_phase (s : State) (n : Nat) (g : Port → Port) : (s.modPort n g).phase = s.phase := rfl
@[simp] theorem State.modPort_fail (s : State) (n : Nat) (g : Port → Port) : (s.modPort n g).fail = s.fail := rfl
@[simp] theorem State.modPort_fcode (s : State) (n : Nat) (g : Port → Port) : (s.modPort n g).fcode = s.fcode := rfl
@[simp] theorem State.modPort_config (s : State) (n : Nat) (g : Port → Port) : (s.modPort n g).config = s.config := rfl
@[simp] theorem State.modPort_ident (s : State) (n : Nat) (g : Port → Port) : (s.modPort n g).ident = s.ident := rfl
@[simp] theorem State.modPort_mhz (s : State) (n : Nat) (g : Port → Port) : (s.modPort n g).mhz = s.mhz := rfl
@[simp] theorem State.modPort_limit (s : State) (n : Nat) (g : Port → Port) : (s.modPort n g).limit = s.limit := rfl
@[simp] theorem State.modPort_ceiling (s : State) (n : Nat) (g : Port → Port) : (s.modPort n g).ceiling = s.ceiling := rfl
@[simp] theorem State.modPort_overBudget (s : State) (n : Nat) (g : Port → Port) : (s.modPort n g).overBudget = s.overBudget := rfl
@[simp] theorem State.modPort_windowsDone (s : State) (n : Nat) (g : Port → Port) : (s.modPort n g).windowsDone = s.windowsDone := rfl
@[simp] theorem State.modPort_repair (s : State) (n : Nat) (g : Port → Port) : (s.modPort n g).repair = s.repair := rfl
@[simp] theorem State.modPort_keyHash (s : State) (n : Nat) (g : Port → Port) : (s.modPort n g).keyHash = s.keyHash := rfl
@[simp] theorem State.modPort_minVersion (s : State) (n : Nat) (g : Port → Port) : (s.modPort n g).minVersion = s.minVersion := rfl
@[simp] theorem State.modPort_firmware (s : State) (n : Nat) (g : Port → Port) : (s.modPort n g).firmware = s.firmware := rfl
@[simp] theorem State.modPort_deadCores (s : State) (n : Nat) (g : Port → Port) : (s.modPort n g).deadCores = s.deadCores := rfl
@[simp] theorem State.modPort_powerEvents (s : State) (n : Nat) (g : Port → Port) : (s.modPort n g).powerEvents = s.powerEvents := rfl
@[simp] theorem State.modPort_thermalEvents (s : State) (n : Nat) (g : Port → Port) : (s.modPort n g).thermalEvents = s.thermalEvents := rfl
@[simp] theorem State.modPort_shutdown (s : State) (n : Nat) (g : Port → Port) : (s.modPort n g).shutdown = s.shutdown := rfl
@[simp] theorem State.modPort_mem (s : State) (n : Nat) (g : Port → Port) : (s.modPort n g).mem = s.mem := rfl
@[simp] theorem State.modPort_tags (s : State) (n : Nat) (g : Port → Port) : (s.modPort n g).tags = s.tags := rfl
@[simp] theorem State.modPort_bad (s : State) (n : Nat) (g : Port → Port) : (s.modPort n g).bad = s.bad := rfl
@[simp] theorem State.modPort_swm (s : State) (n : Nat) (g : Port → Port) : (s.modPort n g).swm = s.swm := rfl
@[simp] theorem State.modPort_homeL (s : State) (n : Nat) (g : Port → Port) : (s.modPort n g).homeL = s.homeL := rfl
@[simp] theorem State.modPort_homeG (s : State) (n : Nat) (g : Port → Port) : (s.modPort n g).homeG = s.homeG := rfl
@[simp] theorem State.modPort_blends (s : State) (n : Nat) (g : Port → Port) : (s.modPort n g).blends = s.blends := rfl
@[simp] theorem State.modPort_colls (s : State) (n : Nat) (g : Port → Port) : (s.modPort n g).colls = s.colls := rfl
@[simp] theorem State.modPort_outbox (s : State) (n : Nat) (g : Port → Port) : (s.modPort n g).outbox = s.outbox := rfl
@[simp] theorem State.modPort_poisons (s : State) (n : Nat) (g : Port → Port) : (s.modPort n g).poisons = s.poisons := rfl
@[simp] theorem State.modPort_decided (s : State) (n : Nat) (g : Port → Port) : (s.modPort n g).decided = s.decided := rfl
@[simp] theorem State.modPort_cores (s : State) (n : Nat) (g : Port → Port) : (s.modPort n g).cores = s.cores := rfl
@[simp] theorem State.modPort_lcores (s : State) (n : Nat) (g : Port → Port) : (s.modPort n g).lcores = s.lcores := rfl
@[simp] theorem State.modPort_dies (s : State) (n : Nat) (g : Port → Port) : (s.modPort n g).dies = s.dies := rfl
@[simp] theorem State.modPort_clusters (s : State) (n : Nat) (g : Port → Port) : (s.modPort n g).clusters = s.clusters := rfl
@[simp] theorem State.modPort_waves (s : State) (n : Nat) (g : Port → Port) : (s.modPort n g).waves = s.waves := rfl
@[simp] theorem State.modPort_saved (s : State) (n : Nat) (g : Port → Port) : (s.modPort n g).saved = s.saved := rfl
@[simp] theorem State.modPort_blocks (s : State) (n : Nat) (g : Port → Port) : (s.modPort n g).blocks = s.blocks := rfl
@[simp] theorem State.modPort_launches (s : State) (n : Nat) (g : Port → Port) : (s.modPort n g).launches = s.launches := rfl
@[simp] theorem State.modPort_nextLid (s : State) (n : Nat) (g : Port → Port) : (s.modPort n g).nextLid = s.nextLid := rfl
@[simp] theorem State.modPort_newestLid (s : State) (n : Nat) (g : Port → Port) : (s.modPort n g).newestLid = s.newestLid := rfl
@[simp] theorem State.modPort_nextId (s : State) (n : Nat) (g : Port → Port) : (s.modPort n g).nextId = s.nextId := rfl
@[simp] theorem State.modPort_inflight (s : State) (n : Nat) (g : Port → Port) : (s.modPort n g).inflight = s.inflight := rfl
@[simp] theorem State.modPort_bundles (s : State) (n : Nat) (g : Port → Port) : (s.modPort n g).bundles = s.bundles := rfl
@[simp] theorem State.modPort_replies (s : State) (n : Nat) (g : Port → Port) : (s.modPort n g).replies = s.replies := rfl
@[simp] theorem State.modPort_cmds (s : State) (n : Nat) (g : Port → Port) : (s.modPort n g).cmds = s.cmds := rfl
@[simp] theorem State.modPort_packets (s : State) (n : Nat) (g : Port → Port) : (s.modPort n g).packets = s.packets := rfl
@[simp] theorem State.modPort_arrivals (s : State) (n : Nat) (g : Port → Port) : (s.modPort n g).arrivals = s.arrivals := rfl
@[simp] theorem State.modPort_heldFlags (s : State) (n : Nat) (g : Port → Port) : (s.modPort n g).heldFlags = s.heldFlags := rfl
@[simp] theorem State.modPort_stalled (s : State) (n : Nat) (g : Port → Port) : (s.modPort n g).stalled = s.stalled := rfl
@[simp] theorem State.modPort_package (s : State) (n : Nat) (g : Port → Port) : (s.modPort n g).package = s.package := rfl
@[simp] theorem State.modPort_paths (s : State) (n : Nat) (g : Port → Port) : (s.modPort n g).paths = s.paths := rfl
@[simp] theorem State.modPort_windows (s : State) (n : Nat) (g : Port → Port) : (s.modPort n g).windows = s.windows := rfl
@[simp] theorem State.modPort_linksDown (s : State) (n : Nat) (g : Port → Port) : (s.modPort n g).linksDown = s.linksDown := rfl
@[simp] theorem State.modPort_crcRetries (s : State) (n : Nat) (g : Port → Port) : (s.modPort n g).crcRetries = s.crcRetries := rfl
@[simp] theorem State.modPort_hostOut (s : State) (n : Nat) (g : Port → Port) : (s.modPort n g).hostOut = s.hostOut := rfl
@[simp] theorem State.modPort_served (s : State) (n : Nat) (g : Port → Port) : (s.modPort n g).served = s.served := rfl
@[simp] theorem State.modPort_ctr (s : State) (n : Nat) (g : Port → Port) : (s.modPort n g).ctr = s.ctr := rfl
@[simp] theorem State.modPort_agenda (s : State) (n : Nat) (g : Port → Port) : (s.modPort n g).agenda = s.agenda := rfl
@[simp] theorem State.modPort_turn (s : State) (n : Nat) (g : Port → Port) : (s.modPort n g).turn = s.turn := rfl

/-! ### State.modWave -/

@[simp] theorem State.modWave_clk (s : State) (u : Nat) (g : Wave → Wave) : (s.modWave u g).clk = s.clk := rfl
@[simp] theorem State.modWave_phase (s : State) (u : Nat) (g : Wave → Wave) : (s.modWave u g).phase = s.phase := rfl
@[simp] theorem State.modWave_fail (s : State) (u : Nat) (g : Wave → Wave) : (s.modWave u g).fail = s.fail := rfl
@[simp] theorem State.modWave_fcode (s : State) (u : Nat) (g : Wave → Wave) : (s.modWave u g).fcode = s.fcode := rfl
@[simp] theorem State.modWave_config (s : State) (u : Nat) (g : Wave → Wave) : (s.modWave u g).config = s.config := rfl
@[simp] theorem State.modWave_ident (s : State) (u : Nat) (g : Wave → Wave) : (s.modWave u g).ident = s.ident := rfl
@[simp] theorem State.modWave_mhz (s : State) (u : Nat) (g : Wave → Wave) : (s.modWave u g).mhz = s.mhz := rfl
@[simp] theorem State.modWave_limit (s : State) (u : Nat) (g : Wave → Wave) : (s.modWave u g).limit = s.limit := rfl
@[simp] theorem State.modWave_ceiling (s : State) (u : Nat) (g : Wave → Wave) : (s.modWave u g).ceiling = s.ceiling := rfl
@[simp] theorem State.modWave_overBudget (s : State) (u : Nat) (g : Wave → Wave) : (s.modWave u g).overBudget = s.overBudget := rfl
@[simp] theorem State.modWave_windowsDone (s : State) (u : Nat) (g : Wave → Wave) : (s.modWave u g).windowsDone = s.windowsDone := rfl
@[simp] theorem State.modWave_repair (s : State) (u : Nat) (g : Wave → Wave) : (s.modWave u g).repair = s.repair := rfl
@[simp] theorem State.modWave_keyHash (s : State) (u : Nat) (g : Wave → Wave) : (s.modWave u g).keyHash = s.keyHash := rfl
@[simp] theorem State.modWave_minVersion (s : State) (u : Nat) (g : Wave → Wave) : (s.modWave u g).minVersion = s.minVersion := rfl
@[simp] theorem State.modWave_firmware (s : State) (u : Nat) (g : Wave → Wave) : (s.modWave u g).firmware = s.firmware := rfl
@[simp] theorem State.modWave_deadCores (s : State) (u : Nat) (g : Wave → Wave) : (s.modWave u g).deadCores = s.deadCores := rfl
@[simp] theorem State.modWave_powerEvents (s : State) (u : Nat) (g : Wave → Wave) : (s.modWave u g).powerEvents = s.powerEvents := rfl
@[simp] theorem State.modWave_thermalEvents (s : State) (u : Nat) (g : Wave → Wave) : (s.modWave u g).thermalEvents = s.thermalEvents := rfl
@[simp] theorem State.modWave_shutdown (s : State) (u : Nat) (g : Wave → Wave) : (s.modWave u g).shutdown = s.shutdown := rfl
@[simp] theorem State.modWave_mem (s : State) (u : Nat) (g : Wave → Wave) : (s.modWave u g).mem = s.mem := rfl
@[simp] theorem State.modWave_tags (s : State) (u : Nat) (g : Wave → Wave) : (s.modWave u g).tags = s.tags := rfl
@[simp] theorem State.modWave_bad (s : State) (u : Nat) (g : Wave → Wave) : (s.modWave u g).bad = s.bad := rfl
@[simp] theorem State.modWave_swm (s : State) (u : Nat) (g : Wave → Wave) : (s.modWave u g).swm = s.swm := rfl
@[simp] theorem State.modWave_homeL (s : State) (u : Nat) (g : Wave → Wave) : (s.modWave u g).homeL = s.homeL := rfl
@[simp] theorem State.modWave_homeG (s : State) (u : Nat) (g : Wave → Wave) : (s.modWave u g).homeG = s.homeG := rfl
@[simp] theorem State.modWave_blends (s : State) (u : Nat) (g : Wave → Wave) : (s.modWave u g).blends = s.blends := rfl
@[simp] theorem State.modWave_colls (s : State) (u : Nat) (g : Wave → Wave) : (s.modWave u g).colls = s.colls := rfl
@[simp] theorem State.modWave_outbox (s : State) (u : Nat) (g : Wave → Wave) : (s.modWave u g).outbox = s.outbox := rfl
@[simp] theorem State.modWave_poisons (s : State) (u : Nat) (g : Wave → Wave) : (s.modWave u g).poisons = s.poisons := rfl
@[simp] theorem State.modWave_decided (s : State) (u : Nat) (g : Wave → Wave) : (s.modWave u g).decided = s.decided := rfl
@[simp] theorem State.modWave_cores (s : State) (u : Nat) (g : Wave → Wave) : (s.modWave u g).cores = s.cores := rfl
@[simp] theorem State.modWave_lcores (s : State) (u : Nat) (g : Wave → Wave) : (s.modWave u g).lcores = s.lcores := rfl
@[simp] theorem State.modWave_dies (s : State) (u : Nat) (g : Wave → Wave) : (s.modWave u g).dies = s.dies := rfl
@[simp] theorem State.modWave_clusters (s : State) (u : Nat) (g : Wave → Wave) : (s.modWave u g).clusters = s.clusters := rfl
@[simp] theorem State.modWave_ports (s : State) (u : Nat) (g : Wave → Wave) : (s.modWave u g).ports = s.ports := rfl
@[simp] theorem State.modWave_saved (s : State) (u : Nat) (g : Wave → Wave) : (s.modWave u g).saved = s.saved := rfl
@[simp] theorem State.modWave_blocks (s : State) (u : Nat) (g : Wave → Wave) : (s.modWave u g).blocks = s.blocks := rfl
@[simp] theorem State.modWave_launches (s : State) (u : Nat) (g : Wave → Wave) : (s.modWave u g).launches = s.launches := rfl
@[simp] theorem State.modWave_nextLid (s : State) (u : Nat) (g : Wave → Wave) : (s.modWave u g).nextLid = s.nextLid := rfl
@[simp] theorem State.modWave_newestLid (s : State) (u : Nat) (g : Wave → Wave) : (s.modWave u g).newestLid = s.newestLid := rfl
@[simp] theorem State.modWave_nextId (s : State) (u : Nat) (g : Wave → Wave) : (s.modWave u g).nextId = s.nextId := rfl
@[simp] theorem State.modWave_inflight (s : State) (u : Nat) (g : Wave → Wave) : (s.modWave u g).inflight = s.inflight := rfl
@[simp] theorem State.modWave_bundles (s : State) (u : Nat) (g : Wave → Wave) : (s.modWave u g).bundles = s.bundles := rfl
@[simp] theorem State.modWave_replies (s : State) (u : Nat) (g : Wave → Wave) : (s.modWave u g).replies = s.replies := rfl
@[simp] theorem State.modWave_cmds (s : State) (u : Nat) (g : Wave → Wave) : (s.modWave u g).cmds = s.cmds := rfl
@[simp] theorem State.modWave_packets (s : State) (u : Nat) (g : Wave → Wave) : (s.modWave u g).packets = s.packets := rfl
@[simp] theorem State.modWave_arrivals (s : State) (u : Nat) (g : Wave → Wave) : (s.modWave u g).arrivals = s.arrivals := rfl
@[simp] theorem State.modWave_heldFlags (s : State) (u : Nat) (g : Wave → Wave) : (s.modWave u g).heldFlags = s.heldFlags := rfl
@[simp] theorem State.modWave_stalled (s : State) (u : Nat) (g : Wave → Wave) : (s.modWave u g).stalled = s.stalled := rfl
@[simp] theorem State.modWave_package (s : State) (u : Nat) (g : Wave → Wave) : (s.modWave u g).package = s.package := rfl
@[simp] theorem State.modWave_paths (s : State) (u : Nat) (g : Wave → Wave) : (s.modWave u g).paths = s.paths := rfl
@[simp] theorem State.modWave_windows (s : State) (u : Nat) (g : Wave → Wave) : (s.modWave u g).windows = s.windows := rfl
@[simp] theorem State.modWave_linksDown (s : State) (u : Nat) (g : Wave → Wave) : (s.modWave u g).linksDown = s.linksDown := rfl
@[simp] theorem State.modWave_crcRetries (s : State) (u : Nat) (g : Wave → Wave) : (s.modWave u g).crcRetries = s.crcRetries := rfl
@[simp] theorem State.modWave_hostOut (s : State) (u : Nat) (g : Wave → Wave) : (s.modWave u g).hostOut = s.hostOut := rfl
@[simp] theorem State.modWave_served (s : State) (u : Nat) (g : Wave → Wave) : (s.modWave u g).served = s.served := rfl
@[simp] theorem State.modWave_ctr (s : State) (u : Nat) (g : Wave → Wave) : (s.modWave u g).ctr = s.ctr := rfl
@[simp] theorem State.modWave_agenda (s : State) (u : Nat) (g : Wave → Wave) : (s.modWave u g).agenda = s.agenda := rfl
@[simp] theorem State.modWave_turn (s : State) (u : Nat) (g : Wave → Wave) : (s.modWave u g).turn = s.turn := rfl

/-! ### State.modBlock -/

@[simp] theorem State.modBlock_clk (s : State) (b : Nat) (g : Block → Block) : (s.modBlock b g).clk = s.clk := rfl
@[simp] theorem State.modBlock_phase (s : State) (b : Nat) (g : Block → Block) : (s.modBlock b g).phase = s.phase := rfl
@[simp] theorem State.modBlock_fail (s : State) (b : Nat) (g : Block → Block) : (s.modBlock b g).fail = s.fail := rfl
@[simp] theorem State.modBlock_fcode (s : State) (b : Nat) (g : Block → Block) : (s.modBlock b g).fcode = s.fcode := rfl
@[simp] theorem State.modBlock_config (s : State) (b : Nat) (g : Block → Block) : (s.modBlock b g).config = s.config := rfl
@[simp] theorem State.modBlock_ident (s : State) (b : Nat) (g : Block → Block) : (s.modBlock b g).ident = s.ident := rfl
@[simp] theorem State.modBlock_mhz (s : State) (b : Nat) (g : Block → Block) : (s.modBlock b g).mhz = s.mhz := rfl
@[simp] theorem State.modBlock_limit (s : State) (b : Nat) (g : Block → Block) : (s.modBlock b g).limit = s.limit := rfl
@[simp] theorem State.modBlock_ceiling (s : State) (b : Nat) (g : Block → Block) : (s.modBlock b g).ceiling = s.ceiling := rfl
@[simp] theorem State.modBlock_overBudget (s : State) (b : Nat) (g : Block → Block) : (s.modBlock b g).overBudget = s.overBudget := rfl
@[simp] theorem State.modBlock_windowsDone (s : State) (b : Nat) (g : Block → Block) : (s.modBlock b g).windowsDone = s.windowsDone := rfl
@[simp] theorem State.modBlock_repair (s : State) (b : Nat) (g : Block → Block) : (s.modBlock b g).repair = s.repair := rfl
@[simp] theorem State.modBlock_keyHash (s : State) (b : Nat) (g : Block → Block) : (s.modBlock b g).keyHash = s.keyHash := rfl
@[simp] theorem State.modBlock_minVersion (s : State) (b : Nat) (g : Block → Block) : (s.modBlock b g).minVersion = s.minVersion := rfl
@[simp] theorem State.modBlock_firmware (s : State) (b : Nat) (g : Block → Block) : (s.modBlock b g).firmware = s.firmware := rfl
@[simp] theorem State.modBlock_deadCores (s : State) (b : Nat) (g : Block → Block) : (s.modBlock b g).deadCores = s.deadCores := rfl
@[simp] theorem State.modBlock_powerEvents (s : State) (b : Nat) (g : Block → Block) : (s.modBlock b g).powerEvents = s.powerEvents := rfl
@[simp] theorem State.modBlock_thermalEvents (s : State) (b : Nat) (g : Block → Block) : (s.modBlock b g).thermalEvents = s.thermalEvents := rfl
@[simp] theorem State.modBlock_shutdown (s : State) (b : Nat) (g : Block → Block) : (s.modBlock b g).shutdown = s.shutdown := rfl
@[simp] theorem State.modBlock_mem (s : State) (b : Nat) (g : Block → Block) : (s.modBlock b g).mem = s.mem := rfl
@[simp] theorem State.modBlock_tags (s : State) (b : Nat) (g : Block → Block) : (s.modBlock b g).tags = s.tags := rfl
@[simp] theorem State.modBlock_bad (s : State) (b : Nat) (g : Block → Block) : (s.modBlock b g).bad = s.bad := rfl
@[simp] theorem State.modBlock_swm (s : State) (b : Nat) (g : Block → Block) : (s.modBlock b g).swm = s.swm := rfl
@[simp] theorem State.modBlock_homeL (s : State) (b : Nat) (g : Block → Block) : (s.modBlock b g).homeL = s.homeL := rfl
@[simp] theorem State.modBlock_homeG (s : State) (b : Nat) (g : Block → Block) : (s.modBlock b g).homeG = s.homeG := rfl
@[simp] theorem State.modBlock_blends (s : State) (b : Nat) (g : Block → Block) : (s.modBlock b g).blends = s.blends := rfl
@[simp] theorem State.modBlock_colls (s : State) (b : Nat) (g : Block → Block) : (s.modBlock b g).colls = s.colls := rfl
@[simp] theorem State.modBlock_outbox (s : State) (b : Nat) (g : Block → Block) : (s.modBlock b g).outbox = s.outbox := rfl
@[simp] theorem State.modBlock_poisons (s : State) (b : Nat) (g : Block → Block) : (s.modBlock b g).poisons = s.poisons := rfl
@[simp] theorem State.modBlock_decided (s : State) (b : Nat) (g : Block → Block) : (s.modBlock b g).decided = s.decided := rfl
@[simp] theorem State.modBlock_cores (s : State) (b : Nat) (g : Block → Block) : (s.modBlock b g).cores = s.cores := rfl
@[simp] theorem State.modBlock_lcores (s : State) (b : Nat) (g : Block → Block) : (s.modBlock b g).lcores = s.lcores := rfl
@[simp] theorem State.modBlock_dies (s : State) (b : Nat) (g : Block → Block) : (s.modBlock b g).dies = s.dies := rfl
@[simp] theorem State.modBlock_clusters (s : State) (b : Nat) (g : Block → Block) : (s.modBlock b g).clusters = s.clusters := rfl
@[simp] theorem State.modBlock_ports (s : State) (b : Nat) (g : Block → Block) : (s.modBlock b g).ports = s.ports := rfl
@[simp] theorem State.modBlock_waves (s : State) (b : Nat) (g : Block → Block) : (s.modBlock b g).waves = s.waves := rfl
@[simp] theorem State.modBlock_saved (s : State) (b : Nat) (g : Block → Block) : (s.modBlock b g).saved = s.saved := rfl
@[simp] theorem State.modBlock_launches (s : State) (b : Nat) (g : Block → Block) : (s.modBlock b g).launches = s.launches := rfl
@[simp] theorem State.modBlock_nextLid (s : State) (b : Nat) (g : Block → Block) : (s.modBlock b g).nextLid = s.nextLid := rfl
@[simp] theorem State.modBlock_newestLid (s : State) (b : Nat) (g : Block → Block) : (s.modBlock b g).newestLid = s.newestLid := rfl
@[simp] theorem State.modBlock_nextId (s : State) (b : Nat) (g : Block → Block) : (s.modBlock b g).nextId = s.nextId := rfl
@[simp] theorem State.modBlock_inflight (s : State) (b : Nat) (g : Block → Block) : (s.modBlock b g).inflight = s.inflight := rfl
@[simp] theorem State.modBlock_bundles (s : State) (b : Nat) (g : Block → Block) : (s.modBlock b g).bundles = s.bundles := rfl
@[simp] theorem State.modBlock_replies (s : State) (b : Nat) (g : Block → Block) : (s.modBlock b g).replies = s.replies := rfl
@[simp] theorem State.modBlock_cmds (s : State) (b : Nat) (g : Block → Block) : (s.modBlock b g).cmds = s.cmds := rfl
@[simp] theorem State.modBlock_packets (s : State) (b : Nat) (g : Block → Block) : (s.modBlock b g).packets = s.packets := rfl
@[simp] theorem State.modBlock_arrivals (s : State) (b : Nat) (g : Block → Block) : (s.modBlock b g).arrivals = s.arrivals := rfl
@[simp] theorem State.modBlock_heldFlags (s : State) (b : Nat) (g : Block → Block) : (s.modBlock b g).heldFlags = s.heldFlags := rfl
@[simp] theorem State.modBlock_stalled (s : State) (b : Nat) (g : Block → Block) : (s.modBlock b g).stalled = s.stalled := rfl
@[simp] theorem State.modBlock_package (s : State) (b : Nat) (g : Block → Block) : (s.modBlock b g).package = s.package := rfl
@[simp] theorem State.modBlock_paths (s : State) (b : Nat) (g : Block → Block) : (s.modBlock b g).paths = s.paths := rfl
@[simp] theorem State.modBlock_windows (s : State) (b : Nat) (g : Block → Block) : (s.modBlock b g).windows = s.windows := rfl
@[simp] theorem State.modBlock_linksDown (s : State) (b : Nat) (g : Block → Block) : (s.modBlock b g).linksDown = s.linksDown := rfl
@[simp] theorem State.modBlock_crcRetries (s : State) (b : Nat) (g : Block → Block) : (s.modBlock b g).crcRetries = s.crcRetries := rfl
@[simp] theorem State.modBlock_hostOut (s : State) (b : Nat) (g : Block → Block) : (s.modBlock b g).hostOut = s.hostOut := rfl
@[simp] theorem State.modBlock_served (s : State) (b : Nat) (g : Block → Block) : (s.modBlock b g).served = s.served := rfl
@[simp] theorem State.modBlock_ctr (s : State) (b : Nat) (g : Block → Block) : (s.modBlock b g).ctr = s.ctr := rfl
@[simp] theorem State.modBlock_agenda (s : State) (b : Nat) (g : Block → Block) : (s.modBlock b g).agenda = s.agenda := rfl
@[simp] theorem State.modBlock_turn (s : State) (b : Nat) (g : Block → Block) : (s.modBlock b g).turn = s.turn := rfl

/-! ### State.modLaunch -/

@[simp] theorem State.modLaunch_clk (s : State) (l : Nat) (g : Launch → Launch) : (s.modLaunch l g).clk = s.clk := rfl
@[simp] theorem State.modLaunch_phase (s : State) (l : Nat) (g : Launch → Launch) : (s.modLaunch l g).phase = s.phase := rfl
@[simp] theorem State.modLaunch_fail (s : State) (l : Nat) (g : Launch → Launch) : (s.modLaunch l g).fail = s.fail := rfl
@[simp] theorem State.modLaunch_fcode (s : State) (l : Nat) (g : Launch → Launch) : (s.modLaunch l g).fcode = s.fcode := rfl
@[simp] theorem State.modLaunch_config (s : State) (l : Nat) (g : Launch → Launch) : (s.modLaunch l g).config = s.config := rfl
@[simp] theorem State.modLaunch_ident (s : State) (l : Nat) (g : Launch → Launch) : (s.modLaunch l g).ident = s.ident := rfl
@[simp] theorem State.modLaunch_mhz (s : State) (l : Nat) (g : Launch → Launch) : (s.modLaunch l g).mhz = s.mhz := rfl
@[simp] theorem State.modLaunch_limit (s : State) (l : Nat) (g : Launch → Launch) : (s.modLaunch l g).limit = s.limit := rfl
@[simp] theorem State.modLaunch_ceiling (s : State) (l : Nat) (g : Launch → Launch) : (s.modLaunch l g).ceiling = s.ceiling := rfl
@[simp] theorem State.modLaunch_overBudget (s : State) (l : Nat) (g : Launch → Launch) : (s.modLaunch l g).overBudget = s.overBudget := rfl
@[simp] theorem State.modLaunch_windowsDone (s : State) (l : Nat) (g : Launch → Launch) : (s.modLaunch l g).windowsDone = s.windowsDone := rfl
@[simp] theorem State.modLaunch_repair (s : State) (l : Nat) (g : Launch → Launch) : (s.modLaunch l g).repair = s.repair := rfl
@[simp] theorem State.modLaunch_keyHash (s : State) (l : Nat) (g : Launch → Launch) : (s.modLaunch l g).keyHash = s.keyHash := rfl
@[simp] theorem State.modLaunch_minVersion (s : State) (l : Nat) (g : Launch → Launch) : (s.modLaunch l g).minVersion = s.minVersion := rfl
@[simp] theorem State.modLaunch_firmware (s : State) (l : Nat) (g : Launch → Launch) : (s.modLaunch l g).firmware = s.firmware := rfl
@[simp] theorem State.modLaunch_deadCores (s : State) (l : Nat) (g : Launch → Launch) : (s.modLaunch l g).deadCores = s.deadCores := rfl
@[simp] theorem State.modLaunch_powerEvents (s : State) (l : Nat) (g : Launch → Launch) : (s.modLaunch l g).powerEvents = s.powerEvents := rfl
@[simp] theorem State.modLaunch_thermalEvents (s : State) (l : Nat) (g : Launch → Launch) : (s.modLaunch l g).thermalEvents = s.thermalEvents := rfl
@[simp] theorem State.modLaunch_shutdown (s : State) (l : Nat) (g : Launch → Launch) : (s.modLaunch l g).shutdown = s.shutdown := rfl
@[simp] theorem State.modLaunch_mem (s : State) (l : Nat) (g : Launch → Launch) : (s.modLaunch l g).mem = s.mem := rfl
@[simp] theorem State.modLaunch_tags (s : State) (l : Nat) (g : Launch → Launch) : (s.modLaunch l g).tags = s.tags := rfl
@[simp] theorem State.modLaunch_bad (s : State) (l : Nat) (g : Launch → Launch) : (s.modLaunch l g).bad = s.bad := rfl
@[simp] theorem State.modLaunch_swm (s : State) (l : Nat) (g : Launch → Launch) : (s.modLaunch l g).swm = s.swm := rfl
@[simp] theorem State.modLaunch_homeL (s : State) (l : Nat) (g : Launch → Launch) : (s.modLaunch l g).homeL = s.homeL := rfl
@[simp] theorem State.modLaunch_homeG (s : State) (l : Nat) (g : Launch → Launch) : (s.modLaunch l g).homeG = s.homeG := rfl
@[simp] theorem State.modLaunch_blends (s : State) (l : Nat) (g : Launch → Launch) : (s.modLaunch l g).blends = s.blends := rfl
@[simp] theorem State.modLaunch_colls (s : State) (l : Nat) (g : Launch → Launch) : (s.modLaunch l g).colls = s.colls := rfl
@[simp] theorem State.modLaunch_outbox (s : State) (l : Nat) (g : Launch → Launch) : (s.modLaunch l g).outbox = s.outbox := rfl
@[simp] theorem State.modLaunch_poisons (s : State) (l : Nat) (g : Launch → Launch) : (s.modLaunch l g).poisons = s.poisons := rfl
@[simp] theorem State.modLaunch_decided (s : State) (l : Nat) (g : Launch → Launch) : (s.modLaunch l g).decided = s.decided := rfl
@[simp] theorem State.modLaunch_cores (s : State) (l : Nat) (g : Launch → Launch) : (s.modLaunch l g).cores = s.cores := rfl
@[simp] theorem State.modLaunch_lcores (s : State) (l : Nat) (g : Launch → Launch) : (s.modLaunch l g).lcores = s.lcores := rfl
@[simp] theorem State.modLaunch_dies (s : State) (l : Nat) (g : Launch → Launch) : (s.modLaunch l g).dies = s.dies := rfl
@[simp] theorem State.modLaunch_clusters (s : State) (l : Nat) (g : Launch → Launch) : (s.modLaunch l g).clusters = s.clusters := rfl
@[simp] theorem State.modLaunch_ports (s : State) (l : Nat) (g : Launch → Launch) : (s.modLaunch l g).ports = s.ports := rfl
@[simp] theorem State.modLaunch_waves (s : State) (l : Nat) (g : Launch → Launch) : (s.modLaunch l g).waves = s.waves := rfl
@[simp] theorem State.modLaunch_saved (s : State) (l : Nat) (g : Launch → Launch) : (s.modLaunch l g).saved = s.saved := rfl
@[simp] theorem State.modLaunch_blocks (s : State) (l : Nat) (g : Launch → Launch) : (s.modLaunch l g).blocks = s.blocks := rfl
@[simp] theorem State.modLaunch_nextLid (s : State) (l : Nat) (g : Launch → Launch) : (s.modLaunch l g).nextLid = s.nextLid := rfl
@[simp] theorem State.modLaunch_newestLid (s : State) (l : Nat) (g : Launch → Launch) : (s.modLaunch l g).newestLid = s.newestLid := rfl
@[simp] theorem State.modLaunch_nextId (s : State) (l : Nat) (g : Launch → Launch) : (s.modLaunch l g).nextId = s.nextId := rfl
@[simp] theorem State.modLaunch_inflight (s : State) (l : Nat) (g : Launch → Launch) : (s.modLaunch l g).inflight = s.inflight := rfl
@[simp] theorem State.modLaunch_bundles (s : State) (l : Nat) (g : Launch → Launch) : (s.modLaunch l g).bundles = s.bundles := rfl
@[simp] theorem State.modLaunch_replies (s : State) (l : Nat) (g : Launch → Launch) : (s.modLaunch l g).replies = s.replies := rfl
@[simp] theorem State.modLaunch_cmds (s : State) (l : Nat) (g : Launch → Launch) : (s.modLaunch l g).cmds = s.cmds := rfl
@[simp] theorem State.modLaunch_packets (s : State) (l : Nat) (g : Launch → Launch) : (s.modLaunch l g).packets = s.packets := rfl
@[simp] theorem State.modLaunch_arrivals (s : State) (l : Nat) (g : Launch → Launch) : (s.modLaunch l g).arrivals = s.arrivals := rfl
@[simp] theorem State.modLaunch_heldFlags (s : State) (l : Nat) (g : Launch → Launch) : (s.modLaunch l g).heldFlags = s.heldFlags := rfl
@[simp] theorem State.modLaunch_stalled (s : State) (l : Nat) (g : Launch → Launch) : (s.modLaunch l g).stalled = s.stalled := rfl
@[simp] theorem State.modLaunch_package (s : State) (l : Nat) (g : Launch → Launch) : (s.modLaunch l g).package = s.package := rfl
@[simp] theorem State.modLaunch_paths (s : State) (l : Nat) (g : Launch → Launch) : (s.modLaunch l g).paths = s.paths := rfl
@[simp] theorem State.modLaunch_windows (s : State) (l : Nat) (g : Launch → Launch) : (s.modLaunch l g).windows = s.windows := rfl
@[simp] theorem State.modLaunch_linksDown (s : State) (l : Nat) (g : Launch → Launch) : (s.modLaunch l g).linksDown = s.linksDown := rfl
@[simp] theorem State.modLaunch_crcRetries (s : State) (l : Nat) (g : Launch → Launch) : (s.modLaunch l g).crcRetries = s.crcRetries := rfl
@[simp] theorem State.modLaunch_hostOut (s : State) (l : Nat) (g : Launch → Launch) : (s.modLaunch l g).hostOut = s.hostOut := rfl
@[simp] theorem State.modLaunch_served (s : State) (l : Nat) (g : Launch → Launch) : (s.modLaunch l g).served = s.served := rfl
@[simp] theorem State.modLaunch_ctr (s : State) (l : Nat) (g : Launch → Launch) : (s.modLaunch l g).ctr = s.ctr := rfl
@[simp] theorem State.modLaunch_agenda (s : State) (l : Nat) (g : Launch → Launch) : (s.modLaunch l g).agenda = s.agenda := rfl
@[simp] theorem State.modLaunch_turn (s : State) (l : Nat) (g : Launch → Launch) : (s.modLaunch l g).turn = s.turn := rfl

/-! ### State.modAny -/

@[simp] theorem State.modAny_clk (s : State) (u : Nat) (g : Wave → Wave) : (s.modAny u g).clk = s.clk := rfl
@[simp] theorem State.modAny_phase (s : State) (u : Nat) (g : Wave → Wave) : (s.modAny u g).phase = s.phase := rfl
@[simp] theorem State.modAny_fail (s : State) (u : Nat) (g : Wave → Wave) : (s.modAny u g).fail = s.fail := rfl
@[simp] theorem State.modAny_fcode (s : State) (u : Nat) (g : Wave → Wave) : (s.modAny u g).fcode = s.fcode := rfl
@[simp] theorem State.modAny_config (s : State) (u : Nat) (g : Wave → Wave) : (s.modAny u g).config = s.config := rfl
@[simp] theorem State.modAny_ident (s : State) (u : Nat) (g : Wave → Wave) : (s.modAny u g).ident = s.ident := rfl
@[simp] theorem State.modAny_mhz (s : State) (u : Nat) (g : Wave → Wave) : (s.modAny u g).mhz = s.mhz := rfl
@[simp] theorem State.modAny_limit (s : State) (u : Nat) (g : Wave → Wave) : (s.modAny u g).limit = s.limit := rfl
@[simp] theorem State.modAny_ceiling (s : State) (u : Nat) (g : Wave → Wave) : (s.modAny u g).ceiling = s.ceiling := rfl
@[simp] theorem State.modAny_overBudget (s : State) (u : Nat) (g : Wave → Wave) : (s.modAny u g).overBudget = s.overBudget := rfl
@[simp] theorem State.modAny_windowsDone (s : State) (u : Nat) (g : Wave → Wave) : (s.modAny u g).windowsDone = s.windowsDone := rfl
@[simp] theorem State.modAny_repair (s : State) (u : Nat) (g : Wave → Wave) : (s.modAny u g).repair = s.repair := rfl
@[simp] theorem State.modAny_keyHash (s : State) (u : Nat) (g : Wave → Wave) : (s.modAny u g).keyHash = s.keyHash := rfl
@[simp] theorem State.modAny_minVersion (s : State) (u : Nat) (g : Wave → Wave) : (s.modAny u g).minVersion = s.minVersion := rfl
@[simp] theorem State.modAny_firmware (s : State) (u : Nat) (g : Wave → Wave) : (s.modAny u g).firmware = s.firmware := rfl
@[simp] theorem State.modAny_deadCores (s : State) (u : Nat) (g : Wave → Wave) : (s.modAny u g).deadCores = s.deadCores := rfl
@[simp] theorem State.modAny_powerEvents (s : State) (u : Nat) (g : Wave → Wave) : (s.modAny u g).powerEvents = s.powerEvents := rfl
@[simp] theorem State.modAny_thermalEvents (s : State) (u : Nat) (g : Wave → Wave) : (s.modAny u g).thermalEvents = s.thermalEvents := rfl
@[simp] theorem State.modAny_shutdown (s : State) (u : Nat) (g : Wave → Wave) : (s.modAny u g).shutdown = s.shutdown := rfl
@[simp] theorem State.modAny_mem (s : State) (u : Nat) (g : Wave → Wave) : (s.modAny u g).mem = s.mem := rfl
@[simp] theorem State.modAny_tags (s : State) (u : Nat) (g : Wave → Wave) : (s.modAny u g).tags = s.tags := rfl
@[simp] theorem State.modAny_bad (s : State) (u : Nat) (g : Wave → Wave) : (s.modAny u g).bad = s.bad := rfl
@[simp] theorem State.modAny_swm (s : State) (u : Nat) (g : Wave → Wave) : (s.modAny u g).swm = s.swm := rfl
@[simp] theorem State.modAny_homeL (s : State) (u : Nat) (g : Wave → Wave) : (s.modAny u g).homeL = s.homeL := rfl
@[simp] theorem State.modAny_homeG (s : State) (u : Nat) (g : Wave → Wave) : (s.modAny u g).homeG = s.homeG := rfl
@[simp] theorem State.modAny_blends (s : State) (u : Nat) (g : Wave → Wave) : (s.modAny u g).blends = s.blends := rfl
@[simp] theorem State.modAny_colls (s : State) (u : Nat) (g : Wave → Wave) : (s.modAny u g).colls = s.colls := rfl
@[simp] theorem State.modAny_outbox (s : State) (u : Nat) (g : Wave → Wave) : (s.modAny u g).outbox = s.outbox := rfl
@[simp] theorem State.modAny_poisons (s : State) (u : Nat) (g : Wave → Wave) : (s.modAny u g).poisons = s.poisons := rfl
@[simp] theorem State.modAny_decided (s : State) (u : Nat) (g : Wave → Wave) : (s.modAny u g).decided = s.decided := rfl
@[simp] theorem State.modAny_cores (s : State) (u : Nat) (g : Wave → Wave) : (s.modAny u g).cores = s.cores := rfl
@[simp] theorem State.modAny_lcores (s : State) (u : Nat) (g : Wave → Wave) : (s.modAny u g).lcores = s.lcores := rfl
@[simp] theorem State.modAny_dies (s : State) (u : Nat) (g : Wave → Wave) : (s.modAny u g).dies = s.dies := rfl
@[simp] theorem State.modAny_clusters (s : State) (u : Nat) (g : Wave → Wave) : (s.modAny u g).clusters = s.clusters := rfl
@[simp] theorem State.modAny_ports (s : State) (u : Nat) (g : Wave → Wave) : (s.modAny u g).ports = s.ports := rfl
@[simp] theorem State.modAny_blocks (s : State) (u : Nat) (g : Wave → Wave) : (s.modAny u g).blocks = s.blocks := rfl
@[simp] theorem State.modAny_launches (s : State) (u : Nat) (g : Wave → Wave) : (s.modAny u g).launches = s.launches := rfl
@[simp] theorem State.modAny_nextLid (s : State) (u : Nat) (g : Wave → Wave) : (s.modAny u g).nextLid = s.nextLid := rfl
@[simp] theorem State.modAny_newestLid (s : State) (u : Nat) (g : Wave → Wave) : (s.modAny u g).newestLid = s.newestLid := rfl
@[simp] theorem State.modAny_nextId (s : State) (u : Nat) (g : Wave → Wave) : (s.modAny u g).nextId = s.nextId := rfl
@[simp] theorem State.modAny_inflight (s : State) (u : Nat) (g : Wave → Wave) : (s.modAny u g).inflight = s.inflight := rfl
@[simp] theorem State.modAny_bundles (s : State) (u : Nat) (g : Wave → Wave) : (s.modAny u g).bundles = s.bundles := rfl
@[simp] theorem State.modAny_replies (s : State) (u : Nat) (g : Wave → Wave) : (s.modAny u g).replies = s.replies := rfl
@[simp] theorem State.modAny_cmds (s : State) (u : Nat) (g : Wave → Wave) : (s.modAny u g).cmds = s.cmds := rfl
@[simp] theorem State.modAny_packets (s : State) (u : Nat) (g : Wave → Wave) : (s.modAny u g).packets = s.packets := rfl
@[simp] theorem State.modAny_arrivals (s : State) (u : Nat) (g : Wave → Wave) : (s.modAny u g).arrivals = s.arrivals := rfl
@[simp] theorem State.modAny_heldFlags (s : State) (u : Nat) (g : Wave → Wave) : (s.modAny u g).heldFlags = s.heldFlags := rfl
@[simp] theorem State.modAny_stalled (s : State) (u : Nat) (g : Wave → Wave) : (s.modAny u g).stalled = s.stalled := rfl
@[simp] theorem State.modAny_package (s : State) (u : Nat) (g : Wave → Wave) : (s.modAny u g).package = s.package := rfl
@[simp] theorem State.modAny_paths (s : State) (u : Nat) (g : Wave → Wave) : (s.modAny u g).paths = s.paths := rfl
@[simp] theorem State.modAny_windows (s : State) (u : Nat) (g : Wave → Wave) : (s.modAny u g).windows = s.windows := rfl
@[simp] theorem State.modAny_linksDown (s : State) (u : Nat) (g : Wave → Wave) : (s.modAny u g).linksDown = s.linksDown := rfl
@[simp] theorem State.modAny_crcRetries (s : State) (u : Nat) (g : Wave → Wave) : (s.modAny u g).crcRetries = s.crcRetries := rfl
@[simp] theorem State.modAny_hostOut (s : State) (u : Nat) (g : Wave → Wave) : (s.modAny u g).hostOut = s.hostOut := rfl
@[simp] theorem State.modAny_served (s : State) (u : Nat) (g : Wave → Wave) : (s.modAny u g).served = s.served := rfl
@[simp] theorem State.modAny_ctr (s : State) (u : Nat) (g : Wave → Wave) : (s.modAny u g).ctr = s.ctr := rfl
@[simp] theorem State.modAny_agenda (s : State) (u : Nat) (g : Wave → Wave) : (s.modAny u g).agenda = s.agenda := rfl
@[simp] theorem State.modAny_turn (s : State) (u : Nat) (g : Wave → Wave) : (s.modAny u g).turn = s.turn := rfl

/-! ### State.setLane -/

@[simp] theorem State.setLane_clk (s : State) (u l : Nat) (g : Thread → Thread) : (s.setLane u l g).clk = s.clk := rfl
@[simp] theorem State.setLane_phase (s : State) (u l : Nat) (g : Thread → Thread) : (s.setLane u l g).phase = s.phase := rfl
@[simp] theorem State.setLane_fail (s : State) (u l : Nat) (g : Thread → Thread) : (s.setLane u l g).fail = s.fail := rfl
@[simp] theorem State.setLane_fcode (s : State) (u l : Nat) (g : Thread → Thread) : (s.setLane u l g).fcode = s.fcode := rfl
@[simp] theorem State.setLane_config (s : State) (u l : Nat) (g : Thread → Thread) : (s.setLane u l g).config = s.config := rfl
@[simp] theorem State.setLane_ident (s : State) (u l : Nat) (g : Thread → Thread) : (s.setLane u l g).ident = s.ident := rfl
@[simp] theorem State.setLane_mhz (s : State) (u l : Nat) (g : Thread → Thread) : (s.setLane u l g).mhz = s.mhz := rfl
@[simp] theorem State.setLane_limit (s : State) (u l : Nat) (g : Thread → Thread) : (s.setLane u l g).limit = s.limit := rfl
@[simp] theorem State.setLane_ceiling (s : State) (u l : Nat) (g : Thread → Thread) : (s.setLane u l g).ceiling = s.ceiling := rfl
@[simp] theorem State.setLane_overBudget (s : State) (u l : Nat) (g : Thread → Thread) : (s.setLane u l g).overBudget = s.overBudget := rfl
@[simp] theorem State.setLane_windowsDone (s : State) (u l : Nat) (g : Thread → Thread) : (s.setLane u l g).windowsDone = s.windowsDone := rfl
@[simp] theorem State.setLane_repair (s : State) (u l : Nat) (g : Thread → Thread) : (s.setLane u l g).repair = s.repair := rfl
@[simp] theorem State.setLane_keyHash (s : State) (u l : Nat) (g : Thread → Thread) : (s.setLane u l g).keyHash = s.keyHash := rfl
@[simp] theorem State.setLane_minVersion (s : State) (u l : Nat) (g : Thread → Thread) : (s.setLane u l g).minVersion = s.minVersion := rfl
@[simp] theorem State.setLane_firmware (s : State) (u l : Nat) (g : Thread → Thread) : (s.setLane u l g).firmware = s.firmware := rfl
@[simp] theorem State.setLane_deadCores (s : State) (u l : Nat) (g : Thread → Thread) : (s.setLane u l g).deadCores = s.deadCores := rfl
@[simp] theorem State.setLane_powerEvents (s : State) (u l : Nat) (g : Thread → Thread) : (s.setLane u l g).powerEvents = s.powerEvents := rfl
@[simp] theorem State.setLane_thermalEvents (s : State) (u l : Nat) (g : Thread → Thread) : (s.setLane u l g).thermalEvents = s.thermalEvents := rfl
@[simp] theorem State.setLane_shutdown (s : State) (u l : Nat) (g : Thread → Thread) : (s.setLane u l g).shutdown = s.shutdown := rfl
@[simp] theorem State.setLane_mem (s : State) (u l : Nat) (g : Thread → Thread) : (s.setLane u l g).mem = s.mem := rfl
@[simp] theorem State.setLane_tags (s : State) (u l : Nat) (g : Thread → Thread) : (s.setLane u l g).tags = s.tags := rfl
@[simp] theorem State.setLane_bad (s : State) (u l : Nat) (g : Thread → Thread) : (s.setLane u l g).bad = s.bad := rfl
@[simp] theorem State.setLane_swm (s : State) (u l : Nat) (g : Thread → Thread) : (s.setLane u l g).swm = s.swm := rfl
@[simp] theorem State.setLane_homeL (s : State) (u l : Nat) (g : Thread → Thread) : (s.setLane u l g).homeL = s.homeL := rfl
@[simp] theorem State.setLane_homeG (s : State) (u l : Nat) (g : Thread → Thread) : (s.setLane u l g).homeG = s.homeG := rfl
@[simp] theorem State.setLane_blends (s : State) (u l : Nat) (g : Thread → Thread) : (s.setLane u l g).blends = s.blends := rfl
@[simp] theorem State.setLane_colls (s : State) (u l : Nat) (g : Thread → Thread) : (s.setLane u l g).colls = s.colls := rfl
@[simp] theorem State.setLane_outbox (s : State) (u l : Nat) (g : Thread → Thread) : (s.setLane u l g).outbox = s.outbox := rfl
@[simp] theorem State.setLane_poisons (s : State) (u l : Nat) (g : Thread → Thread) : (s.setLane u l g).poisons = s.poisons := rfl
@[simp] theorem State.setLane_decided (s : State) (u l : Nat) (g : Thread → Thread) : (s.setLane u l g).decided = s.decided := rfl
@[simp] theorem State.setLane_cores (s : State) (u l : Nat) (g : Thread → Thread) : (s.setLane u l g).cores = s.cores := rfl
@[simp] theorem State.setLane_lcores (s : State) (u l : Nat) (g : Thread → Thread) : (s.setLane u l g).lcores = s.lcores := rfl
@[simp] theorem State.setLane_dies (s : State) (u l : Nat) (g : Thread → Thread) : (s.setLane u l g).dies = s.dies := rfl
@[simp] theorem State.setLane_clusters (s : State) (u l : Nat) (g : Thread → Thread) : (s.setLane u l g).clusters = s.clusters := rfl
@[simp] theorem State.setLane_ports (s : State) (u l : Nat) (g : Thread → Thread) : (s.setLane u l g).ports = s.ports := rfl
@[simp] theorem State.setLane_saved (s : State) (u l : Nat) (g : Thread → Thread) : (s.setLane u l g).saved = s.saved := rfl
@[simp] theorem State.setLane_blocks (s : State) (u l : Nat) (g : Thread → Thread) : (s.setLane u l g).blocks = s.blocks := rfl
@[simp] theorem State.setLane_launches (s : State) (u l : Nat) (g : Thread → Thread) : (s.setLane u l g).launches = s.launches := rfl
@[simp] theorem State.setLane_nextLid (s : State) (u l : Nat) (g : Thread → Thread) : (s.setLane u l g).nextLid = s.nextLid := rfl
@[simp] theorem State.setLane_newestLid (s : State) (u l : Nat) (g : Thread → Thread) : (s.setLane u l g).newestLid = s.newestLid := rfl
@[simp] theorem State.setLane_nextId (s : State) (u l : Nat) (g : Thread → Thread) : (s.setLane u l g).nextId = s.nextId := rfl
@[simp] theorem State.setLane_inflight (s : State) (u l : Nat) (g : Thread → Thread) : (s.setLane u l g).inflight = s.inflight := rfl
@[simp] theorem State.setLane_bundles (s : State) (u l : Nat) (g : Thread → Thread) : (s.setLane u l g).bundles = s.bundles := rfl
@[simp] theorem State.setLane_replies (s : State) (u l : Nat) (g : Thread → Thread) : (s.setLane u l g).replies = s.replies := rfl
@[simp] theorem State.setLane_cmds (s : State) (u l : Nat) (g : Thread → Thread) : (s.setLane u l g).cmds = s.cmds := rfl
@[simp] theorem State.setLane_packets (s : State) (u l : Nat) (g : Thread → Thread) : (s.setLane u l g).packets = s.packets := rfl
@[simp] theorem State.setLane_arrivals (s : State) (u l : Nat) (g : Thread → Thread) : (s.setLane u l g).arrivals = s.arrivals := rfl
@[simp] theorem State.setLane_heldFlags (s : State) (u l : Nat) (g : Thread → Thread) : (s.setLane u l g).heldFlags = s.heldFlags := rfl
@[simp] theorem State.setLane_stalled (s : State) (u l : Nat) (g : Thread → Thread) : (s.setLane u l g).stalled = s.stalled := rfl
@[simp] theorem State.setLane_package (s : State) (u l : Nat) (g : Thread → Thread) : (s.setLane u l g).package = s.package := rfl
@[simp] theorem State.setLane_paths (s : State) (u l : Nat) (g : Thread → Thread) : (s.setLane u l g).paths = s.paths := rfl
@[simp] theorem State.setLane_windows (s : State) (u l : Nat) (g : Thread → Thread) : (s.setLane u l g).windows = s.windows := rfl
@[simp] theorem State.setLane_linksDown (s : State) (u l : Nat) (g : Thread → Thread) : (s.setLane u l g).linksDown = s.linksDown := rfl
@[simp] theorem State.setLane_crcRetries (s : State) (u l : Nat) (g : Thread → Thread) : (s.setLane u l g).crcRetries = s.crcRetries := rfl
@[simp] theorem State.setLane_hostOut (s : State) (u l : Nat) (g : Thread → Thread) : (s.setLane u l g).hostOut = s.hostOut := rfl
@[simp] theorem State.setLane_served (s : State) (u l : Nat) (g : Thread → Thread) : (s.setLane u l g).served = s.served := rfl
@[simp] theorem State.setLane_ctr (s : State) (u l : Nat) (g : Thread → Thread) : (s.setLane u l g).ctr = s.ctr := rfl
@[simp] theorem State.setLane_agenda (s : State) (u l : Nat) (g : Thread → Thread) : (s.setLane u l g).agenda = s.agenda := rfl
@[simp] theorem State.setLane_turn (s : State) (u l : Nat) (g : Thread → Thread) : (s.setLane u l g).turn = s.turn := rfl

/-! ### Wave.setS -/

@[simp] theorem Wave.setS_core (w : Wave) (r : Nat) (x : Word) : (w.setS r x).core = w.core := rfl
@[simp] theorem Wave.setS_ctx (w : Wave) (r : Nat) (x : Word) : (w.setS r x).ctx = w.ctx := rfl
@[simp] theorem Wave.setS_lid (w : Wave) (r : Nat) (x : Word) : (w.setS r x).lid = w.lid := rfl
@[simp] theorem Wave.setS_blk (w : Wave) (r : Nat) (x : Word) : (w.setS r x).blk = w.blk := rfl
@[simp] theorem Wave.setS_wid (w : Wave) (r : Nat) (x : Word) : (w.setS r x).wid = w.wid := rfl
@[simp] theorem Wave.setS_port (w : Wave) (r : Nat) (x : Word) : (w.setS r x).port = w.port := rfl
@[simp] theorem Wave.setS_vlim (w : Wave) (r : Nat) (x : Word) : (w.setS r x).vlim = w.vlim := rfl
@[simp] theorem Wave.setS_slim (w : Wave) (r : Nat) (x : Word) : (w.setS r x).slim = w.slim := rfl
@[simp] theorem Wave.setS_threads (w : Wave) (r : Nat) (x : Word) : (w.setS r x).threads = w.threads := rfl
@[simp] theorem Wave.setS_c (w : Wave) (r : Nat) (x : Word) : (w.setS r x).c = w.c := rfl
@[simp] theorem Wave.setS_run (w : Wave) (r : Nat) (x : Word) : (w.setS r x).run = w.run := rfl
@[simp] theorem Wave.setS_intr (w : Wave) (r : Nat) (x : Word) : (w.setS r x).intr = w.intr := rfl
@[simp] theorem Wave.setS_g (w : Wave) (r : Nat) (x : Word) : (w.setS r x).g = w.g := rfl
@[simp] theorem Wave.setS_z (w : Wave) (r : Nat) (x : Word) : (w.setS r x).z = w.z := rfl
@[simp] theorem Wave.setS_q (w : Wave) (r : Nat) (x : Word) : (w.setS r x).q = w.q := rfl
@[simp] theorem Wave.setS_vd (w : Wave) (r : Nat) (x : Word) : (w.setS r x).vd = w.vd := rfl
@[simp] theorem Wave.setS_resv (w : Wave) (r : Nat) (x : Word) : (w.setS r x).resv = w.resv := rfl
@[simp] theorem Wave.setS_reg (w : Wave) (r : Nat) (x : Word) : (w.setS r x).reg = w.reg := rfl
@[simp] theorem Wave.setS_faultAbort (w : Wave) (r : Nat) (x : Word) : (w.setS r x).faultAbort = w.faultAbort := rfl
@[simp] theorem Wave.setS_unwind (w : Wave) (r : Nat) (x : Word) : (w.setS r x).unwind = w.unwind := rfl
@[simp] theorem Wave.setS_rstat (w : Wave) (r : Nat) (x : Word) : (w.setS r x).rstat = w.rstat := rfl
@[simp] theorem Wave.setS_estat (w : Wave) (r : Nat) (x : Word) : (w.setS r x).estat = w.estat := rfl
@[simp] theorem Wave.setS_hint (w : Wave) (r : Nat) (x : Word) : (w.setS r x).hint = w.hint := rfl
@[simp] theorem Wave.setS_yielded (w : Wave) (r : Nat) (x : Word) : (w.setS r x).yielded = w.yielded := rfl
@[simp] theorem Wave.setS_late (w : Wave) (r : Nat) (x : Word) : (w.setS r x).late = w.late := rfl
@[simp] theorem Wave.setS_since (w : Wave) (r : Nat) (x : Word) : (w.setS r x).since = w.since := rfl
@[simp] theorem Wave.setS_ops (w : Wave) (r : Nat) (x : Word) : (w.setS r x).ops = w.ops := rfl
@[simp] theorem Wave.setS_fails (w : Wave) (r : Nat) (x : Word) : (w.setS r x).fails = w.fails := rfl
@[simp] theorem Wave.setS_sops (w : Wave) (r : Nat) (x : Word) : (w.setS r x).sops = w.sops := rfl
@[simp] theorem Wave.setS_epoch (w : Wave) (r : Nat) (x : Word) : (w.setS r x).epoch = w.epoch := rfl
@[simp] theorem Wave.setS_sent (w : Wave) (r : Nat) (x : Word) : (w.setS r x).sent = w.sent := rfl
@[simp] theorem Wave.setS_brk (w : Wave) (r : Nat) (x : Word) : (w.setS r x).brk = w.brk := rfl
@[simp] theorem Wave.setS_sect (w : Wave) (r : Nat) (x : Word) : (w.setS r x).sect = w.sect := rfl
@[simp] theorem Wave.setS_abroad (w : Wave) (r : Nat) (x : Word) : (w.setS r x).abroad = w.abroad := rfl

/-! ### Wave.setC -/

@[simp] theorem Wave.setC_core (w : Wave) (k : Nat) (x : Cap) : (w.setC k x).core = w.core := rfl
@[simp] theorem Wave.setC_ctx (w : Wave) (k : Nat) (x : Cap) : (w.setC k x).ctx = w.ctx := rfl
@[simp] theorem Wave.setC_lid (w : Wave) (k : Nat) (x : Cap) : (w.setC k x).lid = w.lid := rfl
@[simp] theorem Wave.setC_blk (w : Wave) (k : Nat) (x : Cap) : (w.setC k x).blk = w.blk := rfl
@[simp] theorem Wave.setC_wid (w : Wave) (k : Nat) (x : Cap) : (w.setC k x).wid = w.wid := rfl
@[simp] theorem Wave.setC_port (w : Wave) (k : Nat) (x : Cap) : (w.setC k x).port = w.port := rfl
@[simp] theorem Wave.setC_vlim (w : Wave) (k : Nat) (x : Cap) : (w.setC k x).vlim = w.vlim := rfl
@[simp] theorem Wave.setC_slim (w : Wave) (k : Nat) (x : Cap) : (w.setC k x).slim = w.slim := rfl
@[simp] theorem Wave.setC_threads (w : Wave) (k : Nat) (x : Cap) : (w.setC k x).threads = w.threads := rfl
@[simp] theorem Wave.setC_s (w : Wave) (k : Nat) (x : Cap) : (w.setC k x).s = w.s := rfl
@[simp] theorem Wave.setC_run (w : Wave) (k : Nat) (x : Cap) : (w.setC k x).run = w.run := rfl
@[simp] theorem Wave.setC_intr (w : Wave) (k : Nat) (x : Cap) : (w.setC k x).intr = w.intr := rfl
@[simp] theorem Wave.setC_g (w : Wave) (k : Nat) (x : Cap) : (w.setC k x).g = w.g := rfl
@[simp] theorem Wave.setC_z (w : Wave) (k : Nat) (x : Cap) : (w.setC k x).z = w.z := rfl
@[simp] theorem Wave.setC_q (w : Wave) (k : Nat) (x : Cap) : (w.setC k x).q = w.q := rfl
@[simp] theorem Wave.setC_vd (w : Wave) (k : Nat) (x : Cap) : (w.setC k x).vd = w.vd := rfl
@[simp] theorem Wave.setC_resv (w : Wave) (k : Nat) (x : Cap) : (w.setC k x).resv = w.resv := rfl
@[simp] theorem Wave.setC_reg (w : Wave) (k : Nat) (x : Cap) : (w.setC k x).reg = w.reg := rfl
@[simp] theorem Wave.setC_faultAbort (w : Wave) (k : Nat) (x : Cap) : (w.setC k x).faultAbort = w.faultAbort := rfl
@[simp] theorem Wave.setC_unwind (w : Wave) (k : Nat) (x : Cap) : (w.setC k x).unwind = w.unwind := rfl
@[simp] theorem Wave.setC_rstat (w : Wave) (k : Nat) (x : Cap) : (w.setC k x).rstat = w.rstat := rfl
@[simp] theorem Wave.setC_estat (w : Wave) (k : Nat) (x : Cap) : (w.setC k x).estat = w.estat := rfl
@[simp] theorem Wave.setC_hint (w : Wave) (k : Nat) (x : Cap) : (w.setC k x).hint = w.hint := rfl
@[simp] theorem Wave.setC_yielded (w : Wave) (k : Nat) (x : Cap) : (w.setC k x).yielded = w.yielded := rfl
@[simp] theorem Wave.setC_late (w : Wave) (k : Nat) (x : Cap) : (w.setC k x).late = w.late := rfl
@[simp] theorem Wave.setC_since (w : Wave) (k : Nat) (x : Cap) : (w.setC k x).since = w.since := rfl
@[simp] theorem Wave.setC_ops (w : Wave) (k : Nat) (x : Cap) : (w.setC k x).ops = w.ops := rfl
@[simp] theorem Wave.setC_fails (w : Wave) (k : Nat) (x : Cap) : (w.setC k x).fails = w.fails := rfl
@[simp] theorem Wave.setC_sops (w : Wave) (k : Nat) (x : Cap) : (w.setC k x).sops = w.sops := rfl
@[simp] theorem Wave.setC_epoch (w : Wave) (k : Nat) (x : Cap) : (w.setC k x).epoch = w.epoch := rfl
@[simp] theorem Wave.setC_sent (w : Wave) (k : Nat) (x : Cap) : (w.setC k x).sent = w.sent := rfl
@[simp] theorem Wave.setC_brk (w : Wave) (k : Nat) (x : Cap) : (w.setC k x).brk = w.brk := rfl
@[simp] theorem Wave.setC_sect (w : Wave) (k : Nat) (x : Cap) : (w.setC k x).sect = w.sect := rfl
@[simp] theorem Wave.setC_abroad (w : Wave) (k : Nat) (x : Cap) : (w.setC k x).abroad = w.abroad := rfl

/-! ### Wave.modTh -/

@[simp] theorem Wave.modTh_core (w : Wave) (l : Nat) (g : Thread → Thread) : (w.modTh l g).core = w.core := rfl
@[simp] theorem Wave.modTh_ctx (w : Wave) (l : Nat) (g : Thread → Thread) : (w.modTh l g).ctx = w.ctx := rfl
@[simp] theorem Wave.modTh_lid (w : Wave) (l : Nat) (g : Thread → Thread) : (w.modTh l g).lid = w.lid := rfl
@[simp] theorem Wave.modTh_blk (w : Wave) (l : Nat) (g : Thread → Thread) : (w.modTh l g).blk = w.blk := rfl
@[simp] theorem Wave.modTh_wid (w : Wave) (l : Nat) (g : Thread → Thread) : (w.modTh l g).wid = w.wid := rfl
@[simp] theorem Wave.modTh_port (w : Wave) (l : Nat) (g : Thread → Thread) : (w.modTh l g).port = w.port := rfl
@[simp] theorem Wave.modTh_vlim (w : Wave) (l : Nat) (g : Thread → Thread) : (w.modTh l g).vlim = w.vlim := rfl
@[simp] theorem Wave.modTh_slim (w : Wave) (l : Nat) (g : Thread → Thread) : (w.modTh l g).slim = w.slim := rfl
@[simp] theorem Wave.modTh_s (w : Wave) (l : Nat) (g : Thread → Thread) : (w.modTh l g).s = w.s := rfl
@[simp] theorem Wave.modTh_c (w : Wave) (l : Nat) (g : Thread → Thread) : (w.modTh l g).c = w.c := rfl
@[simp] theorem Wave.modTh_run (w : Wave) (l : Nat) (g : Thread → Thread) : (w.modTh l g).run = w.run := rfl
@[simp] theorem Wave.modTh_intr (w : Wave) (l : Nat) (g : Thread → Thread) : (w.modTh l g).intr = w.intr := rfl
@[simp] theorem Wave.modTh_g (w : Wave) (l : Nat) (g : Thread → Thread) : (w.modTh l g).g = w.g := rfl
@[simp] theorem Wave.modTh_z (w : Wave) (l : Nat) (g : Thread → Thread) : (w.modTh l g).z = w.z := rfl
@[simp] theorem Wave.modTh_q (w : Wave) (l : Nat) (g : Thread → Thread) : (w.modTh l g).q = w.q := rfl
@[simp] theorem Wave.modTh_vd (w : Wave) (l : Nat) (g : Thread → Thread) : (w.modTh l g).vd = w.vd := rfl
@[simp] theorem Wave.modTh_resv (w : Wave) (l : Nat) (g : Thread → Thread) : (w.modTh l g).resv = w.resv := rfl
@[simp] theorem Wave.modTh_reg (w : Wave) (l : Nat) (g : Thread → Thread) : (w.modTh l g).reg = w.reg := rfl
@[simp] theorem Wave.modTh_faultAbort (w : Wave) (l : Nat) (g : Thread → Thread) : (w.modTh l g).faultAbort = w.faultAbort := rfl
@[simp] theorem Wave.modTh_unwind (w : Wave) (l : Nat) (g : Thread → Thread) : (w.modTh l g).unwind = w.unwind := rfl
@[simp] theorem Wave.modTh_rstat (w : Wave) (l : Nat) (g : Thread → Thread) : (w.modTh l g).rstat = w.rstat := rfl
@[simp] theorem Wave.modTh_estat (w : Wave) (l : Nat) (g : Thread → Thread) : (w.modTh l g).estat = w.estat := rfl
@[simp] theorem Wave.modTh_hint (w : Wave) (l : Nat) (g : Thread → Thread) : (w.modTh l g).hint = w.hint := rfl
@[simp] theorem Wave.modTh_yielded (w : Wave) (l : Nat) (g : Thread → Thread) : (w.modTh l g).yielded = w.yielded := rfl
@[simp] theorem Wave.modTh_late (w : Wave) (l : Nat) (g : Thread → Thread) : (w.modTh l g).late = w.late := rfl
@[simp] theorem Wave.modTh_since (w : Wave) (l : Nat) (g : Thread → Thread) : (w.modTh l g).since = w.since := rfl
@[simp] theorem Wave.modTh_ops (w : Wave) (l : Nat) (g : Thread → Thread) : (w.modTh l g).ops = w.ops := rfl
@[simp] theorem Wave.modTh_fails (w : Wave) (l : Nat) (g : Thread → Thread) : (w.modTh l g).fails = w.fails := rfl
@[simp] theorem Wave.modTh_sops (w : Wave) (l : Nat) (g : Thread → Thread) : (w.modTh l g).sops = w.sops := rfl
@[simp] theorem Wave.modTh_epoch (w : Wave) (l : Nat) (g : Thread → Thread) : (w.modTh l g).epoch = w.epoch := rfl
@[simp] theorem Wave.modTh_sent (w : Wave) (l : Nat) (g : Thread → Thread) : (w.modTh l g).sent = w.sent := rfl
@[simp] theorem Wave.modTh_brk (w : Wave) (l : Nat) (g : Thread → Thread) : (w.modTh l g).brk = w.brk := rfl
@[simp] theorem Wave.modTh_sect (w : Wave) (l : Nat) (g : Thread → Thread) : (w.modTh l g).sect = w.sect := rfl
@[simp] theorem Wave.modTh_abroad (w : Wave) (l : Nat) (g : Thread → Thread) : (w.modTh l g).abroad = w.abroad := rfl

/-! ### Wave.mapMask -/

@[simp] theorem Wave.mapMask_core (w : Wave) (m : Word) (g : Nat → Thread → Thread) : (w.mapMask m g).core = w.core := rfl
@[simp] theorem Wave.mapMask_ctx (w : Wave) (m : Word) (g : Nat → Thread → Thread) : (w.mapMask m g).ctx = w.ctx := rfl
@[simp] theorem Wave.mapMask_lid (w : Wave) (m : Word) (g : Nat → Thread → Thread) : (w.mapMask m g).lid = w.lid := rfl
@[simp] theorem Wave.mapMask_blk (w : Wave) (m : Word) (g : Nat → Thread → Thread) : (w.mapMask m g).blk = w.blk := rfl
@[simp] theorem Wave.mapMask_wid (w : Wave) (m : Word) (g : Nat → Thread → Thread) : (w.mapMask m g).wid = w.wid := rfl
@[simp] theorem Wave.mapMask_port (w : Wave) (m : Word) (g : Nat → Thread → Thread) : (w.mapMask m g).port = w.port := rfl
@[simp] theorem Wave.mapMask_vlim (w : Wave) (m : Word) (g : Nat → Thread → Thread) : (w.mapMask m g).vlim = w.vlim := rfl
@[simp] theorem Wave.mapMask_slim (w : Wave) (m : Word) (g : Nat → Thread → Thread) : (w.mapMask m g).slim = w.slim := rfl
@[simp] theorem Wave.mapMask_s (w : Wave) (m : Word) (g : Nat → Thread → Thread) : (w.mapMask m g).s = w.s := rfl
@[simp] theorem Wave.mapMask_c (w : Wave) (m : Word) (g : Nat → Thread → Thread) : (w.mapMask m g).c = w.c := rfl
@[simp] theorem Wave.mapMask_run (w : Wave) (m : Word) (g : Nat → Thread → Thread) : (w.mapMask m g).run = w.run := rfl
@[simp] theorem Wave.mapMask_intr (w : Wave) (m : Word) (g : Nat → Thread → Thread) : (w.mapMask m g).intr = w.intr := rfl
@[simp] theorem Wave.mapMask_g (w : Wave) (m : Word) (g : Nat → Thread → Thread) : (w.mapMask m g).g = w.g := rfl
@[simp] theorem Wave.mapMask_z (w : Wave) (m : Word) (g : Nat → Thread → Thread) : (w.mapMask m g).z = w.z := rfl
@[simp] theorem Wave.mapMask_q (w : Wave) (m : Word) (g : Nat → Thread → Thread) : (w.mapMask m g).q = w.q := rfl
@[simp] theorem Wave.mapMask_vd (w : Wave) (m : Word) (g : Nat → Thread → Thread) : (w.mapMask m g).vd = w.vd := rfl
@[simp] theorem Wave.mapMask_resv (w : Wave) (m : Word) (g : Nat → Thread → Thread) : (w.mapMask m g).resv = w.resv := rfl
@[simp] theorem Wave.mapMask_reg (w : Wave) (m : Word) (g : Nat → Thread → Thread) : (w.mapMask m g).reg = w.reg := rfl
@[simp] theorem Wave.mapMask_faultAbort (w : Wave) (m : Word) (g : Nat → Thread → Thread) : (w.mapMask m g).faultAbort = w.faultAbort := rfl
@[simp] theorem Wave.mapMask_unwind (w : Wave) (m : Word) (g : Nat → Thread → Thread) : (w.mapMask m g).unwind = w.unwind := rfl
@[simp] theorem Wave.mapMask_rstat (w : Wave) (m : Word) (g : Nat → Thread → Thread) : (w.mapMask m g).rstat = w.rstat := rfl
@[simp] theorem Wave.mapMask_estat (w : Wave) (m : Word) (g : Nat → Thread → Thread) : (w.mapMask m g).estat = w.estat := rfl
@[simp] theorem Wave.mapMask_hint (w : Wave) (m : Word) (g : Nat → Thread → Thread) : (w.mapMask m g).hint = w.hint := rfl
@[simp] theorem Wave.mapMask_yielded (w : Wave) (m : Word) (g : Nat → Thread → Thread) : (w.mapMask m g).yielded = w.yielded := rfl
@[simp] theorem Wave.mapMask_late (w : Wave) (m : Word) (g : Nat → Thread → Thread) : (w.mapMask m g).late = w.late := rfl
@[simp] theorem Wave.mapMask_since (w : Wave) (m : Word) (g : Nat → Thread → Thread) : (w.mapMask m g).since = w.since := rfl
@[simp] theorem Wave.mapMask_ops (w : Wave) (m : Word) (g : Nat → Thread → Thread) : (w.mapMask m g).ops = w.ops := rfl
@[simp] theorem Wave.mapMask_fails (w : Wave) (m : Word) (g : Nat → Thread → Thread) : (w.mapMask m g).fails = w.fails := rfl
@[simp] theorem Wave.mapMask_sops (w : Wave) (m : Word) (g : Nat → Thread → Thread) : (w.mapMask m g).sops = w.sops := rfl
@[simp] theorem Wave.mapMask_epoch (w : Wave) (m : Word) (g : Nat → Thread → Thread) : (w.mapMask m g).epoch = w.epoch := rfl
@[simp] theorem Wave.mapMask_sent (w : Wave) (m : Word) (g : Nat → Thread → Thread) : (w.mapMask m g).sent = w.sent := rfl
@[simp] theorem Wave.mapMask_brk (w : Wave) (m : Word) (g : Nat → Thread → Thread) : (w.mapMask m g).brk = w.brk := rfl
@[simp] theorem Wave.mapMask_sect (w : Wave) (m : Word) (g : Nat → Thread → Thread) : (w.mapMask m g).sect = w.sect := rfl
@[simp] theorem Wave.mapMask_abroad (w : Wave) (m : Word) (g : Nat → Thread → Thread) : (w.mapMask m g).abroad = w.abroad := rfl

/-! ### Thread.setV -/

@[simp] theorem Thread.setV_pc (t : Thread) (r : Nat) (x : Word) : (t.setV r x).pc = t.pc := rfl
@[simp] theorem Thread.setV_cd (t : Thread) (r : Nat) (x : Word) : (t.setV r x).cd = t.cd := rfl
@[simp] theorem Thread.setV_meet (t : Thread) (r : Nat) (x : Word) : (t.setV r x).meet = t.meet := rfl
@[simp] theorem Thread.setV_ser (t : Thread) (r : Nat) (x : Word) : (t.setV r x).ser = t.ser := rfl
@[simp] theorem Thread.setV_tm (t : Thread) (r : Nat) (x : Word) : (t.setV r x).tm = t.tm := rfl
@[simp] theorem Thread.setV_yd (t : Thread) (r : Nat) (x : Word) : (t.setV r x).yd = t.yd := rfl
@[simp] theorem Thread.setV_wait (t : Thread) (r : Nat) (x : Word) : (t.setV r x).wait = t.wait := rfl
@[simp] theorem Thread.setV_deadline (t : Thread) (r : Nat) (x : Word) : (t.setV r x).deadline = t.deadline := rfl
@[simp] theorem Thread.setV_exited (t : Thread) (r : Nat) (x : Word) : (t.setV r x).exited = t.exited := rfl
@[simp] theorem Thread.setV_p (t : Thread) (r : Nat) (x : Word) : (t.setV r x).p = t.p := rfl
@[simp] theorem Thread.setV_e (t : Thread) (r : Nat) (x : Word) : (t.setV r x).e = t.e := rfl
@[simp] theorem Thread.setV_lat (t : Thread) (r : Nat) (x : Word) : (t.setV r x).lat = t.lat := rfl
@[simp] theorem Thread.setV_latv (t : Thread) (r : Nat) (x : Word) : (t.setV r x).latv = t.latv := rfl
@[simp] theorem Thread.setV_resume (t : Thread) (r : Nat) (x : Word) : (t.setV r x).resume = t.resume := rfl
@[simp] theorem Thread.setV_fflags (t : Thread) (r : Nat) (x : Word) : (t.setV r x).fflags = t.fflags := rfl
@[simp] theorem Thread.setV_tcause (t : Thread) (r : Nat) (x : Word) : (t.setV r x).tcause = t.tcause := rfl
@[simp] theorem Thread.setV_tpc (t : Thread) (r : Nat) (x : Word) : (t.setV r x).tpc = t.tpc := rfl
@[simp] theorem Thread.setV_taddr (t : Thread) (r : Nat) (x : Word) : (t.setV r x).taddr = t.taddr := rfl
@[simp] theorem Thread.setV_tdet (t : Thread) (r : Nat) (x : Word) : (t.setV r x).tdet = t.tdet := rfl
@[simp] theorem Thread.setV_tlatv (t : Thread) (r : Nat) (x : Word) : (t.setV r x).tlatv = t.tlatv := rfl
@[simp] theorem Thread.setV_tlat (t : Thread) (r : Nat) (x : Word) : (t.setV r x).tlat = t.tlat := rfl
@[simp] theorem Thread.setV_tneed (t : Thread) (r : Nat) (x : Word) : (t.setV r x).tneed = t.tneed := rfl
@[simp] theorem Thread.setV_lastPage (t : Thread) (r : Nat) (x : Word) : (t.setV r x).lastPage = t.lastPage := rfl
@[simp] theorem Thread.setV_mon (t : Thread) (r : Nat) (x : Word) : (t.setV r x).mon = t.mon := rfl
@[simp] theorem Thread.setV_tid (t : Thread) (r : Nat) (x : Word) : (t.setV r x).tid = t.tid := rfl
@[simp] theorem Thread.setV_barPhase (t : Thread) (r : Nat) (x : Word) : (t.setV r x).barPhase = t.barPhase := rfl
@[simp] theorem Thread.setV_starved (t : Thread) (r : Nat) (x : Word) : (t.setV r x).starved = t.starved := rfl
@[simp] theorem Thread.setV_atEntry (t : Thread) (r : Nat) (x : Word) : (t.setV r x).atEntry = t.atEntry := rfl
@[simp] theorem Thread.setV_hWave (t : Thread) (r : Nat) (x : Word) : (t.setV r x).hWave = t.hWave := rfl
@[simp] theorem Thread.setV_hBlk (t : Thread) (r : Nat) (x : Word) : (t.setV r x).hBlk = t.hBlk := rfl

/-! ### Thread.flag -/

@[simp] theorem Thread.flag_pc (t : Thread) (n : Nat) : (t.flag n).pc = t.pc := rfl
@[simp] theorem Thread.flag_cd (t : Thread) (n : Nat) : (t.flag n).cd = t.cd := rfl
@[simp] theorem Thread.flag_meet (t : Thread) (n : Nat) : (t.flag n).meet = t.meet := rfl
@[simp] theorem Thread.flag_ser (t : Thread) (n : Nat) : (t.flag n).ser = t.ser := rfl
@[simp] theorem Thread.flag_tm (t : Thread) (n : Nat) : (t.flag n).tm = t.tm := rfl
@[simp] theorem Thread.flag_yd (t : Thread) (n : Nat) : (t.flag n).yd = t.yd := rfl
@[simp] theorem Thread.flag_wait (t : Thread) (n : Nat) : (t.flag n).wait = t.wait := rfl
@[simp] theorem Thread.flag_deadline (t : Thread) (n : Nat) : (t.flag n).deadline = t.deadline := rfl
@[simp] theorem Thread.flag_exited (t : Thread) (n : Nat) : (t.flag n).exited = t.exited := rfl
@[simp] theorem Thread.flag_v (t : Thread) (n : Nat) : (t.flag n).v = t.v := rfl
@[simp] theorem Thread.flag_qtag (t : Thread) (n : Nat) : (t.flag n).qtag = t.qtag := rfl
@[simp] theorem Thread.flag_p (t : Thread) (n : Nat) : (t.flag n).p = t.p := rfl
@[simp] theorem Thread.flag_e (t : Thread) (n : Nat) : (t.flag n).e = t.e := rfl
@[simp] theorem Thread.flag_lat (t : Thread) (n : Nat) : (t.flag n).lat = t.lat := rfl
@[simp] theorem Thread.flag_latv (t : Thread) (n : Nat) : (t.flag n).latv = t.latv := rfl
@[simp] theorem Thread.flag_resume (t : Thread) (n : Nat) : (t.flag n).resume = t.resume := rfl
@[simp] theorem Thread.flag_tcause (t : Thread) (n : Nat) : (t.flag n).tcause = t.tcause := rfl
@[simp] theorem Thread.flag_tpc (t : Thread) (n : Nat) : (t.flag n).tpc = t.tpc := rfl
@[simp] theorem Thread.flag_taddr (t : Thread) (n : Nat) : (t.flag n).taddr = t.taddr := rfl
@[simp] theorem Thread.flag_tdet (t : Thread) (n : Nat) : (t.flag n).tdet = t.tdet := rfl
@[simp] theorem Thread.flag_tlatv (t : Thread) (n : Nat) : (t.flag n).tlatv = t.tlatv := rfl
@[simp] theorem Thread.flag_tlat (t : Thread) (n : Nat) : (t.flag n).tlat = t.tlat := rfl
@[simp] theorem Thread.flag_tneed (t : Thread) (n : Nat) : (t.flag n).tneed = t.tneed := rfl
@[simp] theorem Thread.flag_lastPage (t : Thread) (n : Nat) : (t.flag n).lastPage = t.lastPage := rfl
@[simp] theorem Thread.flag_mon (t : Thread) (n : Nat) : (t.flag n).mon = t.mon := rfl
@[simp] theorem Thread.flag_tid (t : Thread) (n : Nat) : (t.flag n).tid = t.tid := rfl
@[simp] theorem Thread.flag_barPhase (t : Thread) (n : Nat) : (t.flag n).barPhase = t.barPhase := rfl
@[simp] theorem Thread.flag_starved (t : Thread) (n : Nat) : (t.flag n).starved = t.starved := rfl
@[simp] theorem Thread.flag_atEntry (t : Thread) (n : Nat) : (t.flag n).atEntry = t.atEntry := rfl
@[simp] theorem Thread.flag_hWave (t : Thread) (n : Nat) : (t.flag n).hWave = t.hWave := rfl
@[simp] theorem Thread.flag_hBlk (t : Thread) (n : Nat) : (t.flag n).hBlk = t.hBlk := rfl

/-! ### Thread.dropLat -/

@[simp] theorem Thread.dropLat_pc (t : Thread)  : (t.dropLat ).pc = t.pc := rfl
@[simp] theorem Thread.dropLat_cd (t : Thread)  : (t.dropLat ).cd = t.cd := rfl
@[simp] theorem Thread.dropLat_meet (t : Thread)  : (t.dropLat ).meet = t.meet := rfl
@[simp] theorem Thread.dropLat_ser (t : Thread)  : (t.dropLat ).ser = t.ser := rfl
@[simp] theorem Thread.dropLat_tm (t : Thread)  : (t.dropLat ).tm = t.tm := rfl
@[simp] theorem Thread.dropLat_yd (t : Thread)  : (t.dropLat ).yd = t.yd := rfl
@[simp] theorem Thread.dropLat_wait (t : Thread)  : (t.dropLat ).wait = t.wait := rfl
@[simp] theorem Thread.dropLat_deadline (t : Thread)  : (t.dropLat ).deadline = t.deadline := rfl
@[simp] theorem Thread.dropLat_exited (t : Thread)  : (t.dropLat ).exited = t.exited := rfl
@[simp] theorem Thread.dropLat_v (t : Thread)  : (t.dropLat ).v = t.v := rfl
@[simp] theorem Thread.dropLat_qtag (t : Thread)  : (t.dropLat ).qtag = t.qtag := rfl
@[simp] theorem Thread.dropLat_p (t : Thread)  : (t.dropLat ).p = t.p := rfl
@[simp] theorem Thread.dropLat_e (t : Thread)  : (t.dropLat ).e = t.e := rfl
@[simp] theorem Thread.dropLat_resume (t : Thread)  : (t.dropLat ).resume = t.resume := rfl
@[simp] theorem Thread.dropLat_fflags (t : Thread)  : (t.dropLat ).fflags = t.fflags := rfl
@[simp] theorem Thread.dropLat_tcause (t : Thread)  : (t.dropLat ).tcause = t.tcause := rfl
@[simp] theorem Thread.dropLat_tpc (t : Thread)  : (t.dropLat ).tpc = t.tpc := rfl
@[simp] theorem Thread.dropLat_taddr (t : Thread)  : (t.dropLat ).taddr = t.taddr := rfl
@[simp] theorem Thread.dropLat_tdet (t : Thread)  : (t.dropLat ).tdet = t.tdet := rfl
@[simp] theorem Thread.dropLat_tlatv (t : Thread)  : (t.dropLat ).tlatv = t.tlatv := rfl
@[simp] theorem Thread.dropLat_tlat (t : Thread)  : (t.dropLat ).tlat = t.tlat := rfl
@[simp] theorem Thread.dropLat_tneed (t : Thread)  : (t.dropLat ).tneed = t.tneed := rfl
@[simp] theorem Thread.dropLat_lastPage (t : Thread)  : (t.dropLat ).lastPage = t.lastPage := rfl
@[simp] theorem Thread.dropLat_mon (t : Thread)  : (t.dropLat ).mon = t.mon := rfl
@[simp] theorem Thread.dropLat_tid (t : Thread)  : (t.dropLat ).tid = t.tid := rfl
@[simp] theorem Thread.dropLat_barPhase (t : Thread)  : (t.dropLat ).barPhase = t.barPhase := rfl
@[simp] theorem Thread.dropLat_starved (t : Thread)  : (t.dropLat ).starved = t.starved := rfl
@[simp] theorem Thread.dropLat_atEntry (t : Thread)  : (t.dropLat ).atEntry = t.atEntry := rfl
@[simp] theorem Thread.dropLat_hWave (t : Thread)  : (t.dropLat ).hWave = t.hWave := rfl
@[simp] theorem Thread.dropLat_hBlk (t : Thread)  : (t.dropLat ).hBlk = t.hBlk := rfl

/-! ### Thread.next -/

@[simp] theorem Thread.next_cd (t : Thread)  : (t.next ).cd = t.cd := rfl
@[simp] theorem Thread.next_meet (t : Thread)  : (t.next ).meet = t.meet := rfl
@[simp] theorem Thread.next_ser (t : Thread)  : (t.next ).ser = t.ser := rfl
@[simp] theorem Thread.next_tm (t : Thread)  : (t.next ).tm = t.tm := rfl
@[simp] theorem Thread.next_yd (t : Thread)  : (t.next ).yd = t.yd := rfl
@[simp] theorem Thread.next_wait (t : Thread)  : (t.next ).wait = t.wait := rfl
@[simp] theorem Thread.next_deadline (t : Thread)  : (t.next ).deadline = t.deadline := rfl
@[simp] theorem Thread.next_exited (t : Thread)  : (t.next ).exited = t.exited := rfl
@[simp] theorem Thread.next_v (t : Thread)  : (t.next ).v = t.v := rfl
@[simp] theorem Thread.next_qtag (t : Thread)  : (t.next ).qtag = t.qtag := rfl
@[simp] theorem Thread.next_p (t : Thread)  : (t.next ).p = t.p := rfl
@[simp] theorem Thread.next_e (t : Thread)  : (t.next ).e = t.e := rfl
@[simp] theorem Thread.next_lat (t : Thread)  : (t.next ).lat = t.lat := rfl
@[simp] theorem Thread.next_latv (t : Thread)  : (t.next ).latv = t.latv := rfl
@[simp] theorem Thread.next_resume (t : Thread)  : (t.next ).resume = t.resume := rfl
@[simp] theorem Thread.next_fflags (t : Thread)  : (t.next ).fflags = t.fflags := rfl
@[simp] theorem Thread.next_tcause (t : Thread)  : (t.next ).tcause = t.tcause := rfl
@[simp] theorem Thread.next_tpc (t : Thread)  : (t.next ).tpc = t.tpc := rfl
@[simp] theorem Thread.next_taddr (t : Thread)  : (t.next ).taddr = t.taddr := rfl
@[simp] theorem Thread.next_tdet (t : Thread)  : (t.next ).tdet = t.tdet := rfl
@[simp] theorem Thread.next_tlatv (t : Thread)  : (t.next ).tlatv = t.tlatv := rfl
@[simp] theorem Thread.next_tlat (t : Thread)  : (t.next ).tlat = t.tlat := rfl
@[simp] theorem Thread.next_tneed (t : Thread)  : (t.next ).tneed = t.tneed := rfl
@[simp] theorem Thread.next_lastPage (t : Thread)  : (t.next ).lastPage = t.lastPage := rfl
@[simp] theorem Thread.next_mon (t : Thread)  : (t.next ).mon = t.mon := rfl
@[simp] theorem Thread.next_tid (t : Thread)  : (t.next ).tid = t.tid := rfl
@[simp] theorem Thread.next_barPhase (t : Thread)  : (t.next ).barPhase = t.barPhase := rfl
@[simp] theorem Thread.next_starved (t : Thread)  : (t.next ).starved = t.starved := rfl
@[simp] theorem Thread.next_atEntry (t : Thread)  : (t.next ).atEntry = t.atEntry := rfl
@[simp] theorem Thread.next_hWave (t : Thread)  : (t.next ).hWave = t.hWave := rfl
@[simp] theorem Thread.next_hBlk (t : Thread)  : (t.next ).hBlk = t.hBlk := rfl

end Sys2Proof.Machine
end

