-- ==== Sys2Proof/Laws/Words.lean ====
section
/-!
SUPPORT. What a word that ends its run does once it issues, and how its effect is read off the state it leaves.
-/
namespace Sys2Proof.Machine

/-- The issuing wave with its group past the word and its run closed. -/
def Ctx.after (c : Ctx) (clk : DWord) : Wave := ((c.issued clk).mapMask c.mask fun _ t => t.next).closeRun

/-- The state in which the effect of such a word takes place. -/
def State.after (s : State) (c : Ctx) : State := s.modWave c.u fun _ => c.after s.clk

theorem word_of_issues {s : State} {i : Instr} {c : Ctx} (h : s.issues i c = true) (k : State → Ctx → Option State) :
    word i s k = .next (match k (s.after c) c with | some s' => s'.boundary c.u | none => s) := by
  simp only [word, settled_of_unpassed (issues_unpassed h), issue_of_issues h]
  show Host.Outcome.next (((k (s.after c) c).map _).getD s) = _
  cases k (s.after c) c <;> rfl

theorem word'_of_issues {s : State} {i : Instr} {c : Ctx} (h : s.issues i c = true) (k : State → Ctx → State) :
    word' i s k = .next ((k (s.after c) c).boundary c.u) := word_of_issues h _

theorem after_besides {s : State} {i : Instr} {c : Ctx} (h : s.issues i c = true) :
    (c.after s.clk).besides = (c.ended s.clk).besides := by
  have hr : ((c.issued s.clk).mapMask c.mask fun _ t => t.next).run = some c.mask := issues_run h
  simp only [Ctx.after, Wave.closeRun, hr]
  rfl

theorem after_th {s : State} {i : Instr} {c : Ctx} (h : s.issues i c = true) {l : Nat} {th : Thread} (hl : c.has l th) :
    (c.after s.clk).th l = some th.done := by
  have hr : ((c.issued s.clk).mapMask c.mask fun _ t => t.next).run = some c.mask := issues_run h
  simp only [Ctx.after, Wave.closeRun, hr]
  show (((c.issued s.clk).mapMask c.mask fun _ t => t.next).mapMask c.mask fun _ t => t.dropLat).th l = _
  rw [Wave.th_mapMask_in _ (Wave.th_mapMask_in _ (Ctx.issued_th hl) hl.1) hl.1]
  rfl

theorem after_th_out {s : State} {i : Instr} {c : Ctx} (h : s.issues i c = true) {l : Nat} (hl : inMask c.mask l = false) :
    (c.after s.clk).th l = c.w.th l := by
  have hr : ((c.issued s.clk).mapMask c.mask fun _ t => t.next).run = some c.mask := issues_run h
  simp only [Ctx.after, Wave.closeRun, hr]
  show (((c.issued s.clk).mapMask c.mask fun _ t => t.next).mapMask c.mask fun _ t => t.dropLat).th l = _
  rw [Wave.th_mapMask_out _ hl, Wave.th_mapMask_out _ hl, Ctx.issued_th_out hl]

/-- An effect that changes the package outside the waves to `s'` and the issuing wave to `w`. -/
theorem ends_of {s s' t : State} {i : Instr} {c : Ctx} {f : State → State} {gw : Wave → Wave} {g : Nat → Thread → Thread}
    {w : Wave} (_h : s.issues i c = true) (hs : s'.besides = (f s).besides)
    (hw : s'.wave c.u = some w) (ho : ∀ v, v ≠ c.u → s'.wave v = s.wave v) (hc : w.unwind = none)
    (hb : w.besides = (gw (c.ended s.clk)).besides) (hout : ∀ l, inMask c.mask l = false → w.th l = c.w.th l)
    (hin : ∀ l th, c.has l th → w.th l = some (g l th.done)) (ht : t = s'.boundary c.u) : Ends s t c f gw g := by
  subst ht
  rw [boundary_of_calm hw hc]
  exact ⟨hs, ho, w, hw, hb, hout, hin⟩

/-- The issuing wave there. -/
theorem after_wave {s : State} {i : Instr} {c : Ctx} (h : s.issues i c = true) : (s.after c).wave c.u = some (c.after s.clk) :=
  State.wave_modWave_some _ (issues_wave h)

theorem after_wave_other {s : State} {c : Ctx} {v : Nat} (h : v ≠ c.u) : (s.after c).wave v = s.wave v :=
  State.wave_modWave_other _ _ h

/-- An effect on the issuing wave alone, by threads. -/
theorem ends_mod {s : State} {i : Instr} {c : Ctx} {gw : Wave → Wave} {g : Nat → Thread → Thread} {G : Wave → Wave}
    (h : s.issues i c = true) (hu : (G (c.after s.clk)).unwind = none)
    (hb : (G (c.after s.clk)).besides = (gw (c.ended s.clk)).besides)
    (hout : ∀ l, inMask c.mask l = false → (G (c.after s.clk)).th l = c.w.th l)
    (hin : ∀ l th, c.has l th → (G (c.after s.clk)).th l = some (g l th.done)) :
    Ends s (((s.after c).modWave c.u G).boundary c.u) c (fun s => s) gw g := by
  have hw : ((s.after c).modWave c.u G).wave c.u = some (G (c.after s.clk)) :=
    State.wave_modWave_some _ (after_wave h)
  refine ends_of (s' := (s.after c).modWave c.u G) h rfl hw (fun v hv => ?_) hu hb hout hin rfl
  rw [State.wave_modWave_other _ _ hv, after_wave_other hv]

theorem after_unwind {s : State} {i : Instr} {c : Ctx} (h : s.issues i c = true) : (c.after s.clk).unwind = none := by
  have := congrArg Wave.unwind (after_besides h)
  exact this.trans (issues_calm h)

/-- An effect on each thread of the group. -/
theorem ends_lanes {s : State} {i : Instr} {c : Ctx} {g : Nat → Thread → Thread} (h : s.issues i c = true)
    (g' : Nat → Thread → Thread) (hg : ∀ l th, c.has l th → g' l th.done = g l th.done) :
    Ends s (((s.after c).modWave c.u fun w => w.mapMask c.mask g').boundary c.u) c (fun s => s) (fun w => w) g := by
  refine ends_mod h (after_unwind h) (after_besides h) (fun l hl => ?_) fun l th hl => ?_
  · rw [Wave.th_mapMask_out _ hl, after_th_out h hl]
  · rw [Wave.th_mapMask_in _ (after_th h hl) hl.1, hg l th hl]

end Sys2Proof.Machine
end

