-- ==== Sys2Proof/Tests/Slice0.lean ====
section
/-!
SUPPORT. Tests: words written out from the encodings of spec/02_instruction_word.md decode to their instructions, ill-formed
terms are refused, and for the hypotheses of every statement a state and operands that meet them.
-/
open Sys2Proof Sys2Proof.Machine Sys2Proof.Claims
namespace Sys2Proof.Tests
set_option Elab.async false
/-! ### Words written out by the spec (each word and its fields stand in the chapter named) -/

def fRegs (d a b c : Nat) (mod : Nat := 0) : FOps :=
  ⟨false, BitVec.ofNat 8 d, false, 0, .reg (BitVec.ofNat 8 a), .regs (.reg (BitVec.ofNat 8 b)) (.reg (BitVec.ofNat 8 c)),
    ⟨0, false⟩, BitVec.ofNat 8 mod⟩
def fImm (d a k : Nat) (mod : Nat := 0) : FOps := { fRegs d a 0 0 mod with bc := .imm (BitVec.ofNat 18 k) }
def uRegs (d a b c : Nat) (mod : Nat := 0) : UOps :=
  ⟨false, BitVec.ofNat 10 d, BitVec.ofNat 10 a, .regs (BitVec.ofNat 10 b) (BitVec.ofNat 10 c), BitVec.ofNat 8 mod⟩
def uImm (d a k : Nat) (mod : Nat := 0) : UOps := { uRegs d a 0 0 mod with bc := .imm (BitVec.ofNat 22 k) }
def mOps (data cap ofs sh disp : Nat) (mod : Nat := 0) : MOps :=
  ⟨false, BitVec.ofNat 8 data, BitVec.ofNat 5 cap, BitVec.ofNat 8 ofs, false, BitVec.ofNat 3 sh, BitVec.ofNat 13 disp,
    ⟨0, false⟩, BitVec.ofNat 9 mod⟩
def xOps (td ta tb mr imm : Nat) (mod : Nat := 0) : XOps :=
  ⟨BitVec.ofNat 7 td, BitVec.ofNat 7 ta, BitVec.ofNat 7 tb, BitVec.ofNat 6 mr, BitVec.ofNat 15 imm, BitVec.ofNat 9 mod⟩

/-- The decoder gives each word's instruction, and the encoder each instruction's word. -/
def reads (l : List (Nat × Instr)) : Bool :=
  l.all fun (w, i) => decodeTableWord 64 w == some i && encode i == some (BitVec.ofNat 64 w)

/-- spec/02_instruction_word.md, spec/04_arithmetic_and_lanes.md -/
theorem test_decode_integer : reads
    [(0x00002A0304800000, .vadd { fRegs 5 3 9 0 with l := 2 }),
     (0x0000500B06000090, .vadd (fRegs 10 11 12 0 0x90))] = true := by decide

theorem test_decode_float : reads
    [(0x2410300282000000, .fmul { fRegs 6 0 4 0 with e := true, a := .latch 2 })] = true := by decide

/-- spec/03_formats_and_conversion.md: control byte 0x81, MOD 0x60. -/
theorem test_decode_conversion : reads
    [(0x0808300200204060, .cvtef { fRegs 6 2 0 0 0x60 with bc := .regs (.reg 0) (.reg 0x81) })] = true := by decide

/-- Table 2.2: OP 0x147 << 51, D 5 << 43. -/
theorem test_decode_lanes : reads [(0x0A38280000000000, .amask (fRegs 5 0 0 0))] = true := by decide

/-- spec/04_arithmetic_and_lanes.md: immediate -8, DB. -/
theorem test_decode_uniform : reads [(0x0C000C037FFFF110, .sadd (uImm 6 6 0x3FFFF8 0x10))] = true := by decide

/-- spec/02_instruction_word.md: `vadd v1, v1, v6 || fmul v2, v2, v7`. -/
theorem test_decode_paired : reads
    [(0x4020430011020E00, .pairedWord ⟨false, ⟨1, 1, 6, false, 0⟩, ⟨0x22, 2, 7, false, 0⟩⟩)] = true := by decide

/-- spec/05_control_flow.md, spec/11_shipped_sections_at_work.md. -/
theorem test_decode_control : reads
    [(0x0E0000000000AB00, .bra { fImm 0 0 5 with g := ⟨2, true⟩ }),
     (0x0E38000000000090, .land (fRegs 0 0 0 0 0x90))] = true := by decide

/-- spec/06_work_creation_and_scheduling.md -/
theorem test_decode_work : reads
    [(0x1000100800018100, .spawn (fImm 2 8 12)), (0x1010500180000000, .launch (uRegs 40 3 0 0))] = true := by decide

/-- spec/07_memory_access.md, spec/11_shipped_sections_at_work.md -/
theorem test_decode_memory : reads
    [(0x1200404088020042, .ld (mOps 8 1 2 2 16 0x42)),
     (0x12084881C8020C42, .st { mOps 9 2 7 2 16 0x42 with g := ⟨3, false⟩ }),
     (0x1228200205030000, .cbnd (fRegs 4 2 10 12)), (0x1248100805000000, .cfromh (fRegs 2 8 10 0))] = true := by decide

/-- spec/08_atomics_sync_consistency.md -/
theorem test_decode_atomics : reads
    [(0x14002081C8000040, .atom (mOps 4 2 7 2 0 0x40)), (0x1440000000000043, .fenceSc (uRegs 0 0 0 0 0x43)),
     (0x1450000000008138, .barSync (uImm 0 0 64 0x38))] = true := by decide

/-- spec/09_regions.md -/
theorem test_decode_regions : reads
    [(0x1600040000003788, .ropenBlk (uImm 2 0 27 0x88)), (0x1600060000002F00, .ropenWave (uImm 3 0 23)),
     (0x1608000000000000, .rcommitWave (uRegs 0 0 0 0)), (0x1608000000000080, .rcommitBlk (uRegs 0 0 0 0 0x80)),
     (0x1610000000000B00, .rabortWave (uImm 0 0 5)), (0x1618540000000000, .rstat (uRegs 42 0 0 0))] = true := by decide

/-- spec/10_shipped_sections.md, spec/11_shipped_sections_at_work.md -/
theorem test_decode_ship : reads
    [(0x170040C18C000015, .ship (mOps 8 3 6 3 0 0x15)), (0x1708404000100042, .shipt (mOps 8 1 0 0 128 0x42)),
     (0x1718180500000002, .shwait (uRegs 12 10 0 0 0x02)), (0x1720080500000000, .shtest (uRegs 4 10 0 0)),
     (0x1728000200000003, .shret (fRegs 0 2 0 0 0x03)), (0x1730A0C18C000000, .homeof (mOps 20 3 6 3 0))] = true := by decide

/-- spec/12_engines_and_promises.md -/
theorem test_decode_engines : reads
    [(0x1800502000000840, .pushCopy (uRegs 40 64 0 1 0x40)), (0x1808000000000500, .wait (uImm 0 0 2)),
     (0x1810060000000300, .gset (uImm 3 0 1)), (0x1818060000000000, .gbind (uRegs 3 0 0 0)),
     (0x1820000000000000, .rfence (uRegs 0 0 0 0)), (0x1828640000000004, .ocrd (uRegs 50 0 0 0 0x04))] = true := by decide

/-- spec/13_matrix.md -/
theorem test_decode_matrix : reads
    [(0x1C68404104E00000, .mmovi ⟨4, 0x20827000, 0⟩), (0x1C00000004000000, .tctl (xOps 0 0 0 4 0)),
     (0x1C08000006000041, .tld (xOps 0 0 0 6 0 0x41)), (0x1C20200040000000, .tmma (xOps 2 0 1 0 0)),
     (0x1C28200040005013, .tmmas (xOps 2 0 1 0 40 0x13)), (0x1C58000000004250, .mbar (xOps 0 0 0 0 33 0x50)),
     (0x1C38300048000011, .tmmasp (xOps 3 0 1 8 0 0x11))] = true := by decide

/-- spec/14_patterns_and_streams.md -/
theorem test_decode_patterns : reads
    [(0x1A00020185000000, .pgbind (uRegs 1 3 40 0)), (0x1A08200100000000, .pgnext (fRegs 4 1 0 0)),
     (0x1A10200000000000, .pgnextt (fRegs 4 0 0 0)), (0x1A28114000080000, .sopen (mOps 2 5 0 0 64)),
     (0x1A28508000000001, .sopenRd (mOps 10 2 0 0 0 1)), (0x1A30280000201000, .sisect (uRegs 20 0 1 2)),
     (0x1A500C0201000000, .spart (uRegs 6 4 8 0)), (0x1A58040000000000, .sclose (uRegs 2 0 0 0))] = true := by decide

/-- spec/15_verdicts.md -/
theorem test_decode_verdicts : reads
    [(0x190000040000000B, .vdopen (uRegs 0 8 0 0 0x0B)), (0x1908300400004000, .vdacc (fRegs 6 4 0 1)),
     (0x1910500000000000, .vdend (uRegs 40 0 0 0)), (0x1918200600000000, .vdtest (fRegs 4 6 0 0)),
     (0x1920708000000040, .thmax (mOps 14 2 0 0 0 0x40)), (0x1928520000000000, .vdstat (uRegs 41 0 0 0))] = true := by decide

/-- spec/16_fabric_and_blends.md -/
theorem test_decode_fabric : reads
    [(0x1E004080C0000004, .fst (mOps 8 2 3 0 0 4)), (0x1E103081C8000000, .fatom (mOps 6 2 7 2 0)),
     (0x1E1820C000000070, .fflag (mOps 4 3 0 0 0 0x70)), (0x1E20000000000000, .ffence (uRegs 0 0 0 0)),
     (0x1E28500000000001, .blstat (uRegs 40 0 0 0 1))] = true := by decide

/-- spec/17_traps_errors_context.md -/
theorem test_decode_system : reads
    [(0x1E80400000001500, .rdsr (uImm 32 0 0x00A)), (0x1E80080000000101, .rdsr (uImm 4 0 0 1)),
     (0x1E88001400003100, .wrsr (uImm 0 40 0x018)), (0x1E90000000000001, .tretMig (uRegs 0 0 0 0 1)),
     (0x1E98001405400000, .tlbinv (uRegs 0 40 42 0)), (0x1EA0188000000000, .pgclass (mOps 3 2 0 0 0)),
     (0x1EA8008140000001, .cachewbPg (mOps 0 2 5 0 0 1)), (0x1EB0000000000700, .halt (uImm 0 0 3))] = true := by decide

/-! ### Words that are no instruction (Table 2.11, each against the rule it breaks) -/

/-- A full word of form F with fields at the places of Table 2.2. -/
def word (op : Nat) (fields : List (Nat × Nat)) : DWord := BitVec.ofNat 64 ((fields.map fun x => x.2 * 2 ^ x.1).sum + op * 2 ^ 51)
def refuses (r : Reject) (w : DWord) : Bool := match decode w with
  | .error x => x == r
  | .ok _ => false

theorem test_reject_kind : refuses .kind 0x8000000000000000 && refuses .kind 0xC000000000000000 = true := by decide
theorem test_reject_opcode : [0x01F, 0x092, 0x1CE, 0x3D7, 0x3F0].all (fun op => refuses .opcode (word op [])) = true := by decide
/-- A nonzero unused field, a misused latch, W = 1 with L = 0, SH 5, an odd pair: R30, R23, R32, R27, R29. -/
theorem test_reject_fields :
    [word 0x01C [(23, 1)], word 0x000 [(31, 1), (32, 4)], word 0x000 [(42, 1)], word 0x240 [(26, 5), (0, 0x42)],
      word 0x240 [(43, 1), (0, 0x43)]].all (refuses .illegal) = true := by decide
/-- A reserved modifier, a class without the width, a long immediate with a reserved bit: R41, R25. -/
theorem test_reject_modifiers :
    [word 0x080 [(0, 0x18)], word 0x006 [(0, 0x40)], word 0x01D [(0, 1)], word 0x193 [(40, 1)]].all (refuses .illegal) = true := by
  decide
theorem test_reject_guard : refuses .guard (word 0x000 [(10, 1)]) = true := by decide
/-- `vadd v1, v1, v5 || vmul v9, v9, v13` (spec/02_instruction_word.md). -/
theorem test_reject_pair : refuses .pair (BitVec.ofNat 64
    (2 ^ 62 + (0x01 * 2 ^ 22 + 1 * 2 ^ 15 + 5 * 2 ^ 8) * 2 ^ 31 + (0x03 * 2 ^ 22 + 9 * 2 ^ 15 + 13 * 2 ^ 8) * 2)) = true := by decide

/-! ### Ill-formed terms -/

theorem test_wellFormed_ok : (Instr.vadd (fRegs 5 3 9 0)).wellFormed = true := by decide
theorem test_wellFormed_unused : (Instr.vmov (fRegs 5 3 9 0)).wellFormed = false := by decide
theorem test_wellFormed_guard : (Instr.vadd { fRegs 5 3 9 0 with g := ⟨2, false⟩ }).wellFormed = false := by decide
theorem test_wellFormed_pair : (Instr.pairedWord ⟨false, ⟨1, 1, 5, false, 0⟩, ⟨3, 9, 13, false, 0⟩⟩).wellFormed = false := by decide
theorem test_wellFormed_quad : (Instr.ld (mOps 2 1 2 0 0 0x44)).wellFormed = false := by decide
theorem test_wellFormed_units : (Instr.binStart 256 0).wellFormed = false := by decide
/-! ### States that meet the statements' hypotheses -/

/-- A state with one thing that holds of every thread of a group, checked on its list. -/
theorem hasAll {c : Ctx} {P : Nat → Thread → Prop} [∀ l th, Decidable (P l th)]
    (h : ((c.w.active c.mask).all fun x => decide (P x.1 x.2)) = true) : ∀ l th, c.has l th → P l th := by
  intro l th hh
  have := List.all_eq_true.mp h (l, th) ((Wave.mem_active _ _ _ _).mpr hh)
  simpa using this

/-- Two threads of one wave at a word, their run open; a third elsewhere in the wave, a fourth that has exited. -/
def demoThread (l : Nat) : Thread := { Thread.init 0x100000 l with
  v := [(2, 0x100800), (4, 0x3F800000), (8, BitVec.ofNat 32 (l + 3))], p := 2, lat := [(1, 9)], latv := 1, cd := 1 }
def demoWave : Wave := { loadWave with
  threads := [(0, demoThread 0), (1, demoThread 1), (4, { demoThread 4 with pc := 0x100040 }), (5, { demoThread 5 with exited := true })]
  run := some 3, s := [(2, 0x100800), (4, 1)] }
/-- A loaded package with this wave; its landing at 0x100800. -/
def demo (w : Wave) : State :=
  let s := State.reset.loaded 0
  { s with waves := [(1, w)], clk := 1000, mem := s.mem.setNum 0x100800 0x0E38000000000000 8 }
def ctx (w : Wave) : Ctx := ⟨1, w, w.run.getD 0⟩

def EndRow.met (r : EndRow) : Prop := ∃ (s : State) (c : Ctx), s.issues r.i c = true ∧ r.ok s c
def RunRow.met (r : RunRow) : Prop := ∃ (s : State) (c : Ctx), s.issues r.i c = true ∧ r.ok c
theorem met (w : Wave) {r : EndRow} (h : (demo w).issues r.i (ctx w) = true) (ok : r.ok (demo w) (ctx w)) : EndRow.met r :=
  ⟨_, _, h, ok⟩

/-- Each word of a list issues for the wave. -/
def issue (w : Wave) (is : List Instr) : Bool := is.all fun i => (demo w).issues i (ctx w)

/-- A wave that runs a shipped section. -/
def demoSection : Section where
  lcore := 0
  ctx := 0
  req := ⟨0x5000, 0, Cap.nil, Cap.nil, [], [], 1, 0, 0, 3, 2, 1, 1, 0, 9, none, 0, 0, 0⟩
  start := 0
  overrun := false
  suspended := false
  ready := false
def demoSect : Wave := { demoWave with sect := some demoSection, threads := [(0, demoThread 0)], run := some 1 }
/-- The same package with the launch changed. -/
def demoL (g : Launch → Launch) (w : Wave) : State := { demo w with launches := [(1, g { Launch.init with rc := loadRec })] }
/-- The abandoned pattern in v2 of one thread. -/
def demoBad : Wave := demoWave.modTh 1 fun t => t.setV 2 0x7F8D0001

/-! #### Register arithmetic -/

theorem test_issue_integer : issue demoWave ((elementRows (fRegs 10 2 4 8)).map (·.1) ++ (wordRows (fRegs 10 2 4 8)).map (·.1)) = true := by
  decide
theorem test_issue_select : ∀ r ∈ selectRows (fRegs 10 2 4 8) ⟨false, 5, 1⟩, RunRow.met r := by
  simp only [selectRows, List.forall_mem_cons]
  refine ⟨⟨demo demoWave, ctx demoWave, by decide, trivial⟩, ⟨demo demoWave, ctx demoWave, by decide, trivial⟩,
    ⟨demo demoWave, ctx demoWave, by decide, trivial⟩, ⟨demo demoWave, ctx demoWave, by decide, ?_⟩, by simp⟩
  show ∀ x ∈ _, _
  decide
theorem test_issue_float : issue demoWave ((floatRows (fRegs 10 2 4 8)).map (·.1)) = true ∧
    ∀ r ∈ floatRows (fRegs 10 2 4 8), ∀ x ∈ (ctx demoWave).w.active (ctx demoWave).mask, (r.2.1 x.2).any isAbandoned = false := by decide
theorem test_issue_conversion : issue demoWave ((conversionRows (fRegs 10 2 4 8)).map (·.1)) = true ∧
    ∀ r ∈ conversionRows (fRegs 10 2 4 8), ∀ x ∈ (ctx demoWave).w.active (ctx demoWave).mask, (r.2.1 x.2).any isAbandoned = false := by decide
theorem test_met_lanes : issue demoWave ((laneRows (fRegs 10 2 4 8)).map (·.1) ++ (predicateRows (fRegs 3 1 4 8)).map (·.1)) = true ∧
    ∀ r ∈ laneSpecials (fRegs 10 2 4 8), RunRow.met r := by
  refine ⟨by decide, ?_⟩
  simp only [laneSpecials, List.forall_mem_cons]
  refine ⟨⟨demo demoWave, ctx demoWave, by decide, ?_⟩, ⟨demo demoWave, ctx demoWave, by decide, ?_⟩,
    ⟨demo demoWave, ctx demoWave, by decide, trivial⟩, ⟨demo demoWave, ctx demoWave, by decide, trivial⟩, by simp⟩ <;>
  · intro _
    show ∀ x ∈ _, _
    decide
theorem test_met_conversions : ∀ r ∈ conversionSpecials (fRegs 10 2 4 8), RunRow.met r := by
  simp only [conversionSpecials, List.forall_mem_cons]
  refine ⟨⟨demo demoWave, ctx demoWave, by decide, fun _ => ?_⟩, ⟨demo demoWave, ctx demoWave, by decide, trivial⟩,
    ⟨demo demoWave, ctx demoWave, by decide, trivial⟩, ⟨demo demoWave, ctx demoWave, by decide, ?_⟩,
    ⟨demo demoWave, ctx demoWave, by decide, trivial⟩, by simp⟩ <;>
  · show ∀ x ∈ _, _
    decide
theorem test_met_lees : ∀ r ∈ leesRows (fRegs 10 2 4 8), RunRow.met r := by
  simp only [leesRows, List.forall_mem_cons]
  exact ⟨⟨demo demoWave, ctx demoWave, by decide, trivial⟩, ⟨demo demoWave, ctx demoWave, by decide, trivial⟩, by simp⟩
theorem test_issue_uniform : issue demoWave ((uniformRows (uRegs 10 2 4 8)).map (·.1) ++ (uniformFloatRows (uRegs 10 2 4 8)).map (·.1) ++
      (uniformSpecials (fRegs 10 2 4 8) (uRegs 10 2 4 8) ⟨false, 5, 1⟩).map (·.1)) = true ∧
    (∀ r ∈ uniformFloatRows (uRegs 10 2 4 8), (r.2.1 demoWave).any isAbandoned = false) ∧
    [demoWave.getS 2, demoWave.srcUf (uRegs 10 2 4 8)].any isAbandoned = false ∧ isAbandoned (demoWave.getS 2) = false := by decide
theorem test_met_paired : ∀ r ∈ pairedRows ⟨false, ⟨1, 1, 6, false, 0⟩, ⟨0x22, 2, 7, false, 0⟩⟩, RunRow.met r := by
  simp only [pairedRows, List.forall_mem_cons]
  refine ⟨⟨demo demoWave, ctx demoWave, by decide, ?_⟩, by simp⟩
  show ∀ x ∈ _, _
  decide
theorem test_met_idle : issue demoWave ((idleRows (fRegs 0 0 0 0)).map (·.i)) = true := by decide

theorem demo_traps (w : Wave) (h1 : w.sect = none) (h2 : (demo w).trapHandler w ≠ 0)
    (h3 : ((w.active (w.run.getD 0)).all fun x => decide (x.2.tm = false)) = true) (h4 : w.reg = none)
    (h5 : (demo w).blockRegion w = none) : (demo w).traps (ctx w) := by
  refine ⟨h1, h2, hasAll (P := fun _ th => th.tm = false) h3, ?_, ?_⟩
  · show (w.reg.any fun r => r.doomed) = false
    rw [h4]
    rfl
  · show (((demo w).blockRegion w).any fun r => r.doomed) = false
    rw [h5]
    rfl
theorem test_traps : (demo demoBad).traps (ctx demoBad) := demo_traps _ (by decide) (by decide) (by decide) (by decide) (by decide)
/-- Each word whose first operand is tested traps in lane 1. -/
theorem test_met_abandoned : issue demoBad ([.fadd (fRegs 10 2 4 8), .fcmp (fRegs 3 2 4 8), .cvt (fRegs 10 2 4 0), .cvtef (fRegs 10 2 4 0)]) = true ∧
    maskOf (((group (ctx demoBad)).filter fun x => ([x.2.src (.reg 2)]).any isAbandoned).map fun x => x.1) = 2 := by decide

/-! #### Control -/

theorem test_met_branches : ∀ r ∈ branchRows (fImm 0 0 5), EndRow.met r := by
  simp only [branchRows, List.forall_mem_cons]
  exact ⟨met demoWave (by decide) trivial, met demoWave (by decide) trivial, met demoWave (by decide) trivial,
    met demoWave (by decide) trivial, met demoWave (by decide) trivial, met demoWave (by decide) trivial,
    met demoWave (by decide) rfl, met demoSect (by decide) (by decide),
    ⟨demoL (fun l => { l with rc := { l.rc with dbg := true } }) demoWave, ctx demoWave, by decide, ⟨rfl, by decide⟩⟩,
    met demoWave (by decide) (by decide), by simp⟩
theorem test_met_transfers : ∀ r ∈ transferRows (fRegs 4 2 0 0), EndRow.met r := by
  simp only [transferRows, List.forall_mem_cons]
  exact ⟨met demoWave (by decide) (hasAll (P := fun _ th => th.guard _ = true → th.cd ≠ 0xFFFF) (by decide)),
    met demoWave (by decide) (hasAll (P := fun _ th => th.guard _ = true → _ = none) (by decide)),
    met demoWave (by decide) (hasAll (P := fun _ th => th.guard _ = true → th.cd ≠ 0xFFFF ∧ _ = none) (by decide)),
    met demoWave (by decide) (hasAll (P := fun _ th => th.guard _ = true → th.cd ≠ 0 ∧ _ = none) (by decide)), by simp⟩
/-! #### Memory -/

/-- All of the first gibibyte, every permission; and that range in the lock and the remote space. -/
def allCap (space : Nat := 0) : Cap := Cap.make 0 0x40000000 0 0xFFF space 0 true
/-- Lanes 0 and 1 at 0x102000 and 0x102040; c1 and c2 over memory; offsets in v2, data from v8. -/
def memThread (l : Nat) : Thread := { Thread.init 0x100000 l with
  v := [(2, BitVec.ofNat 32 (0x102000 + 64 * l)), (3, BitVec.ofNat 32 (0x103000 + 64 * l)), (8, BitVec.ofNat 32 (l + 3)), (9, 5), (10, 6), (11, 7)] }
def memWave : Wave := { loadWave with
  threads := [(0, memThread 0), (1, memThread 1), (4, { memThread 4 with pc := 0x100040 })]
  run := some 3, c := [(1, allCap), (2, allCap 1), (3, allCap 2)], s := [(4, 0x102000)] }
theorem hasOne {c : Ctx} {l0 : Nat} {t0 : Thread} (h : c.w.active c.mask = [(l0, t0)]) {l : Nat} {th : Thread}
    (hh : c.has l th) : l = l0 ∧ th = t0 := by
  have := (Wave.mem_active c.w c.mask l th).mpr hh
  rw [h] at this
  simpa using this
theorem passing {s : State} {c : Ctx} {g : Guard} {cap : Thread → Cap} {at_ : Thread → DWord} {size : Nat} {perms : Thread → Nat}
    {kind : Nat} {writes : Bool}
    (h : ((c.w.active c.mask).all fun x => match s.checkAt c.w x.2 (cap x.2) (at_ x.2) size (perms x.2) kind with
      | .ok e => settled s c.w.coreNo writes e
      | .error _ => false) = true) : Passing s c g cap at_ size perms kind writes := by
  intro l th hh _
  have := List.all_eq_true.mp h (l, th) ((Wave.mem_active _ _ _ _).mpr hh)
  dsimp only at this
  split at this
  · next e he => exact ⟨e, he, this⟩
  · cases this

/-- The same wave with lane 0 alone. -/
def memOne : Wave := { memWave with threads := [(0, memThread 0)], run := some 1 }
def AccRow.met (r : AccRow) : Prop := ∃ (s : State) (c : Ctx), s.issues r.i c = true ∧ s.inRegion c.w = false ∧ r.ok s c ∧
  Passing s c r.m.g (capOf r.m c.w) (addrOf r.m c.w) r.size r.perms r.kind r.writes
theorem test_met_accesses : ∀ r ∈ accessRows (mOps 8 1 2 0 0 0x42), AccRow.met r := by
  simp only [accessRows, List.forall_mem_cons]
  refine ⟨⟨demo memWave, ctx memWave, by decide, by decide, trivial, passing (by decide)⟩,
    ⟨demo memWave, ctx memWave, by decide, by decide, .inl (by decide), passing (by decide)⟩,
    ⟨demo memWave, ctx memWave, by decide, by decide, trivial, passing (by decide)⟩,
    ⟨demo memWave, ctx memWave, by decide, by decide, trivial, passing (by decide)⟩,
    ⟨demo memWave, ctx memWave, by decide, by decide, ?_, passing (by decide)⟩,
    ⟨demo memWave, ctx memWave, by decide, by decide, ?_, passing (by decide)⟩,
    ⟨demo memWave, ctx memWave, by decide, by decide, trivial, passing (by decide)⟩,
    ⟨demo memOne, ctx memOne, by decide, by decide, ?_, passing (by decide)⟩,
    ⟨demo memOne, ctx memOne, by decide, by decide, ?_, passing (by decide)⟩,
    ⟨demo memWave, ctx memWave, by decide, by decide, trivial, passing (by decide)⟩, by simp⟩
  · intro l th _ _ h
    exact absurd h (by decide)
  · intro l th _ _ h
    exact absurd h (by decide)
  · intro l l' th th' h h' _ _
    rw [(hasOne (t0 := memThread 0) rfl h).2, (hasOne (t0 := memThread 0) rfl h').2]
  · intro l l' th th' h h' _ _
    rw [(hasOne (t0 := memThread 0) rfl h).2, (hasOne (t0 := memThread 0) rfl h').2]
theorem test_met_pairs : ∀ r ∈ pairRows (mOps 8 1 2 0 0 0x40), (demo memWave).issues r.i (ctx memWave) = true ∧ r.ok (ctx memWave) ∧
    ∀ k, k < 2 → Passing (demo memWave) (ctx memWave) ⟨0, false⟩ (fun _ => allCap)
      (fun th => addrAt (mOps 8 1 2 0 0 0x40) memWave th (2 + k)) r.size (fun _ => pLOAD ||| pSTORE ||| pATOMIC) 2 true := by
  have hp : ∀ k, k < 2 → Passing (demo memWave) (ctx memWave) ⟨0, false⟩ (fun _ => allCap)
      (fun th => addrAt (mOps 8 1 2 0 0 0x40) memWave th (2 + k)) 4 (fun _ => pLOAD ||| pSTORE ||| pATOMIC) 2 true := by
    intro k hk
    match k, hk with
    | 0, _ => exact passing (by decide)
    | 1, _ => exact passing (by decide)
  simp only [pairRows, List.forall_mem_cons]
  refine ⟨⟨by decide, trivial, hp⟩, ⟨by decide, ?_, hp⟩, ⟨by decide, trivial, hp⟩, by simp⟩
  intro l th _ _ h
  exact absurd h (by decide)
/-- A narrow store, and a prefetch through a capability without a tag. -/
theorem test_met_queued : (demo memWave).issues (.st (mOps 8 1 2 0 0 0x02)) (ctx memWave) = true ∧ (demo memWave).quiet 1 3 = true ∧
    Passing (demo memWave) (ctx memWave) ⟨0, false⟩ (fun _ => allCap) (addrOf (mOps 8 1 2 0 0 0x02) memWave) 4 (fun _ => pSTORE) 1 true ∧
    (memWave.active 3).all (fun x => match (demo memWave).checkAt memWave x.2 allCap (addrOf (mOps 8 1 2 0 0 0x02) memWave x.2) 4 pSTORE 1 with
      | .ok e => !e.swm
      | .error _ => false) = true := ⟨by decide, by decide, passing (by decide), by decide⟩
theorem test_met_prefetch : (demo memWave).issues (.pf (mOps 0 7 2 0 0 2)) (ctx memWave) = true := by decide
/-- No tag in c7: the lane fails its check. -/
def AccRow.metTrap (r : AccRow) : Prop := ∃ (s : State) (c : Ctx) (code : Nat), s.issues r.i c = true ∧ r.ok s c ∧
  s.inRegion c.w = false ∧ s.traps c ∧ c.mask ≠ 0 ∧ code ≠ cNOTPRESENT ∧ ∀ l th, c.has l th → th.guard r.m.g = true ∧
    s.checkAt c.w th (capOf r.m c.w th) (addrOf r.m c.w th) r.size (r.perms th) r.kind = .error code
theorem metTrap {r : AccRow} (h : (demo memOne).issues r.i (ctx memOne) = true) (ok : r.ok (demo memOne) (ctx memOne))
    (hg : (memThread 0).guard r.m.g = true)
    (hc : (match (demo memOne).checkAt memOne (memThread 0) (capOf r.m memOne (memThread 0)) (addrOf r.m memOne (memThread 0)) r.size
      (r.perms (memThread 0)) r.kind with
      | .ok _ => false
      | .error e => e == cTAG) = true) : AccRow.metTrap r := by
  refine ⟨_, _, cTAG, h, ok, by decide, demo_traps memOne (by decide) (by decide) (by decide) (by decide) (by decide), by decide,
    by decide, ?_⟩
  intro l th hh
  obtain ⟨rfl, rfl⟩ := hasOne (t0 := memThread 0) rfl hh
  refine ⟨hg, ?_⟩
  show (demo memOne).checkAt memOne (memThread 0) _ _ _ _ _ = _
  split at hc
  · cases hc
  · next e he => exact he.trans (by rw [eq_of_beq hc])
theorem test_met_checks : ∀ r ∈ accessRows (mOps 8 7 2 0 0 0x42), AccRow.metTrap r := by
  have one : oneLine (mOps 8 7 2 0 0 0x42) (demo memOne) (ctx memOne) := by
    intro l l' th th' h h' _ _
    rw [(hasOne (t0 := memThread 0) rfl h).2, (hasOne (t0 := memThread 0) rfl h').2]
  have cl : clean (mOps 8 7 2 0 0 0x42) false (ctx memOne) := fun l th _ _ h => absurd h (by decide)
  simp only [accessRows, List.forall_mem_cons]
  exact ⟨metTrap (by decide) trivial (by decide) (by decide), metTrap (by decide) (.inl (by decide)) (by decide) (by decide),
    metTrap (by decide) trivial (by decide) (by decide), metTrap (by decide) trivial (by decide) (by decide),
    metTrap (by decide) cl (by decide) (by decide), metTrap (by decide) cl (by decide) (by decide),
    metTrap (by decide) trivial (by decide) (by decide), metTrap (by decide) one (by decide) (by decide),
    metTrap (by decide) one (by decide) (by decide), metTrap (by decide) trivial (by decide) (by decide), by simp⟩

theorem hasMask {c : Ctx} (h : ((List.range 32).all fun l => !inMask c.mask l || (c.w.active c.mask).any fun x => x.1 == l) = true) :
    ∀ l, inMask c.mask l = true → ∃ th, c.has l th := by
  intro l hl
  have hlt : l < 32 := by
    rcases Nat.lt_or_ge l 32 with h | h
    · exact h
    · simp [inMask, BitVec.getLsbD_of_ge _ _ h] at hl
  have := List.all_eq_true.mp h l (List.mem_range.mpr hlt)
  rw [hl] at this
  simp only [Bool.not_true, Bool.false_or, List.any_eq_true] at this
  obtain ⟨⟨k, th⟩, hm, hk⟩ := this
  rw [← eq_of_beq hk]
  exact ⟨th, (Wave.mem_active _ _ _ _).mp hm⟩
def demoDeep : Wave := { demoWave with threads := demoWave.threads.map fun (l, t) => (l, { t with cd := 0 }) }
theorem test_met_exit : ∀ r ∈ exitRows (fRegs 0 2 0 0), EndRow.met r := by
  have st (w : Wave) (b : (fget (demo w).blocks w.blk) = some (loadBlock false)) :
      ∀ k, fget (demo w).blocks w.blk = some k → k.bars = [] := by
    intro k hk
    rw [b] at hk
    cases hk
    rfl
  simp only [exitRows, List.forall_mem_cons]
  exact ⟨met demoWave (by decide) ⟨by decide, rfl, ⟨4, { demoThread 4 with pc := 0x100040 }, by decide⟩, st _ rfl⟩,
    met demoDeep (by decide) ⟨by decide, ⟨rfl, ⟨4, { demoThread 4 with pc := 0x100040, cd := 0 }, by decide⟩, st _ rfl⟩,
      hasMask (by decide), hasAll (P := fun _ th => th.guard _ = true ∧ th.cd = 0 ∧ _ = none) (by decide)⟩, by simp⟩
theorem test_met_trap : EndRow.met (trapRow (fRegs 0 0 0 0 5)) :=
  ⟨_, _, (by decide : (demo demoWave).issues _ (ctx demoWave) = true), demo_traps demoWave (by decide) (by decide) (by decide) (by decide) (by decide)⟩

/-! #### Accesses performed -/

/-- An access of wave 1 in flight, of lanes 0 and 1 at 0x5000. -/
def flight (op : AccOp) (xs : List LaneAcc := [⟨0, 0, 0x5000, 0, 0, 5, false⟩, ⟨1, 0, 0x5000, 0, 0, 6, false⟩]) (w : Wave := memWave) : State :=
  { demo w with inflight := [⟨9, 1, 0, op, xs, 3, 2, false, false, 0, 0⟩], nextId := 10 }
def theAcc (op : AccOp) (xs : List LaneAcc := [⟨0, 0, 0x5000, 0, 0, 5, false⟩, ⟨1, 0, 0x5000, 0, 0, 6, false⟩]) : Access :=
  ⟨9, 1, 0, op, xs, 3, 2, false, false, 0, 0⟩
theorem performable (op : AccOp) (w : Wave) (h : (demo w).core w.core = (demo memWave).core 0) (r : (flight op (w := w)).readyAccess 9 = some (theAcc op) ∧
    ready (theAcc op) (flight op (w := w)).inflight = true ∧ (flight op (w := w)).unpassed = true ∧ (flight op (w := w)).badLanes (theAcc op) = [] ∧
    (flight op (w := w)).loadsAbroad (theAcc op) = false) : Performable (flight op (w := w)) 9 (theAcc op) w :=
  ⟨r.1, r.2.1, r.2.2.1, rfl, r.2.2.2.1, r.2.2.2.2, .inl (congrArg Core.sq h)⟩
def performs : List AccOp := [.load 4 false 8, .store 4, .atom 0 4 true 8, .cas 4 8, .lres 4 8, .scond 4 8]
theorem test_met_performed : (∀ op ∈ performs, Performable (flight op) 9 (theAcc op) memWave ∧
      (∀ x ∈ (theAcc op).lanes, x.key = 0x5000 ∧ once (theAcc op) x) ∧ unqueued (flight op) memWave 0x5000 4) ∧
    Performable (flight (.scond 4 8) (w := { memWave with resv := some (0x140, 1) })) 9 (theAcc (.scond 4 8))
      { memWave with resv := some (0x140, 1) } ∧
    ((flight (.lres 4 8)).reservedAt (homeId (lineId ((theAcc (.lres 4 8)).die memWave) 0x5000))).length < 256 := by
  refine ⟨fun op h => ⟨performable op memWave rfl ?_, ?_, fun e he => by cases he⟩, performable _ _ rfl (by decide), by decide⟩
  · revert op
    decide
  · show ∀ x ∈ [_, _], _
    unfold once
    show ∀ x ∈ _, _ ∧ x ∈ [_, _] ∧ ∀ y ∈ [_, _], _
    decide

/-! #### Capabilities, fences, barriers -/

/-- The n-th row of a list is met. -/
def metAt (rows : List EndRow) (n : Nat) : Prop := ∃ r, rows[n]? = some r ∧ EndRow.met r
def okB (x : Except Nat Cap) : Bool := match x with
  | .ok _ => true
  | .error _ => false
theorem isOk_of {x : Except Nat Cap} (h : okB x = true) : isOk x := by
  cases x with
  | ok k => exact ⟨k, rfl⟩
  | error e => cases h
theorem isBad_of {x : Except Nat Cap} (h : okB x = false) : ∃ e, x = .error e := by
  cases x with
  | ok k => cases h
  | error e => exact ⟨e, rfl⟩
theorem hasAllB {c : Ctx} {P : Nat → Thread → Bool} (h : ((c.w.active c.mask).all fun x => P x.1 x.2) = true) :
    ∀ l th, c.has l th → P l th = true :=
  fun l th hh => List.all_eq_true.mp h (l, th) ((Wave.mem_active _ _ _ _).mpr hh)

def capThread (t : Thread) : Thread :=
  (((((t.setQuadCap 20 allCap).setQuadCap 24 (Cap.make 0x1000 0x100 0 3 0 0 true)).setV 10 0x10).setV 12 0x30).setV 11 0).setV 13 0
def capWave : Wave := { memWave with
  threads := memWave.threads.map fun (l, t) => (l, capThread t)
  s := [(2, 2), (4, 0x102000), (10, 16), (12, 0x200), (14, 5)], c := [(1, allCap), (2, Cap.make 0x1000 0x100 0 3 0 0 true)] }
theorem test_met_caps :
    metAt (capRows (fRegs 16 20 10 12 1)) 0 ∧ metAt (capRows (fRegs 4 1 10 12)) 1 ∧ metAt (capRows (fRegs 16 20 10 0 1)) 2 ∧
    metAt (capRows (fRegs 4 1 10 0)) 3 ∧ metAt (capRows (fRegs 4 1 0 0)) 4 ∧ metAt (capRows (fRegs 16 1 0 0 1)) 5 ∧
    metAt (capRows (fRegs 4 20 0 0 2)) 6 ∧ metAt (capRows (fRegs 16 24 0 0 3)) 7 ∧ metAt (capRows (fRegs 4 1 0 0)) 8 ∧
    metAt (capRows (fRegs 4 24 0 0 8)) 9 ∧ metAt (capRows (fRegs 4 1 10 0 1)) 10 ∧ metAt (capRows (fRegs 4 24 10 0 9)) 11 ∧
    metAt (capRows (fRegs 4 1 2 0 2)) 12 ∧ metAt (capRows (fRegs 4 24 20 0 10)) 13 := by
  refine ⟨⟨_, rfl, met capWave (by decide) ⟨by decide, fun l th h => isOk_of ?_⟩⟩,
    ⟨_, rfl, met capWave (by decide) ⟨by decide, isOk_of (by decide)⟩⟩,
    ⟨_, rfl, met capWave (by decide) ⟨by decide, fun l th h => isOk_of ?_⟩⟩,
    ⟨_, rfl, met capWave (by decide) ⟨by decide, isOk_of (by decide)⟩⟩, ⟨_, rfl, met capWave (by decide) (by decide)⟩,
    ⟨_, rfl, met capWave (by decide) (by decide)⟩, ⟨_, rfl, met capWave (by decide) (by decide)⟩,
    ⟨_, rfl, met capWave (by decide) (by decide)⟩, ⟨_, rfl, met capWave (by decide) (by decide)⟩,
    ⟨_, rfl, met capWave (by decide) (by decide)⟩, ⟨_, rfl, met capWave (by decide) (by decide)⟩,
    ⟨_, rfl, met capWave (by decide) (by decide)⟩, ⟨_, rfl, met capWave (by decide) (by decide)⟩,
    ⟨_, rfl, met capWave (by decide) (by decide)⟩⟩
  · exact hasAllB (P := fun _ th => okB ((th.quadCap 20).narrow (th.getV2 10).toNat (th.getV2 12).toNat)) (by decide) l th h
  · exact hasAllB (P := fun _ th => okB ((th.quadCap 20).restrict (th.getV 10))) (by decide) l th h
/-- Two entries of a handle table at 0x104000; handle 2 covers a page. -/
def handles : State :=
  let s := (demo capWave).modPort 0 fun p => { p with htBase := 0x104000, htCount := 3 }
  { s with mem := ((s.mem.setNum 0x104040 0x10000 8).setNum 0x104048 0x1000 8).setNum 0x104050 0x1003F 8 }
def fromH (f : FOps) (s : State) (c : Ctx) : Bool := match handleRead f s c with
  | some (ks, _, k) => ks.all (fun x => !s.badAt (x.2.die c.w) x.1 1 && settled s c.w.coreNo false x.2) && okB k
  | none => false
theorem fromH_of {f : FOps} {s : State} {c : Ctx} (h : fromH f s c = true) : ∃ ks s1 k, handleRead f s c = some (ks, s1, .ok k) ∧
    (∀ x ∈ ks, s.badAt (x.2.die c.w) x.1 1 = false) ∧ ∀ x ∈ ks, settled s c.w.coreNo false x.2 = true := by
  unfold fromH at h
  split at h
  · next ks s1 k hr =>
    simp only [Bool.and_eq_true, List.all_eq_true, Bool.not_eq_true'] at h
    obtain ⟨k', rfl⟩ := isOk_of h.2
    exact ⟨ks, s1, k', hr, fun x hx => (h.1 x hx).1, fun x hx => (h.1 x hx).2⟩
  · cases h
set_option maxRecDepth 20000 in
theorem test_met_cfromh : metAt (capRows (fRegs 4 2 10 0)) 14 :=
  ⟨_, rfl, handles, ctx capWave, by decide, by decide, by decide, fromH_of (by decide)⟩
def nilWave : Wave := { capWave with c := [] }
theorem test_met_capFaults : ∀ r ∈ capFaultRows (fRegs 4 1 10 12), EndRow.met r := by
  have tr : (demo nilWave).traps (ctx nilWave) := demo_traps nilWave (by decide) (by decide) (by decide) (by decide) (by decide)
  simp only [capFaultRows, List.forall_mem_cons]
  exact ⟨met nilWave (by decide) ⟨by decide, tr, isBad_of (by decide)⟩,
    met nilWave (by decide) ⟨by decide, tr, isBad_of (by decide)⟩, by simp⟩

def memSect : Wave := { memWave with sect := some demoSection, threads := [(0, memThread 0)], run := some 1 }
theorem test_met_waits :
    metAt (waitRows (uImm 0 0 9)) 0 ∧ metAt (waitRows (uRegs 0 0 0 0 0x21)) 1 ∧ metAt (waitRows (uRegs 0 0 0 0 0x41)) 2 ∧
    metAt (waitRows (uRegs 0 0 0 0 0x62)) 3 ∧ metAt (waitRows (uImm 0 0 255)) 4 ∧
    metAt (waitRows (uRegs 0 0 0 0 0x43)) 5 ∧ metAt (waitRows (uRegs 0 0 0 0 0x63)) 6 ∧ metAt (waitRows (uRegs 0 0 0 0 0x63)) 7 := by
  have noSc (w : Wave) (h : w.threads.all (fun x => x.2.wait == .none) = true) (m : Word) : noneDrains ⟨1, w, m⟩ := fun x hx _ sys since => by
    rw [eq_of_beq (List.all_eq_true.mp h _ hx)]
    exact fun h => by cases h
  refine ⟨⟨_, rfl, met memWave (by decide) ⟨by decide, by decide⟩⟩, ⟨_, rfl, met memWave (by decide) ⟨⟨by decide, by decide⟩, by decide⟩⟩,
    ⟨_, rfl, met memWave (by decide) ⟨⟨by decide, by decide⟩, by decide, by decide, by decide⟩⟩,
    ⟨_, rfl, met memSect (by decide) ⟨⟨by decide, by decide⟩, by decide, by decide⟩⟩,
    ⟨_, rfl, met memWave (by decide) ⟨⟨by decide, by decide⟩, by decide⟩⟩,
    ⟨_, rfl, flight (.load 4 false 8), ctx memWave, by decide, ⟨by decide, by decide⟩, by decide, noSc _ (by decide) _⟩,
    ⟨_, rfl, met memWave (by decide) ⟨⟨by decide, by decide⟩, by decide, by decide, by decide, noSc _ (by decide) _, 0, memThread 0, by decide, rfl⟩⟩,
    ⟨_, rfl, met memSect (by decide) ⟨⟨by decide, by decide⟩, by decide, by decide, noSc _ (by decide) _⟩⟩⟩
/-- A store of each of two waves in the queue. -/
def queued (s : State) : State := s.modCore 0 fun k => { k with sq := [⟨1, 1, 1, 5, 0x102000, [1, 2, 3, 4], 0, 0x100040, 0, 0⟩, ⟨3, 1, 1, 5, 0x102002, [9, 9], 0, 0x100040, 0, 0⟩] }
theorem test_met_drains : (queued (demo memWave)).inRegion memWave = false ∧ memWave.sect = none ∧
    (queued (demo memWave)).issues (.fence (uRegs 0 0 0 0 0x41)) (ctx memWave) = true ∧ bfld (uRegs 0 0 0 0 0x41).mod 2 0 ≠ 0 ∧
    2 ≤ fenceSc (uRegs 0 0 0 0 0x41) ∧ (queued (demo memWave)).issues (.acqr (uImm 0 0 0)) (ctx memWave) = true := by decide
def openRegion : Region := ⟨[(0x4080, ⟨5, [(0, 0xAA), (1, 0)], 3, 0, false, false⟩), (0x4081, ⟨5, [(4, 0x55)], 0x10, 0, false, false⟩)], 0, false, 1, 0, 0, [], []⟩
def regWave : Wave := { memWave with reg := some openRegion }
theorem traps_of {s : State} {c : Ctx} (h1 : c.w.sect = none) (h2 : s.trapHandler c.w ≠ 0)
    (h3 : ((c.w.active c.mask).all fun x => decide (x.2.tm = false)) = true) (h4 : (c.w.reg.any fun r => r.doomed) = false)
    (h5 : ((s.blockRegion c.w).any fun r => r.doomed) = false) : s.traps c := ⟨h1, h2, hasAll h3, h4, h5⟩
theorem reg_traps : (demo regWave).traps (ctx regWave) := traps_of (by decide) (by decide) (by decide) (by decide) (by decide)
theorem test_met_irrevocable : let m := mOps 8 1 2 0 0 0x40
    metAt (irrevocableRows (uImm 0 0 5) m) 0 ∧ metAt (irrevocableRows (uRegs 0 0 0 0 0x43) m) 1 ∧
    metAt (irrevocableRows (uImm 0 0 5) m) 2 ∧ metAt (irrevocableRows (uImm 0 0 5) m) 3 ∧
    metAt (irrevocableRows (uImm 0 0 5) m) 4 ∧ metAt (irrevocableRows (uImm 0 0 5) m) 5 :=
  ⟨⟨_, rfl, met regWave (by decide +kernel) ⟨by decide +kernel, reg_traps⟩⟩, ⟨_, rfl, met regWave (by decide +kernel) ⟨by decide +kernel, reg_traps⟩⟩,
    ⟨_, rfl, met regWave (by decide +kernel) ⟨by decide +kernel, reg_traps⟩⟩, ⟨_, rfl, met regWave (by decide +kernel) ⟨by decide +kernel, reg_traps⟩⟩,
    ⟨_, rfl, met regWave (by decide +kernel) ⟨by decide +kernel, reg_traps⟩⟩, ⟨_, rfl, met regWave (by decide +kernel) ⟨by decide +kernel, reg_traps⟩⟩⟩

/-- Waits of threads at barriers, in a block of two or three threads. -/
theorem keys_apart {u l l' : Nat} {m : Word} (h : (List.range 32).all (fun j => !inMask m j || threadKey u l' != threadKey u j) = true)
    (hl : inMask m l = true) : threadKey u l' ≠ threadKey u l := by
  have hlt : l < 32 := by
    rcases Nat.lt_or_ge l 32 with h | h
    · exact h
    · simp [inMask, BitVec.getLsbD_of_ge _ _ h] at hl
  have := List.all_eq_true.mp h l (List.mem_range.mpr hlt)
  rw [hl] at this
  simpa using this
def theBlock (s : State) : Block := (fget s.blocks 1).getD Block.init
theorem arrives_part (s : State) (w : Wave) (k : Nat) (mode : BarMode) (l' : Nat) (h1 : w.sect = none)
    (h2 : fget s.blocks w.blk = some (theBlock s)) (h3 : s.quiet 1 (ctx w).mask = true) (h4 : ((theBlock s).bar k).mode = none)
    (h5 : ((s.blockLive w.blk).map Prod.fst).contains (threadKey 1 l') = true) (h6 : ((theBlock s).bar k).arrived = [])
    (h7 : (List.range 32).all (fun j => !inMask (ctx w).mask j || threadKey 1 l' != threadKey 1 j) = true)
    (hm : ∀ n, mode ≠ .count n) : arrivable s (ctx w) (theBlock s) k mode := by
  have hx : ∃ x ∈ s.blockLive w.blk, x.1 ∉ ((theBlock s).bar k).arrived ∧ ∀ l, inMask (ctx w).mask l = true → x.1 ≠ threadKey 1 l := by
    rw [List.contains_iff_mem, List.mem_map] at h5
    obtain ⟨x, hx, hk⟩ := h5
    refine ⟨x, hx, by simp [h6], fun l hl => ?_⟩
    rw [hk]
    exact keys_apart h7 hl
  refine ⟨h1, h2, h3, .inl h4, ?_⟩
  cases mode with
  | count n => exact absurd rfl (hm n)
  | _ => exact hx
theorem test_met_arrivals :
    (demo memWave).issues (.barArrive (uRegs 0 0 0 0 0x31)) (ctx memWave) = true ∧
    arrivable (demo memWave) (ctx memWave) (theBlock (demo memWave)) 3 .participant ∧
    (demo memWave).issues (.barSync (uRegs 0 0 0 0 0x30)) (ctx memWave) = true ∧
    (∀ l th, (ctx memWave).has l th → th.starved.getLsbD 3 = false) ∧ (∀ l, inMask (ctx memWave).mask l = true → ∃ th, (ctx memWave).has l th) ∧
    barMode (uRegs 0 0 0 0 0x30) memWave = .participant ∧ barNo (uRegs 0 0 0 0 0x30) = 3 ∧
    -- counted arrivals: of three threads, two arrive
    barMode (uImm 0 0 3 0x38) memWave = .count 3 ∧ arrivable (demo memWave) (ctx memWave) (theBlock (demo memWave)) 3 (.count 3) ∧
    (demo memWave).issues (.barSync (uImm 0 0 3 0x38)) (ctx memWave) = true ∧
    (demo memWave).issues (.barArrive (uImm 0 0 3 0x39)) (ctx memWave) = true :=
  ⟨by decide, arrives_part (demo memWave) memWave 3 .participant 4 rfl rfl (by decide) (by decide) (by decide) (by decide) (by decide)
      (fun n h => by cases h), by decide, hasAll (P := fun _ th => th.starved.getLsbD 3 = false) (by decide), hasMask (c := ctx memWave) (by decide),
    by decide, by decide, by decide, ⟨by decide, by decide, by decide, .inl (by decide), by decide⟩, by decide, by decide⟩
def passedWave : Wave := { memWave with threads := memWave.threads.map fun (l, t) => (l, { t with barPhase := [(3, 0)] }) }
def barState (g : Barrier → Barrier) (w : Wave) : State := (demo w).modBlock 1 fun b => b.setBar 3 (g Barrier.init)
theorem test_met_barWait : EndRow.met (barWaitRow (uRegs 0 0 0 0 0x32)) :=
  ⟨barState (fun b => { b with phase := 1, flags := [(0, 2)] }) passedWave, ctx passedWave, by decide, by decide, by decide, _, rfl,
    hasAll (P := fun _ th => th.starved.getLsbD _ = false ∧ th.phaseOver _ _ = true) (by decide)⟩
/-- Thread 1 waits, and thread 0 comes last. -/
def lastWave (k : Nat) : Wave := { memWave with
  threads := [(0, memThread 0), (1, { memThread 1 with wait := .bar k 0, barPhase := [(k, 0)] })], run := some 1 }
def lastState (k : Nat) (mode : BarMode) (reg : Option Region) : State := (demo (lastWave k)).modBlock 1 fun b =>
  { (b.setBar k { Barrier.init with mode := some mode, arrivals := 1, arrived := [threadKey 1 1], waves := [1], preds := [(threadKey 1 1, 4)] }) with
    reg := reg }
theorem last_one (k : Nat) (mode : BarMode) (reg : Option Region)
    (h1 : (lastState k mode reg).quiet 1 1 = true) (h2 : ((theBlock (lastState k mode reg)).bar k).mode = some mode)
    (h3 : ((lastState k mode reg).blockLive 1).all (fun x => x.1 == threadKey 1 0 ||
      ((theBlock (lastState k mode reg)).bar k).arrived.contains x.1) = true)
    (h4 : fget (lastState k mode reg).blocks 1 = some (theBlock (lastState k mode reg)))
    (h5 : ((lastWave k).active 1).contains (0, memThread 0) = true) :
    lastOne (lastState k mode reg) (ctx (lastWave k)) (theBlock (lastState k mode reg)) k 0 mode := by
  refine ⟨(by decide : lanesOf 1 = [0]), rfl, h4, rfl, h1, .inl h2, ⟨memThread 0, (Wave.mem_active _ _ _ _).mp ?_, rfl, rfl, by simp [memThread, Thread.init]⟩,
    fun x hx => ?_⟩
  · exact List.contains_iff_mem.mp h5
  · have := List.all_eq_true.mp h3 x hx
    simpa [List.contains_iff_mem, ctx] using this
theorem test_met_lastSync : lastOne (lastState 3 .participant none) (ctx (lastWave 3)) (theBlock (lastState 3 .participant none)) 3 0 .participant ∧
    (lastState 3 .participant none).issues (.barSync (uRegs 0 0 0 0 0x30)) (ctx (lastWave 3)) = true :=
  ⟨last_one 3 _ _ (by decide) (by decide) (by decide) (by decide) (by decide), by decide⟩

/-! #### Regions -/

def withHandlers (w : Wave) : Wave := { w with
  threads := w.threads.map fun (l, t) => (l, { t with hWave := some ⟨0x100400, 0, 1⟩, hBlk := some ⟨0x100500, 2, 0⟩, meet := [⟨1, 1, 0⟩, ⟨2, 2, 2⟩] }) }
/-- A wave with all its threads at the word, inside a region or not. -/
def together : Wave := withHandlers { memWave with threads := [(0, memThread 0), (1, memThread 1)] }
def inside : Wave := { together with reg := some openRegion }
def doomed : Wave := { together with reg := some { openRegion with doomed := true } }
def apart (w : Wave) : Wave := { w with run := some 1 }
theorem together_traps (w : Wave) (h : (w.sect.isNone && (demo w).trapHandler w != 0 && ((w.active (w.run.getD 0)).all fun x => !x.2.tm) &&
    !(w.reg.any fun r => r.doomed) && !((demo w).blockRegion w).any fun r => r.doomed) = true) : (demo w).traps (ctx w) := by
  simp only [Bool.and_eq_true, Bool.not_eq_true', bne_iff_ne, Option.isNone_iff_eq_none] at h
  obtain ⟨⟨⟨⟨h1, h2⟩, h3⟩, h4⟩, h5⟩ := h
  exact traps_of h1 h2 (by simpa [ctx] using h3) h4 h5
/-- A launch without region quota, and another block that holds the whole pool. -/
def noQuota (w : Wave) : State :=
  let s := demoL (fun l => { l with rc := { l.rc with rwave := 0, rblk := 0 } }) w
  { s with blocks := s.blocks ++ [(2, { loadBlock false with lid := 1, reg := some { openRegion with pChunks := 1000000 } })] }
theorem test_met_regions :
    metAt (regionRows (uImm 3 0 23)) 0 ∧ metAt (regionRows (uImm 3 0 23)) 1 ∧ metAt (regionRows (uRegs 42 0 0 0)) 2 ∧
    metAt (regionRows (uImm 3 0 23)) 3 ∧ metAt (regionRows (uImm 3 0 23)) 4 ∧ metAt (regionRows (uRegs 0 0 0 0)) 5 ∧
    metAt (regionRows (uRegs 0 0 0 0)) 6 ∧ metAt (regionRows (uImm 0 0 5)) 7 :=
  ⟨⟨_, rfl, met together (by decide) ⟨by decide, by decide, by decide +kernel⟩⟩,
    ⟨_, rfl, noQuota together, ctx together, by decide +kernel, by decide, by decide, by decide +kernel⟩,
    ⟨_, rfl, met inside (by decide +kernel) trivial⟩,
    ⟨_, rfl, met (apart together) (by decide) ⟨together_traps _ (by decide), by decide⟩⟩,
    ⟨_, rfl, met inside (by decide +kernel) ⟨together_traps _ (by decide +kernel), by decide, by decide⟩⟩,
    ⟨_, rfl, met (apart inside) (by decide +kernel) ⟨together_traps _ (by decide +kernel), by decide⟩⟩,
    ⟨_, rfl, met together (by decide) ⟨together_traps _ (by decide), by decide, by decide⟩⟩,
    ⟨_, rfl, met together (by decide) ⟨together_traps _ (by decide), by decide⟩⟩⟩
theorem test_met_waveRegions :
    (demo inside).issues (.rabortWave (uImm 0 0 255)) (ctx inside) = true ∧ inside.reg.isSome = true ∧
    (demo inside).issues (.rcommitWave (uRegs 0 0 0 0)) (ctx inside) = true ∧ (ctx inside).whole = true ∧ inside.sect = none ∧
    (demo inside).blockRegion inside = none ∧ (demo inside).badMerge (dieOf inside.core) openRegion = none ∧ openRegion.poisoned = false ∧ openRegion.doomed = false ∧
    ((demo inside).core inside.core).sq = [] ∧ (fkeys openRegion.lines).Nodup ∧
    (demo doomed).issues (.rcommitWave (uRegs 0 0 0 0)) (ctx doomed) = true ∧ (ctx doomed).whole = true ∧
    (demo doomed).blockRegion doomed = none := by decide +kernel
/-- The block's region open; another wave between its runs, a third within one. -/
def blockOpen : State :=
  let s := (demo inside).modBlock 1 fun b => { b with reg := some openRegion }
  { s with waves := [(1, inside), (6, { together with run := none }), (8, together)] }
theorem test_met_blockAborts : blockOpen.issues (.rabortBlk (uImm 0 0 5 0x80)) (ctx inside) = true ∧
    (fget blockOpen.blocks 1).any (fun b => b.reg.isSome) = true ∧ (fkeys (blockOpen.waves ++ blockOpen.saved)).Nodup := by decide +kernel
/-- Threads 0 and 1 of three. -/
def firstTwo : Wave := withHandlers memWave
theorem test_met_blockRegionsArrive : (∀ l th, (ctx firstTwo).has l th → th.starved.getLsbD (blkBar (uImm 2 0 27 0x88)) = false) ∧
    (∀ l, inMask (ctx firstTwo).mask l = true → ∃ th, (ctx firstTwo).has l th) ∧ firstTwo.reg = none ∧
    (demo firstTwo).issues (.ropenBlk (uImm 2 0 27 0x88)) (ctx firstTwo) = true ∧
    arrivable (demo firstTwo) (ctx firstTwo) (theBlock (demo firstTwo)) (blkBar (uImm 2 0 27 0x88)) .ropen ∧
    (theBlock (demo firstTwo)).reg = none ∧
    -- in a region of the block
    let s := (demo firstTwo).modBlock 1 fun b => { b with reg := some openRegion }
    s.issues (.rcommitBlk (uRegs 0 0 0 0 0x88)) (ctx firstTwo) = true ∧
    arrivable s (ctx firstTwo) (theBlock s) (blkBar (uRegs 0 0 0 0 0x88)) .rcommit ∧ (theBlock s).reg.isSome = true :=
  ⟨hasAll (P := fun _ th => th.starved.getLsbD _ = false) (by decide), hasMask (by decide), rfl, by decide,
    arrives_part _ firstTwo _ _ 4 rfl rfl (by decide) (by decide) (by decide) (by decide) (by decide) (fun n h => by cases h), rfl,
    by decide +kernel, arrives_part _ firstTwo _ _ 4 rfl rfl (by decide +kernel) (by decide) (by decide) (by decide) (by decide)
      (fun n h => by cases h), by decide⟩
theorem test_met_blockRegionsComplete :
    lastOne (lastState 1 .ropen none) (ctx (lastWave 1)) (theBlock (lastState 1 .ropen none)) 1 0 .ropen ∧
    (lastState 1 .ropen none).issues (.ropenBlk (uImm 2 0 27 0x88)) (ctx (lastWave 1)) = true ∧ blkBar (uImm 2 0 27 0x88) = 1 ∧
    ((firstChunk ((lastState 1 .ropen none).quotaBlk (theBlock (lastState 1 .ropen none))) 64
      ((lastState 1 .ropen none).poolFree 0)).isSome = true) ∧
    lastOne (lastState 0 .rcommit (some openRegion)) (ctx (lastWave 0)) (theBlock (lastState 0 .rcommit (some openRegion))) 0 0 .rcommit ∧
    (lastState 0 .rcommit (some openRegion)).issues (.rcommitBlk (uRegs 0 0 0 0 0x80)) (ctx (lastWave 0)) = true ∧
    (lastState 0 .rcommit (some openRegion)).badMerge 0 openRegion = none ∧ blkBar (uRegs 0 0 0 0 0x80) = 0 ∧ ((lastState 0 .rcommit (some openRegion)).core 0).sq = [] :=
  ⟨last_one 1 _ _ (by decide) (by decide) (by decide) (by decide) (by decide), by decide, by decide, by decide +kernel,
    last_one 0 _ _ (by decide +kernel) (by decide +kernel) (by decide +kernel) (by decide +kernel) (by decide +kernel), by decide +kernel, by decide +kernel,
    by decide, by decide⟩

/-! #### System registers, translations, work -/

/-- Threads in the handler, with their return address and latches. -/
def trapWave : Wave := { memWave with
  threads := memWave.threads.map fun (l, t) => (l, { t with tpc := 0x100700, tlatv := 5, tlat := [(1, 7), (3, 9)], tm := true, tcause := 3 })
  s := [(40, 0x123), (41, 9), (4, 5)] }
theorem test_met_system :
    metAt (systemRows (uImm 4 0 0x00A 1)) 0 ∧ metAt (systemRows (uImm 32 0 5)) 1 ∧ metAt (systemRows (uImm 0 8 0x018 1)) 2 ∧
    metAt (systemRows (uImm 0 40 0x018)) 3 ∧ metAt (systemRows (uRegs 0 0 0 0)) 4 ∧ metAt (systemRows (uRegs 0 0 0 0 1)) 5 ∧
    metAt (systemRows (uImm 0 0 7)) 6 ∧ metAt (systemRows (uImm 0 0 7)) 7 :=
  ⟨⟨_, rfl, met memWave (by decide) (by decide)⟩, ⟨_, rfl, met memWave (by decide) ⟨by decide, by decide⟩⟩,
    ⟨_, rfl, met memWave (by decide) (by decide)⟩, ⟨_, rfl, met memWave (by decide) (by decide)⟩,
    ⟨_, rfl, met trapWave (by decide) (by decide)⟩,
    ⟨_, rfl, met trapWave (by decide) ⟨by decide, hasAll (P := fun _ th => th.tcause.toNat % 256 ≠ cFEATURE) (by decide)⟩⟩,
    ⟨_, rfl, met memWave (by decide) (by decide)⟩, ⟨_, rfl, met memSect (by decide) (by decide)⟩⟩
/-- Thread 0 trapped with FEATURE_ABSENT. -/
def absentWave : Wave := { trapWave with threads := trapWave.threads.map fun (l, t) => (l, { t with tcause := 5, tneed := some 3 }) }
theorem test_met_migrates : (demo absentWave).issues (.tretMig (uRegs 0 0 0 0 1)) (ctx absentWave) = true ∧ absentWave.intr = [] ∧
    fget (demo absentWave).blocks 1 = some (theBlock (demo absentWave)) ∧ (theBlock (demo absentWave)).reg = none ∧
    ∃ l th, (ctx absentWave).has l th ∧ th.tcause.toNat % 256 = cFEATURE ∧ th.tneed = some 3 := by
  refine ⟨by decide, by decide, by decide, by decide, 0, _, (Wave.mem_active _ _ _ _).mp (List.mem_of_mem_head? (by rfl)), by decide, by decide⟩

def whole (port : Nat) : TlbEntry := ⟨port, 0, 0x40000000, 0x12000, 0xA1F⟩
def privS (w : Wave) : State := demoL (fun l => { l with priv := true }) w
def cached (s : State) : State := (s.modCore 0 fun k => { k with tlb := [whole 0, whole 1] }).modCore 3 fun k => { k with tlb := [whole 0] }
def tlbWave (x : Nat) : Wave := { memWave with
  s := [(40, 0x102000), (42, BitVec.ofNat 32 x)]
  threads := memWave.threads.map fun (l, t) => (l, { t with lastPage := some (whole 0), tm := true }) }
theorem test_met_invalidates : ∀ x ∈ [0, 0x100, 0xFFFF, 0x10003, 0x1FFFF], let s := cached (privS (tlbWave x))
    let c := ctx (tlbWave x)
    s.issues (.tlbinv (uRegs 0 40 42 0)) c = true ∧ s.issues (.tlbinvAll (uRegs 0 0 42 0)) c = true ∧ s.inRegion c.w = false ∧
    s.quiet c.u c.mask = true ∧ c.mask ≠ 0 ∧ c.w.sect = none ∧
    s.settledOn (invTargets (c.w.getS 42)) (bfld (c.w.getS 42) 16 16) = true := by decide +kernel

/-- The page of the first gibibyte as an SWM page; two dies have copies of a line. -/
def swmS (s : State) : State := { s with
  mem := s.mem.setNum 0x12000 0xE1F 8
  swm := [(0x4080, ⟨[(0, 1), (1, 2)], 3⟩), (2 ^ 60 + 0x4080, ⟨[(1, 9), (5, 9)], 0x22⟩)] }
def leadPage (s : State) (c : Ctx) (m : MOps) (size perms kind : Nat) (f : TlbEntry → Bool) : Bool := match c.lead with
  | some (_, th) => (match s.checkAt c.w th (capOf m c.w th) (addrOf m c.w th) size perms kind with
    | .ok e => f e
    | .error _ => false)
  | none => false
theorem leadPage_of {s : State} {c : Ctx} {m : MOps} {size perms kind : Nat} {f : TlbEntry → Bool}
    (h : leadPage s c m size perms kind f = true) : ∃ l th e, c.lead = some (l, th) ∧
      s.checkAt c.w th (capOf m c.w th) (addrOf m c.w th) size perms kind = .ok e ∧ f e = true := by
  unfold leadPage at h
  split at h
  · next l th hl =>
    split at h
    · next e he => exact ⟨l, th, e, hl, he, h⟩
    · cases h
  · cases h
theorem test_met_pgclass : let c := ctx memWave
    let m := mOps 12 1 2 0 0
    ((privS memWave).issues (.pgclass m) c = true ∧ (privS memWave).inRegion c.w = false ∧
      ∃ l th e, c.lead = some (l, th) ∧
        (privS memWave).checkAt c.w th (capOf m c.w th) (addrOf m c.w th) 1 (pLOAD ||| pSTORE) 1 = .ok e ∧
        (pCLASS ((privS memWave).pteOf e) != 3 && settled (privS memWave) c.w.coreNo true e) = true) ∧
    ((swmS (privS memWave)).issues (.pgclass m) c = true ∧ (swmS (privS memWave)).inRegion c.w = false ∧
      ∃ l th e, c.lead = some (l, th) ∧
        (swmS (privS memWave)).checkAt c.w th (capOf m c.w th) (addrOf m c.w th) 1 (pLOAD ||| pSTORE) 1 = .ok e ∧
        (pCLASS ((swmS (privS memWave)).pteOf e) == 3 && !(swmS (privS memWave)).swmBusy e &&
          ((swmS (privS memWave)).copies e.lines.1 e.lines.2 none).all fun x => !(swmS (privS memWave)).copyBad x.2.1 x.1 x.2.2) = true) :=
  ⟨⟨by decide, by decide, leadPage_of (by decide)⟩, by decide, by decide, leadPage_of (by decide +kernel)⟩
theorem test_met_cachewb : ∀ s ∈ [privS memWave, swmS (privS memWave)], let c := ctx memWave
    let m := mOps 0 1 2 0 0
    s.issues (.cachewb m) c = true ∧ s.issues (.cachewbPg m) c = true ∧ s.inRegion c.w = false ∧ s.quiet c.u c.mask = true ∧
    s.bad = [] ∧ Passing s c m.g (capOf m c.w) (addrOf m c.w) 1 (fun _ => pLOAD) 0 false := by
  intro s hs
  simp only [List.mem_cons, List.not_mem_nil, or_false] at hs
  rcases hs with rfl | rfl
  · exact ⟨by decide, by decide, by decide, by decide, rfl, passing (by decide)⟩
  · exact ⟨by decide, by decide, by decide, by decide, rfl, passing (by decide)⟩
theorem test_met_halts : (privS demoWave).issues (.halt (uImm 0 0 5)) (ctx demoWave) = true ∧ (privS demoWave).inRegion demoWave = false ∧
    (fget (privS demoWave).launches 1).any (fun k => !k.status.final) = true ∧ (fkeys (privS demoWave).launches).Nodup ∧
    (fkeys ((privS demoWave).waves ++ (privS demoWave).saved)).Nodup := by decide

/-- One thread at a `spawn`, with an open bin, all bins taken, or none. -/
def oneWave : Wave := { demoWave with threads := [(0, demoThread 0), (4, { demoThread 4 with pc := 0x100040 })], run := some 1 }
def withBins (bs : FMap Bin) : State := (demo oneWave).modCore 0 fun k => { k with bins := bs }
def openBins (n : Nat) : State := withBins [(3, ⟨1, target (ctx oneWave).pc 12, List.replicate n [], false, 4, 0, false⟩)]
def fullBins : State := withBins ((List.range 64).map fun i => (i, ⟨2, 0, [], false, 4, 0, false⟩))
theorem test_met_spawns : (∀ s ∈ [demo oneWave, openBins 5, openBins 31, fullBins], s.issues (.spawn (fImm 2 8 12)) (ctx oneWave) = true ∧
      s.inRegion oneWave = false ∧ s.quiet 1 1 = true) ∧
    oneWave.sect = none ∧ lanesOf (ctx oneWave).mask = [0] ∧ (ctx oneWave).has 0 (demoThread 0) ∧
    ((openBins 31).core 0).openBin 1 (target (ctx oneWave).pc 12) = some 3 ∧
    ((demo oneWave).core 0).openBin 1 (target (ctx oneWave).pc 12) = none ∧ ((demo oneWave).core 0).freeBin = some 0 ∧
    (fullBins.core 0).openBin 1 (target (ctx oneWave).pc 12) = none ∧ (fullBins.core 0).freeBin = none := by
  refine ⟨by decide +kernel, rfl, by decide, (Wave.mem_active _ _ _ _).mp (List.contains_iff_mem.mp (by decide)), ?_⟩
  decide +kernel

def workWave : Wave := { demoWave with s := [(40, 1), (41, 9)] }
/-- A wave whose thread 0 is elsewhere. -/
def noLead : Wave := { workWave with run := some 2, threads := [(0, { demoThread 0 with pc := 0x100040 }), (1, demoThread 1)] }
theorem test_met_work :
    metAt (workRows (uRegs 0 0 0 0)) 0 ∧ metAt (workRows (uImm 0 0 24 1)) 1 ∧ metAt (workRows (uRegs 44 3 0 0)) 2 ∧
    metAt (workRows (uRegs 44 41 0 0)) 3 ∧ metAt (workRows (uRegs 44 40 0 0)) 4 ∧ metAt (workRows (uRegs 44 40 1 40)) 5 :=
  ⟨⟨_, rfl, met workWave (by decide) trivial⟩, ⟨_, rfl, met workWave (by decide) trivial⟩,
    ⟨_, rfl, met noLead (by decide) ⟨by decide, ⟨by decide, by decide⟩, by decide⟩⟩,
    ⟨_, rfl, met workWave (by decide) ⟨by decide, by decide⟩⟩, ⟨_, rfl, met workWave (by decide) (by decide)⟩,
    ⟨_, rfl, met demoSect (by decide) (by decide)⟩⟩
/-- A launch record at 0x104000. -/
def launchWave : Wave := { memWave with
  c := memWave.c ++ [(5, Cap.make 0x104000 0x180 0 0xFFF 0 0 true)], threads := [(0, memThread 0), (1, memThread 1)] }
def goodRecord (s : State) : State := { s with
  mem := [(0, 0x100000, 8), (0x10, 0x100800, 8), (0x18, 2, 4), (0x1C, 1, 4), (0x20, 1, 4), (0x24, 32, 2), (0x26, 1, 2), (0x28, 1, 2),
    (0x2A, 4, 1), (0x2B, 2, 1), (0x56, 15, 1), (0x80, 77, 4)].foldl (fun (m : Memory) (x : Nat × Nat × Nat) => m.setNum (0x104000 + x.1) x.2.1 x.2.2) s.mem }
def launchB (s : State) (f : List (Nat × TlbEntry) → Bool) : Bool := match (ctx launchWave).lead with
  | some (_, th) => (match s.keysAt launchWave th (launchWave.getC 5).base 0 384 with
    | .ok ks => (ks.all fun x => settled s 0 false x.2) && f ks
    | .error _ => false)
  | none => false
theorem launchable_of {s : State} {f : List (Nat × TlbEntry) → Bool} (h : (!s.inRegion launchWave &&
    !(fget s.launches 1).any (fun l => l.depth == 10) && s.leads (ctx launchWave) && s.quiet 1 3 && s.launchTurn 0 && decide ((s.core 0).sq = [])) = true)
    (hk : launchB s f = true) : ∃ ks, launchable (uRegs 44 5 0 0) s (ctx launchWave) ks ∧ f ks = true := by
  simp only [Bool.and_eq_true, Bool.not_eq_true', decide_eq_true_eq] at h
  obtain ⟨⟨⟨⟨⟨h1, h2⟩, h3⟩, h4⟩, h6⟩, h5⟩ := h
  unfold launchB at hk
  split at hk
  · next l th hl =>
    split at hk
    · next ks he =>
      simp only [Bool.and_eq_true, List.all_eq_true] at hk
      exact ⟨ks, ⟨h1, rfl, h2, h3, by decide +kernel, by decide +kernel, h4, h6, h5, l, th, hl, he, fun x hx => hk.1 x hx⟩, hk.2⟩
    · cases hk
  · cases hk
/-- Its page is in the core's TLB. -/
def launchOld : State := cached (demo launchWave)
def launchNew : State := goodRecord launchOld
theorem test_met_launch :
    launchOld.issues (.launch (uRegs 44 5 0 0)) (ctx launchWave) = true ∧
    (∃ ks, launchable (uRegs 44 5 0 0) launchOld (ctx launchWave) ks ∧ (launchOld.reject
      (launchRecord (uRegs 44 5 0 0) launchOld (ctx launchWave) ks).1 (launchRecord (uRegs 44 5 0 0) launchOld (ctx launchWave) ks).2).isSome = true) ∧
    launchNew.issues (.launch (uRegs 44 5 0 0)) (ctx launchWave) = true ∧ launchNew.pendingCount < 4096 ∧
    ∃ ks, launchable (uRegs 44 5 0 0) launchNew (ctx launchWave) ks ∧ (launchNew.reject
      (launchRecord (uRegs 44 5 0 0) launchNew (ctx launchWave) ks).1 (launchRecord (uRegs 44 5 0 0) launchNew (ctx launchWave) ks).2).isNone = true :=
  ⟨by decide, launchable_of (by decide) (by decide +kernel), by decide, by decide, launchable_of (by decide +kernel) (by decide +kernel)⟩
theorem test_met_fetchw : ∀ s ∈ [demo memWave, (demo memWave).modCore 0 fun k => { k with fetchq := List.replicate 16 ⟨3, 0, 5⟩ }],
    s.issues (.fetchw (uRegs 44 40 1 4)) (ctx memWave) = true ∧ s.inRegion memWave = false ∧ (ctx memWave).lead = some (0, memThread 0) ∧
    (match s.checkAt memWave (memThread 0) (memWave.getC 1) (BitVec.ofNat 64 ((memWave.getC 1).base + (memWave.getS 4).toNat)) 16 pSTORE 1 with
      | .ok e => settled s 0 true e
      | .error _ => false) = true := by decide +kernel

/-! #### Shipped sections -/

/-- A section's first word at 0x104000 with an entry capability in c5, and a whole home table. -/
def shipWave : Wave := { memWave with
  c := [(1, allCap), (2, Cap.make 0 0x40000000 0 0xEFF 1 0 true), (3, allCap 1), (5, Cap.make 0x104000 8 0 0xFFF 0 0 true)] }
def shipState (w : Wave) : State :=
  let s := demo w
  { s with mem := (s.mem.setNum 0x104000 0x0E38000000000090 8).setNum 0x12000 0xA5F 8
           homeL := (List.range 64).map fun k => (k, BitVec.ofNat 32 (0x80000000 + k)) }
theorem test_met_ships : (∀ i ∈ ([.ship (mOps 8 2 2 0 0 0x15), .shipt (mOps 8 2 2 0 0 0x15), .shipp (mOps 8 2 2 0 0 0x15)] : List Instr),
      (shipState shipWave).issues i (ctx shipWave) = true) ∧
    (shipState shipWave).inRegion shipWave = false ∧ shipWave.sect = none ∧
    (shipWave.active 3).length ≤ ((shipState shipWave).freeSlotsOf 0).length ∧ shipWave.oc 1 < 1023 ∧
    (shipState shipWave).quiet 1 3 = true ∧ ((shipState shipWave).core 0).sq = [] ∧ 0 < (shipWave.active 3).length ∧
    ((shipWave.active 3).all fun x => match (shipState shipWave).shipCheck (ctx shipWave) (mOps 8 2 2 0 0 0x15) x.1 x.2 with
      | .ok _ => true
      | .error _ => false) = true := by decide +kernel

/-- Tokens in v20 of thread 1, its reply slot in a state with a promise. -/
def tokenWave (m : Nat) : Wave := { demoWave with
  threads := demoWave.threads.map fun (l, t) => (l, { t with v := rset t.v 20 (token 3 5), pc := if m = 2 ∧ l = 0 then 0x200040 else t.pc })
  run := some (BitVec.ofNat 32 m), c := memWave.c }
def slotState (st : RState) (p m : Nat) : State := (demo (tokenWave m)).setSlot 0 5 { RSlot.init with
  st := st, gen := 3, wave := 1, lane := 1, mode := 1, op := 9, cc := 2, p := BitVec.ofNat 64 p, answered := true, dst := 12, k := 3
  regs := [(0, 7), (1, 8), (2, 9)], flags := 4 }
theorem test_met_shipWords :
    metAt (shipRows (uRegs 3 20 0 0 2) (mOps 30 2 2 0 0)) 0 ∧ metAt (shipRows (uRegs 3 20 0 0) (mOps 30 2 2 0 0)) 1 ∧
    metAt (shipRows (uRegs 3 20 0 0) (mOps 30 2 2 0 0)) 2 :=
  ⟨⟨_, rfl, slotState .free 5000 3, ctx (tokenWave 3), by decide,
      hasAll (P := fun l th => ((slotState .free 5000 3).redeem (tokenWave 3) 1 l (th.getV 20)) = none) (by decide)⟩,
    ⟨_, rfl, slotState .replied 5000 3, ctx (tokenWave 3), by decide, trivial⟩,
    ⟨_, rfl, shipState shipWave, ctx shipWave, by decide, hasAll (P := fun _ th => _ = none ∧ _ = 0) (by decide +kernel)⟩⟩
/-- Replied, before the promise, and past it. -/
theorem test_met_shwaits : (∀ x ∈ [(RState.replied, 5000, 0), (.waiting, 5000, 0), (.waiting, 1000, 1), (.waiting, 1000, 0)],
      (slotState x.1 x.2.1 2).issues (.shwait (uRegs 12 20 0 0 (4 + 16 * x.2.2))) (ctx (tokenWave 2)) = true ∧
      ((slotState x.1 x.2.1 2).redeem (tokenWave 2) 1 1 (token 3 5)).any (fun r => r.2.st == x.1 && r.2.status == 0 &&
        (x.1 == .replied || x.2.2 == 1 || decide ((slotState x.1 x.2.1 2).clk < r.2.p) || x.2.1 == 1000)) = true) ∧
    lanesOf (ctx (tokenWave 2)).mask = [1] ∧ ((tokenWave 2).active 2).any (fun x => x.1 == 1 && x.2.getV 20 == token 3 5) = true ∧
    (slotState .waiting 1000 2).clk = 1000 ∧ (slotState .waiting 1000 2).traps (ctx (tokenWave 2)) :=
  ⟨by decide +kernel, by decide, by decide, by decide, traps_of (by decide) (by decide) (by decide) (by decide) (by decide)⟩
theorem test_met_returns : (demo demoSect).issues (.shret (fRegs 0 8 0 0 3)) (ctx demoSect) = true ∧
    (demo demoSect).issues (.exit (fRegs 0 0 0 0)) (ctx demoSect) = true ∧ demoSect.sect = some demoSection ∧
    (ctx demoSect).lead = some (0, demoThread 0) ∧ (demo demoSect).quietWave 1 = true ∧ (ctx demoSect).mask ≠ 0 ∧
    demoSection.suspended = false ∧ (demo demoWave).issues (.shret (fRegs 0 8 0 0 3)) (ctx demoWave) = true ∧
    (demo demoWave).traps (ctx demoWave) :=
  ⟨by decide, by decide, by decide, by decide, by decide, by decide, by decide, by decide,
    traps_of (by decide) (by decide) (by decide) (by decide) (by decide)⟩

/-! #### Engines -/

def pushU : UOps := uRegs 60 40 0 3 0x40
def cmdWave (w0 : Nat) (w : Wave) : Wave := { w with s := [(40, BitVec.ofNat 32 w0), (41, 0x010101), (42, 0x105000), (44, 0x105080)] }
def tensorRec (base n : Nat) : BitVec 1024 := BitVec.ofNat 1024 (base + (0 + 1 * 256) * 2 ^ 64 + n * 2 ^ 128 + 4 * 2 ^ (0x30 * 8))
/-- Its records in the record cache, and a horizon for both engines. -/
def engState (h : Nat) (w : Wave) : State :=
  ((demo w).modCore 0 fun k => { k with
    recs := [⟨0, 0x105000, tensorRec 0x106000 5⟩, ⟨0, 0x105080, tensorRec 0x106000 5⟩], eng := { k.eng with horizon := h } }).modDie 0
    fun k => { k with eng := { k.eng with horizon := h } }
def pushB (fab : Bool) (s : State) (w : Wave) (full : Bool) : Bool :=
  let c := ctx w
  let x := pushBits pushU c
  s.issues (pushInstr fab pushU) c && w.sect.isNone && !s.inRegion w && kindOk x fab && headerOk x && bodyOk x (s.isRoot w.port x) &&
    s.quietWave 1 && decide ((s.core 0).sq = []) && s.inPlace (unitFabric 0) w.fabPlace && engineFull fab s c == full
theorem pushable_of {fab : Bool} {s : State} {w : Wave} {full : Bool} (h : pushB fab s w full = true) (hc : w.core = 0) :
    s.issues (pushInstr fab pushU) (ctx w) = true ∧ pushable fab pushU s (ctx w) ∧ engineFull fab s (ctx w) = full := by
  simp only [pushB, Bool.and_eq_true, Bool.not_eq_true', Option.isNone_iff_eq_none, decide_eq_true_eq, beq_iff_eq] at h
  obtain ⟨⟨⟨⟨⟨⟨⟨⟨⟨h1, h2⟩, h3⟩, h4⟩, h5⟩, h6⟩, h7⟩, h8⟩, h10⟩, h9⟩ := h
  exact ⟨h1, ⟨h2, h3, h4, h5, h6, h7, by show (s.core w.core).sq = []; rw [hc]; exact h8,
    fun _ => by show s.inPlace (unitFabric (dieOf w.core)) w.fabPlace = true; rw [hc]; exact h10⟩, h9⟩
def tcopyW : Wave := cmdWave 1 memWave
def fputW : Wave := cmdWave 0x10 memWave
def busyW : Wave := { tcopyW with ops := (List.range 1023).map fun i => ⟨i, 0, 1⟩ }
def guardW (v : GVal) : Wave := { cmdWave 0x2201 memWave with g := [(2, ⟨v, 0⟩)] }
theorem test_met_pushes :
    -- accepted by either engine, held behind a pending slot, or without effect behind a false one
    (pushable false pushU (engState 300000 tcopyW) (ctx tcopyW) ∧ recordsCached pushU (engState 300000 tcopyW) (ctx tcopyW) ∧
      promised false pushU (engState 300000 tcopyW) (ctx tcopyW) - arrival (engState 300000 tcopyW) ≤ 300000 ∧
      calm false (engState 300000 tcopyW) (ctx tcopyW)) ∧
    (pushable true pushU (engState 300000 fputW) (ctx fputW) ∧ recordsCached pushU (engState 300000 fputW) (ctx fputW) ∧
      promised true pushU (engState 300000 fputW) (ctx fputW) - arrival (engState 300000 fputW) ≤ 300000 ∧
      calm true (engState 300000 fputW) (ctx fputW)) ∧
    (pushable false pushU (engState 300000 (guardW .pending)) (ctx (guardW .pending)) ∧
      engineHeld false pushU (engState 300000 (guardW .pending)) (ctx (guardW .pending)) = true) ∧
    (pushable false pushU (engState 300000 (guardW .fls)) (ctx (guardW .fls)) ∧
      engineHeld false pushU (engState 300000 (guardW .fls)) (ctx (guardW .fls)) = false) :=
  ⟨⟨(pushable_of (full := false) (by decide +kernel) rfl).2.1, by unfold recordsCached; decide +kernel, by decide +kernel,
      by unfold calm; decide +kernel⟩,
    ⟨(pushable_of (full := false) (by decide +kernel) rfl).2.1, by unfold recordsCached; decide +kernel, by decide +kernel,
      by unfold calm; decide +kernel⟩,
    ⟨(pushable_of (full := false) (by decide +kernel) rfl).2.1, by decide +kernel⟩,
    ⟨(pushable_of (full := false) (by decide +kernel) rfl).2.1, by decide +kernel⟩⟩
def sectCmd : Wave := cmdWave 1 { demoSect with c := memWave.c }
theorem test_met_refused :
    metAt (pushRefusedRows false pushU) 0 ∧ metAt (pushRefusedRows false pushU) 1 ∧ metAt (pushRefusedRows false pushU) 2 ∧
    metAt (pushRefusedRows true pushU) 2 ∧ EndRow.met (pushIllegalRow false pushU) :=
  ⟨⟨_, rfl, engState 100 sectCmd, ctx sectCmd, by decide +kernel, by decide⟩,
    ⟨_, rfl, engState 100 busyW, ctx busyW, by decide +kernel, (pushable_of (full := true) (by decide +kernel) rfl).2.1,
      by decide +kernel, by unfold recordsCached; decide +kernel, by unfold calm; decide +kernel, by decide +kernel⟩,
    ⟨_, rfl, engState 100 tcopyW, ctx tcopyW, by decide +kernel, (pushable_of (full := false) (by decide +kernel) rfl).2.1,
      by decide +kernel, by decide +kernel, by unfold recordsCached; decide +kernel, by unfold calm; decide +kernel, by decide +kernel,
      by decide +kernel⟩,
    ⟨_, rfl, engState 100 fputW, ctx fputW, by decide +kernel, (pushable_of (full := false) (by decide +kernel) rfl).2.1,
      by decide +kernel, by decide +kernel, by unfold recordsCached; decide +kernel, by unfold calm; decide +kernel, by decide +kernel,
      by decide +kernel⟩,
    ⟨demo (cmdWave 7 memWave), ctx (cmdWave 7 memWave), by decide +kernel,
      traps_of (by decide) (by decide) (by decide) (by decide) (by decide), by decide, by decide +kernel⟩⟩

/-- Operations outstanding and failures of other classes. -/
def opsWave : Wave := { memWave with ops := [⟨5, 0, 1⟩, ⟨6, 2, 1⟩, ⟨7, 0, 1⟩], fails := [⟨3, 0, 7, 1, 0⟩, ⟨2, 1, 7, 1, 0⟩] }
def boundWave (w : Wave) : Wave := { w with g := [(3, ⟨.tru, 2⟩)] }
theorem test_met_engines :
    metAt (engineRows (uImm 0 0 3)) 0 ∧ metAt (engineRows (uImm 0 0 0)) 1 ∧ metAt (engineRows (uImm 0 0 1 4)) 2 ∧
    metAt (engineRows (uRegs 44 0 0 0)) 3 ∧ metAt (engineRows (uRegs 44 0 0 0 4)) 4 ∧ metAt (engineRows (uImm 3 0 1)) 5 ∧
    metAt (engineRows (uImm 3 0 2)) 6 ∧ metAt (engineRows (uImm 3 0 1)) 7 ∧ metAt (engineRows (uRegs 3 0 0 0)) 8 ∧
    metAt (engineRows (uRegs 3 0 0 0)) 9 ∧ metAt (engineRows (uRegs 3 0 0 0)) 10 ∧ metAt (engineRows (uRegs 3 0 0 0)) 11 ∧
    metAt (engineRows (uRegs 0 0 0 0)) 12 ∧ metAt (engineRows (uRegs 0 0 0 0)) 13 :=
  ⟨⟨_, rfl, met opsWave (by decide) (by decide)⟩, ⟨_, rfl, met memWave (by decide) ⟨by decide, by decide⟩⟩,
    ⟨_, rfl, met opsWave (by decide) (by decide)⟩, ⟨_, rfl, met opsWave (by decide) (by decide)⟩,
    ⟨_, rfl, met opsWave (by decide) (by decide)⟩, ⟨_, rfl, met demoSect (by decide) (by decide)⟩,
    ⟨_, rfl, met opsWave (by decide) ⟨by decide, by decide⟩⟩,
    ⟨_, rfl, met (boundWave memWave) (by decide) ⟨by decide, traps_of (by decide) (by decide) (by decide) (by decide) (by decide)⟩⟩,
    ⟨_, rfl, met demoSect (by decide) (by decide)⟩,
    ⟨_, rfl, met memWave (by decide) ⟨by decide, traps_of (by decide) (by decide) (by decide) (by decide) (by decide)⟩⟩,
    ⟨_, rfl, met inside (by decide +kernel) ⟨by decide, by decide +kernel, by decide⟩⟩,
    ⟨_, rfl, met (boundWave inside) (by decide +kernel) ⟨by decide +kernel, by decide⟩⟩,
    ⟨_, rfl, met demoSect (by decide) (by decide)⟩, ⟨_, rfl, met memWave (by decide) (by decide)⟩⟩
def failWave : Wave := { memWave with fails := [⟨3, 0, 7, 1, 0⟩, ⟨2, 0, 9, 2, 0⟩, ⟨1, 2, 9, 2, 0⟩] }
theorem test_met_failures : (demo failWave).issues (.wait (uImm 0 0 0)) (ctx failWave) = true ∧ (demo failWave).traps (ctx failWave) ∧
    failWave.oc 0 = waitN (uImm 0 0 0) failWave ∧ (failWave.failure 0 0).isSome = true ∧ fget (demo failWave).saved 1 = none ∧
    (ctx failWave).mask ≠ 0 :=
  ⟨by decide, traps_of (by decide) (by decide) (by decide) (by decide) (by decide), by decide, by decide, by decide, by decide⟩

/-! #### The fabric and verdicts -/

/-- A blend of four members, the third addressed by c3. -/
def blendS (s : State) : State := { s.modPort 0 fun p => { p with blend := some (3, 1) } with
  blends := [(3, ⟨4, 9, [(0, 0x40000000), (1, 0x40000000), (2, 0x40000000), (3, 0x80000000)]⟩)] }
def fabWave : Wave := { memWave with c := [(1, allCap), (3, Cap.make 0 0x40000000 0 0xFFF 2 2 true)], sent := [(8, 4)] }
def fabM (mod : Nat) : MOps := mOps 8 3 2 0 0 mod
theorem test_met_fabric : ∀ x ∈ ([(.fst (fabM 2), fabM 2, 4, pSTORE), (.fst (fabM 0x62), fabM 0x62, 4, pSTORE), (.fld (fabM 2), fabM 2, 4, pLOAD),
      (.fatom (fabM 0), fabM 0, 4, pLOAD ||| pSTORE ||| pATOMIC), (.fflag (fabM 1), fabM 1, 8, pSTORE)] : List (Instr × MOps × Nat × Nat)),
    let s := blendS (demo fabWave)
    s.issues x.1 (ctx fabWave) = true ∧ s.inRegion fabWave = false ∧ fabWave.sect = none ∧ fabWave.oc 2 < 1023 ∧
    (s.packets.filter fun (_, (p : Packet)) => p.die == dieOf fabWave.core).length + ((ctx fabWave).acting x.2.1.g).length ≤ 8192 ∧
    s.quiet 1 3 = true ∧ (s.core 0).sq = [] ∧ ((fabWave.active 3).all fun y =>
      match s.fabCheck (ctx fabWave) x.2.1 x.2.2.1 x.2.2.2 false y.1 y.2 with
        | .ok _ => true
        | .error _ => false) = true := by decide +kernel
def oneAbroad : State := (blendS (demo fabWave)).sendPacket 1 0 2 3 9 8 false ⟨1, 0, 0, 0, 0, 0, 0, 0, 4, false, none, [(0, 0x102000, 5)]⟩ 0x100000
def fabWave' : Wave := (oneAbroad.wave 1).getD fabWave
theorem test_met_fabricWords : metAt (fabricRows (uRegs 0 0 0 0)) 0 ∧ metAt (fabricRows (uRegs 0 0 0 0)) 1 ∧ metAt (fabricRows (uRegs 44 4 0 0 2)) 2 :=
  ⟨⟨_, rfl, oneAbroad, ⟨1, fabWave', 3⟩, by decide +kernel, ⟨by decide +kernel, .inr (by decide +kernel)⟩, by decide +kernel⟩,
    ⟨_, rfl, met fabWave (by decide) ⟨⟨by decide, .inr (by decide)⟩, by decide, by decide⟩⟩,
    ⟨_, rfl, blendS (demo fabWave), ctx fabWave, by decide, trivial⟩⟩

/-- A verdict descriptor in s40: capabilities c1, c1 and, from memory, c1. -/
def vdWave (w0 toff : Nat) : Wave := { memWave with
  s := [(4, 0x102000), (40, BitVec.ofNat 32 (0x1000101 + w0)), (41, 0x1000), (43, 0x40000000), (44, BitVec.ofNat 32 toff)] }
def accumulation (src : VSource) (st : VState) : Verdict := { Wave.init.vd with
  opn := true, src := src, keep := false, qfmt := 0, ccap := allCap, qcap := allCap, tcap := allCap, qoff := 0x106000, toff := 0
  qmax := 0x40000000, tuse := 0, lanes := (List.range 32).map fun l => (l, ⟨if l = 1 then .idle else st, 0, 0, 0, false⟩) }
def accWave (src : VSource) : Wave := { vdWave 0 0 with
  vd := accumulation src .live, threads := memWave.threads.map fun (l, t) => (l, { t with v := rset (rset t.v 2 0x105000) 3 0 }) }
theorem test_met_verdicts : let f := fRegs 30 2 0 5
    metAt (verdictRows f (uRegs 0 40 0 0)) 0 ∧ metAt (verdictRows f (uRegs 0 40 0 0 3)) 0 ∧ metAt (verdictRows f (uRegs 44 0 0 0)) 1 ∧
    metAt (verdictRows f (uRegs 44 0 0 0)) 2 ∧ metAt (verdictRows (fRegs 3 2 0 0) (uRegs 44 0 0 0)) 3 ∧ metAt (verdictRows f (uRegs 44 0 0 0)) 4 :=
  ⟨⟨_, rfl, met (vdWave 0 0) (by decide) ⟨by decide +kernel, by decide +kernel, fun h => absurd h (by decide)⟩⟩,
    ⟨_, rfl, met (vdWave 0x10000 0x20) (by decide) ⟨by decide +kernel, by decide +kernel, fun _ => by decide +kernel⟩⟩,
    ⟨_, rfl, met (accWave .sign) (by decide) trivial⟩, ⟨_, rfl, met memWave (by decide) trivial⟩,
    ⟨_, rfl, met memWave (by decide) trivial⟩, ⟨_, rfl, met memWave (by decide) (by decide)⟩⟩
theorem test_met_thmax : AccRow.met (thmaxRow (mOps 8 1 2 0 0 0x42)) :=
  ⟨demo memWave, ctx memWave, by decide, by decide, .inr (.inr (by decide)), passing (by decide)⟩
/-- Chunks at 0x105000, the query at 0x106000. -/
def chunks (w : Wave) : State :=
  let s := demo w
  { s with mem := (((s.mem.setNum 0x105000 0x0200000000 8).setNum 0x105008 0x00003F80 4).setNum 0x106000 0x3F800000 4).setNum 0x106004 0x3F000000 4 }
def accB (s : State) (c : Ctx) (f : FOps) (tuse : Word) : Bool := (c.w.active c.mask).all fun x =>
  (((fget c.w.vd.lanes x.1).getD ⟨.idle, 0, 0, 0, false⟩).st != .live) ||
    match s.vdPlan c c.w.vd tuse (x.2.getV2 f.a.num) x.1 x.2 ((fget c.w.vd.lanes x.1).getD ⟨.idle, 0, 0, 0, false⟩) with
    | (.ok _, rs) => !s.vdBad c.w.coreNo rs && rs.all fun r => settled s c.w.coreNo false r.hit.e
    | (.error _, _) => false
theorem acc_of {s : State} {c : Ctx} {f : FOps} {tuse : Word} (h : accB s c f tuse = true) (l : Nat) (th : Thread) (hh : c.has l th)
    (hl : ((fget c.w.vd.lanes l).getD ⟨.idle, 0, 0, 0, false⟩).st = .live) : ∃ pl rs,
      s.vdPlan c c.w.vd tuse (th.getV2 f.a.num) l th ((fget c.w.vd.lanes l).getD ⟨.idle, 0, 0, 0, false⟩) = (.ok pl, rs) ∧
      s.vdBad c.w.coreNo rs = false ∧ ∀ r ∈ rs, settled s c.w.coreNo false r.hit.e = true := by
  have := List.all_eq_true.mp h (l, th) ((Wave.mem_active _ _ _ _).mpr hh)
  dsimp only at this
  rw [hl] at this
  simp only [bne_self_eq_false, Bool.false_or] at this
  split at this
  · next pl rs he =>
    simp only [Bool.and_eq_true, Bool.not_eq_true', List.all_eq_true] at this
    exact ⟨pl, rs, he, this.1, this.2⟩
  · cases this
theorem test_met_accumulates : ∀ x ∈ ([(.sign, 0), (.reg 4, tuseNext 0 0x102000)] : List (VSource × Word)),
    (chunks (accWave x.1)).issues (.vdacc (fRegs 30 2 0 5)) (ctx (accWave x.1)) = true ∧ (accWave x.1).vd.opn = true ∧
    (chunks (accWave x.1)).quiet 1 3 = true ∧ (chunks (accWave x.1)).thresholdPending (ctx (accWave x.1)) = false ∧ accB (chunks (accWave x.1)) (ctx (accWave x.1)) (fRegs 30 2 0 5) x.2 = true := by decide +kernel

/-! #### Patterns and streams -/

def readsB {α : Type} (s : State) (c : Ctx) (g : Gen α) (f : α → Bool) : Bool := match g [] with
  | .ok (x, rs) => s.quiet c.u c.mask && (rs.all fun r => settled s c.w.coreNo false r.hit.e && !s.readBad c.w.coreNo r) && f x
  | .error _ => false
theorem reads_of {α : Type} {s : State} {c : Ctx} {g : Gen α} {f : α → Bool} (h : readsB s c g f = true) :
    ∃ x, ReadsOk s c g x ∧ f x = true := by
  unfold readsB at h
  split at h
  · next x rs he =>
    simp only [Bool.and_eq_true, List.all_eq_true, Bool.not_eq_true'] at h
    exact ⟨x, ⟨rs, he, h.1.1, fun r hr => h.1.2 r hr⟩, h.2⟩
  · cases h
def failsB {α : Type} (g : Gen α) : Bool := match g [] with
  | .ok _ => false
  | .error x => x.1 != cNOTPRESENT
theorem fails_of {α : Type} {g : Gen α} (h : failsB g = true) : ∃ e va, g [] = .error (e, va) ∧ e ≠ cNOTPRESENT := by
  unfold failsB at h
  split at h
  · cases h
  · next x he => exact ⟨x.1, x.2, he, by simpa using h⟩
theorem any_of {α : Type} {o : Option α} {f : α → Bool} (h : o.any f = true) : ∃ x, o = some x ∧ f x = true := by
  cases o with
  | none => cases h
  | some x => exact ⟨x, rfl, h⟩

/-- Programs at 0x107000 and 0x107100; the second has a hash term without an inverse table. -/
def programs (s : State) : State := { s with
  mem := [(0x107000, 0x0100000000000000 + 5 * 2 ^ 28 + 5), (0x107008, 0x0200000000000000 + (2 ^ 28 - 1) * 2 ^ 28 + 1), (0x107010, 0x0900000000000000),
    (0x107100, 0x0100000000000000 + 5 * 2 ^ 28 + 5), (0x107108, 0x0600000000000000 + 2 * 2 ^ 40 + 7), (0x107110, 0x0900000000000000)].foldl
      (fun (m : Memory) (x : Nat × Nat) => m.setNum x.1 x.2 8) s.mem }
def patWave (o : Nat) : Wave := { memWave with s := [(40, BitVec.ofNat 32 o), (41, 0x108000)] }
def patCtx (o : Nat) (hash : Bool) : GenCtx := ⟨allCap, BitVec.ofNat 64 o,
  [BitVec.ofNat 64 (0x0100000000000000 + 5 * 2 ^ 28 + 5), if hash then BitVec.ofNat 64 (0x0600000000000000 + 2 * 2 ^ 40 + 7)
    else BitVec.ofNat 64 (0x0200000000000000 + (2 ^ 28 - 1) * 2 ^ 28 + 1), 0x0900000000000000], true, true, false, 0, 0⟩
def genWave (hash : Bool) : Wave := { patWave 0x108000 with z := [(2, patCtx 0x107000 hash)] }
theorem pat_traps : (programs (demo (patWave 0x105000))).traps (ctx (patWave 0x105000)) :=
  traps_of (by decide) (by decide +kernel) (by decide) (by decide) (by decide +kernel)
theorem test_met_binds : let u := uRegs 2 1 40 0
    let g := fun (o : Nat) => readPat ((programs (demo (patWave o))).leadReader (ctx (patWave o)) allCap) (genAddr u (ctx (patWave o)))
    ((programs (demo (patWave 0x107000))).issues (.pgbind u) (ctx (patWave 0x107000)) = true ∧
      ∃ x, ReadsOk (programs (demo (patWave 0x107000))) (ctx (patWave 0x107000)) (g 0x107000) x ∧ true = true) ∧
    (programs (demo (patWave 0x105000))).issues (.pgbind u) (ctx (patWave 0x105000)) = true ∧
    ∃ e va, g 0x105000 [] = .error (e, va) ∧ e ≠ cNOTPRESENT :=
  ⟨⟨by decide +kernel, reads_of (f := fun _ => true) (by decide +kernel)⟩, by decide +kernel, fails_of (by decide +kernel)⟩
theorem test_met_generates : let f := fRegs 20 2 0 0
    ((demo (patWave 0)).issues (.pgnext f) (ctx (patWave 0)) = true ∧ (demo (patWave 0)).issues (.pgnextt f) (ctx (patWave 0)) = true ∧
      fget (patWave 0).z 2 = none) ∧
    (∀ tr ∈ [false, true], ∃ p, parsePat (patCtx 0x107000 false).words = some p ∧
      (p.term.invertible && readsB (demo (genWave false)) (ctx (genWave false)) (walk (demo (genWave false)) (ctx (genWave false)) (patCtx 0x107000 false) p tr)
        fun _ => true) = true) ∧
    (demo (genWave true)).issues (.pgnextt f) (ctx (genWave true)) = true ∧ (demo (genWave true)).traps (ctx (genWave true)) ∧
    ∃ p, parsePat (patCtx 0x107000 true).words = some p ∧ (!p.term.invertible) = true := by
  refine ⟨⟨by decide, by decide, by decide⟩, fun tr ht => any_of ?_, by decide, traps_of (by decide) (by decide) (by decide) (by decide) (by decide),
    any_of (by decide +kernel)⟩
  revert tr
  decide +kernel
theorem test_met_saves : ∀ w ∈ [patWave 0x108000, genWave false], let u := uRegs 2 1 40 0
    let s := demo w
    let z := fget w.z 2
    s.issues (.pgsave u) (ctx w) = true ∧ s.inRegion w = false ∧ (ctx w).lead = some (0, memThread 0) ∧
    (match s.checkAt w (memThread 0) allCap (genAddr u (ctx w)) 64 (pSTORE ||| if (z.any fun z => z.cap.tag) then pSTCAP else 0) 4 with
      | .ok e => settled s 0 true e
      | .error _ => false) = true ∧ (z.any fun z => z.done) = false := by decide +kernel
/-- An image at 0x108000 with its capability's tag. -/
def image (s : State) : State := { s with
  mem := (s.mem.setNum 0x108000 allCap.bits.toNat 16).setNum 0x108010 ((patCtx 0x107000 false).image 0 0).toNat 48, tags := [0x10800] }
theorem test_met_restores : let u := uRegs 2 1 40 0
    let w := patWave 0x108000
    (∀ s ∈ [programs (demo w), image (programs (demo w))], s.issues (.pgrest u) (ctx w) = true ∧
      readsB s (ctx w) (restored u s (ctx w)) (fun z => z.isSome == (s.tags != [])) = true) ∧
    (image (demo w)).issues (.pgrest u) (ctx w) = true ∧ (∃ e va, restored u (image (demo w)) (ctx w) [] = .error (e, va) ∧ e ≠ cNOTPRESENT) ∧
    (image (demo w)).traps (ctx w) :=
  ⟨by decide +kernel, by decide +kernel, fails_of (by decide +kernel),
    traps_of (by decide) (by decide +kernel) (by decide) (by decide) (by decide +kernel)⟩

/-- A list at 0x10A000 of three keys. -/
def lists (s : State) : State := { s with
  mem := [(0x10A000, 3), (0x10A004, 5), (0x10A010, 7), (0x10A014, 9), (0x10A018, 11), (0x10A030, 70), (0x10A034, 71)].foldl
    (fun (m : Memory) (x : Nat × Nat) => m.setNum x.1 x.2 4) s.mem }
def listWave (n : Nat) : Wave := { memWave with threads := memWave.threads.map fun (l, t) => (l, { t with v := rset t.v 2 (BitVec.ofNat 32 n) }) }
def listReads (w : Wave) : Gen StreamReg := match (ctx w).lead with
  | some (l, th) => sopenGen ((lists (demo w)).readerOf (ctx w) l th (capOf (mOps 5 1 2 0 0) w th)) (capOf (mOps 5 1 2 0 0) w th) (addrOf (mOps 5 1 2 0 0) w th)
  | none => fun _ => .error (0, 0)
theorem test_met_opens : (∀ n ∈ [0x10A000, 0x10A010], (lists (demo (listWave n))).issues (.sopen (mOps 5 1 2 0 0)) (ctx (listWave n)) = true ∧
      (listWave n).streamBusy 5 = false ∧ ((listWave n).active 3).all (fun x => ((ctx (listWave n)).lead.any fun y =>
        addrOf (mOps 5 1 2 0 0) (listWave n) x.2 == addrOf (mOps 5 1 2 0 0) (listWave n) y.2)) = true) ∧
    (∃ x, ReadsOk (lists (demo (listWave 0x10A000))) (ctx (listWave 0x10A000)) (listReads (listWave 0x10A000)) x ∧ true = true) ∧
    (∃ e va, listReads (listWave 0x10A010) [] = .error (e, va) ∧ e ≠ cNOTPRESENT) ∧
    (lists (demo (listWave 0x10A010))).traps (ctx (listWave 0x10A010)) :=
  ⟨by decide +kernel, reads_of (f := fun _ => true) (by decide +kernel), fails_of (by decide +kernel),
    traps_of (by decide) (by decide +kernel) (by decide) (by decide) (by decide +kernel)⟩
def streamWave (p : Nat) : Wave := { memWave with
  q := [(5, ⟨allCap, 0x10A000, 3, 5, p⟩), (6, ⟨allCap, 0x10A000, 3, 5, 0⟩)], s := [(40, 5), (41, 3)]
  c := [(1, allCap), (2, Cap.make 0x10A000 0x1000 0 0xFFF 0 0 true), (3, Cap.make 0x10C000 0x1000 0 0xFFF 0 0 true)] }
theorem test_met_pops : ∀ p ∈ [0, 2, 3], let w := streamWave p
    (lists (demo w)).issues (.sopenRd (mOps 20 5 0 0 0)) (ctx w) = true ∧ w.streamBusy 5 = false ∧
    readsB (lists (demo w)) (ctx w) (popGen (fun l t => (lists (demo w)).readerOf (ctx w) l t (w.getQ 5).cap) (w.getQ 5) (w.active 3) (w.getQ 5).pos)
      (fun x => x.2 == min 3 (p + 2)) = true := by decide +kernel
theorem test_met_streams : metAt (streamRows (uRegs 5 0 0 0)) 0 ∧ metAt (streamRows (uRegs 44 5 6 5)) 1 ∧
    metAt (streamRows (uRegs 44 5 6 5)) 2 ∧ metAt (streamRows (uRegs 44 5 6 5)) 3 ∧ metAt (streamRows (uRegs 44 5 6 5)) 4 ∧
    metAt (streamRows (uRegs 44 5 6 7)) 1 ∧ metAt (streamRows (uRegs 3 2 40 0)) 5 :=
  ⟨⟨_, rfl, met (streamWave 0) (by decide) (by decide)⟩,
    ⟨_, rfl, met (streamWave 0) (by decide) ⟨⟨by decide, by decide, by decide, .inr (by decide)⟩, .inr ⟨by decide +kernel, by decide +kernel⟩⟩⟩,
    ⟨_, rfl, met (streamWave 0) (by decide) ⟨⟨by decide, by decide, by decide, .inr (by decide)⟩, .inr ⟨by decide +kernel, by decide +kernel⟩⟩⟩,
    ⟨_, rfl, met (streamWave 0) (by decide) ⟨⟨by decide, by decide, by decide, .inr (by decide)⟩, .inr ⟨by decide +kernel, by decide +kernel⟩⟩⟩,
    ⟨_, rfl, met (streamWave 0) (by decide) ⟨⟨by decide, by decide, by decide, .inr (by decide)⟩, .inr ⟨by decide +kernel, by decide +kernel⟩⟩⟩,
    ⟨_, rfl, met (streamWave 0) (by decide) ⟨⟨by decide, by decide, by decide, .inr (by decide)⟩, .inl (by decide)⟩⟩,
    ⟨_, rfl, met (streamWave 0) (by decide) ⟨⟨by decide, by decide, by decide, .inr (by decide)⟩, by decide, by decide, by decide, by decide,
      by decide +kernel, by decide +kernel⟩⟩⟩
def streamReg : Wave := { streamWave 0 with reg := some openRegion }
theorem stream_traps : (demo streamReg).traps (ctx streamReg) := traps_of (by decide) (by decide) (by decide) (by decide) (by decide)
theorem test_met_streamRegions : metAt (streamRegionRows (uRegs 44 5 6 5)) 0 ∧ metAt (streamRegionRows (uRegs 44 5 6 5)) 1 ∧
    metAt (streamRegionRows (uRegs 44 5 6 5)) 2 ∧ metAt (streamRegionRows (uRegs 44 5 6 5)) 3 ∧ metAt (streamRegionRows (uRegs 3 2 40 0)) 4 :=
  ⟨⟨_, rfl, met streamReg (by decide +kernel) ⟨by decide, stream_traps⟩⟩, ⟨_, rfl, met streamReg (by decide +kernel) ⟨by decide, stream_traps⟩⟩,
    ⟨_, rfl, met streamReg (by decide +kernel) ⟨by decide, stream_traps⟩⟩, ⟨_, rfl, met streamReg (by decide +kernel) ⟨by decide, stream_traps⟩⟩,
    ⟨_, rfl, met streamReg (by decide +kernel) ⟨by decide, stream_traps⟩⟩⟩

/-! #### The matrix stream -/

/-- A block whose sequencer moves next, with m registers, tile shapes, and changes to the block and the sequencer. -/
def tcv (f r c : Nat) : Word := BitVec.ofNat 32 (f * 2 ^ 28 + (r - 1) * 2 ^ 22 + (c - 1) * 2 ^ 12)
def seqState (m : List (Nat × DWord)) (tc : List (Nat × Word)) (g : Block → Block) (f : Seq → Seq) : State :=
  { ((demo memWave).modBlock 1 fun k => g { k with tc := tc, seq := some (f { Seq.init with pc := 0x100000, m := m }) }) with turn := .seq 1 }
def mRegs : List (Nat × DWord) := [(1, 5), (2, 0xFFFFFFFFFFFFFFFE), (4, 1), (5, 0x3F800000), (6, 0x102000), (7, 0x40), (20, 0x20827000)]
def plain : State := seqState mRegs [] id id
def noted : State := seqState mRegs [] id fun q => { q with noted := [1] }
def seqAt (s : State) : SeqCtx := s.sequencing.getD ⟨0, Block.init, Seq.init⟩
theorem seq_of {s : State} {tiles : List Nat} (h : (s.sequencing.isSome && s.unpassed && (tiles.all fun x => decide (x < s.tilesOf (seqAt s).k)) &&
    (seqAt s).q.ops.all fun o => o.tiles.all fun x => !tiles.contains x) = true) : Sequences s (seqAt s) tiles := by
  simp only [Bool.and_eq_true, List.all_eq_true, decide_eq_true_eq, Bool.not_eq_true', List.contains_eq_mem, decide_eq_false_iff_not] at h
  obtain ⟨⟨⟨h1, h4⟩, h2⟩, h3⟩ := h
  refine ⟨?_, h4, h2, h3⟩
  unfold seqAt
  cases hs : s.sequencing with
  | none => rw [hs] at h1; cases h1
  | some c => rfl
def steadyB (s : State) (c : SeqCtx) : Bool := (List.range 16).all fun k => match (c.k.bar k).mode with
  | none => true
  | some (.count n) => decide ((c.k.bar k).arrivals < n) && decide (n ≤ (c.k.bar k).arrivals + ((s.blockLive c.b).filter fun x => !x.2.waitsAt k).length)
  | some _ => false
theorem steady_of {s : State} {c : SeqCtx} (h : steadyB s c = true) : steady s c := by
  intro k hk
  have := List.all_eq_true.mp h k (List.mem_range.mpr hk)
  cases hm : (c.k.bar k).mode with
  | none => trivial
  | some m =>
    rw [hm] at this
    cases m with
    | count n => simpa using this
    | _ => cases this
theorem below2 {a b : Nat} {P : Nat → Nat → Bool} (h : ((List.range a).all fun m => (List.range b).all fun n => P m n) = true) :
    ∀ m n, m < a → n < b → P m n = true := fun m n hm hn =>
  List.all_eq_true.mp (List.all_eq_true.mp h m (List.mem_range.mpr hm)) n (List.mem_range.mpr hn)
def seqMet (rows : List SeqRow) (n : Nat) : Prop := ∃ r, rows[n]? = some r ∧ ∃ s c, Sequences s c r.tiles ∧ r.ok s c
theorem test_met_scalars : let y : MMovi := ⟨20, 0xABCD1234, 0⟩
    let rows := fun (x : XOps) => scalarRows x y
    seqMet (rows (xOps 20 1 2 0 0x7FFF 7)) 0 ∧ seqMet (rows (xOps 0 0 0 0 0)) 1 ∧ seqMet (rows (xOps 0 2 0 0 0x7FF0 3)) 2 ∧
    seqMet (rows (xOps 0 4 0 0 0x7FF0)) 3 ∧ seqMet (rows (xOps 0 0 0 0 0)) 4 ∧ seqMet (rows (xOps 20 0 0 0 0 1)) 5 ∧
    seqMet (rows (xOps 20 0 0 0 4)) 6 ∧ seqMet (rows (xOps 20 0 0 0 4)) 7 ∧ seqMet (rows (xOps 1 0 0 20 0)) 8 ∧
    seqMet (rows (xOps 1 0 0 1 0)) 9 ∧ seqMet (rows (xOps 1 0 0 30 0)) 10 := by
  have span (s : State) (h : s.launches = [(1, { Launch.init with rc := loadRec })]) (c : SeqCtx) (hc : c.k.lid = 1) :
      ∀ l, fget s.launches c.k.lid = some l → (4 : Nat) < l.rc.sregs := by
    intro l hl
    rw [h, hc] at hl
    cases hl
    decide
  exact ⟨⟨_, rfl, plain, _, seq_of (by decide), trivial⟩, ⟨_, rfl, plain, _, seq_of (by decide), trivial⟩,
    ⟨_, rfl, plain, _, seq_of (by decide), trivial⟩, ⟨_, rfl, plain, _, seq_of (by decide), trivial⟩,
    ⟨_, rfl, plain, _, seq_of (by decide), by decide, steady_of (by decide)⟩, ⟨_, rfl, plain, _, seq_of (by decide), by decide⟩,
    ⟨_, rfl, noted, _, seq_of (by decide), ⟨by decide, span _ rfl _ rfl⟩, Option.isSome_iff_exists.mp (by decide)⟩,
    ⟨_, rfl, plain, _, seq_of (by decide), ⟨by decide, span _ rfl _ rfl⟩, by decide, steady_of (by decide)⟩,
    ⟨_, rfl, plain, _, seq_of (by decide), by decide⟩, ⟨_, rfl, plain, _, seq_of (by decide), by decide, steady_of (by decide)⟩,
    ⟨_, rfl, plain, _, seq_of (by decide), trivial⟩⟩

/-- Barrier 2 of the block. -/
def barred (g : Barrier → Barrier) (f : Seq → Seq) : State := seqState mRegs [] (fun k => { k with bars := [(2, g Barrier.init)] }) f
def mbarX (kind n : Nat) : XOps := xOps 0 0 0 0 n (kind + 2 * 16)
theorem test_met_mbar :
    seqMet (mbarRows (mbarX 1 2)) 0 ∧ seqMet (mbarRows (mbarX 1 5)) 0 ∧ seqMet (mbarRows (mbarX 0 4)) 1 ∧ seqMet (mbarRows (mbarX 2 3)) 2 ∧
    seqMet (mbarRows (mbarX 0 0)) 3 ∧ seqMet (mbarRows (mbarX 1 1026)) 3 ∧ seqMet (mbarRows (mbarX 0 4)) 4 :=
  ⟨⟨_, rfl, plain, _, seq_of (by decide), by decide, by decide, by decide⟩,
    ⟨_, rfl, plain, _, seq_of (by decide), by decide, by decide, by decide⟩,
    ⟨_, rfl, barred (fun b => { b with mode := some (.count 4), arrivals := 1 }) id, _, seq_of (by decide), by decide, by decide, by decide, by decide⟩,
    ⟨_, rfl, barred (fun b => { b with phase := 2, noted := [(1, [1])] }) (fun q => { q with barPhase := [(2, 1)] }), _, seq_of (by decide),
      by decide, by decide, fun p hp => by
        have : p = 1 := by
          have h : (some 1 : Option Nat) = some p := hp
          cases h
          rfl
        rw [this]
        decide⟩,
    ⟨_, rfl, plain, _, seq_of (by decide), by decide, by decide, by decide, steady_of (by decide)⟩,
    ⟨_, rfl, plain, _, seq_of (by decide), by decide, by decide, by decide, steady_of (by decide)⟩,
    ⟨_, rfl, barred (fun b => { b with mode := some (.count 3), arrivals := 1 }) id, _, seq_of (by decide), by decide, by decide, by decide,
      steady_of (by decide)⟩⟩
def lastArrival : State := barred (fun b => { b with phase := 4, mode := some (.count 3), arrivals := 2, waves := [1], seqFlags := 4 }) fun q => { q with fresh := 1 }
theorem test_met_mbarLast : Sequences lastArrival (seqAt lastArrival) [] ∧ ((seqAt lastArrival).k.bar 2).mode = some (.count 3) ∧
    3 = ((seqAt lastArrival).k.bar 2).arrivals + 1 ∧ (seqAt lastArrival).q.starved.getLsbD 2 = false ∧
    bfld (mbarX 0 3).mod 7 4 = 2 ∧ (mbarX 0 3).imm.toNat = 3 := ⟨seq_of (by decide), by decide, by decide, by decide, by decide, by decide⟩

def tileState (d a b : Word) : State := seqState mRegs [(0, d), (1, a), (2, b)] id fun q => { q with noted := [1] }
def tileMet (rows : List TileRow) (n : Nat) : Prop :=
  ∃ r, rows[n]? = some r ∧ ∃ s c, Sequences s c r.tiles ∧ c.q.full = false ∧ legal c r.d ∧ r.ok s c
def tileX (m : Nat) : XOps := xOps 0 1 2 5 0 m
def multB (m : Nat) (cb : Bool) (s : State) : Bool :=
  let c := seqAt s
  tcFmt (c.k.tcOf 0) == 0 && Machine.pairOk cb (tcFmt (c.k.tcOf 1)) (tcFmt (c.k.tcOf 2)) && s.sequencing.isSome && decide (3 ≤ s.tilesOf c.k) &&
    c.q.ops.isEmpty && tcLegal (c.k.tcOf 0) && decide (m < 512) &&
    (List.range (min (tcRows (c.k.tcOf 0)) (tcRows (c.k.tcOf 1)))).all fun i => (List.range (min (tcCols (c.k.tcOf 0)) (tcRows (c.k.tcOf 2)))).all fun j =>
      !isAbandoned (BitVec.ofNat 32 (c.k.raw 0 i j))
theorem mult_of {m : Nat} {cb : Bool} {s : State} (h : multB m cb s = true) : multiplies (tileX m) cb (seqAt s) := by
  simp only [multB, Bool.and_eq_true, beq_iff_eq] at h
  obtain ⟨⟨⟨⟨⟨⟨⟨h1, h2⟩, _⟩, _⟩, _⟩, _⟩, _⟩, h3⟩ := h
  refine ⟨h1, (by decide : (0 : Nat) ≠ 1), (by decide : (0 : Nat) ≠ 2), h2, fun i j hi hj => ?_⟩
  have h4 := below2 h3 i j hi hj
  have h5 : (tileX m).td.toNat = 0 := (by decide : (0 : BitVec 5).toNat = 0)
  rw [h5]
  simpa using h4
def scaleB (x : XOps) (s : State) : Bool := (s.notedWave (seqAt s) (bfld x.mod 8 4)).any fun w =>
  decide (bfld x.imm 7 0 + scaleSpan (bfld x.mod 2 0) (tileCap (tcFmt ((seqAt s).k.tcOf x.ta.toNat)) / 32) ≤ min w.vlim 256)
theorem scale_of {x : XOps} {s : State} (h : scaleB x s = true) : scalesRead x s (seqAt s) := by
  obtain ⟨w, hw, hs⟩ := any_of h
  exact ⟨w, hw, by simpa using hs⟩
def mulState : State := tileState (tcv 0 2 3) (tcv 1 2 32) (tcv 1 4 32)
def cbState : State := tileState (tcv 0 2 3) (tcv 7 2 (tileCap 7)) (tcv 6 4 (tileCap 6))
def floats : State := tileState (tcv 0 2 3) (tcv 0 2 5) (tcv 0 4 5)
theorem test_met_tiles :
    tileMet (tileRows (tileX 0)) 0 ∧ tileMet (tileRows (tileX 0)) 1 ∧ tileMet (tileRows (tileX 0)) 2 ∧ tileMet (tileRows (tileX 8)) 3 ∧
    tileMet (tileRows (tileX 0)) 4 ∧ tileMet (tileRows (tileX 1)) 5 ∧ tileMet (tileRows (tileX 0)) 6 ∧ tileMet (tileRows (tileX 0)) 7 ∧
    tileMet (tileRows (tileX 0)) 8 ∧ tileMet (tileRows (tileX 5)) 8 := by
  have sd (s : State) (t r c : Nat) (h : ((List.range r).all fun m => (List.range c).all fun n =>
      !isAbandoned (BitVec.ofNat 32 ((seqAt s).k.raw t m n))) = true) : sound (seqAt s) t r c :=
    fun _ m n hm hn => by simpa using below2 h m n hm hn
  exact ⟨⟨_, rfl, mulState, _, seq_of (by decide), by decide, by unfold legal; decide, mult_of (by decide)⟩,
    ⟨_, rfl, mulState, _, seq_of (by decide), by decide, by unfold legal; decide, mult_of (by decide), scale_of (by decide)⟩,
    ⟨_, rfl, cbState, _, seq_of (by decide), by decide, by unfold legal; decide, by decide, mult_of (by decide)⟩,
    ⟨_, rfl, cbState, _, seq_of (by decide), by decide, by unfold legal; decide, by decide, mult_of (by decide), scale_of (by decide)⟩,
    ⟨_, rfl, floats, _, seq_of (by decide), by decide, by unfold legal; decide, by unfold legal; decide⟩,
    ⟨_, rfl, floats, _, seq_of (by decide), by decide, by unfold legal; decide, by decide⟩,
    ⟨_, rfl, floats, _, seq_of (by decide), by decide, by unfold legal; decide, by decide, sd _ _ _ _ (by decide)⟩,
    ⟨_, rfl, tileState (tcv 7 2 8) (tcv 1 2 8) 0, _, seq_of (by decide), by decide, by unfold legal; decide, by decide⟩,
    ⟨_, rfl, floats, _, seq_of (by decide), by decide, by unfold legal; decide, by decide, by decide, fun _ => ⟨by decide, sd _ _ _ _ (by decide)⟩,
      fun h => absurd h (by decide), sd _ _ _ _ (by decide)⟩,
    ⟨_, rfl, floats, _, seq_of (by decide), by decide, by unfold legal; decide, by decide, by decide, fun h => absurd h (by decide),
      fun _ => by decide, sd _ _ _ _ (by decide)⟩⟩
def wrongShape : State := tileState (tcv 1 2 5) (tcv 2 2 4) (tcv 3 4 4)
theorem test_met_shapes : seqMet (shapeRows (tileX 0)) 0 ∧ seqMet (shapeRows (tileX 0)) 1 ∧ seqMet (shapeRows (tileX 0)) 2 ∧ seqMet (shapeRows (tileX 0)) 3 ∧
    Sequences wrongShape (seqAt wrongShape) [0] :=
  ⟨⟨_, rfl, wrongShape, _, seq_of (by decide), ⟨by decide, steady_of (by decide), .inl (by decide)⟩, fun h => by cases h⟩,
    ⟨_, rfl, wrongShape, _, seq_of (by decide), ⟨by decide, steady_of (by decide), .inl (by decide)⟩, fun h => by cases h⟩,
    ⟨_, rfl, wrongShape, _, seq_of (by decide), ⟨by decide, steady_of (by decide), .inl (by decide)⟩, fun h => by cases h⟩,
    ⟨_, rfl, wrongShape, _, seq_of (by decide), ⟨by decide, steady_of (by decide), .inl (by decide)⟩,
      fun _ => ⟨by decide, by unfold noneRuns; decide⟩⟩, seq_of (by decide)⟩

/-! #### Tiles and the sparse multiply -/

def mover (f : Seq → Seq) (d : Word) : State :=
  cached (seqState mRegs [(0, d), (1, d)] id fun q => f { q with mc := [(1, allCap)] })
def moveX (r : Nat) : XOps := xOps 1 0 0 r 0 1
def rowsB (s : State) (x : XOps) (perms kind : Nat) : Bool :=
  match s.tileRows (seqAt s) x perms kind (tcRows ((seqAt s).k.tcOf x.td.toNat)) with
  | .ok ps => !ps.isEmpty && ps.all fun (p : Piece × TlbEntry) => settled s (seqAt s).k.core (kind == 1) p.2
  | .error _ => false
theorem rows_of {s : State} {x : XOps} {perms kind : Nat} (h : rowsB s x perms kind = true) :
    ∃ ps, s.tileRows (seqAt s) x perms kind (tcRows ((seqAt s).k.tcOf x.td.toNat)) = .ok ps ∧
      ∀ p ∈ ps, settled s (seqAt s).k.core (kind == 1) p.2 = true := by
  unfold rowsB at h
  split at h
  · next ps hp =>
    simp only [Bool.and_eq_true, List.all_eq_true] at h
    exact ⟨ps, hp, h.2⟩
  · cases h
def twoRows : State := mover id (tcv 6 2 8)
theorem test_met_moves : Sequences twoRows (seqAt twoRows) [(moveX 6).td.toNat] ∧ (seqAt twoRows).q.full = false ∧
    (∃ ps, twoRows.tileRows (seqAt twoRows) (moveX 6) pLOAD 0 (tcRows ((seqAt twoRows).k.tcOf 1)) = .ok ps ∧
      ∀ p ∈ ps, settled twoRows (seqAt twoRows).k.core false p.2 = true) ∧
    ∃ ps, twoRows.tileRows (seqAt twoRows) (moveX 6) pSTORE 1 (tcRows ((seqAt twoRows).k.tcOf 1)) = .ok ps ∧
      ∀ p ∈ ps, settled twoRows (seqAt twoRows).k.core true p.2 = true :=
  ⟨seq_of (by decide), by decide, rows_of (x := moveX 6) (perms := pLOAD) (kind := 0) (by decide +kernel),
    rows_of (x := moveX 6) (perms := pSTORE) (kind := 1) (by decide +kernel)⟩
def failedB (s : State) (x : XOps) (perms kind code : Nat) : Bool :=
  match s.tileRows (seqAt s) x perms kind (tcRows ((seqAt s).k.tcOf x.td.toNat)) with
  | .ok _ => false
  | .error y => y.1 == code
theorem failed_of {s : State} {x : XOps} {perms kind code : Nat} (h : failedB s x perms kind code = true) :
    ∃ va, s.tileRows (seqAt s) x perms kind (tcRows ((seqAt s).k.tcOf x.td.toNat)) = .error (code, va) := by
  unfold failedB at h
  split at h
  · cases h
  · next y hy => exact ⟨y.2, by rw [hy, ← eq_of_beq h]⟩
/-- A misaligned row, and a store to a page that cannot be written. -/
theorem test_met_rowFaults : seqMet (rowFaultRows (moveX 1)) (2 * cMISALIGNED) ∧ seqMet (rowFaultRows (moveX 1)) (2 * cMISALIGNED + 1) :=
  ⟨⟨_, rfl, twoRows, _, seq_of (by decide), by decide, steady_of (by decide), by decide, failed_of (by decide +kernel)⟩,
    ⟨_, rfl, twoRows, _, seq_of (by decide), by decide, steady_of (by decide), by decide, failed_of (by decide +kernel)⟩⟩
/-- One operation in flight: of the unit, a load and a store. -/
def opDone (path : Nat) : State := mover (fun q => { q with ops := [⟨0x100000, [1], path, 3,
  [⟨0x102000, 0x102000, 16384, 4, false⟩, ⟨0x102010, 0x102010, 16400, 4, false⟩]⟩] }) (tcv 6 2 8)
theorem test_met_tileOps : ∀ path ∈ [0, 1, 2], ∃ k q o, fget (opDone path).blocks 1 = some k ∧ k.seq = some q ∧ q.ops = [o] ∧ o.path = path ∧
    (opDone path).unpassed = true ∧ (∀ p ∈ o.rows, (opDone path).badAt none p.key p.len = false) ∧ ((opDone path).core k.core).sq = [] ∧ (∀ p ∈ o.rows, p.swm = false) ∧
    (o.rows.flatMap fun (p : Piece) => (List.range p.len).map fun i => p.off + i).Nodup ∧
    (o.rows.flatMap fun (p : Piece) => (List.range p.len).map fun i => p.key + i).Nodup := by
  intro path h
  have h0 : fget (opDone path).blocks 1 = some (seqAt (opDone path)).k := rfl
  refine ⟨_, _, _, h0, rfl, rfl, rfl, ?_⟩
  revert path
  decide +kernel

/-- The program at 0x107000 makes each element of the first 255 a nonzero; values from 0x109000. -/
def spWords : List DWord := [BitVec.ofNat 64 (0x0100000000000000 + 5 * 2 ^ 28 + 5), BitVec.ofNat 64 (0x0200000000000000 + (2 ^ 28 - 1) * 2 ^ 28 + 1), 0x0900000000000000]
def sparse (step : Nat) : State := programs (cached (seqState [(6, 0), (7, 0x109000), (8, 0x107000)]
  [(0, tcv 0 2 3), (1, tcv 1 2 64), (2, tcv 1 4 64)] id fun q => { q with mc := [(1, allCap)], step := step, z := [(0, ⟨allCap, 0x107000, spWords, true, false, false, 0, 0⟩)] }))
def spX : XOps := xOps 0 1 2 6 0 2
def goodB (s : State) (c : SeqCtx) (rs : List VRead) : Bool :=
  rs.all fun r => !s.readBad c.k.core r && settled s c.k.core false r.hit.e
theorem good_of {s : State} {c : SeqCtx} {rs : List VRead} (h : goodB s c rs = true) : goodLines s c rs := fun r hr => by
  simpa using List.all_eq_true.mp h r hr
def spStepB (s : State) (c : SeqCtx) : Bool := match fget c.q.z (bfld spX.mod 5 4) with
  | none => false
  | some z => match parsePat z.words with
    | none => false
    | some p => match stepReads spX s c z p c.q.step [] with
      | .ok (_, rs) => goodB s c rs
      | .error _ => false
theorem spStep_of {s : State} {c : SeqCtx} (h : spStepB s c = true) : ∃ z p es rs, fget c.q.z (bfld spX.mod 5 4) = some z ∧
    parsePat z.words = some p ∧ stepReads spX s c z p c.q.step [] = .ok (es, rs) ∧ goodLines s c rs := by
  unfold spStepB at h
  split at h
  · cases h
  · next z hz =>
    split at h
    · cases h
    · next p hp =>
      split at h
      · next es rs hr => exact ⟨z, p, es, rs, hz, hp, hr, good_of h⟩
      · cases h
def spBindB (s : State) : Bool := match s.spBind (seqAt s) spX false [] with
  | .ok (_, rs) => goodB s (seqAt s) rs
  | .error _ => false
theorem test_met_sparseSteps : Sequences (sparse 1) (seqAt (sparse 1)) [spX.td.toNat, spX.ta.toNat, spX.tb.toNat] ∧
    (seqAt (sparse 1)).q.full = false ∧ (seqAt (sparse 1)).q.step ≠ 0 ∧
    ∃ z p es rs, fget (seqAt (sparse 1)).q.z (bfld spX.mod 5 4) = some z ∧ parsePat z.words = some p ∧
      stepReads spX (sparse 1) (seqAt (sparse 1)) z p (seqAt (sparse 1)).q.step [] = .ok (es, rs) ∧ goodLines (sparse 1) (seqAt (sparse 1)) rs :=
  ⟨seq_of (by decide), by decide, by decide, spStep_of (by decide +kernel)⟩
theorem spBind_of {s : State} (h : spBindB s = true) : ∃ z p rs, s.spBind (seqAt s) spX false [] = .ok ((z, p), rs) ∧ goodLines s (seqAt s) rs := by
  unfold spBindB at h
  split at h
  · next x rs hx => exact ⟨x.1, x.2, rs, hx, good_of h⟩
  · cases h
theorem test_met_sparseStarts : Sequences (sparse 0) (seqAt (sparse 0)) [spX.td.toNat, spX.ta.toNat, spX.tb.toNat] ∧
    (seqAt (sparse 0)).q.full = false ∧ (seqAt (sparse 0)).q.step = 0 ∧ multiplies spX false (seqAt (sparse 0)) ∧
    ∃ z p rs, (sparse 0).spBind (seqAt (sparse 0)) spX false [] = .ok ((z, p), rs) ∧ goodLines (sparse 0) (seqAt (sparse 0)) rs :=
  ⟨seq_of (by decide), by decide, by decide, mult_of (m := 2) (by decide +kernel), spBind_of (by decide +kernel)⟩
/-- Two nonzeros of block 1. -/
theorem test_met_sparseBlock : let k := (seqAt (sparse 0)).k
    let es : List SpElem := [⟨0, 33, 5⟩, ⟨1, 40, 7⟩]
    es ≠ [] ∧ tcLegal (k.tcOf 0) = true ∧ tcLegal (k.tcOf 1) = true ∧ tcFmt (k.tcOf 0) = 0 ∧ tcFmt (k.tcOf 1) ≠ 7 ∧
    (∀ e ∈ es, e.m < tcRows (k.tcOf 1) ∧ e.k < tcCols (k.tcOf 1) ∧ e.k / 32 = 1) ∧ (es.map fun (e : SpElem) => (e.m, e.k)).Nodup := by
  simp only [ne_eq, List.mem_cons, List.not_mem_nil, or_false, forall_eq_or_imp, forall_eq]
  decide +kernel

/-! #### Events -/

def EventRow.met (r : EventRow) : Prop := ∃ s, r.ok s
def evMet (rows : List EventRow) (n : Nat) : Prop := ∃ r, rows[n]? = some r ∧ EventRow.met r
/-- A wave between its runs, with threads whose wait ended, is on, and lies ahead. -/
def resting : Wave := { memWave with run := none }
def waiting (wt : Wait) (f : Thread → Thread) : Wave := { resting with threads := resting.threads.map fun (l, t) => (l, if l = 1 then f { t with wait := wt } else t) }
theorem test_met_runStarts : let s := demo resting
    (fkeys s.waves).Nodup ∧ s.running 0 0 = false ∧ (1, resting) ∈ s.quadWaves 0 0 ∧ s.readyWave resting = true ∧
    (∀ x ∈ s.quadWaves 0 0, s.readyWave x.2 = true → x.1 ≠ 1 → (s.rank 1 resting).before (s.rank x.1 x.2) = true ∧ (s.rank x.1 x.2).before (s.rank 1 resting) = false) ∧
    (resting.group.any fun x => decide (inMask x.2 0 = true ∧ inMask x.2 1 = true) && decide ((fkeys resting.threads).Nodup)) = true := by decide
theorem test_met_wakes : evMet (wakeRows 1 1) 0 ∧ evMet (wakeRows 1 1) 1 ∧ evMet (wakeRows 1 1) 2 ∧ evMet (wakeRows 1 1) 3 :=
  ⟨⟨_, rfl, demo (waiting .asleep fun t => { t with deadline := 900 }), _, _, rfl, rfl, rfl, rfl, by decide⟩,
    ⟨_, rfl, demo (waiting .mwait fun t => { t with mon := some ⟨4, 9, true⟩ }), _, rfl, rfl, fun m h => by cases h; rfl⟩,
    ⟨_, rfl, demo (waiting .mwait fun t => { t with deadline := 900 }), _, rfl, rfl, by decide⟩,
    ⟨_, rfl, demo (waiting .mwait fun t => { t with deadline := 5000 }), _, rfl, rfl⟩⟩
/-- A wave in a run, whose word has been replayed n times. -/
def lateAt (n : Nat) : State := demo { demoWave with late := (0x100000, n) }
theorem test_met_waveEvents : EventRow.met (unwindRow 1) ∧ EventRow.met (scFenceRow 1) ∧ EventRow.met (replayRow 0 0) ∧ EventRow.met (walkRow 0 0 0x102000) :=
  ⟨⟨demo { inside with run := none, unwind := some ⟨1, 7, true⟩ }, rfl, _, _, rfl, rfl, rfl, rfl⟩,
    ⟨{ demo (waiting (.fenceSc false 7 (some 900)) id) with clk := 1024 }, _, 1, _, false, 7, 900, rfl, rfl, rfl, by decide⟩,
    ⟨lateAt 2, by decide, by decide, _, _, _, _, rfl, fun _ => by decide⟩, ⟨demo demoWave, by decide, by decide, by decide⟩⟩
theorem test_met_fourthReplay : ∃ u w m pc, (lateAt 3).atWord 0 0 = some (u, w, m, pc) ∧ w.late.1 = pc ∧ 3 ≤ w.late.2 ∧ w.sect = none ∧ w.core = 0 ∧
    ((lateAt 3).cluster 0).frozen = none := ⟨_, _, _, _, rfl, by decide, by decide, rfl, rfl, by decide⟩
/-- Two entries of a store queue that do not overlap. -/
def drained : State := (demo memWave).modCore 0 fun k => { k with sq := [⟨1, 1, 1, 5, 0x102000, [1, 2, 3, 4], 0, 0x100040, 0, 0⟩, ⟨3, 1, 1, 5, 0x102008, [9, 9], 0, 0x100040, 0, 0⟩] }
theorem test_met_drain : ∃ e, (drained.core 0).sq[1]? = some e ∧ e.bytes ≠ [] ∧ drained.badAt none e.key e.bytes.length = false ∧ ∀ (j : Nat) (x : SqEntry), j < 1 → (drained.core 0).sq[j]? = some x →
    x.key + x.bytes.length ≤ e.key ∨ e.key + e.bytes.length ≤ x.key := by
  refine ⟨_, rfl, by decide, by decide, fun j x hj hx => ?_⟩
  obtain rfl : j = 0 := by omega
  cases hx
  decide
/-- A home whose 256 reservations other waves hold, the oldest for 1,990 clk. -/
def taken : State :=
  let s := flight (.lres 4 20) [⟨0, 0x102000, 0x5000, 0, 0, 5, false⟩]
  { s with clk := 2000, waves := s.waves ++ (List.range 256).map fun i => (100 + i, { memWave with run := none, resv := some (lineId none 0x5000, BitVec.ofNat 64 (10 + i)) }) }
theorem test_met_displaced : ∃ a rest w x v c, taken.inflight = a :: rest ∧ a.wave = 1 ∧ a.op = .lres 4 20 ∧ a.lanes = [x] ∧ x.lane = 0 ∧
    taken.wave 1 = some w ∧ taken.badLanes a = [] ∧ (taken.core w.core).sq = [] ∧
    256 ≤ ((taken.reservedAt (homeId (lineId (a.die w) x.key))).filter fun r => r.1 != 1).length ∧
    oldestResv ((taken.reservedAt (homeId (lineId (a.die w) x.key))).filter fun r => r.1 != 1) = some (v, c) ∧ 1024 ≤ (taken.clk - c).toNat :=
  ⟨_, _, _, _, 100, 10, rfl, rfl, rfl, rfl, rfl, rfl, by decide +kernel, rfl, by decide +kernel, by decide +kernel, by decide⟩

def operating (b : Bool) (w : Wave) : State := { demo w with phase := if b then 6 else 5 }
theorem test_met_slots : evMet (slotRows 0 3 2) 0 ∧ evMet (slotRows 0 3 2) 1 ∧ evMet (slotRows 0 3 2) 2 ∧ evMet (slotRows 0 3 2) 3 :=
  ⟨⟨_, rfl, operating true resting, by decide, rfl⟩, ⟨_, rfl, operating false resting, by decide, by decide⟩,
    ⟨_, rfl, operating true resting, by decide, rfl⟩, ⟨_, rfl, operating false resting, by decide, by decide⟩⟩
/-- A slot that names a valid record in the window of a core's SRAM, and one that names zeros there. -/
def record (a : Nat) (s : State) : State := { s with
  mem := ([(0, 0x100000, 8), (0x10, 0x100800, 8), (0x18, 2, 4), (0x1C, 1, 4), (0x20, 1, 4), (0x24, 32, 2), (0x26, 1, 2), (0x28, 1, 2), (0x2A, 4, 1),
    (0x2B, 2, 1), (0x56, 15, 1), (0x80, 77, 4)] : List (Nat × Nat × Nat)).foldl (fun (m : Memory) (x : Nat × Nat × Nat) => m.setNum (a + x.1) x.2.1 x.2.2) s.mem }
def slotted (a : DWord) : State := record (keyCore 0 0x4000) ((operating true resting).modPort 0 fun p => { p with
  partBase := BitVec.ofNat 64 Config.windowBase, partSize := 0x100000, slots := [(3, { LSlot.init with busy := true, addr := a, prio := 2 })] })
def submittedB (s : State) (port va : Nat) (r : Option Nat) : Bool := (s.port port).holds va 384 &&
  (s.deviceBytes port va 384).any fun bs => decide (s.reject bs (LaunchRec.parse bs ((recordCaps bs).map fun x => ⟨x, s.hostTag (s.port port) x⟩)) = r)
theorem submitted_of {s : State} {port va : Nat} {r : Option Nat} (h : submittedB s port va r = true) : ∃ bs, submitted s port va bs r := by
  simp only [submittedB, Bool.and_eq_true] at h
  obtain ⟨bs, hb, hr⟩ := any_of h.2
  exact ⟨bs, h.1, hb, by simpa using hr⟩
set_option maxRecDepth 20000 in
theorem test_met_launches : (∀ a, (slotted a).inPlace unitLaunch 0 = true) ∧ (slotted 0x00FE000000004000).nextSlot = some (0, 3) ∧
    (slotted 0x00FE000000004200).nextSlot = some (0, 3) ∧ (slotted 0x00FE000000004000).phase = 6 ∧ ((slotted 0x00FE000000004000).port 0 |>.slot 3).busy = true ∧ (slotted 0x00FE000000004000).pendingCount < 4096 ∧
    ((slotted 0x00FE000000004000).port 0 |>.slot 3).addr.toNat = 0x00FE000000004000 ∧ (∃ bs, submitted (slotted 0x00FE000000004000) 0 0x00FE000000004000 bs none) ∧
    ∃ bs e, submitted (slotted 0x00FE000000004200) 0 0x00FE000000004200 bs (some e) :=
  ⟨fun _ => rfl, by decide +kernel, by decide +kernel, rfl, by decide +kernel, by decide +kernel, by decide +kernel, submitted_of (by decide +kernel), have ⟨bs, h⟩ := submitted_of (r := some 3) (by decide +kernel); ⟨bs, 3, h⟩⟩

/-- A slot whose place the scheduler has passed in this clk. -/
theorem test_met_slotLater : (((slotted 0).took unitLaunch 5).inPlace unitLaunch 3) = false := by decide

/-- The launch changed, and what else stands. -/
def launched (g : Launch → Launch) : State := { demoL g resting with blocks := [], waves := [] }
def idleB (s : State) (u : Nat) : Bool := (s.inflight.all fun a => a.wave != u) &&
  s.cores.all fun x => (x.2.sq.all fun e => e.wave != u) && x.2.slots.all fun y => y.2.wave != u
theorem idle_of {s : State} {u : Nat} (h : idleB s u = true) : idleParts s u := by
  simp only [idleB, Bool.and_eq_true, List.all_eq_true, bne_iff_ne] at h
  exact ⟨h.1, fun n c hc => ⟨(h.2 _ hc).1, fun k r hr => (h.2 _ hc).2 _ hr⟩⟩
theorem test_met_launchEnds : (∀ k ∈ [0, 5], ∃ l, fget (launched fun l => { l with kcode := k }).launches 1 = some l ∧
      (launched fun l => { l with kcode := k }).launchDone 1 l = true) ∧
    (∃ w th, (demo (waiting (.lwait 1 44) id)).wave 1 = some w ∧ w.th 1 = some th ∧ th.wait = .lwait 1 44) ∧
    ((demoL (fun l => { l with status := .complete }) (waiting (.lwait 1 44) id)).lwaitEnd 1).isSome = true ∧
    EventRow.met (reservingRow 1) := by
  refine ⟨fun k hk => ⟨_, rfl, ?_⟩, ⟨_, _, rfl, rfl, rfl⟩, by decide, ?_⟩
  · revert k
    decide
  · exact ⟨{ demoL (fun l => { l with waiting := some (.block 0, 5) }) resting with clk := 70000 }, _, _, 5, rfl, by decide, rfl, by decide⟩
/-- A launch of three blocks, the first placed. -/
def placing : State := { demo resting with launches := [(1, { Launch.init with rc := { loadRec with gx := 3 }, next := 1, status := .pending })] }
theorem test_met_blockPlace : ∃ l need needs core, placing.phase = 6 ∧ placing.readyOrder = [(1, l)] ∧ fget placing.launches 1 = some l ∧
    placing.offer 1 l = some (.block 1) ∧ placing.offerNeed l (.block 1) = (need, needs) ∧ placing.bestCore l.rc.dies needs need = some core ∧ placing.inPlace unitPlace 0 = true ∧
    l.next + 1 < l.rc.gridBlocks :=
  ⟨{ Launch.init with rc := { loadRec with gx := 3 }, next := 1, status := .pending }, _, _, 1, rfl, by decide, rfl, by decide, rfl, by decide +kernel, by decide, by decide⟩
/-- A block in place that has not started, of a launch with a matrix stream or not; a spawned one. -/
def starting (mentry : DWord) (sp : Option Nat) : State :=
  (demoL (fun l => { l with rc := { l.rc with mentry := mentry } }) resting).modBlock 1 fun b => { b with placed := true, started := false, spawned := sp, bin := [[], [(2, 5)]] }
theorem test_met_blockStarts : ∀ x ∈ ([(0, none), (0x100000, none), (0, some 4)] : List (DWord × Option Nat)),
    ∃ k l, fget (starting x.1 x.2).blocks 1 = some k ∧ k.placed = true ∧ k.started = false ∧ k.spawned = x.2 ∧
      fget (starting x.1 x.2).launches k.lid = some l ∧ l.rc.mentry = x.1 := fun _ _ => ⟨_, _, rfl, rfl, rfl, rfl, rfl, rfl⟩
def binned (b : Bin) : State := { demoL (fun l => { l with rc := { l.rc with bint := 10 } }) resting with cores := [(0, { Core.init with bins := [(3, b)] })] }
theorem test_met_bins : evMet (binRows 0 3) 0 ∧ evMet (binRows 0 3) 1 ∧ evMet (binRows 0 3) 2 :=
  ⟨⟨_, rfl, binned ⟨1, 0x100000, [[], [(2, 5)]], false, 4, 0, false⟩, _, _, ⟨rfl, rfl⟩, rfl, by decide⟩,
    ⟨_, rfl, binned ⟨1, 0x100000, [[], [(2, 5)]], true, 4, 0, false⟩, _, _, ⟨rfl, rfl⟩, rfl, rfl, by decide⟩,
    ⟨_, rfl, binned ⟨1, 0x100000, [[], [(2, 5)]], true, 4, 0, false⟩, _, _, ⟨rfl, rfl⟩, rfl, rfl, by decide⟩⟩
def ended (b : Bool) : State := (demo demoWave).modBlock 1 fun k => { k with placed := true, ended := b, kids := [2] }
theorem test_met_ends : evMet (endRows 1 1) 0 ∧ evMet (endRows 1 1) 1 ∧ evMet (endRows 1 1) 2 :=
  ⟨⟨_, rfl, demo { resting with threads := [] }, idle_of (by decide), by decide, _, rfl, rfl, rfl, rfl⟩,
    ⟨_, rfl, { (ended false).modBlock 1 fun k => { k with started := true } with waves := [] }, _, rfl, rfl, rfl, rfl, rfl, fun q h => by cases h⟩,
    ⟨_, rfl, ended true, _, rfl, rfl, fun c hc l hl => by
      obtain rfl : c = 2 := by simpa using (hc : c ∈ [2])
      cases hl⟩⟩
def leaving : State := (demo resting).modBlock 1 fun k => { k with leaving := true }
def away : State := { (demo resting).modBlock 1 fun k => { k with placed := true } with waves := [], saved := [(1, resting)] }
theorem test_met_saveWaves : (∃ k, fget leaving.blocks 1 = some k ∧ k.leaving = true ∧ k.reg = none ∧ ∀ q, k.seq = some q → q.ops = []) ∧ leaving.wave 1 = some resting ∧
    leaving.packets = [] ∧ leaving.pushing 1 = false ∧ idleParts leaving 1 ∧ resting.sect = none ∧ resting.reg = none ∧ resting.unwind = none ∧ EventRow.met (resumeRow 1 0) :=
  ⟨⟨_, rfl, rfl, rfl, fun q h => by cases h⟩, rfl, rfl, by decide, idle_of (by decide), rfl, rfl, rfl,
    ⟨away, _, _, rfl, rfl, rfl, rfl, rfl, fun v x h => .inr (Nat.le_of_eq (congrArg (fun y : Nat × Wave => y.2.wid)
      (List.mem_singleton.mp (h : (v, x) ∈ [(1, resting)]))).symm)⟩⟩
/-- A launch whose program fetches its blocks. -/
def fetching (f : Launch → Launch) : State :=
  let s := demoL (fun l => f { l with next := 3, rc := { l.rc with fetch := true, gx := 2, gy := 2, gz := 2 } }) resting
  s.modCore 0 fun k => { k with fetchq := [⟨1, 0, 0x103008⟩, ⟨2, 0, 0x103000⟩] }
theorem test_met_fetches : (fetching id).inPlace unitFetch 0 = true ∧ (∃ q rest l, ((fetching id).core 0).fetchq = q :: rest ∧ fget (fetching id).launches q.lid = some l ∧ l.rc.fetch = true ∧
      l.status.final = false ∧ (fetching id).readyLaunch l = true ∧ l.next + 1 < l.rc.gridBlocks ∧
      (match (fetching id).walkVa q.port q.addr.toNat with | .ok e => !e.swm | .error _ => false) = true) ∧
    (fetching fun l => { l with next := 8 }).fetchCode 1 = (((fetching fun l => { l with next := 8 }).fetchCode 1).1, none) :=
  ⟨by decide, ⟨_, _, _, rfl, rfl, rfl, rfl, by decide, by decide, by decide +kernel⟩, by decide⟩
/-- Thread 1 waits for a command whose promise has passed. -/
def lateWave : Wave := { waiting (.counter 0 0 false 2) id with ops := [⟨5, 0, 1⟩] }
def lateState : State := let s := demo lateWave
  { s with cmds := [(5, { (ctx lateWave).command (.copy 0) 1 0 0 0 false with op := 5, promise := 900, o := 3 })] }
theorem test_met_late : ∃ th d, lateState.wave 1 = some lateWave ∧ lateWave.sect = none ∧ lateState.trapHandler lateWave ≠ 0 ∧ lateWave.reg = none ∧
    lateState.blockRegion lateWave = none ∧ lateWave.th 1 = some th ∧ th.wait = .counter 0 0 false 2 ∧ th.exited = false ∧ th.tm = false ∧
    0 < lateWave.oc 0 ∧ lateState.waitDeadline lateWave 0 0 = some d ∧ d ≤ lateState.clk ∧ lateWave.waiting 2 = BitVec.ofNat 32 (2 ^ 1) :=
  ⟨_, 900, rfl, rfl, by decide, rfl, rfl, rfl, rfl, rfl, rfl, by decide, by decide, by decide, by decide⟩

/-! #### The copy engine -/

/-- A translation that the core holds. -/
def held (s : State) : State := s.modCore 0 fun k => { k with tlb := [⟨0, 0, 0x40000000, 0, 0xA1F⟩] }
def openB (s : State) (core port : Nat) (writes : Bool) (vas : List Nat) : Bool := vas.all fun va => match s.lookup core port va with
  | .ok e => (permitted true (if writes then 1 else 0) e.pte).isNone && !e.swm && settled s core writes e && !s.badAt none (e.key va) 1
  | .error _ => false
theorem open_of {s : State} {core port : Nat} {writes : Bool} {vas : List Nat} (h : openB s core port writes vas = true) : Open s core port writes vas := by
  intro va hv
  have h1 := List.all_eq_true.mp h va hv
  cases hl : s.lookup core port va with
  | error c => rw [hl] at h1; cases h1
  | ok e =>
    rw [hl] at h1
    simp only [Bool.and_eq_true, Bool.not_eq_true', Option.isNone_iff_eq_none] at h1
    obtain ⟨⟨⟨h2, h3⟩, h4⟩, h5⟩ := h1
    exact ⟨e, rfl, h2, h3, h4, h5⟩
def fixedB (s : State) (core port : Nat) (all : List Nat) : Bool := all.all fun va => ((s.tlbOf core).find? fun e => e.covers port va).isSome
theorem fixed_of {s : State} {core port : Nat} {dst all : List Nat} (h : fixedB s core port all = true) : Fixed s core port dst all := by
  intro m _ va hv
  have h1 := List.all_eq_true.mp h va hv
  have h2 : ({ s with mem := m } : State).tlbOf core = s.tlbOf core := rfl
  unfold State.lookup
  rw [h2]
  cases hf : (s.tlbOf core).find? fun e => e.covers port va with
  | none => rw [hf] at h1; cases h1
  | some e => rfl
def grantedB (cap : Cap) (perms : Nat) (vas : List Nat) : Bool := vas.all fun va => (capCheck cap va 1 perms 0).isNone
theorem granted_of {cap : Cap} {perms : Nat} {vas : List Nat} (h : grantedB cap perms vas = true) : Granted cap perms vas := fun va hv => by
  simpa using List.all_eq_true.mp h va hv
def apartB (s : State) (core port : Nat) (dst src : List Nat) : Bool :=
  (dst.all fun a => (dst.all fun b => a == b || keyAt s core port a != keyAt s core port b) && src.all fun b => keyAt s core port a != keyAt s core port b)
theorem apart_of {s : State} {core port : Nat} {dst src : List Nat} (h : apartB s core port dst src = true) : Apart s core port dst src := by
  simp only [apartB, List.all_eq_true, Bool.and_eq_true, Bool.or_eq_true, beq_iff_eq, bne_iff_ne] at h
  exact ⟨fun a ha b hb he => ((h a ha).1 b hb).resolve_right fun h => h he, fun a ha b hb => (h a ha).2 b hb⟩
def elementsB (t : Tensor) : Bool := (List.range t.count).all fun j => (List.range j).all fun i =>
  decide (t.bit (digits t.ext i) + t.width ≤ t.bit (digits t.ext j)) || decide (t.bit (digits t.ext j) + t.width ≤ t.bit (digits t.ext i))
theorem elements_of {t : Tensor} (h : elementsB t = true) : elementsApart t := fun i j hi hj => by
  simpa using List.all_eq_true.mp (List.all_eq_true.mp h j (List.mem_range.mpr hj)) i (List.mem_range.mpr hi)
def movesB (s : State) (c : Cmd) (d : Tensor) (src : List (Cap × List Nat)) : Bool :=
  c.fault.isNone && elementsB d && grantedB c.dcap pSTORE d.span && openB s c.core c.port true d.span &&
    (src.all fun x => grantedB x.1 pLOAD x.2 && openB s c.core c.port false x.2) &&
    apartB s c.core c.port d.span (src.flatMap fun x => x.2) && fixedB s c.core c.port (d.span ++ src.flatMap fun x => x.2)
theorem moves_of {s : State} {c : Cmd} {d : Tensor} {src : List (Cap × List Nat)} (h : movesB s c d src = true) : Moves s c d src := by
  simp only [movesB, Bool.and_eq_true, Option.isNone_iff_eq_none, List.all_eq_true] at h
  obtain ⟨⟨⟨⟨⟨⟨h1, h2⟩, h3⟩, h4⟩, h5⟩, h6⟩, h7⟩ := h
  exact ⟨h1, elements_of h2, granted_of h3, open_of h4, fun x hx => ⟨granted_of (h5 x hx).1, open_of (h5 x hx).2⟩, apart_of h6, fixed_of h7⟩
def trec (base code : Nat) (es : List (Nat × Nat)) : BitVec 1024 := BitVec.ofNat 1024
  (base + (code + es.length * 256) * 2 ^ 64 + (es.zipIdx.foldl (fun n x => n + x.1.1 * 2 ^ (128 + 32 * x.2) + x.1.2 * 2 ^ (384 + 64 * x.2)) 0))
def demoCmd (w0 : Nat) (s d x : BitVec 1024) : Cmd :=
  { (ctx memWave).command (.copy 0) (BitVec.ofNat 512 (w0 + 7 * 2 ^ 256)) 1 0 0 false with op := 5, promise := 9000, o := 3, srec := s, drec := d, xrec := x, scap := allCap, dcap := allCap, xcap := allCap }
def cmdState (c : Cmd) : State := let s := held (demo { memWave with ops := [⟨5, 0, 1⟩] })
  { s with cmds := [(5, c)], mem := (s.mem.setNum 0x106000 0x3F8000004000000040400000 16).setNum 0x106100 0x0000000100000000 8 }
/-- Two words from 0x106000; two elements of a width at 0x106800; two indexes; a scale. -/
def srcRec : BitVec 1024 := trec 0x106000 0 [(2, 1)]
def dstRec (code : Nat) : BitVec 1024 := trec 0x106800 code [(2, 1)]
def matRec (base : Nat) : BitVec 1024 := trec base 0 [(2, 1), (2, 2)]
def copyCmd : Cmd := demoCmd kTCOPY srcRec (dstRec 0) 0
def fillCmd : Cmd := demoCmd kFILL 0 (dstRec 0) 0
def convCmd : Cmd := demoCmd kCCOPY srcRec (dstRec 1) 0
def scaleCmd : Cmd := demoCmd (kCCOPY + 2 ^ 22) srcRec (dstRec 3) (trec 0x106900 14 [(1, 1)])
def gatherCmd : Cmd := demoCmd kRGATHER (matRec 0x106000) (matRec 0x106800) (trec 0x106100 8 [(2, 1)])
def nextB (id kind : Nat) (c : Cmd) : Bool := decide (cKIND c.words = kind) && c.stage == .queued && (cmdState c).inTurn id c
theorem next_of {kind : Nat} {c : Cmd} (h : nextB 5 kind c = true) : Next (cmdState c) 5 kind c := by
  simp only [nextB, Bool.and_eq_true, decide_eq_true_eq, beq_iff_eq] at h
  exact ⟨rfl, h.1.1, h.1.2, h.2⟩
def srcT : Tensor := ⟨0x106000, 0, false, [2], [1]⟩
def dstT (code : Nat) : Tensor := ⟨0x106800, code, false, [2], [1]⟩
def matT (base : Nat) : Tensor := ⟨base, 0, false, [2, 2], [1, 2]⟩
def idxT : Tensor := ⟨0x106100, 8, false, [2], [1]⟩
def scaleT : Tensor := ⟨0x106900, 14, false, [1], [1]⟩
theorem test_met_copies : Next (cmdState copyCmd) 5 kTCOPY copyCmd ∧ Tensor.parse copyCmd.srec false = some srcT ∧
    Tensor.parse copyCmd.drec false = some (dstT 0) ∧ srcT.count = (dstT 0).count ∧ Moves (cmdState copyCmd) copyCmd (dstT 0) [(copyCmd.scap, srcT.span)] ∧
    Next (cmdState fillCmd) 5 kFILL fillCmd ∧ Tensor.parse fillCmd.drec false = some (dstT 0) ∧ Moves (cmdState fillCmd) fillCmd (dstT 0) [] :=
  ⟨next_of (by decide +kernel), by decide +kernel, by decide +kernel, by decide, moves_of (by decide +kernel),
    next_of (by decide +kernel), by decide +kernel, moves_of (by decide +kernel)⟩
theorem test_met_converts : (Next (cmdState convCmd) 5 kCCOPY convCmd ∧ Tensor.parse convCmd.srec false = some srcT ∧
      Tensor.parse convCmd.drec false = some (dstT 1) ∧ cSCG convCmd.words = false ∧ Moves (cmdState convCmd) convCmd (dstT 1) [(convCmd.scap, srcT.span)] ∧
      ∀ n, n < srcT.count → isAbandoned (BitVec.ofNat 32 ((cmdState convCmd).engElem 0 0 srcT (digits srcT.ext n))) = false) ∧
    Next (cmdState scaleCmd) 5 kCCOPY scaleCmd ∧ Tensor.parse scaleCmd.srec false = some srcT ∧ Tensor.parse scaleCmd.drec false = some (dstT 3) ∧
    Tensor.parse scaleCmd.xrec true = some scaleT ∧ cSCG scaleCmd.words = true ∧ scaleT.ext = (srcT.ext.getD 0 0 + 31) / 32 :: srcT.ext.drop 1 ∧
    Moves (cmdState scaleCmd) scaleCmd (dstT 3) [(scaleCmd.scap, srcT.span)] ∧ elementsApart scaleT ∧ Granted scaleCmd.xcap pSTORE scaleT.span ∧
    Open (cmdState scaleCmd) 0 0 true scaleT.span ∧ Apart (cmdState scaleCmd) 0 0 ((dstT 3).span ++ scaleT.span) srcT.span ∧
    (∀ va ∈ (dstT 3).span, va ∉ scaleT.span) ∧
    Fixed (cmdState scaleCmd) 0 0 ((dstT 3).span ++ scaleT.span) ((dstT 3).span ++ scaleT.span ++ srcT.span) ∧
    ∀ i ∈ srcT.all, isAbandoned (BitVec.ofNat 32 ((cmdState scaleCmd).engElem 0 0 srcT i)) = false :=
  ⟨⟨next_of (by decide +kernel), by decide +kernel, by decide +kernel, by decide +kernel, moves_of (by decide +kernel), by decide +kernel⟩,
    next_of (by decide +kernel), by decide +kernel, by decide +kernel, by decide +kernel, by decide +kernel, by decide, moves_of (by decide +kernel),
    elements_of (by decide), granted_of (by decide +kernel), open_of (by decide +kernel), apart_of (by decide +kernel), by decide, fixed_of (by decide +kernel),
    by decide +kernel⟩
theorem test_met_gathers : Next (cmdState gatherCmd) 5 kRGATHER gatherCmd ∧ Tensor.parse gatherCmd.srec false = some (matT 0x106000) ∧
    Tensor.parse gatherCmd.drec false = some (matT 0x106800) ∧ Tensor.parse gatherCmd.xrec false = some idxT ∧
    Moves (cmdState gatherCmd) gatherCmd (matT 0x106800) [(gatherCmd.xcap, idxT.span), (gatherCmd.scap, (matT 0x106000).span)] :=
  ⟨next_of (by decide +kernel), by decide +kernel, by decide +kernel, by decide +kernel, moves_of (by decide +kernel)⟩
/-- Different counts; a record that is not one; a record that could not be read. -/
def badCopy : Cmd := demoCmd kTCOPY srcRec (trec 0x106800 0 [(3, 1)]) 0
theorem test_met_cmdFails : (Next (cmdState badCopy) 5 kTCOPY badCopy ∧ Tensor.parse badCopy.srec false = some srcT ∧
      Tensor.parse badCopy.drec false = some ⟨0x106800, 0, false, [3], [1]⟩) ∧
    (Next (cmdState (demoCmd kFILL 0 0 0)) 5 kFILL (demoCmd kFILL 0 0 0) ∧ Tensor.parse (demoCmd kFILL 0 0 0).drec false = none) ∧
    Next (cmdState { convCmd with fault := some 7 }) 5 kCCOPY { convCmd with fault := some 7 } :=
  ⟨⟨next_of (by decide +kernel), by decide +kernel, by decide +kernel⟩, ⟨next_of (by decide +kernel), by decide +kernel⟩, next_of (by decide +kernel)⟩
theorem noWaits_of {w : Wave} (h : (w.threads.all fun x => match x.2.wait with
    | .counter .. => false
    | _ => true) = true) : noWaits w := by
  intro x hx c n nl g hw
  have h1 := List.all_eq_true.mp h x hx
  rw [hw] at h1
  cases h1
theorem test_met_completes : let s := cmdState { copyCmd with stage := .moved, fault := some 7, flags := 3 }
    ∃ c w, fget s.cmds 5 = some c ∧ c.stage = .moved ∧ s.packets = [] ∧ s.wave c.wave = some w ∧ noWaits w :=
  ⟨_, _, rfl, rfl, rfl, rfl, noWaits_of (by decide)⟩
/-- A command that an earlier one still counts with, and one that counts no more. -/
theorem test_met_counts : (({ memWave with ops := [⟨3, 0, 1⟩, ⟨5, 0, 1⟩] } : Wave).opDone 5).ops.any (fun o => o.id == 5) = true ∧
    (({ memWave with ops := [⟨5, 0, 1⟩] } : Wave).opDone 5).ops.any (fun o => o.id == 5) = false ∧ (fkeys (cmdState copyCmd).cmds).Nodup := by decide
def guarded (g : Bool) : State := cmdState { demoCmd 0x2201 srcRec (dstRec 0) 0 with stage := .held, guard := some g }
theorem test_met_heldGoes : ∀ g ∈ [true, false], ∃ c, fget (guarded g).cmds 5 = some c ∧ c.stage = .held ∧ c.resolved = some g ∧ c.learn ≤ (guarded g).clk ∧
    ∀ x ∈ (guarded g).cmdsOf c.wave c.eng.cls, x.1 < 5 → x.2.stage ≠ .held := by
  intro g hg
  refine ⟨_, rfl, rfl, ?_⟩
  revert g
  decide +kernel

/-! #### Homes and the stream unit -/

def oneReq (mode : Nat) : Req := ⟨0x5000, 0, Cap.make 0 0x40000000 0 0xEFF 1 0 true, allCap, [(0, 7)], [], 1, mode, 2, 0, 0, 1, 1, 5, 9, none, 0, 0, 0⟩
def homed (f : LCore → LCore) (w : Wave) : State := { (demo w).modLCore 0 fun l => f { l with horizon := 300000 } with
  homeL := (List.range 64).map fun k => (k, 0x80000000), bundles := [⟨4, 0, 1, 0, none, [oneReq 0], none⟩] }
def fullCore (l : LCore) : LCore := { l with queue := List.replicate 256 (oneReq 0) }
theorem test_met_bundles : (∀ f ∈ [id, fullCore], ∃ b, (homed f resting).bundles = [b] ∧ b.id = 4 ∧ b.remote = none ∧ b.refused = none ∧
      (∀ q ∈ b.reqs, q.mode ≠ 1 ∧ (homed f resting).homes b.home q = true) ∧
      (homed f resting).inOrder b.home b.reqs = true) ∧
    (((homed id resting).lcore 0).queue.length + 1 ≤ 256 ∧ 256 < ((homed fullCore resting).lcore 0).queue.length + 1) ∧
    EventRow.met (reofferRow 4) :=
  ⟨fun f hf => by
      refine ⟨_, rfl, rfl, rfl, rfl, ?_⟩
      rcases List.mem_cons.mp hf with h | h
      · rw [h]; decide
      · rw [List.mem_singleton.mp h]; decide +kernel,
    by decide +kernel, ⟨{ homed id resting with bundles := [⟨4, 0, 1, 0, none, [oneReq 0], some 900⟩] }, _, 900, List.mem_singleton.mpr rfl, rfl, rfl, by decide⟩⟩
def sent (mode : Nat) (st : RState) (w : Wave) (f : LCore → LCore) : State := { (homed f w).setSlot 0 5 { RSlot.init with
  st := st, gen := 3, wave := 1, lane := 1, mode := mode, op := 9, cc := 2, p := 900, dst := 12, na := 3 } with
    bundles := [⟨4, 0, 1, 0, none, [oneReq mode], none⟩]
    replies := [(7, ⟨oneReq mode, 0, 0, 2, [(0, 5), (1, 6)], [], 4⟩)] }
def ticketWave (wt : Wait) : Wave := waiting wt id
theorem test_met_tickets : ∀ f ∈ [id, fun l : LCore => { l with horizon := 0 }], let s := sent 1 .waiting (ticketWave (.shipt (slotKey 0 5))) f
    s.bundles = [⟨4, 0, 1, 0, none, [oneReq 1], none⟩] ∧ s.homes 0 (oneReq 1) = true ∧ (s.lcore 0).queue = [] ∧ s.inOrder 0 [oneReq 1] = true ∧ fget s.saved 1 = none ∧
    (s.slotOf (oneReq 1)).isSome = true ∧ (s.lane 1 1).any (fun th => th.wait == .shipt (slotKey 0 5)) = true ∧
    (∀ w, s.wave 1 = some w → noWaits w) ∧ (s.promiseSpan 0 (oneReq 1) ≤ (s.lcore 0).horizon ∨ (s.lcore 0).horizon < s.promiseSpan 0 (oneReq 1)) := by
  intro f hf
  refine ⟨rfl, ?_, ?_, ?_, rfl, ?_, ?_, fun w hw => ?_, ?_⟩
  · rcases List.mem_cons.mp hf with h | h
    · rw [h]; decide
    · rw [List.mem_singleton.mp h]; decide
  · rcases List.mem_cons.mp hf with h | h
    · rw [h]; rfl
    · rw [List.mem_singleton.mp h]; rfl
  · rcases List.mem_cons.mp hf with h | h
    · rw [h]; decide
    · rw [List.mem_singleton.mp h]; decide
  · rfl
  · rfl
  · cases hw
    exact noWaits_of (by decide)
  · omega
theorem test_met_ticketSpans : (sent 1 .waiting (ticketWave .none) id).promiseSpan 0 (oneReq 1) ≤ ((sent 1 .waiting (ticketWave .none) id).lcore 0).horizon ∧
    ((sent 1 .waiting (ticketWave .none) fun l => { l with horizon := 0 }).lcore 0).horizon <
      (sent 1 .waiting (ticketWave .none) fun l => { l with horizon := 0 }).promiseSpan 0 (oneReq 1) := by decide
theorem test_met_replies : (∃ x r th, let s := sent 0 .waiting (ticketWave (.ship (slotKey 0 5))) id
      fget s.replies 7 = some x ∧ x.req.member = none ∧ s.slotOf x.req = some r ∧ r.mode = 0 ∧ x.status = 0 ∧ fget s.saved x.req.wave = none ∧
      s.lane x.req.wave x.req.lane = some th ∧ th.exited = false ∧ ∀ w, s.wave x.req.wave = some w → noWaits w) ∧
    ∃ x r th, let s := sent 1 .waiting (ticketWave (.shwait (slotKey 0 5) false)) id
      fget s.replies 7 = some x ∧ x.req.member = none ∧ s.slotOf x.req = some r ∧ r.mode = 1 ∧ (∀ w, s.anyWave x.req.wave = some w → noWaits w) ∧
      s.lane x.req.wave x.req.lane = some th ∧ fget s.saved x.req.wave = none ∧ th.wait = .shwait (slotKey x.req.core x.req.slot) false :=
  ⟨⟨_, _, _, rfl, rfl, rfl, rfl, rfl, rfl, rfl, rfl, fun w hw => by cases hw; exact noWaits_of (by decide)⟩,
    _, _, _, rfl, rfl, rfl, rfl, fun w hw => by cases hw; exact noWaits_of (by decide), rfl, rfl, rfl⟩
theorem test_met_shwaitLate : ∃ th, let w := waiting (.shwait (slotKey 0 5) false) fun t => { t with deadline := 900 }
    let s := sent 1 .waiting w id
    s.wave 1 = some w ∧ fget s.saved 1 = none ∧ w.sect = none ∧ s.trapHandler w ≠ 0 ∧ w.reg = none ∧ s.blockRegion w = none ∧ w.th 1 = some th ∧
    th.wait = .shwait (slotKey 0 5) false ∧ th.tm = false ∧ th.exited = false ∧ th.deadline ≤ s.clk :=
  ⟨_, rfl, rfl, rfl, by decide, rfl, rfl, rfl, rfl, rfl, rfl, by decide⟩
def queuedReq (mode : Nat) : State := homed (fun l => { l with queue := [oneReq mode], lastStart := some 900 }) resting
def otherLock : State := { queuedReq 0 with
  waves := [(3, { demoSect with sect := some { demoSection with req := { demoSection.req with lock := 0x9000 } } })] }
theorem test_met_sections : ((queuedReq 0).nextStart 0 [] ((queuedReq 0).lcore 0).queue = some (oneReq 0) ∧
      (((queuedReq 0).freeContexts 0).filter fun k => (queuedReq 0).since (fget ((queuedReq 0).lcore 0).ctxEnd k) 8) = [0, 1, 2, 3] ∧
      (queuedReq 0).resumable 0 = false ∧ (queuedReq 0).since ((queuedReq 0).lcore 0).lastStart 8 = true) ∧
    -- a section of another lock on the core
    (∃ c, otherLock.nextStart 0 [] (otherLock.lcore 0).queue = some (oneReq 0) ∧ c ∈ otherLock.sectionsOn 0) ∧
    evMet (sectionRows 0 1) 0 ∧ evMet (sectionRows 0 1) 1 :=
  ⟨by decide, ⟨_, by decide, List.mem_singleton.mpr rfl⟩,
    ⟨_, rfl, demo { demoSect with sect := some { demoSection with suspended := true, ready := true } }, _, _, rfl, rfl, rfl, rfl, rfl, by decide⟩,
    ⟨_, rfl, { demo demoSect with clk := 0x4000000 }, _, _, rfl, rfl, rfl, by decide⟩⟩
theorem noSections {s : State} {n : Nat} (h : (s.waves.all fun x => match x.2.sect with
    | some c => c.lcore != n
    | none => true) = true) : ∀ u w, (u, w) ∈ s.waves → ∀ c, w.sect = some c → c.lcore ≠ n := by
  intro u w hw c hc
  have h1 := List.all_eq_true.mp h _ hw
  simpa [hc] using h1
theorem test_met_homes : evMet (homeRows 0 true 5 0x80000001) 0 ∧ evMet (homeRows 0 true 5 0x80000001) 1 ∧ evMet (homeRows 0 false 5 0) 1 ∧
    ((queuedReq 0).lcore 0).retired = false ∧ ((queuedReq 0).lcore 0).queue = [oneReq 0] ∧ (oneReq 0).mode ≠ 1 ∧
    ∀ u w, (u, w) ∈ (queuedReq 0).waves → ∀ c, w.sect = some c → c.lcore ≠ 0 :=
  ⟨⟨_, rfl, demo resting, by decide, by decide, by decide, noSections (by decide)⟩, ⟨_, rfl, demo resting, by decide, .inr ⟨rfl, by decide⟩⟩,
    ⟨_, rfl, demo resting, by decide, .inl (by decide)⟩, by decide, by decide, by decide, noSections (by decide)⟩

/-- Lists of two at 0x107000 and of one at 0x107400, keys before values; an operation of a kind. -/
def theOp (kind : Nat) : StreamOp := ⟨8, 0x100000, kind, 44, 2, 3, 4, [Cap.make 0x107000 64 0 0xFFF 0 0 true, Cap.make 0x107800 64 0 0xFFF 0 0 true], 3, 2, 3⟩
def opWave (kind : Nat) : Wave := { resting with
  ops := [⟨8, 1, 1⟩]
  q := [(2, ⟨allCap, 0x107000, 2, 64, 0⟩), (3, ⟨allCap, 0x107400, 1, 64, 0⟩)]
  sops := [theOp kind] }
def opState (kind : Nat) : State := held (demo (opWave kind))
def readB (s : State) (w : Wave) (rs : List (Nat × Nat)) : Bool := rs.all fun x => s.rangeOk w.core w.port 0 x.1 x.2 && !s.rangeBad w.core w.port x.1 x.2 &&
  (List.range (pagesOf x.1 x.2)).all fun k => match s.lookup w.core w.port (if k = 0 then x.1 else (x.1 / 4096 + k) * 4096) with
    | .ok e => settled s w.core false e
    | .error _ => true
theorem read_of {s : State} {w : Wave} {rs : List (Nat × Nat)} (h : readB s w rs = true) : Readable s w rs := by
  intro x hx
  have h1 := List.all_eq_true.mp h x hx
  simp only [Bool.and_eq_true, Bool.not_eq_true', List.all_eq_true, List.mem_range] at h1
  exact ⟨h1.1.1, h1.1.2, fun k hk e he => by have := h1.2 k hk; rw [he] at this; exact this⟩
theorem test_met_listOps : ∀ kind ∈ [0, 1, 2, 3], ∃ o, (opState kind).wave 1 = some (opWave kind) ∧ fget (opState kind).saved 1 = none ∧
    (opWave kind).sops = [o] ∧ o.kind < 4 ∧ noWaits (opWave kind) ∧ fget (opWave kind).q o.qc = none ∧
    Readable (opState kind) (opWave kind) (leftOf ((opWave kind).getQ o.qa) ++ leftOf ((opWave kind).getQ o.qb)) := by
  intro kind hk
  refine ⟨theOp kind, rfl, rfl, rfl, ?_, noWaits_of ?_, rfl, read_of ?_⟩ <;> revert kind <;> decide +kernel
theorem test_met_spart : let s := opState 4
    let w := opWave 4
    let src := (List.range 16).map fun i => 0x107000 + i
    let dst := (List.range 24).map fun i => 0x107800 + i
    ∃ o ca cd, w.sops = [o] ∧ o.kind = 4 ∧ o.caps = [ca, cd] ∧ ca.base = 0x107000 ∧ cd.base = 0x107800 ∧ o.n = 3 ∧ o.p = 2 ∧
      Readable s w [(ca.base, 16)] ∧ Open s w.core w.port true dst ∧ s.rangeOk w.core w.port 1 cd.base 24 = true ∧
      s.rangeMerges w.core w.port cd.base 24 = false ∧ Apart s w.core w.port dst src ∧
      Fixed s w.core w.port dst (dst ++ src) :=
  ⟨theOp 4, _, _, rfl, rfl, rfl, by decide, by decide, rfl, rfl, read_of (by decide +kernel), open_of (by decide +kernel), by decide +kernel,
    by decide +kernel, apart_of (by decide +kernel), fixed_of (by decide +kernel)⟩

/-! #### The package -/

/-- The first gibibyte as the partition; a packet of member 2 with one lane. -/
def parted (w : Wave) : State := (blendS (demo w)).modPort 0 fun p => { p with partBase := 0x100000, partSize := 0x100000 }
def pkt (kind : Nat) (counts : Option (List Nat)) : ForeignPacket := ⟨2, 1, 0, 7, 0, 0, kind, 0, 4, false, counts, [(3, 0x102000, 5)]⟩
def ingressB (s : State) (p : ForeignPacket) (l : Nat) (va : DWord) : Bool := match s.ingressCheck p l va with
  | .ok e => !s.badAt none (e.key va.toNat) p.size && decide (0 < p.size) && !e.swm && (e.pteAddr == 0 || pCLASS (s.pteOf e) != 1)
  | .error _ => false
theorem ingress_of {s : State} {p : ForeignPacket} {l : Nat} {va : DWord} {x : QWord} (h : ingressB s p l va = true) (h1 : p.lanes = [(l, va, x)]) :
    ∃ key, Ingress s p l va x key := by
  unfold ingressB at h
  split at h
  · next e he =>
    simp only [Bool.and_eq_true, Bool.not_eq_true', Bool.or_eq_true, beq_iff_eq, bne_iff_ne, decide_eq_true_eq] at h
    exact ⟨_, h1, h.1.1.1, h.1.1.2, e, he, h.1.2, rfl, h.2⟩
  · cases h
theorem test_met_packets : (∀ k ∈ [0, 1, 2, 3], Comes (parted resting) (pkt k none) ∧ (parted resting).flagDue (pkt k none) = true ∧
      ∃ key, Ingress (parted resting) (pkt k none) 3 0x102000 5 key) ∧
    Comes (parted resting) (pkt 3 (some [4, 0, 0, 0])) ∧ (parted resting).flagDue (pkt 3 (some [4, 0, 0, 0])) = false ∧
    ∃ f key, let s := { parted resting with heldFlags := [(6, ⟨pkt 3 (some [0, 0, 0, 0]), none⟩)] }
      fget s.heldFlags 6 = some f ∧ s.flagDue f.pkt = true ∧ Ingress s f.pkt 3 0x102000 5 key ∧ f.pkt.kind = 3 :=
  ⟨fun k hk => ⟨⟨rfl, rfl⟩, rfl, ingress_of (by revert k; decide +kernel) rfl⟩, ⟨rfl, rfl⟩, by decide,
    have ⟨key, h⟩ := ingress_of (s := { parted resting with heldFlags := [(6, ⟨pkt 3 (some [0, 0, 0, 0]), none⟩)] }) (p := pkt 3 (some [0, 0, 0, 0]))
      (l := 3) (va := 0x102000) (x := 5) (by decide +kernel) rfl
    ⟨_, key, rfl, by decide, h, rfl⟩⟩
def acked : State := { parted resting with packets := [(6, ⟨1, 0, 2, 3, 9, 0, 8, false, { pkt 1 none with lanes := [(1, 0x102000, 0)] }, none, 0x100000⟩)] }
theorem test_met_acks : ∃ p w th, fget acked.packets 6 = some p ∧ acked.toSelf p = false ∧ acked.left 6 p = true ∧ p.pkt.kind ≠ 4 ∧ p.pkt.lanes = [(1, 0x102000, 0)] ∧
    acked.wave p.wave = some w ∧ fget acked.saved p.wave = none ∧ w.th 1 = some th ∧ noWaits w ∧ ∀ t ∈ w.threads, t.2.wait = .none :=
  ⟨_, _, _, rfl, by decide, by decide, by decide, rfl, rfl, rfl, rfl, noWaits_of (by decide), by decide⟩
/-- A packet to a page that is absent comes, and none stands. -/
theorem test_met_stalls : let p := { pkt 0 none with lanes := [(3, 0x40002000, 5)] }
    let s := (parted resting).modPort 0 fun p => { p with partBase := 0x40000000 }
    Comes s p ∧ s.flagDue p = true ∧ s.ingressFault p = some cNOTPRESENT ∧ .foreign p ∉ s.stalled := ⟨⟨rfl, rfl⟩, rfl, by decide +kernel, by decide⟩
def crc (n : Nat) : State := { demo resting with crcRetries := [(5, n)] }
theorem test_met_links : evMet (linkRows 5) 0 ∧ evMet (linkRows 5) 1 ∧ evMet (linkRows 5) 2 ∧ evMet (linkRows 5) 3 :=
  ⟨⟨_, rfl, demo resting, by decide⟩, ⟨_, rfl, crc 2, by decide⟩, ⟨_, rfl, crc 15, by decide⟩, ⟨_, rfl, demo resting, by decide⟩⟩

/-- A fabric command; of a collective, with its operation and sequence number 9. -/
def fabCmd (w : Nat) : Cmd :=
  { (ctx memWave).command (.fab 0) (BitVec.ofNat 512 w) 1 0 0 false with
    op := 5, promise := 9000, o := 3, srec := srcRec, drec := dstRec 0, scap := allCap, dcap := allCap, xcap := allCap }
def putCmd : Cmd := { fabCmd kFPUT with dcap := Cap.make 0 0x40000000 0 0xFFF 2 2 true }
def collCmd (cop root : Nat) : Cmd :=
  let c := fabCmd (kCOLL + 0x107000 * 2 ^ 192 + 9 * 2 ^ 256 + (cop + root * 2 ^ 16) * 2 ^ 288)
  if cop = 1 then { c with drec := trec 0x106800 0 [(2, 1), (4, 2)] } else c
def fabState (c : Cmd) : State := blendS (cmdState c)
theorem test_met_puts : NextFab (fabState putCmd) 5 kFPUT putCmd ∧ Tensor.parse putCmd.srec false = some srcT ∧
    Tensor.parse putCmd.drec false = some (dstT 0) ∧ putCmd.dcap.space = 2 ∧ cmdFld putCmd.words 0x28 0 0 = 0 ∧
    (∀ va ∈ (dstT 0).span, capCheck putCmd.dcap va 1 pSTORE 2 = none) ∧ (fabState putCmd).memberLive putCmd.port putCmd.dcap.member = true ∧
    Granted putCmd.scap pLOAD srcT.span ∧ Open (fabState putCmd) 0 0 false srcT.span ∧
    (fabState putCmd).dieLoad (dieOf putCmd.core) + (dstT 0).span.length ≤ 8192 :=
  ⟨⟨rfl, by decide +kernel, by decide +kernel, by decide +kernel, rfl⟩, by decide +kernel, by decide +kernel, by decide +kernel, by decide +kernel, by decide +kernel,
    by decide +kernel, granted_of (by decide +kernel), open_of (by decide +kernel), by decide +kernel⟩
def collB (c : Cmd) (root : Nat) : Bool := (fabState c).inTurnFab 5 c && (!(fabState c).leads' 3) && c.collShape 4 (1 == root) &&
  !c.noRoot 4 && ((fabState c).blendOf c.port).all (fun y => !c.rootAway y.2.1) && !(fabState c).foldAbandoned c && ((fabState c).recordCheck c).isNone && ((fabState c).destCheck c).isNone && cROOT c.words == root
theorem test_met_contributes : ∀ x ∈ [(0, 0), (1, 0), (2, 1), (2, 0), (3, 0)], let c := collCmd x.1 x.2
    fget (fabState c).cmds 5 = some c ∧ cKIND c.words = kCOLL ∧ c.stage = .queued ∧ c.fault = none ∧ cCOP c.words = x.1 ∧
    ((fabState c).blendOf c.port).any (fun y => y.1 == 3 && y.2.1.size == 4 && y.2.1.st y.2.2 == eLIVE) = true ∧ collB c x.2 = true ∧
    grantedB c.scap pLOAD c.sourceBytes = true ∧ openB (fabState c) c.core c.port false c.sourceBytes = true := by
  intro x hx
  refine ⟨rfl, ?_, ?_, ?_, ?_, ?_, ?_, ?_, ?_⟩ <;> revert x <;> decide +kernel

/-- The package leads its blend as member 0. -/
def leading (s : State) : State := (blendS s).modPort 0 fun p => { p with blend := some (3, 0) }
def contrib (m : Nat) : Contribution := ⟨3, 9, m, false, 0, 0, 8, 0, 0, [1, 2]⟩
def undecided (ms : List Nat) : State := { leading (demo resting) with
  colls := if ms = [] then [] else [⟨3, 9, [0, 1, 2], ms.map contrib⟩] }
theorem test_met_collectives : (∃ b, fget (undecided []).blends 3 = some b ∧ (undecided []).selfIn 3 = some (0, 0) ∧ b.leader = some 0 ∧
      b.st 2 = eLIVE ∧ (undecided []).colls = [] ∧ ∃ m ∈ b.inState eLIVE, m ≠ 2) ∧
    ∃ b k, let s := undecided [0, 1]
      fget s.blends 3 = some b ∧ s.selfIn 3 = some (0, 0) ∧ b.leader = some 0 ∧ b.st 2 = eLIVE ∧ s.colls = [k] ∧ k.blend = 3 ∧ k.seq = 9 ∧
      (∀ x ∈ k.cs, x.member ≠ 2) ∧ (∀ m ∈ b.inState eLIVE, m = 2 ∨ ∃ x ∈ k.cs, x.member = m) ∧ k.live = b.inState eLIVE ∧
      ∀ x ∈ contrib 2 :: k.cs, agree (contrib 2) x = true ∧ x.cop = 0 ∧ x.poison = false :=
  ⟨⟨_, rfl, rfl, by decide, by decide, rfl, 0, by decide, by decide⟩,
    _, _, rfl, rfl, by decide, by decide, rfl, rfl, rfl, by decide, by decide, by decide, by decide⟩
def waitingCmd : Cmd := { collCmd 0 0 with stage := .contributed }
def result : CollResult := ⟨3, 9, 0, 8, 0, 9, 0, [0, 1, 2], [], [7, 8], 0⟩
theorem apart_lin {s : State} {core port K : Nat} {dst : List Nat} (h : (dst.all fun va => keyAt s core port va == K + va) = true) : Apart s core port dst [] := by
  simp only [List.all_eq_true, beq_iff_eq] at h
  exact ⟨fun a ha b hb he => by rw [h a ha, h b hb] at he; omega, fun a _ b hb => by cases hb⟩
theorem test_met_results : let s := fabState waitingCmd
    let b := dstT 0
    let out := b.span ++ (List.range 1088).map fun i => cXREC waitingCmd.words + i
    result ∉ s.decided ∧ s.leads' 3 = false ∧ s.selfIn 3 = some (0, 1) ∧ (s.collWaiting 3 9).isSome = true ∧ fget s.cmds 5 = some waitingCmd ∧
    s.recordCheck waitingCmd = none ∧ s.destCheck waitingCmd = none ∧ Tensor.parse waitingCmd.drec false = some b ∧ result.elems.length = b.count ∧
    elementsApart b ∧ Open s 0 0 true out ∧ Apart s 0 0 out [] ∧ Fixed s 0 0 out out ∧
    (∀ va ∈ b.span, va < cXREC waitingCmd.words ∨ cXREC waitingCmd.words + 1088 ≤ va) ∧ b.width = 32 :=
  ⟨by decide, by decide +kernel, by decide +kernel, by decide +kernel, rfl, by decide +kernel, by decide +kernel, by decide +kernel, rfl, elements_of (by decide),
    open_of (by decide +kernel), apart_lin (K := 0) (by decide +kernel), fixed_of (by decide +kernel), by decide +kernel, by decide⟩
theorem test_met_members : evMet (memberRows 3 2 8) 0 ∧ evMet (memberRows 3 3 8) 1 ∧ evMet (memberRows 3 1 8) 2 :=
  have plain (s : State) (h : (s.ports.all fun x => (x.2.log ++ x.2.replay).isEmpty) = true) : plainLogs s := fun n p hp e he => by
    have h1 := List.isEmpty_iff.mp (List.all_eq_true.mp h _ hp)
    simp only at h1
    rw [h1] at he
    cases he
  ⟨⟨_, rfl, blendS (demo resting), _, rfl, by decide, by decide, plain _ (by decide)⟩,
    ⟨_, rfl, blendS (demo resting), _, rfl, by decide, by decide, plain _ (by decide)⟩,
    ⟨_, rfl, { blendS (demo resting) with blends := [(3, ⟨4, 9, [(1, 0xC0000000)]⟩)] }, _, rfl, by decide, by decide, plain _ (by decide), fun n p hp _ => by
      have h : (fun x : Nat × Port => x.2.replay) (n, p) = [] := by
        have h1 : ((blendS (demo resting)).ports.all fun x => x.2.replay.isEmpty) = true := by decide
        simpa using List.all_eq_true.mp h1 _ hp
      exact h⟩⟩

/-! #### Errors, absent pages, the host and bring-up -/

def report (src : Nat) (a : DWord) : ErrorReport := ⟨0, 1, false, src, 3, a⟩
theorem test_met_errors : (∃ w, (demo resting).wave 1 = some w ∧ w.coreNo = 0 ∧ (report 5 0).lanes &&& ~~~w.live = 0 ∧ memorySource 5 = false ∧ 5 ≠ 7 ∧
      ((demo resting).cluster 0).frozen = none ∧ (demo resting).consumingPacket (report 7 0) = none ∧ (demo resting).consumingAt (report 7 0) = none ∧
      memorySource 7 = false) ∧
    (held (demo resting)).inRegion resting = false ∧ memorySource 1 = true ∧ ((demo resting).core 0).sq = [] ∧
    (match (demo resting).walkVa 0 0x102000 with | .ok _ => true | .error _ => false) = true :=
  ⟨⟨_, rfl, rfl, by decide, by decide, by decide, by decide, by decide, by decide, by decide⟩, by decide, by decide, by decide, by decide +kernel⟩
/-- The wave consumed an error; its cluster stands. -/
def frozen (w : Wave) (c : DWord) : State := { (demo w).modCluster 0 fun k => { k with
  frozen := some ⟨.error, 1000, [⟨report 5 0, 0x100000, 0⟩]⟩, snaps := [⟨1, 1000, 0, 0, 1, 0, 5, 3, 0, 0, []⟩] } with clk := c }
theorem test_met_decisions : (∃ f, ((frozen resting 2000).cluster 0).frozen = some f ∧ f.why = .error ∧ f.errs ≠ [] ∧
      (∀ n ∈ ((frozen resting 2000).cluster 0).snaps, ∃ d ∈ [(1, (0 : Byte))], d.1 = n.wave) ∧ ((frozen resting 2000).clk - f.since).toNat < 72000) ∧
    ∃ f e, let s := frozen resting 80000
      (s.cluster 0).frozen = some f ∧ f.why = .error ∧ f.errs = [e] ∧ e.rep.seq = false ∧ s.clusterWaves 0 = [(e.rep.wave, resting)] ∧
      s.wave e.rep.wave = some resting ∧ s.inRegion resting = false ∧ 72000 ≤ (s.clk - f.since).toNat ∧ s.blockWaves resting.blk = [(e.rep.wave, resting)] ∧
      (fkeys resting.threads).Nodup ∧ ∀ k ∈ fkeys resting.threads, k < 32 :=
  ⟨⟨_, rfl, rfl, by decide, by decide, by decide⟩,
    _, _, rfl, rfl, rfl, rfl, by decide, rfl, by decide, by decide, by decide, by decide, by decide⟩
def parked : Wave := waiting (.parked 0x102008 1) id
def parkedOne : State := { demo { resting with threads := [(1, { memThread 1 with wait := .parked 0x102008 1 })] } with blocks := [] }
theorem test_met_pages : (demo parked).awaited 0 0x102000 = true ∧ (demo parked).present 0 0x102000 = true ∧ (demo parked).inRegionOn 0 0x102000 none = [] ∧
    ∃ w th, parkedOne.waves = [(1, w)] ∧ w.port = 0 ∧ w.sect = none ∧ parkedOne.blocks = [] ∧ w.threads = [(1, th)] ∧ th.wait = .parked 0x102008 1 ∧
      samePage 0x102000 0x102008 = true ∧ parkedOne.trapHandler w ≠ 0 ∧ th.tm = false ∧ w.faultAbort = none ∧ w.reg = none :=
  ⟨by decide, by decide +kernel, by decide, _, _, rfl, rfl, rfl, rfl, rfl, rfl, by decide, by decide, rfl, rfl, rfl⟩
theorem test_met_settings : evMet (settingRows 0 (some 9) 4096 5) 0 ∧ evMet (settingRows 0 none 4096 5) 1 ∧ evMet (settingRows 0 none 4096 5) 2 :=
  ⟨⟨_, rfl, demo resting, by decide, fun n h => by cases h; decide⟩, ⟨_, rfl, demo resting, by decide, by decide, by decide, fun n b hb _ _ _ => by
      have h : ((demo resting).blocks.all fun x => x.2.sramLen == 0) = true := by decide
      simpa using List.all_eq_true.mp h _ hb⟩, ⟨_, rfl, demo resting, by decide⟩⟩
theorem test_met_physical : (demo resting).physical 0x102000 8 = true ∧ (demo resting).badAt none 0x102000 8 = false ∧
    { demo resting with bad := [0x4080] }.badAt none 0x102000 8 = true ∧ (demo resting).physical (2 ^ 60) 8 = false ∧ (demo resting).physical (keyCore 0 16) 16 = true := by decide
theorem noBad {s : State} {d : Option Nat} {k n : Nat} (h : s.bad = []) : s.badAt d k n = false := by simp [State.badAt, h]
/-- The partition in the window of a core's SRAM. -/
def windowed (b : Bool) : State := (operating b resting).modPort 0 fun p => { p with partBase := BitVec.ofNat 64 Config.windowBase, partSize := 0x100000 }
theorem test_met_aperture : (∃ key, HostPages (windowed true) 0 0x4000 8 key ∧ (∀ i, i < 8 → (windowed true).badAt none (key i) 1 = false) ∧
      (∀ i j, i < 8 → j < 8 → key i = key j → i = j) ∧ ∀ m : Memory, ∀ i, i < 8 →
        ({ windowed true with mem := m } : State).walkVa 0 (((windowed true).port 0).partBase.toNat + 0x4000 + i) =
          (windowed true).walkVa 0 (((windowed true).port 0).partBase.toNat + 0x4000 + i) ∧
        ∀ e, (windowed true).walkVa 0 (((windowed true).port 0).partBase.toNat + 0x4000 + i) = .ok e →
          ({ windowed true with mem := m } : State).pteOf e = (windowed true).pteOf e) ∧ (windowed false).phase ≠ 6 := by
  have hb : ((windowed true).port 0).partBase.toNat = Config.windowBase := by decide +kernel
  have hw (m : Memory) (i : Nat) (hi : i < 8) : ({ windowed true with mem := m } : State).walkVa 0 (Config.windowBase + 0x4000 + i) =
      .ok ⟨0, Config.windowBase, 2 ^ 27, 0, windowLeaf 0⟩ := by
    unfold State.walkVa
    rw [if_pos ⟨by omega, by omega⟩]
    have h0 : (Config.windowBase + 0x4000 + i - Config.windowBase) / 2 ^ 27 = 0 := by omega
    simp only [h0, Nat.mul_zero, Nat.add_zero]
  have hk (i : Nat) : TlbEntry.key ⟨0, Config.windowBase, 2 ^ 27, 0, windowLeaf 0⟩ (Config.windowBase + 0x4000 + i) = keyCore 0 (0x4000 + i) := by
    have h1 : Config.windowBase + 0x4000 + i - Config.windowBase = 0x4000 + i := by omega
    have h2 : pHOME (windowLeaf 0) = 0 ∧ pHCORE (windowLeaf 0) = 0 ∧ pFRAME (windowLeaf 0) = 0 := by decide
    unfold TlbEntry.key leafKey
    simp only [h1, h2, Nat.zero_add]
  refine ⟨⟨fun i => keyCore 0 (0x4000 + i), ⟨rfl, by decide +kernel, by decide, fun i hi => ⟨_, by rw [hb]; exact hw _ i hi, by decide, by decide, by decide,
    by rw [hb]; exact hk i, .inl rfl⟩⟩, fun i _ => noBad rfl, fun i j _ _ h => ?_, fun m i hi => ?_⟩, by decide⟩
  · simp only [keyCore] at h
    omega
  · rw [hb, hw m i hi, show (windowed true).walkVa 0 (Config.windowBase + 0x4000 + i) = _ from hw _ i hi]
    refine ⟨rfl, fun e he => ?_⟩
    have he' := Except.ok.inj he
    unfold State.pteOf
    rw [← he', if_pos rfl, if_pos rfl]
theorem test_met_reset : ∃ l, (demo resting).launches = [(1, l)] ∧ l.port = 0 ∧ l.status.final = false ∧ l.parent ≠ 1 := ⟨_, rfl, rfl, rfl, by decide⟩
theorem test_met_registers : ∀ n, n < 11 → evMet (registerRows 0 5) n := by
  have h (n : Nat) (r : EventRow) (hr : (registerRows 0 5)[n]? = some r) (s : State) (ok : r.ok s) : evMet (registerRows 0 5) n := ⟨r, hr, s, ok⟩
  have h6 : (operating true resting).phase = 6 := rfl
  intro n hn
  match n, hn with
  | 0, _ => exact h 0 _ rfl ((operating true resting).modPort 0 fun p => { p with brks := [⟨1, 1, 0, 0, 0⟩] }) ⟨by decide, rfl, by decide⟩
  | 1, _ => exact h 1 _ rfl (operating false resting) ⟨by decide, .inl (by decide)⟩
  | 2, _ => exact h 2 _ rfl (operating true resting) (by decide : 0 < 2)
  | 3, _ => exact h 3 _ rfl (operating true resting) (by decide : 0 < 2)
  | 4, _ => exact h 4 _ rfl (operating true resting) (by decide : 0 < 2)
  | 5, _ => exact h 5 _ rfl (operating true resting) trivial
  | 6, _ => exact h 6 _ rfl (operating true resting) ⟨by decide, h6⟩
  | 7, _ => exact h 7 _ rfl (operating true resting) ⟨by decide, h6⟩
  | 8, _ => exact h 8 _ rfl (operating true resting) (by decide : 0 < 2)
  | 9, _ => exact h 9 _ rfl (operating true resting) (by decide : 0 < 2)
  | 10, _ => exact h 10 _ rfl (operating true resting) (by decide : 0 < 2)
theorem test_met_bringUp : ∀ n, n < 6 → evMet (bringUpRows ⟨true, true, 5, 3800, 1, [7], keyDigest (0, 0), 2⟩ true (some ⟨[2], 3, (0, 0), 1, 1⟩) [0, 1] [0] [5] [(3, 5)]) n := by
  intro n hn
  have h (n : Nat) (r : EventRow) (hr : (bringUpRows ⟨true, true, 5, 3800, 1, [7], keyDigest (0, 0), 2⟩ true (some ⟨[2], 3, (0, 0), 1, 1⟩) [0, 1] [0] [5] [(3, 5)])[n]? = some r) (s : State) (ok : r.ok s) :
      evMet (bringUpRows ⟨true, true, 5, 3800, 1, [7], keyDigest (0, 0), 2⟩ true (some ⟨[2], 3, (0, 0), 1, 1⟩) [0, 1] [0] [5] [(3, 5)]) n := ⟨r, hr, s, ok⟩
  match n, hn with
  | 0, _ => exact h 0 _ rfl { State.reset with phase := 0 } ⟨rfl, rfl, rfl⟩
  | 1, _ => exact h 1 _ rfl { State.reset with phase := 1 } ⟨⟨rfl, rfl, rfl⟩, by decide, by decide⟩
  | 2, _ => exact h 2 _ rfl { State.reset with phase := 2 } ⟨rfl, rfl, rfl⟩
  | 3, _ => exact h 3 _ rfl { State.reset with phase := 3 } ⟨rfl, rfl, rfl⟩
  | 4, _ => exact h 4 _ rfl { State.reset with phase := 4 } ⟨rfl, rfl, rfl⟩
  | 5, _ => exact h 5 _ rfl { State.reset with phase := 5 } ⟨rfl, rfl, rfl⟩
theorem test_met_power : (∃ s : State, s.fail = true) ∧ (operating true resting).phase ≠ 0 ∧ evMet (heatRows 5) 0 ∧ evMet (heatRows 5) 1 ∧
    evMet (heatRows 5) 2 ∧ evMet (heatRows 5) 3 ∧ (∃ s : State, s.shutdown = true ∧ s.agenda = []) ∧
    let s := frozen demoWave 1000
    s.shutdown = false ∧ s.agenda = [] ∧ s.turn = .wave 1 ∧ s.wave 1 = some demoWave ∧ demoWave.sect = none ∧
      (s.cluster (demoWave.core / 8)).frozen.isSome = true ∧ (s.tick 1).due.isNone = true ∧ (s.tick 1).nextAccess = none :=
  ⟨⟨{ State.reset with fail := true }, rfl⟩, by decide, ⟨_, rfl, demo resting, trivial⟩, ⟨_, rfl, demo resting, trivial⟩,
    ⟨_, rfl, { (demo resting).modCluster 0 fun k => { k with frozen := some ⟨.thermal, 5, []⟩ } with limit := 50 }, by decide, 0, _, _, List.mem_singleton.mpr rfl, rfl, by decide⟩,
    ⟨_, rfl, demo resting, trivial⟩, ⟨{ State.reset with shutdown := true }, rfl, rfl⟩, by decide +kernel⟩

/-! #### The machine as a whole -/

theorem stands_of {s : State} {c : Ctx} (h : (decide (s.turn = .wave c.u) && decide (s.wave c.u = some c.w) && decide (c.w.run = some c.mask) && s.unpassed) = true) : Stands s c := by
  simpa [Stands, and_assoc] using h
theorem handles_of {s : State} {c : Ctx} (h : (c.w.sect.isNone && s.trapHandler c.w != 0 && ((c.w.active c.mask).all fun x => !x.2.tm) &&
    c.w.unwind.isNone) = true) : Handles s c := by
  simp only [Bool.and_eq_true, Option.isNone_iff_eq_none, bne_iff_ne] at h
  obtain ⟨⟨⟨h1, h2⟩, h3⟩, h4⟩ := h
  exact ⟨h1, h2, hasAll (P := fun _ th => th.tm = false) (by simpa using h3), h4⟩
/-- A word whose unit is gone, a privileged one, one with a register that the launch lacks, one whose latch holds nothing. -/
def lame : State := (demo demoWave).modCore 0 fun k => { k with fmask := 0 }
theorem test_met_checked : ∀ x ∈ ([(lame, ctx demoWave, .vdend (uRegs 0 0 0 0)), (demo demoWave, ctx demoWave, .tlbinvAll (uRegs 0 0 0 0)),
      (demo { demoWave with vlim := 10 }, ctx { demoWave with vlim := 10 }, .vadd (fRegs 10 2 4 8)),
      (demo demoWave, ctx demoWave, .vadd ⟨false, 5, false, 0, .latch 2, .regs (.reg 9) (.reg 0), ⟨0, false⟩, 0⟩)] : List (State × Ctx × Instr)),
    threadWord x.2.2 = true ∧ Stands x.1 x.2.1 ∧ Handles x.1 x.2.1 ∧ ((failing x.1 x.2.1 x.2.2).any fun y => y.2 != 0) = true := by
  intro x hx
  refine ⟨?_, stands_of ?_, handles_of ?_, ?_⟩ <;> revert x <;> decide +kernel
def flying : State := flight (.load 4 false 8)
theorem test_met_pending : threadWord (.vadd (fRegs 10 8 4 8)) = true ∧ Stands flying (ctx memWave) ∧
    failing flying (ctx memWave) (.vadd (fRegs 10 8 4 8)) = none ∧
    (flying.pendingReg (ctx memWave) (Instr.vadd (fRegs 10 8 4 8)).shape.vr || memWave.pendingS (Instr.vadd (fRegs 10 8 4 8)).shape.sr) = true ∧
    isX (.mend (xOps 0 0 0 0 0)) = true ∧ (Instr.mend (xOps 0 0 0 0 0)).isWord = true ∧ Handles (demo demoWave) (ctx demoWave) ∧ (ctx demoWave).mask ≠ 0 :=
  ⟨by decide, stands_of (by decide), by decide, by decide, by decide, by decide, handles_of (by decide), by decide⟩
def trapped : Wave := { demoWave with threads := demoWave.threads.map fun (l, t) => (l, { t with tm := true }) }
theorem test_met_kills : (∃ th, (demo trapped).wave 1 = some trapped ∧ trapped.sect = none ∧ trapped.th 1 = some th ∧ th.tm = true ∧
      trapped.reg = none ∧ (demo trapped).blockRegion trapped = none) ∧
    ∃ l, (fkeys (demo demoWave).launches).Nodup ∧ fget (demo demoWave).launches 1 = some l ∧ l.status.final = false :=
  ⟨⟨_, rfl, rfl, rfl, rfl, rfl, rfl⟩, _, by decide, rfl, rfl⟩
theorem test_met_immediates : issue demoWave [.vmovi ⟨false, 5, 0x12345678⟩, .smovi ⟨false, 5, 0x12345678⟩] = true := by decide

/-- A word loaded, and its wave as the step finds it. -/
def ready (w : Nat) : State := State.reset.withFetchWord 64 w
def readyCtx (s : State) : Ctx := ⟨1, (s.wave 1).getD Wave.init, ((s.wave 1).bind fun w => w.run).getD 0⟩
def fetched (s : State) (c : Ctx) (f : DWord → Bool) : Bool := match s.translateX c.w.coreNo c.w.port c.pc.toNat with
  | .ok e => !(s.fetched c.w.coreNo e c.pc).badAt (if e.swm then some (dieOf c.w.coreNo) else none) (e.key c.pc.toNat) 8 &&
    f ((s.fetched c.w.coreNo e c.pc).wordAt c.w.coreNo e c.pc)
  | .error _ => false
theorem fetched_of {s : State} {c : Ctx} {f : DWord → Bool} (h : fetched s c f = true) (h1 : Stands s c) (h2 : s.frozen c.w = false) :
    ∃ e, FetchesVia s c e ∧ f ((s.fetched c.w.coreNo e c.pc).wordAt c.w.coreNo e c.pc) = true := by
  unfold fetched at h
  split at h
  · next e he =>
    simp only [Bool.and_eq_true, Bool.not_eq_true'] at h
    exact ⟨e, ⟨h1, h2, he, h.1⟩, h.2⟩
  · cases h
/-- The state in which the next move is made. -/
def onward (s : State) : State := (s.tick 1).ordered
def turnB (s : State) (a : Agent) : Bool := !s.shutdown && s.agenda.isEmpty && decide (s.turn = a) && (s.tick 1).due.isNone && (s.tick 1).nextAccess.isNone
theorem turn_of {s : State} {a : Agent} (h : turnB s a = true) : Turn s (onward s) a := by
  simp only [turnB, Bool.and_eq_true, Bool.not_eq_true', List.isEmpty_iff, decide_eq_true_eq, Option.isNone_iff_eq_none] at h
  obtain ⟨⟨⟨⟨h1, h2⟩, h3⟩, h5⟩, h4⟩ := h
  exact ⟨h1, .inr ⟨h2, h3, h5, h4, rfl⟩⟩
def decodes (x : Bool) (w : DWord) : Bool := match decode w with
  | .ok i => isX i == x
  | .error _ => false
/-- `vadd v5, v3, v9`. -/
theorem test_met_wordsRun : let s := ready 0x00002A0304800000
    let c := readyCtx (onward s)
    Turn s (onward s) (.wave 1) ∧ c.u = 1 ∧ c.entering = 0 ∧ ∃ e, FetchesVia (onward s) c e ∧ decodes false (((onward s).fetched c.w.coreNo e c.pc).wordAt c.w.coreNo e c.pc) = true :=
  ⟨turn_of (by decide +kernel), rfl, by decide +kernel, fetched_of (by decide +kernel) (stands_of (by decide +kernel)) (by decide +kernel)⟩
/-- `mend`, fetched by the block's sequencer. -/
def streamed : State := ready ((encode (.mend (xOps 0 0 0 0 0))).getD 0).toNat
def streamFetches (s : State) (b : Nat) (k : Block) (q : Seq) : Bool := !q.ended && q.wait == .none && (s.cluster (clusterOf k.core)).frozen.isNone &&
  !k.leaving && k.placed && s.unpassed &&
  match s.translateX k.core (s.portOf k) q.pc.toNat with
  | .error _ => false
  | .ok e => let s2 := s.fetched k.core e q.pc
    !s2.badAt (if e.swm then some (dieOf k.core) else none) (e.key q.pc.toNat) 8 && match decode (s2.seqFetch k q b e q.pc) with
    | .error _ => false
    | .ok i => isX i && i.feature.all fun f => (s2.core k.core).fmask.getLsbD f
theorem test_met_matrixWordsRun : Turn streamed (onward streamed) (.seq 1) ∧
    ((fget (onward streamed).blocks 1).any fun k => k.seq.any fun q => streamFetches (onward streamed) 1 k q) = true :=
  ⟨turn_of (by decide +kernel), by decide +kernel⟩
def spawned : State := (ready 0x00002A0304800000).modWave 1 fun w => { w with threads := w.threads.map fun (l, t) => (l, { t with atEntry := true }) }
theorem test_met_badFetches : (let s := ready 0x00F8000000000000
      let c := readyCtx (onward s)
      Turn s (onward s) (.wave 1) ∧ c.entering = 0 ∧ Handles (onward s) c ∧ c.mask ≠ 0 ∧
        ∃ e, FetchesVia (onward s) c e ∧ (match decodeRaw (((onward s).fetched c.w.coreNo e c.pc).wordAt c.w.coreNo e c.pc) with | .ok _ => false | .error _ => true) = true) ∧
    let c := readyCtx (onward spawned)
    Turn spawned (onward spawned) (.wave 1) ∧ c.entering ≠ 0 ∧ Handles (onward spawned) c ∧
      ∃ e, FetchesVia (onward spawned) c e ∧ (!isLanding (((onward spawned).fetched c.w.coreNo e c.pc).wordAt c.w.coreNo e c.pc)) = true :=
  ⟨⟨turn_of (by decide +kernel), by decide +kernel, handles_of (by decide +kernel), by decide +kernel,
      fetched_of (f := fun w => match decodeRaw w with | .ok _ => false | .error _ => true) (by decide +kernel) (stands_of (by decide +kernel)) (by decide +kernel)⟩,
    turn_of (by decide +kernel), by decide +kernel, handles_of (by decide +kernel),
    fetched_of (f := fun w => !isLanding w) (by decide +kernel) (stands_of (by decide +kernel)) (by decide +kernel)⟩
/-- A copy that has moved its data, with its promise now. -/
def promised : State := cmdState { copyCmd with stage := .moved, promise := 1001 }
theorem test_met_events : (∃ s : State, s.shutdown = false ∧ s.agenda = [⟨5, .event .thermalTrip⟩] ∧ Instr.thermalTrip.isWord = false ∧
      (({ s with agenda := [] } : State).tick 5).due.isNone = true) ∧
    (flying.shutdown = false ∧ flying.agenda = [] ∧ (flying.tick 1).due.isNone = true ∧ (flying.tick 1).nextAccess = some 9) ∧
    promised.shutdown = false ∧ promised.agenda = [] ∧ (∃ c, promised.cmds = [(5, c)] ∧ c.eng = .copy 0 ∧ c.stage = .moved ∧
      c.promise ≤ (promised.tick 1).clk ∧ (promised.cluster (clusterOf c.core)).frozen = none) ∧ promised.packets = [] ∧
    (promised.tick 1).reap.isNone = true ∧ (promised.tick 1).learned.isNone = true :=
  ⟨⟨{ State.reset with agenda := [⟨5, .event .thermalTrip⟩] }, rfl, rfl, rfl, by decide +kernel⟩, ⟨rfl, rfl, by decide +kernel, by decide +kernel⟩,
    rfl, rfl, ⟨_, rfl, rfl, rfl, by decide, by decide⟩, rfl, by decide +kernel, by decide +kernel⟩
theorem test_met_encodes : (Instr.vadd (fRegs 5 3 9 0)).wellFormed = true ∧ (Instr.vadd (fRegs 5 3 9 0)).isWord = true  := by decide
/-- Memory in its form, and a step that goes on. -/
theorem test_met_canonical : (ready 0x00002A0304800000).memOk ∧ (match step (ready 0x00002A0304800000) with
    | .next _ => true
    | _ => false) = true ∧ (operating false resting).phase ≠ 6 := ⟨by unfold State.memOk; decide +kernel, by decide +kernel, by decide⟩

/-! #### Words some of whose lanes fail, and words inside regions -/

/-- Lane 0 passes, lane 1 names an absent page, lane 2 is misaligned. -/
def wideCap : Cap := Cap.make 0 0x80000000 0 0xFFF 0 0 true
def laneAt (l : Nat) (a : Word) : Thread := { memThread l with v := rset (memThread l).v 2 a }
def mixed : Wave := { memWave with threads := [(0, laneAt 0 0x102000), (1, laneAt 1 0x40002000), (2, laneAt 2 0x102001)], run := some 7, c := [(1, wideCap)] }
def absent : Wave := { memWave with threads := [(0, laneAt 0 0x40002040), (1, laneAt 1 0x40002000)], run := some 3, c := [(1, wideCap)] }
def absentOne : Wave := { absent with threads := [(0, laneAt 0 0x40002040)], run := some 1 }
def codesOf (r : AccRow) (w : Wave) : List (Option Nat) := (w.active (w.run.getD 0)).map fun x =>
  match (demo w).checkAt w x.2 (capOf r.m w x.2) (addrOf r.m w x.2) r.size (r.perms x.2) r.kind with
  | .ok e => if settled (demo w) w.coreNo r.writes e then none else some 255
  | .error k => some k
/-- The rows whose lanes may name several lines. -/
def manyLines (m : MOps) : List AccRow := (accessRows m).take 7
theorem test_met_splits : ∀ r ∈ manyLines (mOps 8 1 2 0 0 0x42), ((demo mixed).issues r.i (ctx mixed) = true ∧
      codesOf r mixed = [none, some cNOTPRESENT, some cMISALIGNED]) ∧ (demo absent).issues r.i (ctx absent) = true ∧
      codesOf r absent = [some cNOTPRESENT, some cNOTPRESENT] := by decide +kernel
theorem test_met_splitsTraps : (demo mixed).traps (ctx mixed) ∧ (demo mixed).inRegion mixed = false ∧ (demo absent).inRegion absent = false ∧
    2 ≤ scOf (mOps 8 1 2 0 0 0x42) ∧ clean (mOps 8 1 2 0 0 0x42) false (ctx mixed) ∧ (ctx absent).lead.isSome = true ∧
    ∀ x ∈ absent.threads, (addrOf (mOps 8 1 2 0 0 0x42) absent x.2).toNat / 4096 = 0x40002 :=
  ⟨demo_traps mixed (by decide) (by decide) (by decide) (by decide) (by decide), by decide, by decide, by decide,
    fun l th _ _ h => absurd h (by decide), by decide, by decide⟩
/-- The rows of one line, in a wave of one lane. -/
theorem test_met_splitsOne : ∀ r ∈ (accessRows (mOps 8 1 2 0 0 0x42)).drop 7, (demo absentOne).issues r.i (ctx absentOne) = true ∧
    codesOf r absentOne = [some cNOTPRESENT] := by decide +kernel

/-- Lanes 0 and 1 at one place inside a region; a region without a line left. -/
def sameWave : Wave := { regWave with threads := [(0, laneAt 0 0x102000), (1, laneAt 1 0x102000)], run := some 3 }
def fullRegion : Region := { openRegion with lines := (List.range 256).map fun i => (i, ⟨0, [], 0, 0, false, false⟩), qChunks := 4, pChunks := 0 }
def fullWave : Wave := { regWave with reg := some fullRegion }
def insideB (w : Wave) (m : MOps) (n perms kind : Nat) (writes : Bool) : Bool := w.sect.isNone && (demo w).quietWave 1 &&
  (w.active (w.run.getD 0)).all fun x => match (demo w).checkAt w x.2 (capOf m w x.2) (addrOf m w x.2) n perms kind with
    | .ok e => settled (demo w) w.coreNo writes e && decide (e.key (addrOf m w x.2).toNat % 64 + n ≤ 64) &&
      !(demo w).regionBad w (e.die w) (e.key (addrOf m w x.2).toNat) n
    | .error _ => false
theorem inside_of {w : Wave} {m : MOps} {n perms kind : Nat} {writes : Bool} (h : insideB w m n perms kind writes = true) :
    InsidePassing (demo w) (ctx w) m n perms kind writes := by
  simp only [insideB, Bool.and_eq_true, Option.isNone_iff_eq_none, List.all_eq_true] at h
  obtain ⟨⟨h1, h2⟩, h3⟩ := h
  have each (l : Nat) (th : Thread) (hh : (ctx w).has l th) := h3 (l, th) ((Wave.mem_active _ _ _ _).mpr hh)
  refine ⟨h1, h2, fun l th hh _ => ?_, fun l th e hh _ he => ?_⟩
  · have := each l th hh
    dsimp only at this
    split at this
    · next e he =>
      simp only [Bool.and_eq_true] at this
      exact ⟨e, he, this.1.1⟩
    · cases this
  · have := each l th hh
    dsimp only at this
    rw [show (demo w).checkAt w th (capOf m w th) (addrOf m w th) n perms kind = .ok e from he] at this
    simp only [Bool.and_eq_true, decide_eq_true_eq, Bool.not_eq_true'] at this
    exact ⟨this.1.2, this.2⟩
theorem test_met_insides : let m := mOps 8 1 2 0 0 0x42
    ((demo regWave).issues (.ld m) (ctx regWave) = true ∧ (demo regWave).inRegion regWave = true ∧
      InsidePassing (demo regWave) (ctx regWave) m (szBytes (szM m)) pLOAD 0 false) ∧
    ((demo regWave).issues (.st m) (ctx regWave) = true ∧ innermostBuffer (demo regWave) regWave = some openRegion ∧
      InsidePassing (demo regWave) (ctx regWave) m (szBytes (szM m)) pSTORE 1 true ∧
      openRegion.lines.length + ((ctx regWave).acting m.g).length ≤ 64 * (openRegion.qChunks + openRegion.pChunks)) ∧
    ((demo fullWave).issues (.st m) (ctx fullWave) = true ∧ fullWave.reg = some fullRegion ∧
      InsidePassing (demo fullWave) (ctx fullWave) m (szBytes (szM m)) pSTORE 1 true ∧ (ctx fullWave).acting m.g ≠ [] ∧
      (∀ p ∈ laneParts (demo fullWave) (ctx fullWave) m (szBytes (szM m)) pSTORE 1, fget fullRegion.lines (p.1 / 64) = none) ∧
      4 ≤ fullRegion.qChunks + fullRegion.pChunks ∧ 64 * (fullRegion.qChunks + fullRegion.pChunks) ≤ fullRegion.lines.length) :=
  ⟨⟨by decide +kernel, by decide, inside_of (by decide +kernel)⟩, ⟨by decide +kernel, rfl, inside_of (by decide +kernel), by decide⟩,
    by decide +kernel, rfl, inside_of (by decide +kernel), by decide, by decide +kernel, by decide, by decide +kernel⟩
theorem test_met_insideAtomics : let m := mOps 8 1 2 0 0 0
    (demo sameWave).issues (.atom m) (ctx sameWave) = true ∧ innermostBuffer (demo sameWave) sameWave = some openRegion ∧
      (demo sameWave).tooWide sameWave (scOf m) = false ∧ clean m false (ctx sameWave) ∧
      InsidePassing (demo sameWave) (ctx sameWave) m (aBytes m) (pLOAD ||| pSTORE ||| pATOMIC) 2 true ∧ (ctx sameWave).acting m.g ≠ [] ∧
      ((sameWave.active 3).all fun x => match (demo sameWave).checkAt sameWave x.2 (capOf m sameWave x.2) (addrOf m sameWave x.2) (aBytes m)
          (pLOAD ||| pSTORE ||| pATOMIC) 2 with
        | .ok e => !e.swm && e.key (addrOf m sameWave x.2).toNat == 0x102000
        | .error _ => false) = true ∧
      openRegion.lines.length < 64 * (openRegion.qChunks + openRegion.pChunks) :=
  ⟨by decide +kernel, rfl, by decide, fun l th _ _ h => absurd h (by decide), inside_of (by decide +kernel), by decide,
    by decide +kernel, by decide⟩
theorem test_met_wide : ∀ r ∈ wideRows (mOps 8 1 2 0 0 0x60), EndRow.met r := by
  have ok : (demo regWave).tooWide regWave (scOf (mOps 8 1 2 0 0 0x60)) = true := by decide
  simp only [wideRows, List.forall_mem_cons]
  exact ⟨met regWave (by decide +kernel) ⟨ok, reg_traps⟩, met regWave (by decide +kernel) ⟨ok, reg_traps⟩,
    met regWave (by decide +kernel) ⟨ok, reg_traps⟩, met regWave (by decide +kernel) ⟨ok, reg_traps⟩,
    met regWave (by decide +kernel) ⟨ok, reg_traps⟩, met regWave (by decide +kernel) ⟨ok, reg_traps⟩, by simp⟩
def absentInside : Wave := { absent with reg := some openRegion }
theorem test_met_awaits : (∀ r ∈ insideRows (mOps 8 1 2 0 0 2), (demo absentInside).issues r.i (ctx absentInside) = true ∧
      codesOf r absentInside = [some cNOTPRESENT, some cNOTPRESENT]) ∧ (demo absentInside).inRegion absentInside = true ∧
    (demo absentInside).quietWave 1 = true ∧ (demo absentInside).tooWide absentInside (scOf (mOps 8 1 2 0 0 2)) = false ∧
    absentInside.sect = none := by decide +kernel

/-! #### Answers that come later, failed pages, bring-up, power -/

/-- A `push` whose records are read from memory; a command on the way, in the clk before its answer. -/
def missing : State := (engState 300000 tcopyW).modCore 0 fun k => { k with recs := [] }
def onTheWay : State := let c : Cmd := demoCmd kTCOPY srcRec (dstRec 0) 0
  { engState 300000 memWave with cmds := [(7, { c with stage := .sent, op := 0, learn := 1001, dst := 60, pred := 3, rcap := allCap })] }
def answerB (s : State) : Bool := let s1 := s.tick 1
  !s.shutdown && s.agenda.isEmpty && s1.reap.isNone && match s1.nextKnown none s1.clk.toNat with
  | none => false
  | some (_, k) => k.stage == .sent && !k.deferred && (s1.anyWave k.wave).isSome && !cGV k.words
theorem test_met_pushSent : pushable false pushU missing (ctx tcopyW) ∧ missing.issues (pushInstr false pushU) (ctx tcopyW) = true ∧
    (missing.readRecs tcopyW (tcopyW.getC (cmdFld (pushBits pushU (ctx tcopyW)) 4 4 0)) (pushBits pushU (ctx tcopyW))).miss ≠ 0 :=
  have h : pushB false missing tcopyW false = true := by decide +kernel
  ⟨(pushable_of h rfl).2.1, (pushable_of h rfl).1, by decide +kernel⟩
theorem test_met_answers : answerB onTheWay = true := by decide +kernel
/-- A held command whose region bound its slot. -/
def deferredCmd : State := cmdState { demoCmd 0x2201 srcRec (dstRec 0) 0 with stage := .held, guard := some true, deferred := true }
theorem test_met_deferred : ∃ c, fget deferredCmd.cmds 5 = some c ∧ c.stage = .held ∧ c.resolved = some true ∧ c.learn ≤ deferredCmd.clk ∧
    c.deferred = true ∧ (deferredCmd.anyWave c.wave).isSome = true ∧ ∀ x ∈ deferredCmd.cmdsOf c.wave c.eng.cls, x.1 < 5 → x.2.stage ≠ .held := by
  refine ⟨_, rfl, rfl, ?_⟩
  decide +kernel
/-- A fabric load that consumes poisoned ingress. -/
theorem test_met_ingressPoisons : ∃ w p, acked.wave 1 = some w ∧ w.coreNo = 0 ∧ (⟨0, 1, false, 7, 2, 0x102000⟩ : ErrorReport).lanes &&& ~~~w.live = 0 ∧
    acked.consumingPacket ⟨0, 1, false, 7, 2, 0x102000⟩ = some (6, p) ∧ fget acked.packets 6 = some p := ⟨_, _, rfl, rfl, by rfl, by rfl, by rfl⟩
theorem noCommits_of {s : State} {cl : Nat} (h : (s.blocks.all fun x => x.2.bars.isEmpty) = true) : noCommits s cl := fun n b hb _ k => by
  have h1 := List.isEmpty_iff.mp (List.all_eq_true.mp h _ hb)
  simp only at h1
  simp [Block.bar, h1, Barrier.init]
theorem test_met_noCommits : noCommits (frozen resting 2000) 0 ∧ noCommits (frozen resting 80000) 0 := ⟨noCommits_of (by decide), noCommits_of (by decide)⟩
/-- A wave that met an absent page inside its region; a section and a sequencer that wait for a page. -/
def waitsInside : Wave := { inside with run := none, faultAbort := some (0x40002000, 1) }
def waitsSect : Wave := { demoSect with run := none, sect := some { demoSection with suspended := true }, threads := [(0, { demoThread 0 with wait := .parked 0x102008 1 })] }
def waitsSeq : State := seqState mRegs [] id fun q => { q with wait := .page 0x102000 0 }
theorem test_met_waiters : ((demo waitsInside).inRegionOn 0 0x40002000 none = [1] ∧ (demo waitsInside).awaited 0 0x40002000 = true ∧ waitsInside.sect = none ∧
      waitsInside.escapes = [] ∧ waitsInside.threads.all (fun x => !x.2.parkedOn 0x40002000) = true ∧ waitsInside.reg.isSome = true) ∧
    ((demo waitsSect).awaited 0 0x102000 = true ∧ (demo waitsSect).inRegionOn 0 0x102000 none = [] ∧ waitsSect.port = 0 ∧
      waitsSect.threads.all (fun x => x.2.parkedOn 0x102000 && meant none 1 x.2.pc) = true) ∧
    waitsSeq.awaited 0 0x102000 = true ∧ waitsSeq.inRegionOn 0 0x102000 none = [] ∧
      waitsSeq.blocks.all (fun x => x.2.seq.all fun q => q.waitsOn 0x102000 && !q.ended && x.2.bars.isEmpty && waitsSeq.portOf x.2 == 0) = true ∧
      waitsSeq.waves.all (fun x => x.2.threads.all fun y => !y.2.parkedOn 0x102000) = true := by decide +kernel
theorem test_met_unwinds : ((demo { waitsInside with faultAbort := some (0x102000, 1) }).writeLeaf 0 0x102000 none).present 0 0x102000 = true := by decide +kernel
def deliverB (s : State) (port : Nat) (va : DWord) (who : Option (Nat × DWord)) : Bool := decide ((fkeys s.waves).Nodup) && (s.inRegionOn port va who).isEmpty &&
  (s.blocks.all fun x => x.2.seq.all fun q => !q.waitsOn va) && s.waves.all fun x => decide ((fkeys x.2.threads).Nodup) &&
    x.2.sect.isNone && s.trapHandler x.2 != 0 && !(x.2.reg.any fun r => r.doomed) && !((s.blockRegion x.2).any fun r => r.doomed) &&
    x.2.threads.all fun y => !y.2.tm
theorem deliver_of {s : State} {port : Nat} {va : DWord} {who : Option (Nat × DWord)} (h : deliverB s port va who = true) : Deliverable s port va who := by
  simp only [deliverB, Bool.and_eq_true, List.all_eq_true, Bool.not_eq_true', decide_eq_true_eq, List.isEmpty_iff, bne_iff_ne,
    Option.isNone_iff_eq_none] at h
  obtain ⟨⟨⟨h1, h2⟩, h3⟩, h4⟩ := h
  refine ⟨h1, h2, fun n b hb _ _ q hq => ?_, fun u w hw => ?_⟩
  · have := h3 _ hb
    rw [hq] at this
    simpa using this
  · obtain ⟨⟨⟨⟨⟨h5, h6⟩, h7⟩, h8⟩, h9⟩, h10⟩ := h4 _ hw
    exact ⟨h5, fun l th ht _ => ⟨h6, h7, h10 _ ht, h8, h9⟩⟩
theorem test_met_delivers : Deliverable (demo parked) 0 0x102000 none ∧ (demo parked).awaited 0 0x102000 = true ∧
    parked.threads.any (fun x => x.2.parkedOn 0x102000 && meant none 1 x.2.pc) = true := ⟨deliver_of (by decide), by decide, by decide⟩

/-- An image of one byte, with a key that its digest verifies under: the digest is r and s, so that w is its inverse and both
multipliers are 1; the key is the point at r less the base point. -/
def flashKey : Nat × Nat := (0xb42062144550e6f1c1eab261bc2f03156627cfba964fb8b26e2ec1644432b6873cf698069cf8aabcd7ebc2754650b412,
  0xced6ff89af867f08cc08fa4c6a369dc0e2ee4f55350a07a3820e84657604c645d002b3907e62a6a02e4847ea6bb59fbc)
def digest2 : Nat := 0xdb475240477c5e4497a2c5724ca485f5b1f2c2fc0602b92bae234238ec8d4e873a7148c739593e95a7f4dfe7c6e69f69
theorem test_sha384 : (sha384 [2]).toNat = digest2 := by decide +kernel
theorem test_met_signed : let g : FlashImage := ⟨[2], 3, flashKey, digest2, digest2⟩
    signed { State.reset with phase := 4, keyHash := keyDigest flashKey, minVersion := 3 } g ∧
      ¬signed { State.reset with phase := 4, keyHash := keyDigest flashKey, minVersion := 4 } g :=
  ⟨⟨by exact Eq.refl (keyDigest flashKey), by decide, by rw [show sha384 _ = sha384 [2] from Eq.refl (sha384 [2]), test_sha384]; decide +kernel⟩,
    fun h => absurd h.2.1 (by decide)⟩
theorem test_met_windows : ({ operating true resting with clk := 4095 } : State).clk.toNat < 4096 * ((operating true resting).windowsDone + 1) ∧
    4096 * ((operating true resting).windowsDone + 1) ≤ ({ operating true resting with clk := 4096 } : State).clk.toNat := by decide
theorem test_met_powerLost (dt : Nat) (rest : List Tick) : [] ≠ (⟨dt, .event .packageReset⟩ : Tick) :: rest ∧
    [(⟨3, .event .thermalTrip⟩ : Tick)] ≠ ⟨dt, .event .packageReset⟩ :: rest ∧ [(⟨3, .issue (.wave 1)⟩ : Tick)] ≠ ⟨dt, .event .packageReset⟩ :: rest := by simp
/-- A step of a word. -/
theorem test_met_stays : (Instr.vmov (fRegs 5 2 0 0)).isWord = true ∧ (demo demoWave).issuing.isSome = true ∧
    (match exec (.vmov (fRegs 5 2 0 0)) (demo demoWave) with | .next _ => true | _ => false) = true := by decide +kernel
/-- The first block of a sparse multiply, in the state that its binding leaves. -/
def boundB (s : State) : Bool := match s.spBind (seqAt s) spX false [] with
  | .error _ => false
  | .ok ((z, p), rs) =>
    let s1 := sparseBound spX s (seqAt s) z rs
    match fget s1.blocks 1 with
    | none => false
    | some k => match k.seq with
      | none => false
      | some q => match stepReads spX s1 ⟨1, k, q⟩ z p 0 [] with
        | .ok (_, rs') => goodB s1 (seqAt s) rs'
        | .error _ => false
theorem test_met_sparseBound : boundB (sparse 0) = true := by decide +kernel
/-- An sc fence with a store in the queue and nothing in flight. -/
theorem test_met_scDrains : (queued (demo memWave)).issues (.fenceSc (uRegs 0 0 0 0 0x63)) (ctx memWave) = true ∧
    (queued (demo memWave)).drained 1 (queued (demo memWave)).nextId = true ∧ (ctx memWave).has 0 (memThread 0) := ⟨by decide, by decide, by decide, rfl⟩

end Sys2Proof.Tests
end

section
/-!
The long-immediate form of `vmovi` and `smovi` (R25): its words, its two destinations, and the latches it leaves.
-/
namespace Sys2Proof.LongImmediate

/-- Two fields side by side are a stretch of `x` when each is its own part of it. -/
theorem append_eq_extractLsb'_iff {w m n : Nat} (x : BitVec w) (k : Nat) (a : BitVec m) (b : BitVec n) :
    a ++ b = x.extractLsb' k (m + n) ↔ a = x.extractLsb' (k + n) m ∧ b = x.extractLsb' k n := by
  rw [← BitVec.extractLsb'_append_extractLsb'_eq_extractLsb' (x := x) (rfl : k + n = k + n)]
  constructor
  · intro h
    have hl := congrArg (BitVec.extractLsb' n m) h
    have hr := congrArg (BitVec.extractLsb' 0 n) h
    rw [BitVec.extractLsb'_append_eq_left, BitVec.extractLsb'_append_eq_left] at hl
    rw [BitVec.extractLsb'_append_eq_right, BitVec.extractLsb'_append_eq_right] at hr
    exact ⟨hl, hr⟩
  · rintro ⟨rfl, rfl⟩
    rfl

/-- A bit of a word as a field of one bit. -/
theorem ofBool_getLsbD {w : Nat} (x : BitVec w) (k : Nat) : BitVec.ofBool (x.getLsbD k) = x.extractLsb' k 1 := by
  apply BitVec.eq_of_getLsbD_eq
  intro i hi
  have : i = 0 := by omega
  subst this
  simp

/-- A word of kind 00 is put together from its own E, opcode and rest (R21, R22). -/
theorem word00_eq_iff {w : DWord} {op : Nat} {x : BitVec 51} (hk : w.extractLsb' 62 2 = 0)
    (ho : (w.extractLsb' 51 10).toNat = op) : word00 (w.getLsbD 61) op x = w ↔ x = w.extractLsb' 0 51 := by
  have hop : BitVec.ofNat 10 op = w.extractLsb' 51 10 := by rw [← ho, BitVec.ofNat_toNat, BitVec.setWidth_eq]
  have hw : w = w.extractLsb' 0 (2 + 1 + 10 + 51) := by simp
  calc word00 (w.getLsbD 61) op x = w
      ↔ 0#2 ++ BitVec.ofBool (w.getLsbD 61) ++ BitVec.ofNat 10 op ++ x = w.extractLsb' 0 (2 + 1 + 10 + 51) :=
        iff_of_eq (congrArg (word00 (w.getLsbD 61) op x = ·) hw)
    _ ↔ x = w.extractLsb' 0 51 := by
        rw [append_eq_extractLsb'_iff, append_eq_extractLsb'_iff, append_eq_extractLsb'_iff, ofBool_getLsbD, hop]
        simp [hk]

/-- The words that encode `vmovi`: bits 7:0 and 42:40 are zero. -/
theorem encode_vmovi_eq_iff {w : DWord} (hk : w.extractLsb' 62 2 = 0) (ho : (w.extractLsb' 51 10).toNat = 0x01D) :
    encode (.vmovi ⟨w.getLsbD 61, w.extractLsb' 43 8, w.extractLsb' 8 32⟩) = some w ↔
      w.extractLsb' 0 8 = 0 ∧ w.extractLsb' 40 3 = 0 := by
  rw [show encode (.vmovi ⟨w.getLsbD 61, w.extractLsb' 43 8, w.extractLsb' 8 32⟩) = some (word00 (w.getLsbD 61) 0x01D
      (w.extractLsb' 43 8 ++ 0#3 ++ w.extractLsb' 8 32 ++ 0#8)) from rfl, Option.some_inj, word00_eq_iff hk ho]
  rw [append_eq_extractLsb'_iff (m := 8 + 3 + 32), append_eq_extractLsb'_iff (m := 8 + 3), append_eq_extractLsb'_iff (m := 8)]
  simp only [Nat.zero_add, Nat.reduceAdd, true_and, and_true]
  exact and_comm.trans (and_congr eq_comm eq_comm)

/-- The words that encode `smovi`: bits 7:0 and bit 40 are zero. -/
theorem encode_smovi_eq_iff {w : DWord} (hk : w.extractLsb' 62 2 = 0) (ho : (w.extractLsb' 51 10).toNat = 0x193) :
    encode (.smovi ⟨w.getLsbD 61, w.extractLsb' 41 10, w.extractLsb' 8 32⟩) = some w ↔
      w.extractLsb' 0 8 = 0 ∧ w.getLsbD 40 = false := by
  have hb : 0#1 = w.extractLsb' 40 1 ↔ w.getLsbD 40 = false := by
    rw [← ofBool_getLsbD]
    cases w.getLsbD 40 <;> decide
  rw [show encode (.smovi ⟨w.getLsbD 61, w.extractLsb' 41 10, w.extractLsb' 8 32⟩) = some (word00 (w.getLsbD 61) 0x193
      (w.extractLsb' 41 10 ++ 0#1 ++ w.extractLsb' 8 32 ++ 0#8)) from rfl, Option.some_inj, word00_eq_iff hk ho]
  rw [append_eq_extractLsb'_iff (m := 10 + 1 + 32), append_eq_extractLsb'_iff (m := 10 + 1), append_eq_extractLsb'_iff (m := 10)]
  simp only [Nat.zero_add, Nat.reduceAdd, true_and, and_true]
  exact and_comm.trans (and_congr eq_comm hb)

/-- A word that passes checks 5 to 7 of R48 is the word of its instruction. -/
theorem encode_of_check {i : Instr} {w : DWord} (h : i.check w = none) : encode i = some w := by
  refine Decidable.byContradiction fun hne => ?_
  have hbad : (!i.shape.legal || encode i != some w) = true := by rw [bne_iff_ne.mpr hne, Bool.or_true]
  unfold Instr.check at h
  split at h
  · simp only [hbad, Bool.or_true, if_true, reduceCtorEq] at h
  · simp only [hbad, if_true, reduceCtorEq] at h

/-- Checks 5 to 7 of R48 on legal fields of a word of kind 00: only a reserved bit can fail them. -/
theorem check_of_shape {i : Instr} {w : DWord} (hp : ∀ p, i ≠ .pairedWord p) (hl : i.shape.legal = true)
    (hg : i.shape.guard = true) : i.check w = if encode i = some w then none else some .illegal := by
  unfold Instr.check
  split
  · next p => exact absurd rfl (hp p)
  · simp [hl, hg]

/-- A word that decodes is the word of what it decodes to. -/
theorem encode_of_decode {w : DWord} {i : Instr} (h : decode w = .ok i) : encode i = some w := by
  unfold decode at h
  split at h
  · cases h
  · split at h
    · cases h
    · next hc =>
      cases h
      exact encode_of_check hc

/-- A word of kind 00 whose opcode's instruction has legal fields and guard decodes to it where no other bit is set. -/
theorem decode_of_rawOpcode {w : DWord} {i : Instr} (hk : w.extractLsb' 62 2 = 0) (hr : rawOpcode w = some i)
    (hp : ∀ p, i ≠ .pairedWord p) (hl : i.shape.legal = true) (hg : i.shape.guard = true) :
    decode w = if encode i = some w then .ok i else .error .illegal := by
  have hd : decodeRaw w = .ok i := by
    unfold decodeRaw
    rw [hk, hr]
    rfl
  by_cases he : encode i = some w <;> simp [decode, hd, check_of_shape hp hl hg, he]

/-- R25 for `vmovi`: a word of its opcode holds it or is refused for a reserved bit. -/
theorem decode_vmovi {w : DWord} (hk : w.extractLsb' 62 2 = 0) (ho : (w.extractLsb' 51 10).toNat = 0x01D) :
    decode w = if w.extractLsb' 0 8 = 0 ∧ w.extractLsb' 40 3 = 0
      then .ok (.vmovi ⟨w.getLsbD 61, w.extractLsb' 43 8, w.extractLsb' 8 32⟩) else .error .illegal := by
  rw [decode_of_rawOpcode hk (if_pos ho) nofun rfl rfl]
  simp only [encode_vmovi_eq_iff hk ho]

/-- R25 for `smovi`, whose opcode the decoder tells apart after that of `vmovi`. -/
theorem decode_smovi {w : DWord} (hk : w.extractLsb' 62 2 = 0) (ho : (w.extractLsb' 51 10).toNat = 0x193) :
    decode w = if w.extractLsb' 0 8 = 0 ∧ w.getLsbD 40 = false
      then .ok (.smovi ⟨w.getLsbD 61, w.extractLsb' 41 10, w.extractLsb' 8 32⟩) else .error .illegal := by
  have hv : (w.extractLsb' 51 10).toNat ≠ 0x01D := by omega
  rw [decode_of_rawOpcode hk ((if_neg hv).trans (if_pos ho)) nofun rfl rfl]
  simp only [encode_smovi_eq_iff hk ho]

end Sys2Proof.LongImmediate

namespace Sys2Proof.Machine

theorem Wave.closeRun_unwind (w : Wave) : w.closeRun.unwind = w.unwind := by
  unfold Wave.closeRun
  split <;> rfl

theorem Wave.closeRun_s (w : Wave) : w.closeRun.s = w.s := by
  unfold Wave.closeRun
  split <;> rfl

/-- A register arithmetic word whose effect succeeds leaves the uniform registers that its effect gives the wave. -/
theorem arith_wave_getS {s t : State} {i : Instr} {c : Ctx} {e : Bool} {eff : Wave → Word → Except Word Wave} {w : Wave}
    (h : s.issues i c = true) (ok : eff (c.issued s.clk) c.mask = .ok w) (hr : w.rest = c.w.rest)
    (ht : arith i e s eff = .next t) : ∃ w', t.wave c.u = some w' ∧ ∀ r, w'.getS r = w.getS r := by
  have hun : w.unwind = none := by
    have : w.rest.unwind = c.w.rest.unwind := by rw [hr]
    exact this.trans (issues_calm h)
  have hput : ∀ v : Wave, (s.modWave c.u fun _ => v).wave c.u = some v := fun v =>
    State.wave_modWave_some (fun _ => v) (issues_wave h)
  simp only [arith, issue_of_issues h, ok, Option.getD_some, Host.Outcome.next.injEq] at ht
  subst ht
  split
  · rw [boundary_of_calm (hput (w.mapMask c.mask fun _ t => t.next).closeRun) ((Wave.closeRun_unwind _).trans hun)]
    exact ⟨_, hput _, fun r => congrArg (rget · r) (Wave.closeRun_s _)⟩
  · exact ⟨_, hput _, fun _ => rfl⟩

end Sys2Proof.Machine

namespace Sys2Proof.Claims
open Sys2Proof.Machine

/-- `vmovi` writes the immediate to its vector register in every thread of the group, and nothing else (R25). -/
theorem vmovi_completes (m : VMovi) : Completes (.vmovi m) { Dest.none with v := [m.d.toNat] } anyOps fun _ _ _ th' =>
    th'.getV m.d.toNat = m.imm := by
  intro s c h _
  refine arith_lanes h fun l th _ => ?_
  have hv := Thread.getV_setV_same { th with yd := false, resume := 0 } m.d.toNat m.imm
  exact ⟨rfl, ⟨keeps_setV (keeps_issued th _) (List.mem_singleton.mpr rfl), fun _ _ => ⟨rfl, rfl⟩, nofun⟩, hv, hv⟩

/-- `smovi` writes the immediate to its uniform register once, and nothing else (R25). -/
theorem smovi_completes (m : SMovi) : UniformAfter (.smovi m) (Dest.uni m.d.toNat 1 false) anyOps
    (fun _ w => w.getS m.d.toNat = m.imm) fun _ => 0 := by
  intro s c h _
  have hflag : ∀ th : Thread, th.fflags = (th.flag 0).fflags := by
    intro th
    simp [Thread.flag]
  obtain ⟨t, ht, hran⟩ := arith_ran (e := m.e) (eff := fun w _ => .ok (w.setS m.d.toNat m.imm))
    (w := (c.issued s.clk).setS m.d.toNat m.imm) (d := Dest.uni m.d.toNat 1 false) (val := fun _ th th' => raises 0 th th')
    h rfl rfl (issues_run h)
    (fun r hr => rget_rset_other _ _ (by simpa [Dest.uni] using hr)) (fun l hl => Ctx.issued_th_out (clk := s.clk) hl)
    fun l th hth => ⟨_, Ctx.issued_th (clk := s.clk) hth, rfl, ⟨keeps_issued th _, fun _ _ => ⟨rfl, rfl⟩, nofun⟩,
      hflag th, hflag th⟩
  obtain ⟨w, hw, hs⟩ := arith_wave_getS (w := (c.issued s.clk).setS m.d.toNat m.imm) h rfl rfl ht
  exact ⟨t, w, ht, hw, (hs _).trans (rget_rset_same _ _ _), hran⟩

/-- A word without a latch among its destinations leaves every latch as it was while the run goes on (R33). -/
theorem latchesKept_of_ran {s t : State} {c : Ctx} {d : Dest} {val : Nat → Thread → Thread → Prop} (h : Ran s t c d val)
    (hl : d.l = []) {l : Nat} {th : Thread} (hth : c.has l th) : ∃ th', t.lane c.u l = some th' ∧ LatchesKept t c th th' := by
  obtain ⟨_, _, w, hw, _, _, _, hin⟩ := h
  obtain ⟨th', hth', _, _, _, hrun⟩ := hin l th hth
  refine ⟨th', by simp [State.lane, hw, hth'], ?_⟩
  rcases hrun with ⟨hopen, hcarries, _⟩ | ⟨hended, hdead⟩
  · exact .inl ⟨w, hw, hopen, fun k => hcarries k (by simp [hl])⟩
  · exact .inr ⟨w, hw, hended, hdead⟩

/-- Neither long immediate writes a latch (R25). -/
theorem longImmediate_latchesKept {i : Instr} {s : State} {c : Ctx} (hi : (∃ m, i = .vmovi m) ∨ (∃ m, i = .smovi m))
    (h : s.issues i c = true) :
    ∃ t, exec i s = .next t ∧ ∀ l th, c.has l th → ∃ th', t.lane c.u l = some th' ∧ LatchesKept t c th th' := by
  rcases hi with ⟨m, rfl⟩ | ⟨m, rfl⟩
  · obtain ⟨t, ht, hran⟩ := vmovi_completes m s c h trivial
    exact ⟨t, ht, fun _ _ => latchesKept_of_ran hran rfl⟩
  · obtain ⟨t, _, ht, _, _, hran⟩ := smovi_completes m s c h trivial
    exact ⟨t, ht, fun _ _ => latchesKept_of_ran hran rfl⟩

/-- Settles O58: the decoder's two opcodes by their fields, that no other word is one by the encoder, the destinations by what a register
arithmetic word leaves as it was, the latches by there being none among the destinations. -/
theorem longImmediateForm : Obligations.LongImmediateForm :=
  ⟨fun _ => LongImmediate.decode_vmovi, fun _ => LongImmediate.decode_smovi,
    fun w m h => (Laws.Words.vmovi m).2 w (LongImmediate.encode_of_decode h) |>.2 rfl,
    fun w m h => (Laws.Words.smovi m).2 w (LongImmediate.encode_of_decode h) |>.2 rfl,
    vmovi_completes, smovi_completes, fun _ _ _ => longImmediate_latchesKept⟩

end Sys2Proof.Claims
end

section
/-!
The lees registers (R84): the two moves complete, and what `cvtef` does on an abandoned operand, down to the number that the
interrupted group takes (R34), where the claim about it fails.
-/
namespace Sys2Proof.Machine

/-! ### Masks and lanes -/

theorem getLsbD_maskOf (ls : List Nat) {k : Nat} (hk : k < 32) : (maskOf ls).getLsbD k = decide (k ∈ ls) := by
  have h : ∀ m : Word, (ls.foldl (fun m l => m ||| BitVec.ofNat 32 (2 ^ l)) m).getLsbD k = (m.getLsbD k || decide (k ∈ ls)) := by
    induction ls with
    | nil => simp
    | cons l ls ih =>
      intro m
      rw [List.foldl_cons, ih, BitVec.getLsbD_or, BitVec.getLsbD_ofNat, Nat.testBit_two_pow]
      simp [hk, eq_comm, Bool.or_assoc]
  simpa [maskOf] using h 0#32

theorem inMask_maskOf {ls : List Nat} {l : Nat} (h : inMask (maskOf ls) l = true) : l ∈ ls := by
  have hl : l < 32 := Nat.lt_of_not_le fun hge => Bool.false_ne_true ((BitVec.getLsbD_of_ge _ l hge).symm.trans h)
  exact of_decide_eq_true ((getLsbD_maskOf ls hl).symm.trans h)

theorem maskOf_lanesOf (m : Word) : maskOf (lanesOf m) = m := by
  refine BitVec.eq_of_getLsbD_eq fun k hk => ?_
  rw [getLsbD_maskOf _ hk]
  simp [mem_lanesOf, inMask]

theorem inMask_held (mask lanes : Word) (l : Nat) : inMask (mask &&& ~~~lanes) l = (inMask mask l && !inMask lanes l) := by
  by_cases hl : l < 32
  · simp [inMask, hl]
  · simp [inMask, BitVec.getLsbD_of_ge _ l (Nat.le_of_not_lt hl)]

theorem active_mapMask (w : Wave) (mask : Word) (g : Nat → Thread → Thread) :
    (w.mapMask mask g).active mask = (w.active mask).map fun x => (x.1, g x.1 x.2) := by
  simp only [Wave.active, lanesOf, List.map_filterMap, List.filterMap_filter, Wave.th_mapMask]
  refine congrArg (List.filterMap · _) (funext fun l => ?_)
  cases inMask mask l
  · rfl
  · cases w.th l <;> rfl

/-- The lanes of a group whose thread satisfies `p`. -/
def Ctx.lanesWhere (c : Ctx) (p : Thread → Bool) : Word :=
  maskOf (((c.w.active c.mask).filter fun x => p x.2).map fun x => x.1)

theorem inMask_lanesWhere {c : Ctx} {p : Thread → Bool} {l : Nat} (h : inMask (c.lanesWhere p) l = true) :
    inMask c.mask l = true := by
  obtain ⟨x, hx, rfl⟩ := List.mem_map.mp (inMask_maskOf h)
  exact ((Wave.mem_active _ _ _ _).mp (List.mem_filter.mp hx).1).1

/-! ### Threads changed one after another -/

theorem foldl_modTh_besides (g : Nat → Thread → Thread) (ls : List Nat) (w : Wave) :
    (ls.foldl (fun w l => w.modTh l (g l)) w).besides = w.besides := by
  induction ls generalizing w with
  | nil => rfl
  | cons k ls ih => exact ih (w.modTh k (g k))

theorem th_modTh (w : Wave) (k : Nat) (g : Thread → Thread) (l : Nat) :
    (w.modTh k g).th l = if l = k then (w.th l).map g else w.th l := by
  by_cases e : l = k
  · subst e
    simpa [Wave.th, Wave.modTh] using fget_fmod_same w.threads l g
  · simpa [e, Wave.th, Wave.modTh] using fget_fmod_other w.threads g e

theorem th_foldl_modTh (g : Nat → Thread → Thread) {ls : List Nat} (hn : ls.Nodup) (w : Wave) (l : Nat) :
    (ls.foldl (fun w l => w.modTh l (g l)) w).th l = if l ∈ ls then (w.th l).map (g l) else w.th l := by
  induction ls generalizing w with
  | nil => simp
  | cons k ls ih =>
    obtain ⟨hk, hn⟩ := List.nodup_cons.mp hn
    rw [List.foldl_cons, ih hn, th_modTh]
    by_cases e : l = k
    · simp [e, hk]
    · simp [e]

/-! ### Trap entry out of a register arithmetic word (R34, R404) -/

/-- The faulting lanes enter the handler. -/
def Wave.trapLanes (w : Wave) (lanes : Word) (traph : DWord) (code : Nat) (pc : DWord) : Wave :=
  (lanesOf lanes).foldl (fun w l => w.modTh l fun t => t.trap traph ⟨l, code, 0, 0, pc⟩ false true) w

/-- The run is over; the other threads of the group are held at the word, under the group's number. -/
def Wave.interrupt (w : Wave) (mask lanes : Word) (pc : DWord) : Wave :=
  { (w.mapMask (mask &&& ~~~lanes) fun _ t => { t with wait := .group }) with
    run := none, intr := w.intr ++ [⟨pc, mask &&& ~~~lanes, lanes, w.nextIntr⟩] }

theorem trapLanes_besides (w : Wave) (lanes : Word) (traph : DWord) (code : Nat) (pc : DWord) :
    (w.trapLanes lanes traph code pc).besides = w.besides := foldl_modTh_besides _ _ _

theorem th_trapLanes (w : Wave) (lanes : Word) (traph : DWord) (code : Nat) (pc : DWord) (l : Nat) :
    (w.trapLanes lanes traph code pc).th l =
      (w.th l).map fun t => if inMask lanes l then t.trap traph ⟨l, code, 0, 0, pc⟩ false true else t := by
  have hn : (lanesOf lanes).Nodup := List.nodup_range.filter _
  refine (th_foldl_modTh (fun l t => t.trap traph ⟨l, code, 0, 0, pc⟩ false true) hn w l).trans ?_
  cases hl : inMask lanes l <;> simp [mem_lanesOf, hl]

theorem th_interrupt (w : Wave) (mask lanes : Word) (pc : DWord) (l : Nat) :
    (w.interrupt mask lanes pc).th l =
      (w.th l).map fun t => if inMask mask l && !inMask lanes l then { t with wait := .group } else t := by
  simp only [← inMask_held]
  exact Wave.th_mapMask w (mask &&& ~~~lanes) (fun _ t => { t with wait := .group }) l

/-- Where the launch has a handler, faulting lanes of a register arithmetic word enter it and their group is interrupted. -/
theorem wordFault_of_traps {s : State} {i : Instr} {c : Ctx} (h : s.issues i c = true) (ht : s.traps c) {code : Nat}
    {lanes : Word} (h0 : lanes ≠ 0) (hsub : ∀ l, inMask lanes l = true → inMask c.mask l = true) :
    s.wordFault c true code lanes false =
      (s.modWave c.u fun w => w.trapLanes lanes (s.trapHandler c.w) code c.pc).modWave c.u fun w =>
        w.interrupt c.mask lanes c.pc := by
  obtain ⟨hsect, htraph, htm, hwd, hbd⟩ := ht
  let fault : Nat → LaneFault := fun l => ⟨l, code, 0, 0, c.pc⟩
  have hlanes : maskOf (((lanesOf lanes).map fault).map (·.lane)) = lanes := by
    rw [List.map_map]
    exact (congrArg maskOf (List.map_id _)).trans (maskOf_lanesOf lanes)
  have hcalm : ((c.w.trapLanes lanes (s.trapHandler c.w) code c.pc).interrupt c.mask lanes c.pc).unwind = none :=
    (congrArg Wave.unwind (trapLanes_besides c.w lanes (s.trapHandler c.w) code c.pc)).trans (issues_calm h)
  show s.takeFaults c.u ((lanesOf lanes).map fault) (some c.mask) false = _
  unfold State.takeFaults
  split
  next hw => simp [issues_wave h] at hw
  next hfs _ =>
    rw [hfs] at hlanes
    exact absurd hlanes.symm h0
  next w f0 fs hw hfs =>
    obtain rfl : c.w = w := Option.some.inj ((issues_wave h).symm.trans hw)
    have hmem : ∀ f ∈ (lanesOf lanes).map fault, ∃ l, inMask lanes l = true ∧ fault l = f := fun f hf => by
      simpa [mem_lanesOf] using hf
    rw [if_neg (by simp [hsect])]
    extract_lets wd bd traph twice trapped s1
    have hwave : wd = false := by
      rw [← hwd]
      cases hr : c.w.reg <;> simp [wd, hr]
    have hblock : bd = false := by
      rw [← hbd]
      cases hr : s.blockRegion c.w <;> simp [bd, hr]
    have htwice : twice = none := by
      refine List.find?_eq_none.mpr fun f hf => ?_
      obtain ⟨l, hl, rfl⟩ := hmem f hf
      cases hth : c.w.th l with
      | none => simp
      | some t => simp [htm l t ⟨hsub l hl, hth⟩]
    have htrap : s1 = s.modWave c.u fun w => w.trapLanes lanes (s.trapHandler c.w) code c.pc := by
      simp only [s1, List.foldl_map]
      rfl
    obtain ⟨l, _, hf0⟩ := hmem f0 (by simp [hfs])
    rw [hwave, hblock, htwice, if_neg (show traph ≠ 0 from htraph), htrap, show trapped = lanes from hlanes, ← hf0]
    refine boundary_of_calm ?_ hcalm
    exact State.wave_modWave_some _ (State.wave_modWave_some _ (issues_wave h))

/-- A register arithmetic word whose effect fails in some threads faults in those. -/
theorem arith_abandoned {s : State} {i : Instr} {c : Ctx} {e : Bool} {g : Nat → Thread → Option Thread} {p : Thread → Bool}
    (h : s.issues i c = true) (hg : ∀ l t, (g l { t with yd := false, resume := 0 }).isNone = p t) (h0 : c.lanesWhere p ≠ 0) :
    arith i e s (laneEff g) = .next (s.wordFault c true cABANDONED (c.lanesWhere p) false) := by
  have hissued : (c.issued s.clk).active c.mask = (c.w.active c.mask).map fun x => (x.1, { x.2 with yd := false, resume := 0 }) :=
    active_mapMask c.w c.mask fun _ t => { t with yd := false, resume := 0 }
  have hfail : ((c.issued s.clk).active c.mask).filterMap (fun (l, t) => if (g l t).isNone then some l else none) =
      ((c.w.active c.mask).filter fun x => p x.2).map fun x => x.1 := by
    rw [hissued, List.filterMap_map, ← List.filterMap_eq_filter, List.map_filterMap]
    refine congrArg (List.filterMap · _) (funext fun x => ?_)
    show (if (g x.1 { x.2 with yd := false, resume := 0 }).isNone then some x.1 else none) = _
    rw [hg]
    cases hp : p x.2 <;> simp [hp, Option.guard]
  have hbad : maskOf (((c.issued s.clk).active c.mask).filterMap fun (l, t) => if (g l t).isNone then some l else none) =
      c.lanesWhere p := congrArg maskOf hfail
  simp only [arith, issue_of_issues h, laneEff, hbad, h0, if_false, Option.getD_some]

/-! ### The number of the interrupted group -/

theorem map_fmod {α β : Type} (m : FMap α) (k : Nat) {g : α → α} {r : α → β}
    (h : ∀ v, fget m k = some v → r (g v) = r v) :
    ((fmod m k g).map fun x => r x.2) = m.map fun x => r x.2 := by
  induction m with
  | nil => rfl
  | cons x t ih =>
    by_cases hx : x.1 = k
    · simp [fmod, hx, h x.2 (by simp [fget, hx])]
    · simpa [fmod, hx] using ih fun v hv => h v (by simpa [fget, hx] using hv)

theorem resume_foldl_trap {traph : DWord} {code : Nat} {pc : DWord} (ls : List Nat) (w : Wave)
    (h : ∀ l ∈ ls, ∀ t, w.th l = some t → t.resume = 0) :
    ((ls.foldl (fun w l => w.modTh l fun t => t.trap traph ⟨l, code, 0, 0, pc⟩ false true) w).threads.map fun x => x.2.resume) =
      w.threads.map fun x => x.2.resume := by
  induction ls generalizing w with
  | nil => rfl
  | cons k ls ih =>
    refine (ih _ fun l hl t ht => ?_).trans (map_fmod w.threads k fun t ht => (h k List.mem_cons_self t ht).symm)
    rw [th_modTh] at ht
    split at ht
    · obtain ⟨_, _, rfl⟩ := Option.map_eq_some_iff.mp ht
      rfl
    · exact h l (List.mem_cons_of_mem k hl) t ht

/-- Trap entry of lanes that continue no interrupted group leaves the next number as it was. -/
theorem nextIntr_trapLanes {w : Wave} {lanes : Word} {traph : DWord} {code : Nat} {pc : DWord}
    (h : ∀ l t, inMask lanes l = true → w.th l = some t → t.resume = 0) :
    (w.trapLanes lanes traph code pc).nextIntr = w.nextIntr := by
  have hintr : (w.trapLanes lanes traph code pc).besides.intr = w.besides.intr := by rw [trapLanes_besides]
  change (w.trapLanes lanes traph code pc).intr = w.intr at hintr
  have hresume : ((w.trapLanes lanes traph code pc).threads.map fun x => x.2.resume) = w.threads.map fun x => x.2.resume :=
    resume_foldl_trap _ w fun l hl t => h l t ((mem_lanesOf _ _).mp hl)
  unfold Wave.nextIntr
  rw [hintr]
  exact congrArg (fun rs => (w.intr.map fun i => i.id).foldl max (rs.foldl max 0) + 1) hresume

/-! ### A lees register -/

theorem keeps_setE {a b : Thread} {d : Dest} {k : Nat} {x : Word} (h : a.keeps b d) (hk : k ∈ d.e) :
    a.keeps { b with e := rset b.e k x } d := by
  obtain ⟨hrest, hv, hp, he, hflags⟩ := h
  refine ⟨hrest, hv, hp, fun j hj => ?_, hflags⟩
  have hne : j ≠ k := fun e => hj (e ▸ hk)
  exact (rget_rset_other _ _ hne).trans (he j hj)

end Sys2Proof.Machine

namespace Sys2Proof.Claims
open Sys2Proof.Machine

/-! ### The moves -/

theorem leesrd_completes (f : FOps) : Completes (.leesrd f) (Dest.vec f false) anyOps fun _ _ th th' =>
    gives f (rget th.e (cvLow f)) th' := by
  intro s c h _
  refine arith_lanes h fun l th _ => ?_
  exact ⟨result_pc _ _ _, ⟨keeps_result (keeps_issued th _), carries_result f _ _ fun _ => ⟨rfl, rfl⟩⟩, gives_result _ _ _⟩

theorem leeswr_completes (f : FOps) : Completes (.leeswr f) { Dest.none with e := [cvLow f] } anyOps fun _ _ th th' =>
    rget th'.e (cvLow f) = th.src f.a := by
  intro s c h _
  refine arith_lanes h fun l th _ => ?_
  have hv : rget (rset th.e (cvLow f) (th.src f.a)) (cvLow f) = th.src f.a := rget_rset_same _ _ _
  exact ⟨rfl, ⟨keeps_setE (keeps_issued th _) (List.mem_singleton.mpr rfl), fun _ _ => ⟨rfl, rfl⟩, nofun⟩, hv, hv⟩

/-- The first half of the claim holds: whatever the pattern, both moves copy it and change nothing else (R84). -/
theorem leesRows_complete (f : FOps) : ∀ r ∈ leesRows f, r.completes := by
  simp only [leesRows, List.forall_mem_cons]
  exact ⟨leesrd_completes f, leeswr_completes f, fun _ h => absurd h List.not_mem_nil⟩

/-! ### The trap -/

/-- Lanes that fault at a register arithmetic word are `Caught` exactly when trap entry leaves the number that the wave gives its next
interrupted group: the model gives the number after trap entry, which clears `resume`, the claim before it. -/
theorem caught_wordFault_iff {s : State} {i : Instr} {c : Ctx} (h : s.issues i c = true) (ht : s.traps c) {code : Nat}
    {lanes : Word} (h0 : lanes ≠ 0) (hsub : ∀ l, inMask lanes l = true → inMask c.mask l = true) :
    Caught s (s.wordFault c true code lanes false) c true code lanes ↔
      (c.w.trapLanes lanes (s.trapHandler c.w) code c.pc).nextIntr = c.w.nextIntr := by
  rw [wordFault_of_traps h ht h0 hsub]
  have hb := trapLanes_besides c.w lanes (s.trapHandler c.w) code c.pc
  generalize hw : c.w.trapLanes lanes (s.trapHandler c.w) code c.pc = w at hb
  have hintr : w.besides.intr = c.w.besides.intr := by rw [hb]
  change w.intr = c.w.intr at hintr
  have hwave : ((s.modWave c.u fun w => w.trapLanes lanes (s.trapHandler c.w) code c.pc).modWave c.u fun w =>
      w.interrupt c.mask lanes c.pc).wave c.u = some (w.interrupt c.mask lanes c.pc) := by
    rw [State.wave_modWave_some _ (State.wave_modWave_some _ (issues_wave h)), hw]
  constructor
  · rintro ⟨_, _, v, hv, hvb, _⟩
    obtain rfl := Option.some.inj (hwave.symm.trans hv)
    have hi : w.intr ++ [(⟨c.pc, c.mask &&& ~~~lanes, lanes, w.nextIntr⟩ : Interrupted)] =
        c.w.intr ++ [⟨c.pc, c.mask &&& ~~~lanes, lanes, c.w.nextIntr⟩] := congrArg Wave.intr hvb
    simpa [hintr] using hi
  · intro hn
    refine ⟨rfl, fun v hv => ?_, _, hwave, ?_, fun l hl => ?_, fun l th hth => ?_⟩
    · rw [State.wave_modWave_other _ _ hv, State.wave_modWave_other _ _ hv]
    · show ({ w.besides with run := none, intr := w.intr ++ [⟨c.pc, c.mask &&& ~~~lanes, lanes, w.nextIntr⟩] } : Wave) = _
      rw [hb, hintr, hn]
      rfl
    · have hout : inMask lanes l = false := Bool.eq_false_iff.mpr fun e => Bool.false_ne_true (hl.symm.trans (hsub l e))
      rw [th_interrupt, ← hw, th_trapLanes]
      cases c.w.th l <;> simp [hout, hl]
    · obtain ⟨hm, hth⟩ := hth
      rw [th_interrupt, ← hw, th_trapLanes, hth]
      cases hl : inMask lanes l
      · simp [hm]
      · simp [hm]
        rfl

/-- A source or lees register of `cvtef` that holds the abandoned pattern. -/
def cvtefAbandoned (f : FOps) (t : Thread) : Bool := [t.src f.a, rget t.e (cvLow f)].any isAbandoned

/-- `cvtef` on an abandoned operand traps as claimed exactly when the group takes the number claimed. -/
theorem cvtef_caught_iff {f : FOps} {s : State} {c : Ctx} (h : s.issues (.cvtef f) c = true) (ht : s.traps c)
    (h0 : c.lanesWhere (cvtefAbandoned f) ≠ 0) :
    (∃ t, exec (.cvtef f) s = .next t ∧ Caught s t c true 0x20 (c.lanesWhere (cvtefAbandoned f))) ↔
      (c.w.trapLanes (c.lanesWhere (cvtefAbandoned f)) (s.trapHandler c.w) 0x20 c.pc).nextIntr = c.w.nextIntr := by
  have hexec : exec (.cvtef f) s = .next (s.wordFault c true 0x20 (c.lanesWhere (cvtefAbandoned f)) false) := by
    refine arith_abandoned h (fun l t => ?_) h0
    have hp : cvtefAbandoned f t = (isAbandoned (t.src f.a) || isAbandoned (rget t.e (cvLow f))) := by simp [cvtefAbandoned]
    rw [hp]
    show Option.isNone (if isAbandoned (t.src f.a) || isAbandoned (rget t.e (cvLow f)) then none else some _) = _
    cases isAbandoned (t.src f.a) || isAbandoned (rget t.e (cvLow f)) <;> rfl
  rw [← caught_wordFault_iff h ht h0 fun _ => inMask_lanesWhere, hexec]
  constructor
  · rintro ⟨t, ht, hc⟩
    cases ht
    exact hc
  · exact fun hc => ⟨_, rfl, hc⟩

/-- The second half of the claim holds of a group none of whose threads continues an interrupted group. -/
theorem cvtef_caught_of_resume_zero {f : FOps} {s : State} {c : Ctx} (h : s.issues (.cvtef f) c = true) (ht : s.traps c)
    (h0 : c.lanesWhere (cvtefAbandoned f) ≠ 0) (hr : ∀ l th, c.has l th → th.resume = 0) :
    ∃ t, exec (.cvtef f) s = .next t ∧ Caught s t c true 0x20 (c.lanesWhere (cvtefAbandoned f)) :=
  (cvtef_caught_iff h ht h0).mpr (nextIntr_trapLanes fun l t hl hth => hr l t ⟨inMask_lanesWhere hl, hth⟩)

/-! ### A thread that comes back to its `cvtef` and faults again -/

/-- A wave of one thread that `tret` has brought back to its word: it continues group 1, and v2 is still abandoned. -/
def backAtCvtef : Wave := { loadWave with
  threads := [(0, { Thread.init 0x100000 0 with v := [(2, 0x7F8D0001)], resume := 1 })], run := some 1 }

/-- A loaded package, whose launch has a handler, with this wave. -/
def faultsAgain : State := { State.reset.loaded 0 with waves := [(1, backAtCvtef)] }

/-- `cvtef` from v2 to v6 with a lees register, as chapter 3 encodes it. -/
def cvtefV2 : FOps := ⟨false, 6, false, 0, .reg 2, .regs (.reg 0) (.reg 0x81), ⟨0, false⟩, 0x60⟩

theorem faultsAgain_traps : faultsAgain.traps ⟨1, backAtCvtef, 1⟩ := by
  refine ⟨rfl, by decide, fun l th hth => ?_, rfl, by decide⟩
  have hall : ∀ x ∈ backAtCvtef.active 1, x.2.tm = false := by decide
  exact hall (l, th) ((Wave.mem_active _ _ _ _).mpr hth)

/-- Refutes O8: the moves hold (`leesRows_complete`), and so does the trap where no faulting thread continues an interrupted group
(`cvtef_caught_of_resume_zero`). A thread that `tret` has brought back to its `cvtef` with the operand still abandoned carries
`resume = 1`. Trap entry clears it before the model numbers the interrupted group, which becomes 1 again; `Caught` claims
`c.w.nextIntr`, which is 2. -/
theorem not_leesRegistersMove : ¬ Obligations.LeesRegistersMove := by
  intro h
  obtain ⟨_, htraps⟩ := h cvtefV2
  have hissues : faultsAgain.issues (.cvtef cvtefV2) ⟨1, backAtCvtef, 1⟩ = true := by decide
  have hbad : Ctx.lanesWhere ⟨1, backAtCvtef, 1⟩ (cvtefAbandoned cvtefV2) ≠ 0 := by decide
  have hnumber := (cvtef_caught_iff hissues faultsAgain_traps hbad).mp (htraps _ _ hissues faultsAgain_traps hbad)
  exact absurd hnumber (by decide)

end Sys2Proof.Claims
end

section
/-!
The host's window before STATUS reaches phase 6 (R431): what its registers return, that writes to them and the actions of
the launch and break registers leave the state as it was, and that each access to the aperture is an unsupported request.
-/
namespace Sys2Proof.Machine

/-- An event whose condition holds takes place. -/
theorem event_of_true {s t : State} {ok : Bool} (h : ok = true) : event s ok t = .next t := by
  rw [event, if_pos h]

/-! ### The register window -/

@[simp] theorem bar0_ident (s : State) (port : Nat) : s.bar0 port 0x00 = s.ident.toNat := rfl

@[simp] theorem bar0_config (s : State) (port : Nat) : s.bar0 port 0x04 = s.config.toNat := rfl

@[simp] theorem bar0_status (s : State) (port : Nat) : s.bar0 port 0x08 = s.status := rfl

/-- The three registers that answer in every phase come before the test of the phase; every other offset meets it. -/
theorem bar0_of_phase_ne {s : State} (hs : s.phase ≠ 6) (port : Nat) {off : Nat} (hident : off ≠ 0x00) (hconfig : off ≠ 0x04)
    (hstatus : off ≠ 0x08) : s.bar0 port off = 0 :=
  (if_neg hident).trans <| (if_neg hconfig).trans <| (if_neg hstatus).trans <| if_pos hs

theorem writeBar0_of_phase_ne {s : State} (hs : s.phase ≠ 6) (port off : Nat) (v : DWord) : s.writeBar0 port off v = s :=
  if_pos hs

theorem setting_bar0_of_phase_ne {s : State} (hs : s.phase ≠ 6) {port : Nat} (hport : port < 2) (off : Nat) (v : DWord) :
    s.setting (.bar0 port off) v = some s := by
  show (if decide (port < 2) then some (s.writeBar0 port off v) else none) = some s
  rw [if_pos (decide_eq_true hport), writeBar0_of_phase_ne hs]

theorem exec_registerWrite_bar0_of_phase_ne {s : State} (hs : s.phase ≠ 6) {port : Nat} (hport : port < 2) (off : Nat)
    (v : DWord) : exec (.registerWrite (.bar0 port off) v) s = .next s := by
  show happens s (s.setting (.bar0 port off) v) = _
  rw [setting_bar0_of_phase_ne hs hport]
  rfl

/-! ### The registers with rows of their own -/

theorem exec_lsresRead_of_phase_ne {s : State} (hs : s.phase ≠ 6) {port slot : Nat} (hport : port < 2) (hslot : slot < 64) :
    exec (.lsresRead port slot) s = .next { s with hostOut := .data [0, 0, 0, 0] } := by
  refine (event_of_true (by simp [hport, hslot])).trans ?_
  rw [if_pos hs]
  rfl

theorem exec_launchSlotGo_of_phase_ne {s : State} (hs : s.phase ≠ 6) {port slot : Nat} (hport : port < 2) (hslot : slot < 64)
    (prio : BitVec 3) : exec (.launchSlotGo port slot prio) s = .next s := by
  refine (event_of_true (by simp [hport, hslot])).trans ?_
  rw [if_pos hs]

theorem exec_brkrel_of_phase_ne {s : State} (hs : s.phase ≠ 6) {port : Nat} (hport : port < 2) :
    exec (.brkrel port) s = .next s := by
  refine (event_of_true (decide_eq_true hport)).trans ?_
  rw [if_neg hs]

/-! ### The aperture -/

/-- No byte of the aperture is mapped before phase 6, so that every access takes the branch of the unsupported request. -/
theorem hostMap_of_phase_ne {s : State} (hs : s.phase ≠ 6) (port off n : Nat) : s.hostMap port off n = none :=
  if_pos (Or.inl hs)

theorem exec_hostApertureRead_of_phase_ne {s : State} (hs : s.phase ≠ 6) {port : Nat} (hport : port < 2) (off n : Nat) :
    exec (.hostApertureRead port off n) s = .next { s with hostOut := .unsupported } := by
  refine (event_of_true (decide_eq_true hport)).trans ?_
  rw [hostMap_of_phase_ne hs]

theorem exec_hostApertureWrite_of_phase_ne {s : State} (hs : s.phase ≠ 6) {port : Nat} (hport : port < 2) (off : Nat)
    (bytes : List Byte) : exec (.hostApertureWrite port off bytes) s = .next { s with hostOut := .unsupported } := by
  refine (event_of_true (decide_eq_true hport)).trans ?_
  rw [hostMap_of_phase_ne hs]

end Sys2Proof.Machine

namespace Sys2Proof.Claims
open Sys2Proof.Machine

/-- Settles O52, from what each read, write, action and access of the window does in a phase other than 6. -/
theorem windowClosedBeforeReady : Obligations.WindowClosedBeforeReady := by
  intro s port off n slot prio v bs hport hslot hs
  have hstatus : s.bar0 port 0x08 = (if s.fail then 2 ^ 31 else 0) + 256 * s.fcode.toNat + s.phase.toNat := by
    rw [bar0_status, State.status, Nat.mul_comm]
  exact ⟨bar0_ident s port, bar0_config s port, hstatus, bar0_of_phase_ne hs port, exec_lsresRead_of_phase_ne hs hport hslot,
    exec_registerWrite_bar0_of_phase_ne hs hport off v, exec_launchSlotGo_of_phase_ne hs hport hslot prio,
    exec_brkrel_of_phase_ne hs hport, exec_hostApertureRead_of_phase_ne hs hport off n,
    exec_hostApertureWrite_of_phase_ne hs hport off bs⟩

end Sys2Proof.Claims
end
